-- ==== Sys2Proof/Word.lean ====
section
/-! DEFINITION. The word types of the MRL-7140 (spec/04 R56-R57, spec/07 R106). -/

namespace Sys2Proof

/-- One byte of memory, scratchpad or register space. -/
abbrev Byte := BitVec 8

/-- A scalar register's, an address's or a system register's 64 bits (R100, R106). -/
abbrev Word := BitVec 64

/-- A 96-bit Jeniz instruction word (R56). -/
abbrev IWord := BitVec 96

/-- A sparse byte store: (address, byte) pairs, addresses strictly rising, no byte zero.
The same shape as Host.Cell lists. -/
abbrev Bytes := List (Nat × BitVec 8)

/-- A sparse table keyed by a number, keys strictly rising. -/
abbrev Table (α : Type) := List (Nat × α)

end Sys2Proof
end

