-- ==== Sys2Proof/Machine/Store.lean ====
section
/-! DEFINITION. Sparse stores in canonical form: byte stores (memory, scratchpads, register allocations) and tables. -/

namespace Sys2Proof.Machine

/-- The entry under key k. -/
def kget {α : Type} : Table α → Nat → Option α
  | [], _ => none
  | (j, v) :: t, k => if j = k then some v else kget t k

/-- Sets the entry under key k, keeping keys rising. -/
def kset {α : Type} : Table α → Nat → α → Table α
  | [], k, v => [(k, v)]
  | (j, w) :: t, k, v => if k < j then (k, v) :: (j, w) :: t else if j = k then (k, v) :: t else (j, w) :: kset t k v

/-- Removes every entry under key k. -/
def kdel {α : Type} : Table α → Nat → Table α
  | [], _ => []
  | (j, v) :: t, k => if j = k then kdel t k else (j, v) :: kdel t k

/-- A byte of a store; an unlisted byte reads 0 (log entry 2 for memory; R107, R205 for allocations and windows). -/
def bget (m : Bytes) (a : Nat) : Byte := (kget m a).getD 0

/-- Writes a byte; a zero byte is not listed. -/
def bset (m : Bytes) (a : Nat) (v : Byte) : Bytes := if v = 0 then kdel m a else kset m a v

/-- Puts a value before the first one that it may stand before. -/
def sortIn {α : Type} (le : α → α → Bool) (x : α) : List α → List α
  | [] => [x]
  | y :: l => if le x y then x :: y :: l else y :: sortIn le x l

/-- A list in order; values that may stand either way keep their order. -/
def sortBy {α : Type} (le : α → α → Bool) : List α → List α
  | [] => []
  | x :: l => sortIn le x (sortBy le l)

/-- Keys strictly rising and all above a bound. -/
def risesFrom {α : Type} : Nat → Table α → Bool
  | _, [] => true
  | lo, (k, _) :: t => decide (lo ≤ k) && risesFrom (k + 1) t

/-- The canonical form of a byte store: addresses strictly rising, no zero byte listed. -/
def Memory.wf (m : Bytes) : Bool := risesFrom 0 m && m.all fun c => decide (c.2 ≠ 0)

/-- The n bytes from address a upward. -/
def bytesAt (m : Bytes) (a : Nat) : Nat → List Byte
  | 0 => []
  | n + 1 => bget m a :: bytesAt m (a + 1) n

/-- Little-endian value of a byte list. -/
def leVal : List Byte → Nat
  | [] => 0
  | b :: t => b.toNat + 256 * leVal t

/-- The n low bytes of v, least significant first. -/
def leBytes : Nat → Nat → List Byte
  | _, 0 => []
  | v, n + 1 => BitVec.ofNat 8 v :: leBytes (v / 256) n

/-- Writes bytes from address a upward. -/
def bsetMany (m : Bytes) (a : Nat) : List Byte → Bytes
  | [] => m
  | b :: t => bsetMany (bset m a b) (a + 1) t

/-- The little-endian n-byte number at a. -/
def rdLE (m : Bytes) (a n : Nat) : Nat := leVal (bytesAt m a n)

/-- Writes v as n little-endian bytes at a. -/
def wrLE (m : Bytes) (a n v : Nat) : Bytes := bsetMany m a (leBytes v n)

/-- Bits [lo + w - 1 : lo] of a bit stream held in bytes from offset a (R129). -/
def rdBits (m : Bytes) (a lo w : Nat) : Nat :=
  rdLE m (a + lo / 8) ((lo % 8 + w + 7) / 8) / 2 ^ (lo % 8) % 2 ^ w

/-- Writes w bits of a bit stream, leaving its neighbours (R129, R148). -/
def wrBits (m : Bytes) (a lo w v : Nat) : Bytes :=
  let k := (lo % 8 + w + 7) / 8
  let old := rdLE m (a + lo / 8) k
  let cleared := old - (old / 2 ^ (lo % 8) % 2 ^ w) * 2 ^ (lo % 8)
  wrLE m (a + lo / 8) k (cleared + v % 2 ^ w * 2 ^ (lo % 8))

/-- Bits [hi:lo] of a number. -/
def bits (v : Nat) (hi lo : Nat) : Nat := v / 2 ^ lo % 2 ^ (hi + 1 - lo)

/-- Bit i of a number. -/
def bit (v i : Nat) : Bool := v / 2 ^ i % 2 = 1

/-- A number read as two's complement of w bits. -/
def sgn (v w : Nat) : Int := if v % 2 ^ w < 2 ^ (w - 1) then (v % 2 ^ w : Nat) else (v % 2 ^ w : Nat) - (2 ^ w : Nat)

/-- Low w bits of an integer. -/
def wrap (x : Int) (w : Nat) : Nat := (x % (2 ^ w : Nat)).toNat

/-- Replaces bits [hi:lo] of a number that fits in w bits. -/
def putBits (v hi lo x : Nat) : Nat :=
  v - bits v hi lo * 2 ^ lo + x % 2 ^ (hi + 1 - lo) * 2 ^ lo

end Sys2Proof.Machine
end

