-- ==== Sys2Proof/Syntax.lean ====
section
/-! DEFINITION. The operations of the MRL-7140: one constructor for each row of spec/opcode_table.json.
A Jeniz instruction carries the fields of its 96-bit word (spec/04 R56, R60); an event carries what distinguishes
one occurrence of it from another (which die, which queue, which record, the bytes an outside agent supplies). -/

namespace Sys2Proof

/-- The kind of register a relative operand names (R60, R61). -/
inductive RKind where
  | scalar | view | tile
  deriving DecidableEq, Repr, Inhabited

/-- An operand of a Jeniz instruction (R60, R61). none: the form leaves the field unused (0x000). -/
inductive Opnd where
  | none
  | sreg (n : BitVec 6)
  | view (n : BitVec 9)
  | tile (n : BitVec 9)
  | rel (k : RKind) (x : BitVec 2) (ofs : BitVec 7)
  | cond (n : BitVec 3)
  | mask (n : BitVec 3)
  | index (n : BitVec 2)
  | vb | tb | tsh | immv | acc | zero
  deriving DecidableEq, Repr, Inhabited

/-- The fields of a decoded Jeniz instruction (R56): guard, operands, modifier bits and immediate bits.
A third source C stands in imm[11:0] (R60) and is read through Fields.c. -/
structure Fields where
  gn : Bool
  grd : BitVec 3
  d : Opnd
  a : Opnd
  b : Opnd
  mod : BitVec 10
  imm : BitVec 32
  deriving DecidableEq, Repr, Inhabited

/-- Every operation and event of the machine (spec/opcode_table.json, R74, spec/95). -/
inductive Instr where
  /-- NOP, R76. -/
  | nop (f : Fields)
  /-- YIELD, R126. -/
  | yield (f : Fields)
  /-- SADD, R113. -/
  | sadd (f : Fields)
  /-- SSUB, R113. -/
  | ssub (f : Fields)
  /-- SMUL, R113. -/
  | smul (f : Fields)
  /-- SMULH, R113. -/
  | smulh (f : Fields)
  /-- SDIV, R113. -/
  | sdiv (f : Fields)
  /-- SREM, R113. -/
  | srem (f : Fields)
  /-- SAND, R113. -/
  | sand (f : Fields)
  /-- SOR, R113. -/
  | sor (f : Fields)
  /-- SXOR, R113. -/
  | sxor (f : Fields)
  /-- SSHL, R113. -/
  | sshl (f : Fields)
  /-- SSHR, R113. -/
  | sshr (f : Fields)
  /-- SSRA, R113. -/
  | ssra (f : Fields)
  /-- SMIN, R113. -/
  | smin (f : Fields)
  /-- SMAX, R113. -/
  | smax (f : Fields)
  /-- SPOPC, R113. -/
  | spopc (f : Fields)
  /-- SCLZ, R113. -/
  | sclz (f : Fields)
  /-- SMOV, R114. -/
  | smov (f : Fields)
  /-- SLI, R115. -/
  | sli (f : Fields)
  /-- SLIH, R115. -/
  | slih (f : Fields)
  /-- SCMP, R116. -/
  | scmp (f : Fields)
  /-- SSEL, R117. -/
  | ssel (f : Fields)
  /-- BRA, R119. -/
  | bra (f : Fields)
  /-- BRC, R119. -/
  | brc (f : Fields)
  /-- CALL, R119. -/
  | call (f : Fields)
  /-- CALL_INDIRECT, R119. -/
  | callIndirect (f : Fields)
  /-- RET, R119. -/
  | ret (f : Fields)
  /-- LOOP, R119. -/
  | loop (f : Fields)
  /-- JIDX, R119. -/
  | jidx (f : Fields)
  /-- ID, R120. -/
  | id (f : Fields)
  /-- VIEW, R121. -/
  | view (f : Fields)
  /-- XSET, R122. -/
  | xset (f : Fields)
  /-- XADD, R122. -/
  | xadd (f : Fields)
  /-- MANY, R123. -/
  | many (f : Fields)
  /-- MALL, R123. -/
  | mall (f : Fields)
  /-- MLOG, R124. -/
  | mlog (f : Fields)
  /-- MFROM, R125. -/
  | mfrom (f : Fields)
  /-- VADD, R152. -/
  | vadd (f : Fields)
  /-- VSUB, R152. -/
  | vsub (f : Fields)
  /-- VMUL, R152. -/
  | vmul (f : Fields)
  /-- VMULH, R152. -/
  | vmulh (f : Fields)
  /-- VFMA, R152. -/
  | vfma (f : Fields)
  /-- VFMS, R152. -/
  | vfms (f : Fields)
  /-- VMIN, R152. -/
  | vmin (f : Fields)
  /-- VMAX, R152. -/
  | vmax (f : Fields)
  /-- VABS, R152. -/
  | vabs (f : Fields)
  /-- VNEG, R152. -/
  | vneg (f : Fields)
  /-- VDIV, R152. -/
  | vdiv (f : Fields)
  /-- VRCP, R154. -/
  | vrcp (f : Fields)
  /-- VRSQ, R154. -/
  | vrsq (f : Fields)
  /-- VSQRT, R154. -/
  | vsqrt (f : Fields)
  /-- VEXP2, R154. -/
  | vexp2 (f : Fields)
  /-- VLOG2, R154. -/
  | vlog2 (f : Fields)
  /-- VSINP, R154. -/
  | vsinp (f : Fields)
  /-- VCOSP, R154. -/
  | vcosp (f : Fields)
  /-- VAND, R156. -/
  | vand (f : Fields)
  /-- VOR, R156. -/
  | vor (f : Fields)
  /-- VXOR, R156. -/
  | vxor (f : Fields)
  /-- VNOT, R156. -/
  | vnot (f : Fields)
  /-- VSHL, R156. -/
  | vshl (f : Fields)
  /-- VSHR, R156. -/
  | vshr (f : Fields)
  /-- VSRA, R156. -/
  | vsra (f : Fields)
  /-- VPOPC, R156. -/
  | vpopc (f : Fields)
  /-- VCLZ, R156. -/
  | vclz (f : Fields)
  /-- VCMP, R157. -/
  | vcmp (f : Fields)
  /-- VSEL, R158. -/
  | vsel (f : Fields)
  /-- VCVT, R159. -/
  | vcvt (f : Fields)
  /-- VPACK, R162. -/
  | vpack (f : Fields)
  /-- VUNPK, R163. -/
  | vunpk (f : Fields)
  /-- VSCALE, R164. -/
  | vscale (f : Fields)
  /-- VQUANT, R165. -/
  | vquant (f : Fields)
  /-- VMOV, R167. -/
  | vmov (f : Fields)
  /-- VBC, R167. -/
  | vbc (f : Fields)
  /-- VEXT, R167. -/
  | vext (f : Fields)
  /-- VINS, R167. -/
  | vins (f : Fields)
  /-- VSHUF, R167. -/
  | vshuf (f : Fields)
  /-- VIDX, R168. -/
  | vidx (f : Fields)
  /-- VRED, R170. -/
  | vred (f : Fields)
  /-- VSCAN, R171. -/
  | vscan (f : Fields)
  /-- LD, R202. -/
  | ld (f : Fields)
  /-- LD_FORMAT, R204. -/
  | ldFormat (f : Fields)
  /-- ST, R202. -/
  | st (f : Fields)
  /-- SLD, R202. -/
  | sld (f : Fields)
  /-- SST, R202. -/
  | sst (f : Fields)
  /-- LDG, R202. -/
  | ldg (f : Fields)
  /-- STG, R202. -/
  | stg (f : Fields)
  /-- LDS, R206. -/
  | lds (f : Fields)
  /-- STS, R206. -/
  | sts (f : Fields)
  /-- LDSB, R206. -/
  | ldsb (f : Fields)
  /-- ATOM, R209. -/
  | atom (f : Fields)
  /-- ATOMSC, R210. -/
  | atomsc (f : Fields)
  /-- CAS, R209. -/
  | cas (f : Fields)
  /-- LEASE, R212. -/
  | lease (f : Fields)
  /-- UNLEASE, R213. -/
  | unlease (f : Fields)
  /-- QLOCK, R215. -/
  | qlock (f : Fields)
  /-- QUNLOCK, R215. -/
  | qunlock (f : Fields)
  /-- ACQ, R216. -/
  | acq (f : Fields)
  /-- REL, R216. -/
  | rel (f : Fields)
  /-- FENCE, R216. -/
  | fence (f : Fields)
  /-- ACPY, R218. -/
  | acpy (f : Fields)
  /-- ACPYB, R218. -/
  | acpyb (f : Fields)
  /-- PREF, R226. -/
  | pref (f : Fields)
  /-- RETAIN, R226. -/
  | retain (f : Fields)
  /-- CACHE_CLEAN, R226. -/
  | cacheClean (f : Fields)
  /-- CACHE_EVICT, R226. -/
  | cacheEvict (f : Fields)
  /-- CACHE_DEMOTE, R226. -/
  | cacheDemote (f : Fields)
  /-- CACHE_IINV, R226. -/
  | cacheIinv (f : Fields)
  /-- EVWAIT, R224. -/
  | evwait (f : Fields)
  /-- EVPOLL, R224. -/
  | evpoll (f : Fields)
  /-- QSEND, R267. -/
  | qsend (f : Fields)
  /-- QRECV, R268. -/
  | qrecv (f : Fields)
  /-- QTRYS, R267. -/
  | qtrys (f : Fields)
  /-- QTRYR, R268. -/
  | qtryr (f : Fields)
  /-- QALLOW_INIT, R266. -/
  | qallowInit (f : Fields)
  /-- QALLOW, R266. -/
  | qallow (f : Fields)
  /-- QDEPTH, R269. -/
  | qdepth (f : Fields)
  /-- BEXP, R273. -/
  | bexp (f : Fields)
  /-- BARV, R274. -/
  | barv (f : Fields)
  /-- BWAIT, R275. -/
  | bwait (f : Fields)
  /-- BTEST, R276. -/
  | btest (f : Fields)
  /-- NARR, R279. -/
  | narr (f : Fields)
  /-- NWAIT, R279. -/
  | nwait (f : Fields)
  /-- NJOIN, R280. -/
  | njoin (f : Fields)
  /-- NLEAVE, R280. -/
  | nleave (f : Fields)
  /-- MTILE, R294. -/
  | mtile (f : Fields)
  /-- MLOOP, R294. -/
  | mloop (f : Fields)
  /-- MBATCH, R294. -/
  | mbatch (f : Fields)
  /-- MSPLIT, R302. -/
  | msplit (f : Fields)
  /-- WLOAD, R296. -/
  | wload (f : Fields)
  /-- ACLR, R297. -/
  | aclr (f : Fields)
  /-- ACMOV, R298. -/
  | acmov (f : Fields)
  /-- ACLD, R299. -/
  | acld (f : Fields)
  /-- ACST, R299. -/
  | acst (f : Fields)
  /-- MSYNC, R300. -/
  | msync (f : Fields)
  /-- MSTAT, R301. -/
  | mstat (f : Fields)
  /-- TENQ, R318. -/
  | tenq (f : Fields)
  /-- GENQ, R318. -/
  | genq (f : Fields)
  /-- TDEP_ADD, R319. -/
  | tdepAdd (f : Fields)
  /-- TDEP_DONE, R319. -/
  | tdepDone (f : Fields)
  /-- RETIRE, R320. -/
  | retire (f : Fields)
  /-- CHAIN, R321. -/
  | chain (f : Fields)
  /-- XCOPY, R360. -/
  | xcopy (f : Fields)
  /-- XWAIT, R361. -/
  | xwait (f : Fields)
  /-- XSTAT, R361. -/
  | xstat (f : Fields)
  /-- CRCV, R363. -/
  | crcv (f : Fields)
  /-- BQUOTA, R388. -/
  | bquota (f : Fields)
  /-- BMAKE, R389. -/
  | bmake (f : Fields)
  /-- BMAKE_RAW, R389. -/
  | bmakeRaw (f : Fields)
  /-- BTRAV, R390. -/
  | btrav (f : Fields)
  /-- BPOP, R391. -/
  | bpop (f : Fields)
  /-- BFREE, R392. -/
  | bfree (f : Fields)
  /-- BFREE_ALL, R392. -/
  | bfreeAll (f : Fields)
  /-- BEMIT, R393. -/
  | bemit (f : Fields)
  /-- BRECV, R394. -/
  | brecv (f : Fields)
  /-- RAYMK, R395. -/
  | raymk (f : Fields)
  /-- RAYTRAV, R396. -/
  | raytrav (f : Fields)
  /-- NODEWR, R397. -/
  | nodewr (f : Fields)
  /-- BCOV, R398. -/
  | bcov (f : Fields)
  /-- BCOV_CELL, R398. -/
  | bcovCell (f : Fields)
  /-- BFOOT, R399. -/
  | bfoot (f : Fields)
  /-- MSEND, R417. -/
  | msend (f : Fields)
  /-- MRET, R419. -/
  | mret (f : Fields)
  /-- WAITQ, R418. -/
  | waitq (f : Fields)
  /-- QUIETST, R420. -/
  | quietst (f : Fields)
  /-- HIMPORT, R422. -/
  | himport (f : Fields)
  /-- HREVOKE, R423. -/
  | hrevoke (f : Fields)
  /-- HREVOKE_EXP, R423. -/
  | hrevokeExp (f : Fields)
  /-- TIME, R436. -/
  | time (f : Fields)
  /-- TWIDTH, R436. -/
  | twidth (f : Fields)
  /-- STSC, R437. -/
  | stsc (f : Fields)
  /-- LDAS, R438. -/
  | ldas (f : Fields)
  /-- CWAIT, R439. -/
  | cwait (f : Fields)
  /-- TRAP, R341. -/
  | trap (f : Fields)
  /-- ERET, R342. -/
  | eret (f : Fields)
  /-- BRK, R341. -/
  | brk (f : Fields)
  /-- WAITI, R345. -/
  | waiti (f : Fields)
  /-- HALTD_HALT, R347. -/
  | haltdHalt (f : Fields)
  /-- HALTD_QUERY, R347. -/
  | haltdQuery (f : Fields)
  /-- HALTD_RESUME, R347. -/
  | haltdResume (f : Fields)
  /-- RDSR, R343. -/
  | rdsr (f : Fields)
  /-- WRSR, R343. -/
  | wrsr (f : Fields)
  /-- FLTRD, R344. -/
  | fltrd (f : Fields)
  /-- PREACK, R346. -/
  | preack (f : Fields)
  /-- CTXSAVE, R348. -/
  | ctxsave (f : Fields)
  /-- CTXLOAD, R348. -/
  | ctxload (f : Fields)
  /-- TLBINV, R349. -/
  | tlbinv (f : Fields)
  /-- HQTAIL_DOORBELL, R445. -/
  | hqtailDoorbell (dev queue : Nat) (v : Word)
  /-- HQCTL_WRITE, R445. -/
  | hqctlWrite (dev queue : Nat) (v : Word)
  /-- QUEUE_ENTRY_FETCH, R445. -/
  | queueEntryFetch (dev queue : Nat)
  /-- RECORD_ACCEPTANCE, R310. -/
  | recordAcceptance (rec : Nat)
  /-- GANG_PLACEMENT, R33. -/
  | gangPlacement (die : Nat) (sizes : List Nat)
  /-- AGING_RESERVATION, R313. -/
  | agingReservation (die : Nat)
  /-- ACTIVATION, R35. -/
  | activation (die core : Nat)
  /-- DEACTIVATION, R42. -/
  | deactivation (group : Nat)
  /-- REGROUPING, R39. -/
  | regrouping (die node count : Nat)
  /-- CHAIN_SUCCESSOR_PLACEMENT, R321. -/
  | chainSuccessorPlacement (die core : Nat)
  /-- GANG_RETIRE, R320. -/
  | gangRetire (gang : Nat)
  /-- TASK_RETIRE, R320. -/
  | taskRetire (task : Nat)
  /-- LAUNCH_COMPLETE, R47. -/
  | launchComplete (launch : Nat)
  /-- FLUSH_READ_COMPLETE, R47. -/
  | flushReadComplete (launch link : Nat)
  /-- EVICTION_REQUEST, R333. -/
  | evictionRequest (gang : Nat)
  /-- PRENOTE_TIMEOUT, R333. -/
  | prenoteTimeout (gang : Nat)
  /-- EVICTION, R334. -/
  | eviction (gang : Nat)
  /-- RESTORE, R338. -/
  | restore (gang : Nat)
  /-- WALK_COMPLETE, R181. -/
  | walkComplete (die core : Nat) (va : Word)
  /-- PEER_STORE_ACK, R203. -/
  | peerStoreAck (store : Nat)
  /-- HOME_REFUSAL, R403. -/
  | homeRefusal (store : Nat)
  /-- LEASE_GRANT, R212. -/
  | leaseGrant (die core : Nat) (line : Nat)
  /-- LEASE_EXPIRY, R213. -/
  | leaseExpiry (die core : Nat) (line : Nat)
  /-- COPY_COMPLETE, R221. -/
  | copyComplete (die core copy : Nat)
  /-- K_STEP, R294. -/
  | kStep (die core : Nat)
  /-- MATRIX_OP_COMPLETE, R287. -/
  | matrixOpComplete (die core op : Nat)
  /-- DILL_JOB_START, R360. -/
  | dillJobStart (engine : Nat)
  /-- DILL_JOB_COMPLETE, R358. What a routine gives follows from its source (R352-R355): choice and ecode only name an occurrence. -/
  | dillJobComplete (engine : Nat) (choice : List Byte) (ecode : BitVec 8)
  /-- ROUTINE_TIME_LIMIT, R351. What has been written stands in the state: written only names an occurrence. -/
  | routineTimeLimit (engine : Nat) (written : List Byte)
  /-- DXRT_WRITE, R351. -/
  | dxrtWrite (engine : Nat) (imem : Bool) (index : Nat) (v : Word)
  /-- BEAM_SPLIT, R373. -/
  | beamSplit (gang team : Nat)
  /-- BEAM_ENDS_CLEAR, R375. -/
  | beamEndsClear (gang team : Nat)
  /-- TRAVERSAL_COMPLETE, R390. -/
  | traversalComplete (gang team : Nat) (ray : Bool)
  /-- TRAVERSAL_FAULT, R380. -/
  | traversalFault (gang team : Nat) (ray : Bool)
  /-- RAY_TRACE, R378. -/
  | rayTrace (gang team : Nat)
  /-- RASTERISER, R384. -/
  | rasteriser (rec : Nat)
  /-- BINNER_RECORD, R386. -/
  | binnerRecord (rec : Nat)
  /-- BLENDER, R384. -/
  | blender (rec : Nat)
  /-- BEAM_REQUEST, R384. -/
  | beamRequest (rec : Nat)
  /-- MESSAGE_ARRIVAL, R410. -/
  | messageArrival (msg : Nat)
  /-- MESSAGE_DELIVERY, R418. -/
  | messageDelivery (msg : Nat)
  /-- WAVE_START, R412. -/
  | waveStart
  /-- WAVE_PASS, R413. -/
  | wavePass (wave : Nat)
  /-- PACKET_LOSS, R415. -/
  | packetLoss (msg : Nat)
  /-- LINK_SLEEP, R404. -/
  | linkSleep (die : Nat)
  /-- LINK_WAKE, R405. -/
  | linkWake (die : Nat)
  /-- DEAD_DIE, R406. -/
  | deadDie (die : Nat)
  /-- SYNC_EXCHANGE, R427. -/
  | syncExchange (die : Nat) (e l : Word)
  /-- HORIZON_ADVANCE, R430. -/
  | horizonAdvance
  /-- HORIZON_DELIVERY, R430. -/
  | horizonDelivery (die : Nat)
  /-- STAMPED_STORE_ARRIVAL, R432. -/
  | stampedStoreArrival (store : Nat)
  /-- COMMIT_WAIT_CAP, R432. -/
  | commitWaitCap (store : Nat)
  /-- CWAIT_CAP, R439. -/
  | cwaitCap (group : Nat)
  /-- WAITI_TIMEOUT, R345. -/
  | waitiTimeout (group : Nat)
  /-- PTM_EXCHANGE, R449. -/
  | ptmExchange (ns : Nat)
  /-- LINK_DOWN, R451. -/
  | linkDown
  /-- LINK_UP, R452. -/
  | linkUp (width : BitVec 4)
  /-- COMPUTE_DIE_RESET, R12. -/
  | computeDieReset (die : Nat) (contents : List (Nat × Byte))
  /-- FUNCTION_READY, R456. -/
  | functionReady (mem : Bool) (bit : Nat) (up : Bool)
  /-- FIRMWARE_BOOT, R459: an image, with a key and a signature. -/
  | firmwareBoot (image : List Byte) (signed : List Byte × List Byte) (ns : Word)
  /-- MEASUREMENT_EXTEND, R460. -/
  | measurementExtend (slot : Nat) (object : List Byte)
  /-- BUDGET_CONTROL, R461. -/
  | budgetControl (die : Nat) (pwr : BitVec 32) (temp : BitVec 16) (budget : BitVec 32)
  /-- WORLD_REGISTER_WRITE, R457. -/
  | worldRegisterWrite (reg : Nat) (v : Word) (host : Bool)
  /-- WORLD_CHANGE_EFFECT, R457. -/
  | worldChangeEffect (block : Nat)
  /-- FORMAT_WINDOW_WRITE, R142. -/
  | formatWindowWrite (die window : Nat) (ctl : Bool) (v : Word)
  /-- RESIDENCY_RANGE_WRITE, R189. -/
  | residencyRangeWrite (die range : Nat) (ctl : Bool) (v : Word)
  /-- CMPCFG_WRITE, R463. -/
  | cmpcfgWrite (die : Nat) (v : Word)
  /-- REGISTER_WRITE, R454. -/
  | registerWrite (off : Nat) (v : Word) (host : Bool)
  /-- UNCORRECTABLE_ERROR, R193. -/
  | uncorrectableError (line : Nat)
  /-- ILLEGAL_INSTRUCTION, R77. -/
  | illegalInstruction (word : IWord) (detail : BitVec 8)
  /-- FETCH_FAULT, R58. -/
  | fetchFault (cause detail : BitVec 8) (addr : Word)
  deriving DecidableEq, Repr

end Sys2Proof
end

