-- ==== Sys2Proof/Machine/Forms.lean ====
section
/-! DEFINITION. The encoding forms of the 174 Jeniz instructions, written from the function map (spec/04 R74) and each
instruction's encoding table: opcode, function, guard class, operand kinds, use of IMM, MOD bits in use, MOD rule. -/

namespace Sys2Proof

open Sys2Proof.Machine

/-- Operand kinds an operand position may accept (R61, R62). nil: only 0x000, any other field illegal as an operand. -/
inductive PK where
  | s | v | t | c0 | c1 | m0 | m1 | x | z | i | acc | vr | nil
  deriving DecidableEq, Repr

/-- Guard classes (R66). -/
inductive GClass where
  | c | m | k
  deriving DecidableEq, Repr

/-- The one use a form makes of IMM (R71). own: bits it assigns. third: C in [11:0] and own bits above. -/
inductive ImmUse where
  | none | immv | free
  | own (mask : Nat)
  | third (kinds : List PK) (mask : Nat)
  deriving DecidableEq, Repr

/-- Which of the forms sharing an opcode and function a word takes. -/
inductive Sel where
  | any | aZero | aNonzero | bZero | bNonzero | dView | dNotView | dAcc | dNotAcc | wide16 | narrow | haltOp
  | immBit (k : Nat) (v : Bool) | modBit (k : Nat) (v : Bool) | immLow (v : Nat) | cacheOp (v : Nat)
  deriving DecidableEq, Repr

/-- The modifier values a form makes illegal (R69 and each instruction's encoding table). -/
inductive ModRule where
  | any | scalarA | cmpS | vecA | intA | fltA | bitop | shl | cmpV | vcvt | pack | vscale | vquant | red
  | mem (load store : Bool) (classes sizes : Nat)
  | atom (classes : Nat) | cas (classes : Nat) | acpy (classes : Nat) | ord0 (classes sizes : Nat)
  | cacheOp | product | wload | acmovIn | acmovOut | acld | acst | eng | ck
  deriving DecidableEq, Repr

/-- One encoding form. modMask: the MOD bits it assigns, instruction bit 32 + k as bit k. -/
structure Form where
  opc : Nat
  fn : Nat
  sel : Sel
  cls : GClass
  d : List PK
  a : List PK
  b : List PK
  imm : ImmUse
  modMask : Nat
  rule : ModRule

/-- A form with the constructor it decodes to. -/
structure Row where
  form : Form
  ctor : Fields → Instr

/-- An operand field's 12 bits (R60, R61); 0x000 for an unused field. -/
def Opnd.bits : Opnd → BitVec 12
  | .none => 0
  | .sreg n => n.setWidth 12
  | .view n => 0x400#12 ||| n.setWidth 12
  | .tile n => 0x800#12 ||| n.setWidth 12
  | .rel k x o =>
    (match k with | .scalar => 0x200#12 | .view => 0x600#12 | .tile => 0xA00#12) ||| (x.setWidth 12 <<< 7) ||| o.setWidth 12
  | .cond n => 0xC00#12 ||| n.setWidth 12
  | .mask n => 0xC08#12 ||| n.setWidth 12
  | .index n => 0xC10#12 ||| n.setWidth 12
  | .vb => 0xC14 | .tb => 0xC15 | .tsh => 0xC16 | .immv => 0xC18 | .acc => 0xC19 | .zero => 0xC1A

/-- The operand a used field names (R60, R61); none where the field is illegal. -/
def Opnd.ofBits (f : BitVec 12) : Option Opnd :=
  let kind := f.extractLsb' 10 2
  let ix := f.extractLsb' 0 9
  if f.getLsbD 9 then
    if kind = 3 then .none
    else some (.rel (if kind = 0 then .scalar else if kind = 1 then .view else .tile) (f.extractLsb' 7 2) (f.extractLsb' 0 7))
  else if kind = 0 then (if ix < 64 then some (.sreg (f.extractLsb' 0 6)) else .none)
  else if kind = 1 then some (.view ix)
  else if kind = 2 then some (.tile ix)
  else if ix < 8 then some (.cond (f.extractLsb' 0 3))
  else if ix < 16 then some (.mask (f.extractLsb' 0 3))
  else if ix < 20 then some (.index (f.extractLsb' 0 2))
  else if ix = 0x14 then some .vb else if ix = 0x15 then some .tb else if ix = 0x16 then some .tsh
  else if ix = 0x18 then some .immv else if ix = 0x19 then some .acc else if ix = 0x1A then some .zero
  else .none

/-- The third source C (R60). -/
def Fields.c (f : Fields) : Opnd := (Opnd.ofBits (f.imm.extractLsb' 0 12)).getD .zero

/-- Whether an operand names a scalar register, a view, a tile. -/
def Opnd.isScalar : Opnd → Bool | .sreg _ | .rel .scalar _ _ => true | _ => false
def Opnd.isView : Opnd → Bool | .view _ | .rel .view _ _ => true | _ => false
def Opnd.isTile : Opnd → Bool | .tile _ | .rel .tile _ _ => true | _ => false

/-- A position of kind k accepts the operand (R61, R62). -/
def PK.accepts : PK → Opnd → Bool
  | .s, .sreg _ | .s, .rel .scalar _ _ | .v, .view _ | .v, .rel .view _ _ | .t, .tile _ | .t, .rel .tile _ _ => true
  | .c0, .cond _ | .m0, .mask _ | .x, .index _ | .z, .zero | .i, .immv | .acc, .acc => true
  | .c1, .cond n => n ≠ 0
  | .m1, .mask n => n ≠ 0
  | .vr, .vb | .vr, .tb | .vr, .tsh => true
  | .nil, .none => true
  | _, _ => false

/-- A position with the given kinds accepts the operand; with no kinds the field is unused. -/
def posOk (ks : List PK) (o : Opnd) : Bool := if ks = [] then decide (o = .none) else ks.any (·.accepts o)

/-- A product's B position takes 0x000 (R292): AFMT BF16 or F16; for an AFMT that names no format, B 0x000 itself (the
word is then illegal by its AFMT, log entry 11). -/
def noScaleView (b : BitVec 12) (afmt : BitVec 5) : Bool := afmt = 9 || afmt = 10 || (afmt < 9 || 15 < afmt) && b = 0

/-- The form's selector holds for a word's fields. -/
def Sel.ok (d a b : BitVec 12) (mod : BitVec 10) (imm : BitVec 32) : Sel → Bool
  | .any => true
  | .aZero => a = 0 | .aNonzero => a ≠ 0 | .bZero => b = 0 | .bNonzero => b ≠ 0
  | .dView => d.extractLsb' 10 2 = 1 | .dNotView => d.extractLsb' 10 2 ≠ 1
  | .dAcc => d = 0xC19 | .dNotAcc => d ≠ 0xC19
  | .wide16 => noScaleView b (mod.extractLsb' 5 5)
  | .narrow => !noScaleView b (mod.extractLsb' 5 5)
  | .haltOp => imm.extractLsb' 0 2 = 0 || imm.extractLsb' 0 2 = 3
  | .immBit k v => imm.getLsbD k = v
  | .modBit k v => mod.getLsbD k = v
  | .immLow v => (imm.extractLsb' 0 2).toNat = v
  | .cacheOp v => (imm.extractLsb' 0 3).toNat = v || (v = 0 && 4 ≤ (imm.extractLsb' 0 3).toNat)

/-- IMM bits the form leaves unassigned are zero (R71, R77). -/
def immOk (u : ImmUse) (usesImmv : Bool) (imm : BitVec 32) : Bool :=
  match u with
  | .none => imm = 0
  | .immv => usesImmv || imm = 0
  | .free => true
  | .own m => imm &&& ~~~(BitVec.ofNat 32 m) = 0
  | .third _ m => imm &&& ~~~(BitVec.ofNat 32 (m + 0xFFF)) = 0

/-- MOD bits as a number, and its fields by layout (R67). -/
abbrev Fields.modN (f : Fields) : Nat := f.mod.toNat
/-- Layouts A, K, V: TYPE. -/
def Fields.type (f : Fields) : Nat := f.modN / 32
/-- Layout A: RND. -/
def Fields.rnd (f : Fields) : Nat := f.modN / 8 % 4
/-- Layout A: SAT. -/
def Fields.sat (f : Fields) : Bool := f.mod.getLsbD 2
/-- Layout A: FTZ. -/
def Fields.ftz (f : Fields) : Bool := f.mod.getLsbD 1
/-- Layout K: CC. -/
def Fields.cc (f : Fields) : Nat := f.modN / 2 % 16
/-- Layout M: ORD. -/
def Fields.ord (f : Fields) : Nat := f.modN / 256
/-- Layout M: CLS. -/
def Fields.mcls (f : Fields) : Nat := f.modN / 32 % 8
/-- Layout M: EVP. -/
def Fields.evp (f : Fields) : Nat := f.modN / 4 % 8
/-- Layout M: SZ. -/
def Fields.sz (f : Fields) : Nat := f.modN % 4
/-- IMM as a number. -/
abbrev Fields.immN (f : Fields) : Nat := f.imm.toNat
/-- IMM sign-extended (R71). -/
def Fields.simm (f : Fields) : Int := f.imm.toInt

/-- The modifier values are legal (R69 and the encoding tables). -/
def ModRule.ok (f : Fields) : ModRule → Bool
  | .any => true
  | .scalarA => f.type < 8 && f.rnd = 0 && !f.ftz
  | .cmpS => f.type < 8 && f.cc < 6
  | .vecA => f.type < 11 && (8 ≤ f.type || (f.rnd = 0 && !f.ftz))
  | .intA => f.type < 8 && f.rnd = 0 && !f.ftz
  | .fltA => 8 ≤ f.type && f.type < 11
  | .bitop => f.type < 8 && f.rnd = 0 && !f.ftz && !f.sat
  | .shl => f.type < 8 && f.rnd = 0 && !f.ftz
  | .cmpV => f.type < 11 && f.cc < (if f.type < 8 then 6 else 8)
  | .vcvt => f.type < 13 && f.immN % 32 < 13 && (8 ≤ f.type || 8 ≤ f.immN % 32 || (f.rnd = 0 && !f.ftz))
  | .pack => 0xB ≤ f.type && f.type ≤ 0xF && f.modN / 2 % 4 ≠ 3
  | .vscale => f.type = 0 && f.modN / 2 % 4 ≠ 3
  | .vquant => 0xB ≤ f.type && f.type ≤ 0xF && f.modN / 2 % 4 ≠ 3 && (f.immN / 4096 % 4 = 0 || f.type = 0xF)
  | .red => f.type < 11 && f.modN % 8 < 6 && (f.type < 8 || f.modN % 8 < 3) && (8 ≤ f.type || f.rnd = 0)
  | .mem ld st cs zs => bit cs f.mcls && bit zs f.sz && (f.ord ≠ 1 || ld) && (f.ord ≠ 2 || st) && f.ord ≠ 3
  | .atom cs => bit cs f.mcls && 2 ≤ f.sz && (f.immN / 4096 % 16 < 9 || (f.immN / 4096 % 16 = 9 && f.sz = 2))
  | .cas cs => bit cs f.mcls && 2 ≤ f.sz
  | .acpy cs => bit cs f.mcls && f.ord = 0 && f.immN / 16 % 4 ≠ 3 && (f.immN / 65536 % 16 = 0 || f.immN / 64 % 2 = 0)
  | .ord0 cs zs => bit cs f.mcls && bit zs f.sz && f.ord = 0
  | .cacheOp => f.immN % 8 < 4
  | .product => (9 ≤ f.type && f.type ≤ 0xF)
  | .wload =>
    bit 0b110001 (f.modN / 4 % 8) && (f.type = 0 || f.type = 9 || f.type = 10) && (f.modN % 4 = 3) = (f.type ≠ 0)
  | .acmovIn => f.modN % 4 ≠ 3 && f.rnd = 0 && !f.sat
  | .acmovOut => f.modN % 4 ≠ 3
  | .acld => f.modN % 4 ≠ 3 && bit 0b111001 (f.modN / 64 % 8) && f.modN / 4 % 16 = 0 && f.immN / 65536 = 0
  | .acst => f.modN % 4 ≠ 3 && bit 0b111001 (f.modN / 64 % 8)
  | .eng => f.modN % 8 < 5
  | .ck => f.immN / 16 % 4 ≠ 3

/-- Reserved bits of the word are zero: detail RSVBIT otherwise (R77). Unused operand fields are checked on the word. -/
def Form.rsvOk (fm : Form) (f : Fields) : Bool :=
  immOk fm.imm (f.a = .immv || f.b = .immv) f.imm && f.mod &&& ~~~(BitVec.ofNat 10 fm.modMask) = 0

/-- The operands are legal at their positions: detail OPERAND otherwise (R61, R62, R146). -/
def Form.operandsOk (fm : Form) (f : Fields) : Bool :=
  posOk fm.d f.d && posOk fm.a f.a && posOk fm.b f.b && !(f.a = .immv && f.b = .immv) &&
  (match fm.imm with
   | .third ks _ => (match Opnd.ofBits (f.imm.extractLsb' 0 12) with | some o => posOk ks o | none => false)
   | _ => true)

/-- A typed instruction satisfies every check of its form. -/
def Form.legal (fm : Form) (f : Fields) : Bool :=
  fm.sel.ok f.d.bits f.a.bits f.b.bits f.mod f.imm && fm.rsvOk f && fm.operandsOk f && fm.rule.ok f

/-- The forms of opcode 0x00 (R74). -/
def rows00 : List Row := [
  ⟨⟨0x00, 0, .any, .c, [], [], [], .none, 0x000, .any⟩, .nop⟩,
  ⟨⟨0x00, 1, .any, .c, [], [], [], .none, 0x000, .any⟩, .yield⟩]

/-- The forms of opcode 0x01 (R74). -/
def rows01 : List Row := [
  ⟨⟨0x01, 0, .any, .c, [.s], [.s, .z], [.s, .z, .i], .immv, 0x3FE, .scalarA⟩, .sadd⟩,
  ⟨⟨0x01, 1, .any, .c, [.s], [.s, .z], [.s, .z, .i], .immv, 0x3FE, .scalarA⟩, .ssub⟩,
  ⟨⟨0x01, 2, .any, .c, [.s], [.s, .z], [.s, .z, .i], .immv, 0x3FE, .scalarA⟩, .smul⟩,
  ⟨⟨0x01, 3, .any, .c, [.s], [.s, .z], [.s, .z, .i], .immv, 0x3FE, .scalarA⟩, .smulh⟩,
  ⟨⟨0x01, 4, .any, .c, [.s], [.s, .z], [.s, .z, .i], .immv, 0x3FE, .scalarA⟩, .sdiv⟩,
  ⟨⟨0x01, 5, .any, .c, [.s], [.s, .z], [.s, .z, .i], .immv, 0x3FE, .scalarA⟩, .srem⟩,
  ⟨⟨0x01, 6, .any, .c, [.s], [.s, .z], [.s, .z, .i], .immv, 0x3FE, .scalarA⟩, .sand⟩,
  ⟨⟨0x01, 7, .any, .c, [.s], [.s, .z], [.s, .z, .i], .immv, 0x3FE, .scalarA⟩, .sor⟩,
  ⟨⟨0x01, 8, .any, .c, [.s], [.s, .z], [.s, .z, .i], .immv, 0x3FE, .scalarA⟩, .sxor⟩,
  ⟨⟨0x01, 9, .any, .c, [.s], [.s, .z], [.s, .z, .i], .immv, 0x3FE, .scalarA⟩, .sshl⟩,
  ⟨⟨0x01, 10, .any, .c, [.s], [.s, .z], [.s, .z, .i], .immv, 0x3FE, .scalarA⟩, .sshr⟩,
  ⟨⟨0x01, 11, .any, .c, [.s], [.s, .z], [.s, .z, .i], .immv, 0x3FE, .scalarA⟩, .ssra⟩,
  ⟨⟨0x01, 12, .any, .c, [.s], [.s, .z], [.s, .z, .i], .immv, 0x3FE, .scalarA⟩, .smin⟩,
  ⟨⟨0x01, 13, .any, .c, [.s], [.s, .z], [.s, .z, .i], .immv, 0x3FE, .scalarA⟩, .smax⟩,
  ⟨⟨0x01, 14, .any, .c, [.s], [.s, .z], [], .none, 0x3FE, .scalarA⟩, .spopc⟩,
  ⟨⟨0x01, 15, .any, .c, [.s], [.s, .z], [], .none, 0x3FE, .scalarA⟩, .sclz⟩]

/-- The forms of opcode 0x02 (R74). -/
def rows02 : List Row := [
  ⟨⟨0x02, 0, .any, .c, [.s, .c1, .m1, .x], [.s, .c0, .m0, .x, .vr, .i, .z], [], .immv, 0x000, .any⟩, .smov⟩,
  ⟨⟨0x02, 1, .any, .c, [.s], [], [], .free, 0x000, .any⟩, .sli⟩,
  ⟨⟨0x02, 2, .any, .c, [.s], [], [], .free, 0x000, .any⟩, .slih⟩,
  ⟨⟨0x02, 3, .any, .c, [.c1], [.s, .z], [.s, .z, .i], .immv, 0x3FE, .cmpS⟩, .scmp⟩,
  ⟨⟨0x02, 4, .any, .c, [.s], [.s, .z], [.s, .z], (.third [.c0] 0), 0x000, .any⟩, .ssel⟩]

/-- The forms of opcode 0x03 (R74). -/
def rows03 : List Row := [
  ⟨⟨0x03, 0, .any, .c, [], [], [], .free, 0x000, .any⟩, .bra⟩,
  ⟨⟨0x03, 1, .any, .c, [], [.s], [], .free, 0x000, .any⟩, .brc⟩,
  ⟨⟨0x03, 2, .aZero, .c, [], [], [], .free, 0x000, .any⟩, .call⟩,
  ⟨⟨0x03, 2, .aNonzero, .c, [], [.s], [], .none, 0x000, .any⟩, .callIndirect⟩,
  ⟨⟨0x03, 3, .any, .c, [], [], [], .none, 0x000, .any⟩, .ret⟩,
  ⟨⟨0x03, 4, .any, .c, [.s], [], [], .free, 0x000, .any⟩, .loop⟩,
  ⟨⟨0x03, 5, .any, .c, [], [.s], [], .free, 0x000, .any⟩, .jidx⟩]

/-- The forms of opcode 0x04 (R74). -/
def rows04 : List Row := [
  ⟨⟨0x04, 0, .any, .c, [.s], [], [], (.own 0x7), 0x000, .any⟩, .id⟩,
  ⟨⟨0x04, 1, .any, .c, [.vr], [.s, .i, .z], [], .immv, 0x000, .any⟩, .view⟩,
  ⟨⟨0x04, 2, .any, .c, [.x], [.s, .i, .z], [], .immv, 0x000, .any⟩, .xset⟩,
  ⟨⟨0x04, 3, .any, .c, [.x], [.x], [.s, .i, .z], .immv, 0x000, .any⟩, .xadd⟩]

/-- The forms of opcode 0x05 (R74). -/
def rows05 : List Row := [
  ⟨⟨0x05, 0, .any, .c, [.c1], [.m0], [], .none, 0x000, .any⟩, .many⟩,
  ⟨⟨0x05, 1, .any, .c, [.c1], [.m0], [], .none, 0x000, .any⟩, .mall⟩,
  ⟨⟨0x05, 2, .any, .c, [.m1], [.m0], [.m0], .none, 0x007, .any⟩, .mlog⟩,
  ⟨⟨0x05, 3, .any, .c, [.m1], [.s, .i, .z], [], .immv, 0x001, .any⟩, .mfrom⟩]

/-- The forms of opcode 0x20 (R74). -/
def rows20 : List Row := [
  ⟨⟨0x20, 0, .any, .m, [.v], [.v, .s, .i, .z], [.v, .s, .i, .z], .immv, 0x3FE, .vecA⟩, .vadd⟩,
  ⟨⟨0x20, 1, .any, .m, [.v], [.v, .s, .i, .z], [.v, .s, .i, .z], .immv, 0x3FE, .vecA⟩, .vsub⟩,
  ⟨⟨0x20, 2, .any, .m, [.v], [.v, .s, .i, .z], [.v, .s, .i, .z], .immv, 0x3FE, .vecA⟩, .vmul⟩,
  ⟨⟨0x20, 3, .any, .m, [.v], [.v, .s, .i, .z], [.v, .s, .i, .z], .immv, 0x3FE, .intA⟩, .vmulh⟩,
  ⟨⟨0x20, 4, .any, .m, [.v], [.v, .s, .z], [.v, .s, .z], (.third [.v, .s, .z] 0), 0x3FE, .vecA⟩, .vfma⟩,
  ⟨⟨0x20, 5, .any, .m, [.v], [.v, .s, .z], [.v, .s, .z], (.third [.v, .s, .z] 0), 0x3FE, .vecA⟩, .vfms⟩,
  ⟨⟨0x20, 6, .any, .m, [.v], [.v, .s, .i, .z], [.v, .s, .i, .z], .immv, 0x3FE, .vecA⟩, .vmin⟩,
  ⟨⟨0x20, 7, .any, .m, [.v], [.v, .s, .i, .z], [.v, .s, .i, .z], .immv, 0x3FE, .vecA⟩, .vmax⟩,
  ⟨⟨0x20, 8, .any, .m, [.v], [.v, .s, .i, .z], [], .immv, 0x3FE, .vecA⟩, .vabs⟩,
  ⟨⟨0x20, 9, .any, .m, [.v], [.v, .s, .i, .z], [], .immv, 0x3FE, .vecA⟩, .vneg⟩,
  ⟨⟨0x20, 10, .any, .m, [.v], [.v, .s, .i, .z], [.v, .s, .i, .z], .immv, 0x3FE, .vecA⟩, .vdiv⟩]

/-- The forms of opcode 0x21 (R74). -/
def rows21 : List Row := [
  ⟨⟨0x21, 0, .any, .m, [.v], [.v, .s, .i, .z], [], .immv, 0x3FE, .fltA⟩, .vrcp⟩,
  ⟨⟨0x21, 1, .any, .m, [.v], [.v, .s, .i, .z], [], .immv, 0x3FE, .fltA⟩, .vrsq⟩,
  ⟨⟨0x21, 2, .any, .m, [.v], [.v, .s, .i, .z], [], .immv, 0x3FE, .fltA⟩, .vsqrt⟩,
  ⟨⟨0x21, 3, .any, .m, [.v], [.v, .s, .i, .z], [], .immv, 0x3FE, .fltA⟩, .vexp2⟩,
  ⟨⟨0x21, 4, .any, .m, [.v], [.v, .s, .i, .z], [], .immv, 0x3FE, .fltA⟩, .vlog2⟩,
  ⟨⟨0x21, 5, .any, .m, [.v], [.v, .s, .i, .z], [], .immv, 0x3FE, .fltA⟩, .vsinp⟩,
  ⟨⟨0x21, 6, .any, .m, [.v], [.v, .s, .i, .z], [], .immv, 0x3FE, .fltA⟩, .vcosp⟩]

/-- The forms of opcode 0x22 (R74). -/
def rows22 : List Row := [
  ⟨⟨0x22, 0, .any, .m, [.v], [.v, .s, .i, .z], [.v, .s, .i, .z], .immv, 0x3FE, .bitop⟩, .vand⟩,
  ⟨⟨0x22, 1, .any, .m, [.v], [.v, .s, .i, .z], [.v, .s, .i, .z], .immv, 0x3FE, .bitop⟩, .vor⟩,
  ⟨⟨0x22, 2, .any, .m, [.v], [.v, .s, .i, .z], [.v, .s, .i, .z], .immv, 0x3FE, .bitop⟩, .vxor⟩,
  ⟨⟨0x22, 3, .any, .m, [.v], [.v, .s, .i, .z], [], .immv, 0x3FE, .bitop⟩, .vnot⟩,
  ⟨⟨0x22, 4, .any, .m, [.v], [.v, .s, .i, .z], [.v, .s, .i, .z], .immv, 0x3FE, .shl⟩, .vshl⟩,
  ⟨⟨0x22, 5, .any, .m, [.v], [.v, .s, .i, .z], [.v, .s, .i, .z], .immv, 0x3FE, .bitop⟩, .vshr⟩,
  ⟨⟨0x22, 6, .any, .m, [.v], [.v, .s, .i, .z], [.v, .s, .i, .z], .immv, 0x3FE, .bitop⟩, .vsra⟩,
  ⟨⟨0x22, 7, .any, .m, [.v], [.v, .s, .i, .z], [], .immv, 0x3FE, .bitop⟩, .vpopc⟩,
  ⟨⟨0x22, 8, .any, .m, [.v], [.v, .s, .i, .z], [], .immv, 0x3FE, .bitop⟩, .vclz⟩]

/-- The forms of opcode 0x23 (R74). -/
def rows23 : List Row := [
  ⟨⟨0x23, 0, .any, .m, [.m1], [.v, .s, .i, .z], [.v, .s, .i, .z], .immv, 0x3FE, .cmpV⟩, .vcmp⟩,
  ⟨⟨0x23, 1, .any, .m, [.v], [.v, .s, .z], [.v, .s, .z], (.third [.m0] 0), 0x000, .any⟩, .vsel⟩]

/-- The forms of opcode 0x24 (R74). -/
def rows24 : List Row := [
  ⟨⟨0x24, 0, .any, .m, [.v], [.v, .s, .z], [], (.own 0x1F), 0x3FE, .vcvt⟩, .vcvt⟩,
  ⟨⟨0x24, 1, .any, .m, [.v], [.v], [.s], (.own 0xFFF), 0x3FF, .pack⟩, .vpack⟩,
  ⟨⟨0x24, 2, .any, .m, [.v], [.v], [.s], .none, 0x3FF, .pack⟩, .vunpk⟩,
  ⟨⟨0x24, 3, .any, .m, [.v], [.v], [.s], (.own 1), 0x3FF, .vscale⟩, .vscale⟩,
  ⟨⟨0x24, 4, .any, .m, [.v], [.v], [.s], (.own 0x3FFF), 0x3FF, .vquant⟩, .vquant⟩]

/-- The forms of opcode 0x25 (R74). -/
def rows25 : List Row := [
  ⟨⟨0x25, 0, .any, .m, [.v], [.v, .s, .i, .z], [], .immv, 0x003, .any⟩, .vmov⟩,
  ⟨⟨0x25, 1, .any, .m, [.v], [.v], [.s, .i, .z], .immv, 0x003, .any⟩, .vbc⟩,
  ⟨⟨0x25, 2, .any, .m, [.s], [.v], [.s, .i, .z], .immv, 0x007, .any⟩, .vext⟩,
  ⟨⟨0x25, 3, .any, .m, [.v], [.s, .i, .z], [.s, .i, .z], .immv, 0x003, .any⟩, .vins⟩,
  ⟨⟨0x25, 4, .any, .m, [.v], [.v], [.v], .none, 0x003, .any⟩, .vshuf⟩,
  ⟨⟨0x25, 5, .any, .m, [.v], [], [], (.own 0x7), 0x003, .any⟩, .vidx⟩]

/-- The forms of opcode 0x26 (R74). -/
def rows26 : List Row := [
  ⟨⟨0x26, 0, .any, .m, [.s], [.v], [], .none, 0x3FF, .red⟩, .vred⟩,
  ⟨⟨0x26, 1, .any, .m, [.v], [.v], [], .none, 0x3FF, .red⟩, .vscan⟩]

/-- The forms of opcode 0x50 (R74). -/
def rows50 : List Row := [
  ⟨⟨0x50, 0, .bZero, .m, [.v], [.s], [], .free, 0x3FF, (.mem true false 57 15)⟩, .ld⟩,
  ⟨⟨0x50, 0, .bNonzero, .m, [.v], [.s], [.s], .free, 0x3FF, (.mem true false 17 1)⟩, .ldFormat⟩,
  ⟨⟨0x50, 1, .any, .m, [.v], [.s], [], .free, 0x3FF, (.mem false true 57 15)⟩, .st⟩,
  ⟨⟨0x50, 2, .any, .c, [.s], [.s], [], .free, 0x3FF, (.mem true false 57 15)⟩, .sld⟩,
  ⟨⟨0x50, 3, .any, .c, [.s], [.s], [], .free, 0x3FF, (.mem false true 57 15)⟩, .sst⟩,
  ⟨⟨0x50, 4, .any, .m, [.v], [.s], [.v], .free, 0x3FF, (.mem true false 57 15)⟩, .ldg⟩,
  ⟨⟨0x50, 5, .any, .m, [.v], [.s], [.v], .free, 0x3FF, (.mem false true 57 15)⟩, .stg⟩]

/-- The forms of opcode 0x51 (R74). -/
def rows51 : List Row := [
  ⟨⟨0x51, 0, .any, .m, [.v], [.s], [], (.own 0x3FFFF), 0x3FF, (.mem true false 1 15)⟩, .lds⟩,
  ⟨⟨0x51, 1, .any, .m, [.v], [.s], [], (.own 0x3FFFFF), 0x3FF, (.mem false true 1 15)⟩, .sts⟩,
  ⟨⟨0x51, 2, .any, .m, [.v], [.s], [], (.own 0xFFFFF), 0x3FF, (.mem true false 1 15)⟩, .ldsb⟩]

/-- The forms of opcode 0x52 (R74). -/
def rows52 : List Row := [
  ⟨⟨0x52, 0, .dNotView, .k, [.s, .z], [.s], [], (.third [.s, .z] 0xF000), 0x3FF, (.atom 33)⟩, .atom⟩,
  ⟨⟨0x52, 0, .dView, .k, [.v], [.s], [.v], (.third [.s, .z, .v] 0xF000), 0x3FF, (.atom 33)⟩, .atom⟩,
  ⟨⟨0x52, 1, .any, .c, [.s, .z], [.s], [], (.third [.s, .z] 0xF000), 0x3FF, (.atom 33)⟩, .atomsc⟩,
  ⟨⟨0x52, 2, .dNotView, .k, [.s], [.s], [], (.third [.s, .z] 0), 0x3FF, (.cas 33)⟩, .cas⟩,
  ⟨⟨0x52, 2, .dView, .k, [.v], [.s], [.v], (.third [.s, .z, .v] 0), 0x3FF, (.cas 33)⟩, .cas⟩]

/-- The forms of opcode 0x53 (R74). -/
def rows53 : List Row := [
  ⟨⟨0x53, 0, .any, .c, [], [.s], [.s, .i, .z], .immv, 0x000, .any⟩, .lease⟩,
  ⟨⟨0x53, 1, .any, .c, [], [.s], [], .none, 0x000, .any⟩, .unlease⟩,
  ⟨⟨0x53, 2, .any, .c, [], [.s], [], .none, 0x000, .any⟩, .qlock⟩,
  ⟨⟨0x53, 3, .any, .c, [], [.s], [], .none, 0x000, .any⟩, .qunlock⟩]

/-- The forms of opcode 0x54 (R74). -/
def rows54 : List Row := [
  ⟨⟨0x54, 0, .any, .c, [], [], [], .none, 0x000, .any⟩, .acq⟩,
  ⟨⟨0x54, 1, .any, .c, [], [], [], .none, 0x000, .any⟩, .rel⟩,
  ⟨⟨0x54, 2, .any, .c, [], [], [], .none, 0x000, .any⟩, .fence⟩]

/-- The forms of opcode 0x55 (R74). -/
def rows55 : List Row := [
  ⟨⟨0x55, 0, .any, .m, [.s], [.s], [.v], (.own 0xFF7F), 0x3FF, (.acpy 57)⟩, .acpy⟩,
  ⟨⟨0x55, 1, .any, .c, [.s], [.s], [.s], (.own 0xFFF7F), 0x3FF, (.acpy 57)⟩, .acpyb⟩]

/-- The forms of opcode 0x56 (R74). -/
def rows56 : List Row := [
  ⟨⟨0x56, 0, .any, .m, [], [.s], [.v, .z], .free, 0x3FF, (.ord0 49 7)⟩, .pref⟩,
  ⟨⟨0x56, 1, .any, .c, [], [.s], [.s, .i, .z], .immv, 0x3FF, (.ord0 1 1)⟩, .retain⟩,
  ⟨⟨0x56, 2, (.cacheOp 0), .c, [], [.s], [.s, .z], (.own 0x7), 0x000, .cacheOp⟩, .cacheClean⟩,
  ⟨⟨0x56, 2, (.cacheOp 1), .c, [], [.s], [.s, .z], (.own 0x7), 0x000, .cacheOp⟩, .cacheEvict⟩,
  ⟨⟨0x56, 2, (.cacheOp 2), .c, [], [.s], [.s, .z], (.own 0x7), 0x000, .cacheOp⟩, .cacheDemote⟩,
  ⟨⟨0x56, 2, (.cacheOp 3), .c, [], [.s], [.s, .z], (.own 0x7), 0x000, .cacheOp⟩, .cacheIinv⟩]

/-- The forms of opcode 0x57 (R74). -/
def rows57 : List Row := [
  ⟨⟨0x57, 0, .any, .c, [.s], [], [], .none, 0x000, .any⟩, .evwait⟩,
  ⟨⟨0x57, 1, .any, .c, [.s], [], [], .none, 0x000, .any⟩, .evpoll⟩]

/-- The forms of opcode 0x70 (R74). -/
def rows70 : List Row := [
  ⟨⟨0x70, 0, .any, .c, [], [.s, .i, .z], [], .immv, 0x07F, .any⟩, .qsend⟩,
  ⟨⟨0x70, 1, .any, .c, [.s], [], [], .none, 0x07F, .any⟩, .qrecv⟩,
  ⟨⟨0x70, 2, .any, .c, [.c1], [.s, .i, .z], [], .immv, 0x07F, .any⟩, .qtrys⟩,
  ⟨⟨0x70, 3, .any, .c, [.s], [], [.c1], .none, 0x07F, .any⟩, .qtryr⟩,
  ⟨⟨0x70, 4, (.immBit 15 true), .c, [], [.s, .z], [], (.own 0xFFFFC07F), 0x07F, .any⟩, .qallowInit⟩,
  ⟨⟨0x70, 4, (.immBit 15 false), .c, [], [.s, .z], [], (.own 0xFFFF0000), 0x07F, .any⟩, .qallow⟩,
  ⟨⟨0x70, 5, .any, .c, [.s], [], [], .none, 0x07F, .any⟩, .qdepth⟩]

/-- The forms of opcode 0x71 (R74). -/
def rows71 : List Row := [
  ⟨⟨0x71, 0, .any, .c, [], [.s, .i, .z], [], .immv, 0x01F, .any⟩, .bexp⟩,
  ⟨⟨0x71, 1, .any, .c, [.s, .z], [], [], .none, 0x00F, .any⟩, .barv⟩,
  ⟨⟨0x71, 2, .any, .c, [.c1, .z], [.s, .i, .z], [], .immv, 0x00F, .any⟩, .bwait⟩,
  ⟨⟨0x71, 3, .any, .c, [.s], [.s, .i, .z], [], .immv, 0x00F, .any⟩, .btest⟩]

/-- The forms of opcode 0x72 (R74). -/
def rows72 : List Row := [
  ⟨⟨0x72, 0, .any, .c, [.s, .z], [], [], .none, 0x00F, .any⟩, .narr⟩,
  ⟨⟨0x72, 1, .any, .c, [], [.s, .i, .z], [], .immv, 0x00F, .any⟩, .nwait⟩,
  ⟨⟨0x72, 2, .any, .c, [], [], [], .none, 0x00F, .any⟩, .njoin⟩,
  ⟨⟨0x72, 3, .any, .c, [], [], [], .none, 0x00F, .any⟩, .nleave⟩]

/-- The forms of opcode 0x80 (R74). -/
def rows80 : List Row := [
  ⟨⟨0x80, 0, .wide16, .c, [.acc], [.t], [.nil], (.own 0xFF00FFFF), 0x3F3, .product⟩, .mtile⟩,
  ⟨⟨0x80, 0, .narrow, .c, [.acc], [.t], [.v], (.own 0xFF00FFFF), 0x3F3, .product⟩, .mtile⟩,
  ⟨⟨0x80, 1, .wide16, .c, [.acc], [.t], [.nil], (.own 0xFFFFFFFF), 0x3F3, .product⟩, .mloop⟩,
  ⟨⟨0x80, 1, .narrow, .c, [.acc], [.t], [.v], (.own 0xFFFFFFFF), 0x3F3, .product⟩, .mloop⟩,
  ⟨⟨0x80, 2, .wide16, .c, [.acc], [.t], [.nil], (.own 0xFFFFFFFF), 0x3F3, .product⟩, .mbatch⟩,
  ⟨⟨0x80, 2, .narrow, .c, [.acc], [.t], [.v], (.own 0xFFFFFFFF), 0x3F3, .product⟩, .mbatch⟩,
  ⟨⟨0x80, 3, .any, .c, [.s], [.s, .i], [], .immv, 0x000, .any⟩, .msplit⟩]

/-- The forms of opcode 0x81 (R74). -/
def rows81 : List Row := [
  ⟨⟨0x81, 0, .any, .c, [], [.s], [.s], (.own 0xFF), 0x3FF, .wload⟩, .wload⟩]

/-- The forms of opcode 0x82 (R74). -/
def rows82 : List Row := [
  ⟨⟨0x82, 0, .any, .c, [.acc], [], [], (.own 0xFFFFFFFF), 0x000, .any⟩, .aclr⟩,
  ⟨⟨0x82, 1, .dAcc, .c, [.acc], [.v], [], (.own 0xFFFF), 0x03F, .acmovIn⟩, .acmov⟩,
  ⟨⟨0x82, 1, .dNotAcc, .c, [.v], [.acc], [], (.own 0xFFFF), 0x03F, .acmovOut⟩, .acmov⟩,
  ⟨⟨0x82, 2, .any, .c, [.acc], [.s], [.s], (.own 0x0FFFFFFF), 0x1FF, .acld⟩, .acld⟩,
  ⟨⟨0x82, 3, .any, .c, [.acc], [.s], [.s], (.own 0x0FFFFFFF), 0x1FF, .acst⟩, .acst⟩]

/-- The forms of opcode 0x83 (R74). -/
def rows83 : List Row := [
  ⟨⟨0x83, 0, .any, .c, [.s, .z], [], [], .none, 0x001, .any⟩, .msync⟩,
  ⟨⟨0x83, 1, .any, .c, [.s], [], [], .none, 0x000, .any⟩, .mstat⟩]

/-- The forms of opcode 0x90 (R74). -/
def rows90 : List Row := [
  ⟨⟨0x90, 0, .any, .c, [], [.s], [], .none, 0x000, .any⟩, .tenq⟩,
  ⟨⟨0x90, 1, .any, .c, [], [.s], [], .none, 0x000, .any⟩, .genq⟩,
  ⟨⟨0x90, 2, (.modBit 0 false), .c, [], [], [], (.own 0xFFFFFFFF), 0x001, .any⟩, .tdepAdd⟩,
  ⟨⟨0x90, 2, (.modBit 0 true), .c, [], [], [], (.own 0xFFFFFFFF), 0x001, .any⟩, .tdepDone⟩,
  ⟨⟨0x90, 3, .any, .c, [], [], [], .none, 0x000, .any⟩, .retire⟩,
  ⟨⟨0x90, 4, .any, .c, [], [.s], [.s], (.own 0xFF), 0x000, .any⟩, .chain⟩]

/-- The forms of opcode 0x98 (R74). -/
def rows98 : List Row := [
  ⟨⟨0x98, 0, .any, .c, [.s, .z], [.s], [], .none, 0x007, .eng⟩, .xcopy⟩,
  ⟨⟨0x98, 1, .any, .c, [.s, .z], [.s], [], .none, 0x000, .any⟩, .xwait⟩,
  ⟨⟨0x98, 2, .any, .c, [.s, .z], [.s], [], .none, 0x000, .any⟩, .xstat⟩,
  ⟨⟨0x98, 3, .any, .c, [.s, .z], [.s], [.s], (.third [.c1] 0), 0x001, .any⟩, .crcv⟩]

/-- The forms of opcode 0xA0 (R74). -/
def rowsA0 : List Row := [
  ⟨⟨0xA0, 0, .any, .c, [], [.s, .i, .z], [], .immv, 0x000, .any⟩, .bquota⟩,
  ⟨⟨0xA0, 1, (.modBit 0 false), .m, [.v], [.v], [.s], .none, 0x001, .any⟩, .bmake⟩,
  ⟨⟨0xA0, 1, (.modBit 0 true), .m, [.v], [], [.s], .none, 0x001, .any⟩, .bmakeRaw⟩,
  ⟨⟨0xA0, 2, .any, .c, [], [.s], [], (.own 0xFF3F), 0x000, .ck⟩, .btrav⟩,
  ⟨⟨0xA0, 3, .any, .c, [.s], [], [], .none, 0x000, .any⟩, .bpop⟩,
  ⟨⟨0xA0, 4, (.modBit 0 false), .c, [], [.s, .i, .z], [], .immv, 0x001, .any⟩, .bfree⟩,
  ⟨⟨0xA0, 4, (.modBit 0 true), .c, [], [], [], .none, 0x001, .any⟩, .bfreeAll⟩,
  ⟨⟨0xA0, 5, .any, .c, [], [.v], [], (.own 0xFF), 0x000, .any⟩, .bemit⟩,
  ⟨⟨0xA0, 6, .any, .c, [.v], [], [], (.own 0xF), 0x000, .any⟩, .brecv⟩]

/-- The forms of opcode 0xA1 (R74). -/
def rowsA1 : List Row := [
  ⟨⟨0xA1, 0, .any, .m, [.v], [.v], [.s], .free, 0x000, .any⟩, .raymk⟩,
  ⟨⟨0xA1, 1, .any, .c, [], [.s], [.s], (.own 0xFF3F), 0x000, .ck⟩, .raytrav⟩,
  ⟨⟨0xA1, 2, .any, .c, [], [.s], [.v], .none, 0x000, .any⟩, .nodewr⟩]

/-- The forms of opcode 0xA2 (R74). -/
def rowsA2 : List Row := [
  ⟨⟨0xA2, 0, (.modBit 0 false), .m, [.v], [], [.v], (.own 0x3F), 0x001, .any⟩, .bcov⟩,
  ⟨⟨0xA2, 0, (.modBit 0 true), .m, [.v], [.s], [.v], .none, 0x001, .any⟩, .bcovCell⟩,
  ⟨⟨0xA2, 1, .any, .m, [.v], [.v], [.v], .none, 0x000, .any⟩, .bfoot⟩]

/-- The forms of opcode 0xB0 (R74). -/
def rowsB0 : List Row := [
  ⟨⟨0xB0, 0, .any, .c, [], [.s], [.v], .none, 0x000, .any⟩, .msend⟩,
  ⟨⟨0xB0, 1, .any, .c, [], [], [], .none, 0x000, .any⟩, .mret⟩,
  ⟨⟨0xB0, 2, .any, .c, [.s, .z], [.v], [], .none, 0x000, .any⟩, .waitq⟩,
  ⟨⟨0xB0, 3, .any, .c, [.s], [], [], .none, 0x000, .any⟩, .quietst⟩]

/-- The forms of opcode 0xB1 (R74). -/
def rowsB1 : List Row := [
  ⟨⟨0xB1, 0, .any, .c, [.s, .z], [.s], [], .none, 0x000, .any⟩, .himport⟩,
  ⟨⟨0xB1, 1, (.modBit 0 false), .c, [], [.s], [], .none, 0x001, .any⟩, .hrevoke⟩,
  ⟨⟨0xB1, 1, (.modBit 0 true), .c, [], [.s], [], .none, 0x001, .any⟩, .hrevokeExp⟩]

/-- The forms of opcode 0xB8 (R74). -/
def rowsB8 : List Row := [
  ⟨⟨0xB8, 0, .any, .c, [.s, .z], [], [.s, .z], .none, 0x000, .any⟩, .time⟩,
  ⟨⟨0xB8, 1, .any, .c, [.s], [], [], .none, 0x000, .any⟩, .twidth⟩,
  ⟨⟨0xB8, 2, .any, .c, [.s, .z], [.s], [.s, .z], .none, 0x000, .any⟩, .stsc⟩,
  ⟨⟨0xB8, 3, .any, .c, [.s, .z], [.s], [.s, .z], (.third [.c1] 0), 0x000, .any⟩, .ldas⟩,
  ⟨⟨0xB8, 4, .any, .c, [.s, .z], [.s], [], .none, 0x000, .any⟩, .cwait⟩]

/-- The forms of opcode 0xC0 (R74). -/
def rowsC0 : List Row := [
  ⟨⟨0xC0, 0, .any, .c, [], [], [], (.own 0xFFFF), 0x000, .any⟩, .trap⟩,
  ⟨⟨0xC0, 1, .any, .c, [], [], [], .none, 0x000, .any⟩, .eret⟩,
  ⟨⟨0xC0, 2, .any, .c, [], [], [], (.own 0xFFFF), 0x000, .any⟩, .brk⟩,
  ⟨⟨0xC0, 3, .any, .c, [.s], [.s], [.s, .z], .none, 0x000, .any⟩, .waiti⟩,
  ⟨⟨0xC0, 4, .haltOp, .c, [.s, .z], [.s], [], (.own 0x3), 0x000, .any⟩, .haltdHalt⟩,
  ⟨⟨0xC0, 4, (.immLow 1), .c, [.s, .z], [.s], [], (.own 0x3), 0x000, .any⟩, .haltdQuery⟩,
  ⟨⟨0xC0, 4, (.immLow 2), .c, [.s, .z], [.s], [], (.own 0x3), 0x000, .any⟩, .haltdResume⟩]

/-- The forms of opcode 0xC1 (R74). -/
def rowsC1 : List Row := [
  ⟨⟨0xC1, 0, .any, .c, [.s], [], [], (.own 0xFFF), 0x000, .any⟩, .rdsr⟩,
  ⟨⟨0xC1, 1, .any, .c, [], [.s, .z], [], (.own 0xFFF), 0x000, .any⟩, .wrsr⟩,
  ⟨⟨0xC1, 2, .any, .c, [.s], [.s], [], (.own 0x3), 0x000, .any⟩, .fltrd⟩,
  ⟨⟨0xC1, 3, .any, .c, [], [], [], .none, 0x000, .any⟩, .preack⟩]

/-- The forms of opcode 0xC2 (R74). -/
def rowsC2 : List Row := [
  ⟨⟨0xC2, 0, .any, .c, [.s], [.s, .z], [.s], .none, 0x000, .any⟩, .ctxsave⟩,
  ⟨⟨0xC2, 1, .any, .c, [], [.s], [], .none, 0x000, .any⟩, .ctxload⟩,
  ⟨⟨0xC2, 2, .any, .c, [], [.s, .z], [.s, .z], (.own 1), 0x000, .any⟩, .tlbinv⟩]

/-- Every assigned form, by primary opcode (R73, R74). -/
def rowsOf (opc : Nat) : List Row :=
  if opc = 0x00 then rows00
  else if opc = 0x01 then rows01
  else if opc = 0x02 then rows02
  else if opc = 0x03 then rows03
  else if opc = 0x04 then rows04
  else if opc = 0x05 then rows05
  else if opc = 0x20 then rows20
  else if opc = 0x21 then rows21
  else if opc = 0x22 then rows22
  else if opc = 0x23 then rows23
  else if opc = 0x24 then rows24
  else if opc = 0x25 then rows25
  else if opc = 0x26 then rows26
  else if opc = 0x50 then rows50
  else if opc = 0x51 then rows51
  else if opc = 0x52 then rows52
  else if opc = 0x53 then rows53
  else if opc = 0x54 then rows54
  else if opc = 0x55 then rows55
  else if opc = 0x56 then rows56
  else if opc = 0x57 then rows57
  else if opc = 0x70 then rows70
  else if opc = 0x71 then rows71
  else if opc = 0x72 then rows72
  else if opc = 0x80 then rows80
  else if opc = 0x81 then rows81
  else if opc = 0x82 then rows82
  else if opc = 0x83 then rows83
  else if opc = 0x90 then rows90
  else if opc = 0x98 then rows98
  else if opc = 0xA0 then rowsA0
  else if opc = 0xA1 then rowsA1
  else if opc = 0xA2 then rowsA2
  else if opc = 0xB0 then rowsB0
  else if opc = 0xB1 then rowsB1
  else if opc = 0xB8 then rowsB8
  else if opc = 0xC0 then rowsC0
  else if opc = 0xC1 then rowsC1
  else if opc = 0xC2 then rowsC2
  else []

/-- Opcode, function and fields of a Jeniz instruction; none for an event (R74). -/
def Instr.parts : Instr → Option (Nat × Nat × Fields)
  | .nop f => some (0x00, 0, f)
  | .yield f => some (0x00, 1, f)
  | .sadd f => some (0x01, 0, f)
  | .ssub f => some (0x01, 1, f)
  | .smul f => some (0x01, 2, f)
  | .smulh f => some (0x01, 3, f)
  | .sdiv f => some (0x01, 4, f)
  | .srem f => some (0x01, 5, f)
  | .sand f => some (0x01, 6, f)
  | .sor f => some (0x01, 7, f)
  | .sxor f => some (0x01, 8, f)
  | .sshl f => some (0x01, 9, f)
  | .sshr f => some (0x01, 10, f)
  | .ssra f => some (0x01, 11, f)
  | .smin f => some (0x01, 12, f)
  | .smax f => some (0x01, 13, f)
  | .spopc f => some (0x01, 14, f)
  | .sclz f => some (0x01, 15, f)
  | .smov f => some (0x02, 0, f)
  | .sli f => some (0x02, 1, f)
  | .slih f => some (0x02, 2, f)
  | .scmp f => some (0x02, 3, f)
  | .ssel f => some (0x02, 4, f)
  | .bra f => some (0x03, 0, f)
  | .brc f => some (0x03, 1, f)
  | .call f => some (0x03, 2, f)
  | .callIndirect f => some (0x03, 2, f)
  | .ret f => some (0x03, 3, f)
  | .loop f => some (0x03, 4, f)
  | .jidx f => some (0x03, 5, f)
  | .id f => some (0x04, 0, f)
  | .view f => some (0x04, 1, f)
  | .xset f => some (0x04, 2, f)
  | .xadd f => some (0x04, 3, f)
  | .many f => some (0x05, 0, f)
  | .mall f => some (0x05, 1, f)
  | .mlog f => some (0x05, 2, f)
  | .mfrom f => some (0x05, 3, f)
  | .vadd f => some (0x20, 0, f)
  | .vsub f => some (0x20, 1, f)
  | .vmul f => some (0x20, 2, f)
  | .vmulh f => some (0x20, 3, f)
  | .vfma f => some (0x20, 4, f)
  | .vfms f => some (0x20, 5, f)
  | .vmin f => some (0x20, 6, f)
  | .vmax f => some (0x20, 7, f)
  | .vabs f => some (0x20, 8, f)
  | .vneg f => some (0x20, 9, f)
  | .vdiv f => some (0x20, 10, f)
  | .vrcp f => some (0x21, 0, f)
  | .vrsq f => some (0x21, 1, f)
  | .vsqrt f => some (0x21, 2, f)
  | .vexp2 f => some (0x21, 3, f)
  | .vlog2 f => some (0x21, 4, f)
  | .vsinp f => some (0x21, 5, f)
  | .vcosp f => some (0x21, 6, f)
  | .vand f => some (0x22, 0, f)
  | .vor f => some (0x22, 1, f)
  | .vxor f => some (0x22, 2, f)
  | .vnot f => some (0x22, 3, f)
  | .vshl f => some (0x22, 4, f)
  | .vshr f => some (0x22, 5, f)
  | .vsra f => some (0x22, 6, f)
  | .vpopc f => some (0x22, 7, f)
  | .vclz f => some (0x22, 8, f)
  | .vcmp f => some (0x23, 0, f)
  | .vsel f => some (0x23, 1, f)
  | .vcvt f => some (0x24, 0, f)
  | .vpack f => some (0x24, 1, f)
  | .vunpk f => some (0x24, 2, f)
  | .vscale f => some (0x24, 3, f)
  | .vquant f => some (0x24, 4, f)
  | .vmov f => some (0x25, 0, f)
  | .vbc f => some (0x25, 1, f)
  | .vext f => some (0x25, 2, f)
  | .vins f => some (0x25, 3, f)
  | .vshuf f => some (0x25, 4, f)
  | .vidx f => some (0x25, 5, f)
  | .vred f => some (0x26, 0, f)
  | .vscan f => some (0x26, 1, f)
  | .ld f => some (0x50, 0, f)
  | .ldFormat f => some (0x50, 0, f)
  | .st f => some (0x50, 1, f)
  | .sld f => some (0x50, 2, f)
  | .sst f => some (0x50, 3, f)
  | .ldg f => some (0x50, 4, f)
  | .stg f => some (0x50, 5, f)
  | .lds f => some (0x51, 0, f)
  | .sts f => some (0x51, 1, f)
  | .ldsb f => some (0x51, 2, f)
  | .atom f => some (0x52, 0, f)
  | .atomsc f => some (0x52, 1, f)
  | .cas f => some (0x52, 2, f)
  | .lease f => some (0x53, 0, f)
  | .unlease f => some (0x53, 1, f)
  | .qlock f => some (0x53, 2, f)
  | .qunlock f => some (0x53, 3, f)
  | .acq f => some (0x54, 0, f)
  | .rel f => some (0x54, 1, f)
  | .fence f => some (0x54, 2, f)
  | .acpy f => some (0x55, 0, f)
  | .acpyb f => some (0x55, 1, f)
  | .pref f => some (0x56, 0, f)
  | .retain f => some (0x56, 1, f)
  | .cacheClean f => some (0x56, 2, f)
  | .cacheEvict f => some (0x56, 2, f)
  | .cacheDemote f => some (0x56, 2, f)
  | .cacheIinv f => some (0x56, 2, f)
  | .evwait f => some (0x57, 0, f)
  | .evpoll f => some (0x57, 1, f)
  | .qsend f => some (0x70, 0, f)
  | .qrecv f => some (0x70, 1, f)
  | .qtrys f => some (0x70, 2, f)
  | .qtryr f => some (0x70, 3, f)
  | .qallowInit f => some (0x70, 4, f)
  | .qallow f => some (0x70, 4, f)
  | .qdepth f => some (0x70, 5, f)
  | .bexp f => some (0x71, 0, f)
  | .barv f => some (0x71, 1, f)
  | .bwait f => some (0x71, 2, f)
  | .btest f => some (0x71, 3, f)
  | .narr f => some (0x72, 0, f)
  | .nwait f => some (0x72, 1, f)
  | .njoin f => some (0x72, 2, f)
  | .nleave f => some (0x72, 3, f)
  | .mtile f => some (0x80, 0, f)
  | .mloop f => some (0x80, 1, f)
  | .mbatch f => some (0x80, 2, f)
  | .msplit f => some (0x80, 3, f)
  | .wload f => some (0x81, 0, f)
  | .aclr f => some (0x82, 0, f)
  | .acmov f => some (0x82, 1, f)
  | .acld f => some (0x82, 2, f)
  | .acst f => some (0x82, 3, f)
  | .msync f => some (0x83, 0, f)
  | .mstat f => some (0x83, 1, f)
  | .tenq f => some (0x90, 0, f)
  | .genq f => some (0x90, 1, f)
  | .tdepAdd f => some (0x90, 2, f)
  | .tdepDone f => some (0x90, 2, f)
  | .retire f => some (0x90, 3, f)
  | .chain f => some (0x90, 4, f)
  | .xcopy f => some (0x98, 0, f)
  | .xwait f => some (0x98, 1, f)
  | .xstat f => some (0x98, 2, f)
  | .crcv f => some (0x98, 3, f)
  | .bquota f => some (0xA0, 0, f)
  | .bmake f => some (0xA0, 1, f)
  | .bmakeRaw f => some (0xA0, 1, f)
  | .btrav f => some (0xA0, 2, f)
  | .bpop f => some (0xA0, 3, f)
  | .bfree f => some (0xA0, 4, f)
  | .bfreeAll f => some (0xA0, 4, f)
  | .bemit f => some (0xA0, 5, f)
  | .brecv f => some (0xA0, 6, f)
  | .raymk f => some (0xA1, 0, f)
  | .raytrav f => some (0xA1, 1, f)
  | .nodewr f => some (0xA1, 2, f)
  | .bcov f => some (0xA2, 0, f)
  | .bcovCell f => some (0xA2, 0, f)
  | .bfoot f => some (0xA2, 1, f)
  | .msend f => some (0xB0, 0, f)
  | .mret f => some (0xB0, 1, f)
  | .waitq f => some (0xB0, 2, f)
  | .quietst f => some (0xB0, 3, f)
  | .himport f => some (0xB1, 0, f)
  | .hrevoke f => some (0xB1, 1, f)
  | .hrevokeExp f => some (0xB1, 1, f)
  | .time f => some (0xB8, 0, f)
  | .twidth f => some (0xB8, 1, f)
  | .stsc f => some (0xB8, 2, f)
  | .ldas f => some (0xB8, 3, f)
  | .cwait f => some (0xB8, 4, f)
  | .trap f => some (0xC0, 0, f)
  | .eret f => some (0xC0, 1, f)
  | .brk f => some (0xC0, 2, f)
  | .waiti f => some (0xC0, 3, f)
  | .haltdHalt f => some (0xC0, 4, f)
  | .haltdQuery f => some (0xC0, 4, f)
  | .haltdResume f => some (0xC0, 4, f)
  | .rdsr f => some (0xC1, 0, f)
  | .wrsr f => some (0xC1, 1, f)
  | .fltrd f => some (0xC1, 2, f)
  | .preack f => some (0xC1, 3, f)
  | .ctxsave f => some (0xC2, 0, f)
  | .ctxload f => some (0xC2, 1, f)
  | .tlbinv f => some (0xC2, 2, f)
  | .hqtailDoorbell _ _ _ => none
  | .hqctlWrite _ _ _ => none
  | .queueEntryFetch _ _ => none
  | .recordAcceptance _ => none
  | .gangPlacement _ _ => none
  | .agingReservation _ => none
  | .activation _ _ => none
  | .deactivation _ => none
  | .regrouping _ _ _ => none
  | .chainSuccessorPlacement _ _ => none
  | .gangRetire _ => none
  | .taskRetire _ => none
  | .launchComplete _ => none
  | .flushReadComplete _ _ => none
  | .evictionRequest _ => none
  | .prenoteTimeout _ => none
  | .eviction _ => none
  | .restore _ => none
  | .walkComplete _ _ _ => none
  | .peerStoreAck _ => none
  | .homeRefusal _ => none
  | .leaseGrant _ _ _ => none
  | .leaseExpiry _ _ _ => none
  | .copyComplete _ _ _ => none
  | .kStep _ _ => none
  | .matrixOpComplete _ _ _ => none
  | .dillJobStart _ => none
  | .dillJobComplete .. => none
  | .routineTimeLimit .. => none
  | .dxrtWrite _ _ _ _ => none
  | .beamSplit _ _ => none
  | .beamEndsClear _ _ => none
  | .traversalComplete _ _ _ => none
  | .traversalFault _ _ _ => none
  | .rayTrace _ _ => none
  | .rasteriser _ => none
  | .binnerRecord _ => none
  | .blender _ => none
  | .beamRequest _ => none
  | .messageArrival _ => none
  | .messageDelivery _ => none
  | .waveStart => none
  | .wavePass _ => none
  | .packetLoss _ => none
  | .linkSleep _ => none
  | .linkWake _ => none
  | .deadDie _ => none
  | .syncExchange _ _ _ => none
  | .horizonAdvance => none
  | .horizonDelivery _ => none
  | .stampedStoreArrival _ => none
  | .commitWaitCap _ => none
  | .cwaitCap _ => none
  | .waitiTimeout _ => none
  | .ptmExchange _ => none
  | .linkDown => none
  | .linkUp _ => none
  | .computeDieReset _ _ => none
  | .functionReady _ _ _ => none
  | .firmwareBoot _ _ _ => none
  | .measurementExtend _ _ => none
  | .budgetControl _ _ _ _ => none
  | .worldRegisterWrite _ _ _ => none
  | .worldChangeEffect _ => none
  | .formatWindowWrite _ _ _ _ => none
  | .residencyRangeWrite _ _ _ _ => none
  | .cmpcfgWrite _ _ => none
  | .registerWrite _ _ _ => none
  | .uncorrectableError _ => none
  | .illegalInstruction _ _ => none
  | .fetchFault _ _ _ => none

end Sys2Proof
end

