-- ==== Sys2Proof/WellFormed.lean ====
section
/-! DEFINITION. Which instructions are well formed: a Jeniz instruction that some word encodes (spec/04 R60-R74), an
event whose numbers lie in the ranges the spec gives the parts it names. -/

namespace Sys2Proof

/-- The form a word takes among those that share its opcode and function. -/
def findRow (opc fn : Nat) (d a b : BitVec 12) (mod : BitVec 10) (imm : BitVec 32) : Option Row :=
  (rowsOf opc).find? fun r => decide (r.form.fn = fn) && r.form.sel.ok d a b mod imm

/-- An event names parts that exist (R9, R11, R350, R444). -/
def Instr.eventWf : Instr → Bool
  | .hqtailDoorbell dev q _ | .hqctlWrite dev q _ | .queueEntryFetch dev q => dev < 8 && q < 16
  | .gangPlacement die _ | .agingReservation die | .linkSleep die | .linkWake die | .deadDie die
  | .horizonDelivery die | .computeDieReset die _ | .cmpcfgWrite die _ | .budgetControl die .. | .syncExchange die .. => die < 8
  | .regrouping die node n => die < 8 && node < 256 && 0 < n && n ≤ 64
  | .activation die core | .chainSuccessorPlacement die core | .kStep die core => die < 8 && core < 40
  | .walkComplete die core _ | .leaseGrant die core _ | .leaseExpiry die core _ | .copyComplete die core _
  | .matrixOpComplete die core _ => die < 8 && core < 40
  | .dillJobStart e | .dillJobComplete e .. | .routineTimeLimit e .. | .dxrtWrite e .. => e < 34
  | .functionReady mem bit _ => if mem then bit < 64 else bit < 44
  | .measurementExtend slot _ => slot = 1 || slot = 2
  | .worldRegisterWrite r .. => r < 3
  | .worldChangeEffect b => b < 122
  | .formatWindowWrite die w .. => die < 8 && w < 16
  | .residencyRangeWrite die r .. => die < 8 && r < 8
  | _ => true

/-- Well-formedness of an instruction. -/
def Instr.wf (i : Instr) : Bool :=
  match i.parts with
  | some (opc, fn, f) =>
    (match findRow opc fn f.d.bits f.a.bits f.b.bits f.mod f.imm with
     | some r => r.form.legal f && decide (r.ctor f = i)
     | none => false)
  | none => i.eventWf

end Sys2Proof
end

