-- ==== Sys2Proof/Decode.lean ====
section
/-! DEFINITION. Decoding a 96-bit word (spec/04 R56-R77) and, after it, encoding a Jeniz instruction. -/

namespace Sys2Proof

open Sys2Proof.Machine

/-- Detail codes of the illegal-instruction trap (R77). -/
inductive Illegal where
  | opcode | function | rsvbit | operand | modval
  deriving DecidableEq, Repr

/-- The detail code's number (R77). -/
def Illegal.code : Illegal → BitVec 8
  | .opcode => 1 | .function => 2 | .rsvbit => 3 | .operand => 4 | .modval => 5

/-- OPC, FN, GN, GRD, D, A, B, MOD and IMM of a word (R56). -/
def wOpc (w : IWord) : Nat := (w.extractLsb' 88 8).toNat
def wFn (w : IWord) : Nat := (w.extractLsb' 82 6).toNat
def wGn (w : IWord) : Bool := w.getLsbD 81
def wGrd (w : IWord) : BitVec 3 := w.extractLsb' 78 3
def wD (w : IWord) : BitVec 12 := w.extractLsb' 66 12
def wA (w : IWord) : BitVec 12 := w.extractLsb' 54 12
def wB (w : IWord) : BitVec 12 := w.extractLsb' 42 12
def wMod (w : IWord) : BitVec 10 := w.extractLsb' 32 10
def wImm (w : IWord) : BitVec 32 := w.extractLsb' 0 32

/-- The operand of a position, none where the field is illegal there as an operand. A position without kinds, or with
nil alone, is unused. -/
def posDecode (ks : List PK) (raw : BitVec 12) : Option Opnd :=
  if ks = [] || ks = [.nil] then (if raw = 0 then some .none else none) else Opnd.ofBits raw

/-- An unused field that is not 0x000 (R77, RSVBIT). -/
def unusedSet (ks : List PK) (raw : BitVec 12) : Bool := ks = [] && raw ≠ 0

/-- The instruction a word of a known form stands for, or the lowest detail code that applies (R77). IMM counts as used where IMMV stands at
A or B, though the form refuses it there, so that such a word gives OPERAND; where it stands at D alone IMM is unused and gives RSVBIT (log
entry 13). -/
def decodeForm (r : Row) (w : IWord) : Except Illegal Instr :=
  let fm := r.form
  if unusedSet fm.d (wD w) || unusedSet fm.a (wA w) || unusedSet fm.b (wB w)
      || !immOk fm.imm (wA w = 0xC18 || wB w = 0xC18) (wImm w)
      || wMod w &&& ~~~(BitVec.ofNat 10 fm.modMask) ≠ 0 then .error .rsvbit
  else
    match posDecode fm.d (wD w), posDecode fm.a (wA w), posDecode fm.b (wB w) with
    | some d, some a, some b =>
      let f : Fields := ⟨wGn w, wGrd w, d, a, b, wMod w, wImm w⟩
      if !fm.operandsOk f then .error .operand
      else if !fm.rule.ok f then .error .modval
      else .ok (r.ctor f)
    | _, _, _ => .error .operand

/-- Decoding in full, before the guard is evaluated (R77). -/
def decodeWord (w : IWord) : Except Illegal Instr :=
  if (rowsOf (wOpc w)).isEmpty then .error .opcode
  else if ((rowsOf (wOpc w)).filter fun r => decide (r.form.fn = wFn w)).isEmpty then .error .function
  else
    match findRow (wOpc w) (wFn w) (wD w) (wA w) (wB w) (wMod w) (wImm w) with
    | some r => decodeForm r w
    | none => .error .modval

/-- The word held by 12 bytes, least significant first (R57). -/
def wordOfBytes (bs : List Byte) : IWord := BitVec.ofNat 96 (leVal bs)

/-- The instruction read from a word given as a number whose bit 0 is the word's bit 0. -/
def decodeTableWord (_nbits w : Nat) : Option Instr :=
  match decodeWord (wordOfBytes (leBytes w 12)) with
  | .ok i => some i
  | .error _ => none

/-- A word from its fields (R56). -/
def packWord (opc fn : Nat) (f : Fields) : IWord :=
  (BitVec.ofNat 8 opc) ++ (BitVec.ofNat 6 fn) ++ (BitVec.ofBool f.gn) ++ f.grd ++ f.d.bits ++ f.a.bits ++ f.b.bits ++ f.mod ++ f.imm

/-- The word of a Jeniz instruction; none for an event, which no word encodes. -/
def encode (i : Instr) : Option IWord := i.parts.map fun p => packWord p.1 p.2.1 p.2.2

end Sys2Proof
end

