-- ==== Sys2Proof/Config.lean ====
section
/-! DEFINITION. Values the spec leaves open: constants with no body, so that nothing can be proved of their values. -/

namespace Sys2Proof.Config

/-- The fixed FP32 result of a function of opcode 0x21 (R154: one fixed value for each input, bounded and not given).
fn is the FN of R154. Free value: log entry 5. -/
opaque transcendental (fn : Nat) (a : BitVec 32) : BitVec 32

/-- The FP32 solid angle the beam engine computes for given record bits (R367: within 2^-22 of the true value,
one result for equal records). Free value: log entry 6. -/
opaque solidAngle (record : BitVec 2048) : BitVec 32

/-- The FP32 footprint diameter for OMEGA, t, and |U x V| as BFOOT forms them (R399: within 4 ulp). Free value: log entry 6. -/
opaque footprint (record : BitVec 2048) (t : BitVec 32) : BitVec 32

/-- The FP32 value with which an engine evaluates a plane that holds an infinite coefficient (R367 evaluates stored finite values; a
plane it forms can round to an infinity). Free value: log entry 6. -/
opaque infiniteCoefficient (word : BitVec 32) : BitVec 32

/-- FP32 weight of a piece of a beam whose OMEGA is 0 (R373 divides by it). Free value: log entry 6. -/
opaque zeroOmegaWeight (piece : BitVec 2048) : BitVec 32

/-- THIT of a lost ray, by its descriptor, the numbers of its record and those of the scene's leaves (R367, R378: no value is given, and equal
records, descriptors and hierarchies give equal bits). Free value: log entry 53. -/
opaque lostRay (descriptor : BitVec 512) (ray leaves : List Nat) : BitVec 32

/-- The n-th free value (R4): what an undefined result holds. Free value: log entry 4. -/
opaque freeValue (n : Nat) : BitVec 64

/-- The fixed hash of physical address bits [34:7] that selects lines of a residency range (R188). Free value: log entry 7. -/
opaque lineHash (bits : BitVec 28) : BitVec 8

/-- The memory channel, 0-7, that holds a line of a die's device memory (R455, R456: the interleave is not given).
Free value: log entry 9. -/
opaque channelOf (line : Nat) : BitVec 3

/-- The L2 slice (bits [13:10]) and the set in it that hold a superblock of a die (R11, R190: 16 slices; the interleave is not given).
Free value: log entry 9. -/
opaque l2Index (superblock : Nat) : BitVec 14

/-- The set of the stacked cache that holds a line of a die (R11, R188; not given). Free value: log entry 9. -/
opaque llcIndex (line : Nat) : BitVec 17

/-- The size and scheme code of a line when compressed, by the 1,024 bits it holds (R190: one to four sectors; the scheme is not given).
Free value: log entry 58. -/
opaque sizeCode (line : Nat) : BitVec 4

/-- Scale of a block whose scale word would lie past its die's memory (R140 states none). Free value: log entry 9. -/
opaque absentScale (die block : Nat) : BitVec 10

/-- Records that a die's graph record store holds (R393 names the store and not its size). Free value: log entry 53. -/
opaque recordStore : BitVec 32

/-- SHAKE256 digest of the firmware key, and the least image version, fused into the hub die (R459). Implementation's values: log entry
59. -/
opaque fusedDigest : BitVec 512
opaque fusedVersion : Nat

/-- The version an image states (R459: where it stands in the image is not given). Free value: log entry 59. -/
opaque imageVersion (image : List (BitVec 8)) : Nat

/-- A byte that the core of a copy engine reads outside its stream buffer (R350: its routine reaches no other memory). Free value: log
entry 28. -/
opaque absentByte (address : Nat) : BitVec 8

/-- Whether that core writes ones to an agnostic vector element of the instruction at an address, or leaves it (RISC-V's vector extension
allows both). Free value: log entry 28. -/
opaque agnosticOnes (pc element : Nat) : Bool

/-- Where that core divides the operands of an unordered floating-point sum in two (RISC-V's vector extension allows any tree). Free value:
log entry 28. -/
opaque sumSplit (operands : List Nat) : Nat

/-- COMPRESS's stream for a source (R354: the choice among valid streams is fixed for each firmware release), and, where the source ends at a
fault, what it has written of a stream for n bytes after the bytes it has seen, or the length of that. Free values: log entry 28. -/
opaque compressed (source : List (BitVec 8)) : List (BitVec 8)
opaque begun (n : Nat) (seen : List (BitVec 8)) : List (BitVec 8)
opaque begunLength (n : Nat) (seen : List (BitVec 8)) : Nat

/-- OFS and LEN that firmware gives to entries 0-3 of an engine's routine table (R351). Free value: log entry 28. -/
opaque firmwareRoutine (engine entry : Nat) : BitVec 64

end Sys2Proof.Config
end

