-- ==== Sys2Proof/Machine/Float.lean ====
section
/-! DEFINITION. Number formats and rounding (spec/09 R127-R136): exact values, the rounding helpers, the element grids. -/

namespace Sys2Proof.Machine

/-- An exact rational: num / den, den positive. -/
structure Q where
  num : Int
  den : Nat
  deriving DecidableEq, Repr

def Q.ofInt (n : Int) : Q := ⟨n, 1⟩
def Q.add (a b : Q) : Q := ⟨a.num * b.den + b.num * a.den, a.den * b.den⟩
def Q.neg (a : Q) : Q := ⟨-a.num, a.den⟩
def Q.sub (a b : Q) : Q := a.add b.neg
def Q.mul (a b : Q) : Q := ⟨a.num * b.num, a.den * b.den⟩
/-- a ÷ b for a nonzero b. -/
def Q.div (a b : Q) : Q := ⟨a.num * b.den * b.num.sign, a.den * b.num.natAbs⟩
def Q.abs (a : Q) : Q := ⟨a.num.natAbs, a.den⟩
def Q.lt (a b : Q) : Bool := a.num * b.den < b.num * a.den
def Q.le (a b : Q) : Bool := a.num * b.den ≤ b.num * a.den
def Q.isZero (a : Q) : Bool := a.num = 0
/-- 2^k. -/
def Q.pow2 (k : Int) : Q := if k < 0 then ⟨1, 2 ^ (-k).toNat⟩ else ⟨(2 ^ k.toNat : Nat), 1⟩
/-- Numerator and denominator without common factors. -/
def Q.norm (a : Q) : Q := let g := Nat.gcd a.num.natAbs a.den; ⟨a.num / (g : Int), a.den / g⟩
def Q.max (a b : Q) : Q := if a.lt b then b else a
def Q.min (a b : Q) : Q := if b.lt a then b else a

/-- floor(log2 q) of a positive q. -/
def Q.log2 (q : Q) : Int :=
  let e : Int := (Nat.log2 q.num.natAbs : Int) - Nat.log2 q.den
  if (Q.pow2 e).le q then (if (Q.pow2 (e + 1)).le q then e + 1 else e) else e - 1

/-- Square root of a positive q for rounding: exact where the root is rational, otherwise a value strictly between the two neighbouring
multiples of 2^-k that enclose the root, with at least p significant bits. -/
def Q.sqrt (q : Q) (p : Nat) : Q :=
  let r := q.norm
  let a := Nat.sqrt r.num.natAbs
  let b := Nat.sqrt r.den
  if a * a = r.num.natAbs && b * b = r.den then ⟨a, b⟩
  else
    let k : Nat := p + 2 + (Nat.log2 q.den + 1) / 2
    ⟨2 * Nat.sqrt (q.num.natAbs * 4 ^ k / q.den) + 1, 2 ^ (k + 1)⟩

/-- Rounding modes, the RND codes of R67. -/
inductive RM where
  | rne | rtz | rup | rdn
  deriving DecidableEq, Repr

def RM.ofCode (n : Nat) : RM := if n = 0 then .rne else if n = 1 then .rtz else if n = 2 then .rup else .rdn

/-- An exact element value: NaN, an infinity or a zero with its sign (true: negative), or a nonzero real. -/
inductive FV where
  | nan
  | inf (s : Bool)
  | zero (s : Bool)
  | fin (q : Q)
  deriving DecidableEq, Repr

/-- A floating format (R127, R128). maxM: the largest M at the largest E of a finite value. -/
structure Fmt where
  width : Nat
  mb : Nat
  bias : Nat
  maxE : Nat
  maxM : Nat
  hasInf : Bool
  hasNan : Bool
  canon : Nat
  deriving DecidableEq, Repr

/-- The format of a TYPE code 0x08-0x0E (R68, R127, R128). -/
def fmtOf (t : Nat) : Fmt :=
  if t = 8 then ⟨32, 23, 127, 254, 0x7FFFFF, true, true, 0x7FC00000⟩
  else if t = 9 then ⟨16, 7, 127, 254, 0x7F, true, true, 0x7FC0⟩
  else if t = 10 then ⟨16, 10, 15, 30, 0x3FF, true, true, 0x7E00⟩
  else if t = 11 then ⟨8, 3, 7, 15, 6, false, true, 0x7F⟩
  else if t = 12 then ⟨8, 2, 15, 30, 3, true, true, 0x7E⟩
  else if t = 13 then ⟨6, 2, 3, 7, 3, false, false, 0⟩
  else ⟨6, 3, 1, 3, 7, false, false, 0⟩

def fp32 : Fmt := fmtOf 8

/-- Sign bit position and the signed encoding of a magnitude pattern. -/
def Fmt.withSign (f : Fmt) (s : Bool) (m : Nat) : Nat := if s then m + 2 ^ (f.width - 1) else m

/-- Largest finite and infinity patterns. -/
def Fmt.largest (f : Fmt) (s : Bool) : Nat := f.withSign s (f.maxE * 2 ^ f.mb + f.maxM)
def Fmt.infinity (f : Fmt) (s : Bool) : Nat := f.withSign s ((f.maxE + 1) * 2 ^ f.mb)

/-- The value of an encoding (R127, R128). -/
def Fmt.decode (f : Fmt) (v : Nat) : FV :=
  let s := bit v (f.width - 1)
  let e := bits v (f.width - 2) f.mb
  let m := v % 2 ^ f.mb
  let sg : Int := if s then -1 else 1
  if f.hasNan && (e > f.maxE || (e = f.maxE && m > f.maxM)) then
    (if f.hasInf && m = 0 then .inf s else .nan)
  else if e = 0 then
    (if m = 0 then .zero s else .fin ((Q.ofInt (sg * m)).mul (Q.pow2 (1 - (f.bias : Int) - f.mb))))
  else .fin ((Q.ofInt (sg * (m + 2 ^ f.mb : Nat))).mul (Q.pow2 ((e : Int) - f.bias - f.mb)))

/-- A pattern is subnormal. -/
def Fmt.subnormal (f : Fmt) (v : Nat) : Bool := bits v (f.width - 2) f.mb = 0 && v % 2 ^ f.mb ≠ 0

/-- The value with subnormals read as zero when ftz (R136). -/
def Fmt.read (f : Fmt) (ftz : Bool) (v : Nat) : FV :=
  if ftz && f.subnormal v then .zero (bit v (f.width - 1)) else f.decode v

/-- Rounds a nonnegative rational a / b to an integer by the mode, s the sign of the value (R133). -/
def roundNat (rm : RM) (s : Bool) (a b : Nat) : Nat :=
  let n := a / b
  let r := a % b
  let up : Bool := match rm with
    | .rne => 2 * r > b || (2 * r = b && n % 2 = 1)
    | .rtz => false
    | .rup => !s && r ≠ 0
    | .rdn => s && r ≠ 0
  if up then n + 1 else n

/-- Rounds a real to the nearest integer of the mode. -/
def roundInt (rm : RM) (q : Q) : Int :=
  let s := decide (q.num < 0)
  let n := roundNat rm s q.num.natAbs q.den
  if s then -(n : Int) else n

/-- A rounded magnitude: pattern without sign (E and M joined), and whether it exceeds the largest finite value. -/
structure Rounded where
  mag : Nat
  beyond : Bool
  deriving DecidableEq, Repr

/-- Rounds a positive magnitude onto the format's grid with the exponent unbounded above (R133). -/
def Fmt.roundMag (f : Fmt) (rm : RM) (s : Bool) (q : Q) : Rounded :=
  let kmin : Int := 1 - (f.bias : Int) - f.mb
  let k0 : Int := q.log2 - f.mb
  let k := if k0 < kmin then kmin else k0
  let t := q.div (Q.pow2 k)
  let n := roundNat rm s t.num.natAbs t.den
  let (n, k) := if n = 2 ^ (f.mb + 1) then (n / 2, k + 1) else (n, k)
  if n < 2 ^ f.mb then ⟨n, false⟩
  else
    let e := (k + f.mb + f.bias).toNat
    let m := n - 2 ^ f.mb
    ⟨e * 2 ^ f.mb + m, e > f.maxE || (e = f.maxE && m > f.maxM)⟩

/-- What an infinite result is written as (R134). -/
def Fmt.infResult (f : Fmt) (sat s : Bool) : Nat :=
  if sat then f.largest s
  else if f.hasInf then f.infinity s
  else if f.hasNan then f.canon
  else f.largest s

/-- fround of R149: rounding, overflow by R134, flush by R136, canonical NaN by R128. -/
def Fmt.fround (f : Fmt) (rm : RM) (sat ftz : Bool) (x : FV) : Nat :=
  match x with
  | .nan => f.canon
  | .inf s => f.infResult sat s
  | .zero s => f.withSign s 0
  | .fin q =>
    let s := decide (q.num < 0)
    let r := f.roundMag rm s q.abs
    if r.beyond then
      (if sat || rm = .rtz || (rm = .rup && s) || (rm = .rdn && !s) then f.largest s else f.infResult false s)
    else if ftz && r.mag ≠ 0 && r.mag < 2 ^ f.mb then f.withSign s 0
    else f.withSign s r.mag

/-- round_rne of R133 into a format with FTZ and SAT clear. -/
def Fmt.rne (f : Fmt) (x : FV) : Nat := f.fround .rne false false x

def FV.neg : FV → FV
  | .nan => .nan | .inf s => .inf !s | .zero s => .zero !s | .fin q => .fin q.neg
def FV.abs : FV → FV
  | .nan => .nan | .inf _ => .inf false | .zero _ => .zero false | .fin q => .fin q.abs
def FV.sign : FV → Bool
  | .nan => false | .inf s => s | .zero s => s | .fin q => q.num < 0
/-- A finite value as a rational; zero for the others. -/
def FV.toQ : FV → Q
  | .fin q => q | _ => ⟨0, 1⟩
def FV.isNan : FV → Bool
  | .nan => true | _ => false
def FV.isInf : FV → Bool
  | .inf _ => true | _ => false
/-- A real as a value; an exact zero takes the given sign. -/
def FV.ofQ (s : Bool) (q : Q) : FV := if q.isZero then .zero s else .fin q

/-- a + b: infinities of opposite sign give NaN; an exact zero sum is +0, or -0 under RDN (R133, R152). -/
def FV.add (rm : RM) : FV → FV → FV
  | .nan, _ | _, .nan => .nan
  | .inf s, .inf t => if s = t then .inf s else .nan
  | .inf s, _ | _, .inf s => .inf s
  | .zero s, .zero t => if s = t then .zero s else .zero (rm = .rdn)
  | .zero _, .fin q | .fin q, .zero _ => .fin q
  | .fin p, .fin q => FV.ofQ (rm = .rdn) (p.add q)

/-- a × b (R152). -/
def FV.mul (a b : FV) : FV :=
  let s := a.sign != b.sign
  match a, b with
  | .nan, _ | _, .nan => .nan
  | .inf _, .zero _ | .zero _, .inf _ => .nan
  | .inf _, _ | _, .inf _ => .inf s
  | .zero _, _ | _, .zero _ => .zero s
  | .fin p, .fin q => .fin (p.mul q)

/-- a ÷ b (R152). -/
def FV.div (a b : FV) : FV :=
  let s := a.sign != b.sign
  match a, b with
  | .nan, _ | _, .nan => .nan
  | .inf _, .inf _ | .zero _, .zero _ => .nan
  | .inf _, _ => .inf s
  | _, .inf _ => .zero s
  | .zero _, _ => .zero s
  | .fin _, .zero _ => .inf s
  | .fin p, .fin q => .fin (p.div q)

/-- √a, for rounding to at most 30 significant bits (R154). -/
def FV.sqrt : FV → FV
  | .nan => .nan
  | .zero s => .zero s
  | .inf s => if s then .nan else .inf false
  | .fin q => if q.num < 0 then .nan else .fin (q.sqrt (40 + Nat.log2 q.den))

/-- The order of two values that are not NaN: -1, 0 or 1; zeros equal. -/
def FV.cmp (a b : FV) : Int :=
  let r : FV → Int := fun v => match v with | .inf s => if s then -1 else 1 | _ => 0
  if a.isInf || b.isInf then (r a - r b).sign
  else (a.toQ.sub b.toQ).num.sign

/-- minimumNumber and maximumNumber of IEEE 754-2019, -0 below +0 (R152). -/
def FV.minMax (max : Bool) (a b : FV) : FV :=
  match a, b with
  | .nan, .nan => .nan
  | .nan, x | x, .nan => x
  | x, y =>
    let lt := x.cmp y < 0 || (x.cmp y = 0 && x.sign && !y.sign)
    if lt = max then y else x

/-! ## Block formats (R130, R132) -/

/-- X(s) of a 10-bit scale (R130, R149). -/
def scaleX (s : Nat) : Q := Q.pow2 ((s % 256 : Nat) - 127 : Int)

/-- Magnitudes of the sign-magnitude BLK4 decodings, in eighths, for codes 0-8 (code 8 stands beyond the grid). -/
def blkMags (ty : Nat) : List Nat :=
  if ty = 1 then [0, 4, 8, 12, 16, 24, 32, 48, 64]
  else if ty = 2 then [0, 1, 2, 4, 8, 16, 32, 64, 128]
  else [0, 8, 16, 24, 32, 48, 64, 96, 128]

/-- Element value of a 4-bit code under a decoding (R132). -/
def blkDecode (ty code : Nat) : FV :=
  if ty = 0 then FV.ofQ false (Q.ofInt (sgn code 4))
  else
    let m := (blkMags ty).getD (code % 8) 0
    let s := decide (8 ≤ code)
    FV.ofQ s ⟨if s then -(m : Int) else m, 8⟩

/-- Bits per element of a narrow format code (R129). -/
def narrowWidth (t : Nat) : Nat := if t = 11 || t = 12 then 8 else if t = 13 || t = 14 then 6 else 4

/-- Element value before scaling of a narrow code (R127, R132). -/
def narrowDecode (t ty code : Nat) : FV := if t = 15 then blkDecode ty code else (fmtOf t).decode code

/-- Element value with its block's scale; a NaN block gives NaN (R130). -/
def scaledDecode (t s code : Nat) : FV :=
  if s % 256 = 255 then .nan
  else
    match narrowDecode t (s / 256 % 4) code with
    | .fin q => .fin (q.mul (scaleX s))
    | v => v

/-- Outcome of placing one value on an element grid: code and the events counted (R143, R161). -/
structure Quant where
  code : Nat
  sat : Bool := false
  flush : Bool := false
  nan : Bool := false
  deriving DecidableEq, Repr

/-- The grid code of magnitude q under a sign-magnitude BLK4 decoding; 8 stands beyond the grid (R133: ties to the code
with bit 0 clear). -/
def blkRound (rm : RM) (s : Bool) (ty : Nat) (q : Q) : Nat :=
  let ms := blkMags ty
  let v := q.mul (Q.ofInt 8)
  let lo := ((List.range 9).filter fun i => (Q.ofInt (ms.getD i 0)).le v).getLast?.getD 0
  if lo = 8 then 8
  else
    let a := Q.ofInt (ms.getD lo 0)
    let b := Q.ofInt (ms.getD (lo + 1) 0)
    if a = v || (v.le a && a.le v) then lo
    else
      let dl := v.sub a
      let dh := b.sub v
      match rm with
      | .rne => if dl.lt dh then lo else if dh.lt dl then lo + 1 else if lo % 2 = 0 then lo else lo + 1
      | .rtz => lo
      | .rup => if s then lo else lo + 1
      | .rdn => if s then lo + 1 else lo

/-- quant of R161: x onto the grid of narrow format t under scale s, by rm. ftz as R161 gives; sub: x is subnormal in
its wide type. -/
def quant (t s : Nat) (rm : RM) (ftz sub : Bool) (x : FV) : Quant :=
  let f := fmtOf t
  let sgnBit (v : FV) : Nat := if v.sign then 2 ^ (narrowWidth t - 1) else 0
  let zeroCode (v : FV) : Nat := if t = 15 && s / 256 % 4 = 0 then 0 else sgnBit v
  match x with
  | .nan => if t = 11 || t = 12 then { code := f.canon, nan := true } else { code := 0, nan := true }
  | .zero _ => { code := zeroCode x }
  | .inf neg =>
    if t = 15 then
      (if s / 256 % 4 = 0 then { code := if neg then 8 else 7, sat := true } else { code := sgnBit x + 7, sat := true })
    else { code := f.largest neg, sat := true }
  | .fin q0 =>
    if ftz && sub then { code := zeroCode x, flush := true }
    else
      let q := q0.div (scaleX s)
      let neg := decide (q.num < 0)
      if t = 15 then
        (if s / 256 % 4 = 0 then
          let n := roundInt rm q
          let c := if n < -8 then -8 else if 7 < n then 7 else n
          { code := wrap c 4, sat := n ≠ c, flush := c = 0 }
        else
          let k := blkRound rm neg (s / 256 % 4) q.abs
          if k = 8 then { code := sgnBit x + 7, sat := true } else { code := sgnBit x + k, flush := k = 0 })
      else
        let r := f.roundMag rm neg q.abs
        if r.beyond then { code := f.largest neg, sat := true }
        else
          let m := if ftz && r.mag < 2 ^ f.mb then 0 else r.mag
          { code := f.withSign neg m, flush := m = 0 }

/-- emax of R165: exponent of the format's largest value. -/
def emaxOf (t ty : Nat) : Int :=
  if t = 11 then 8 else if t = 12 then 15 else if t = 13 then 4 else if t = 14 then 2
  else if ty = 0 || ty = 1 then 2 else 3

/-! ## The bounded functions of opcode 0x21 (R154) -/

/-- Fixed-point scale of the approximations below: 2^120. -/
def fxOne : Nat := 2 ^ 120
def fxLn2 : Nat := 0xb17217f7d1cf79abc9e3b39803f2f6
def fxPi : Nat := 0x3243f6a8885a308d313198a2e037073

/-- e^x for a fixed-point x in [0, 1): terms x^n / n! from term n - 1, fuel terms of them. -/
def fxExp (x : Nat) : Nat → Nat → Nat → Nat → Nat
  | 0, _, _, acc => acc
  | fuel + 1, n, term, acc => let t := term * x / fxOne / n; fxExp x fuel (n + 1) t (acc + t)

/-- 2^f for f = a / b in [0, 1), fixed point. -/
def fxExp2 (a b : Nat) : Nat := fxExp (a * fxLn2 / b) 40 1 fxOne fxOne

/-- Fraction bits of log2 of a fixed-point m in [1, 2): repeated squaring. -/
def fxLog2 : Nat → Nat → Nat → Nat
  | 0, _, acc => acc
  | k + 1, m, acc =>
    let s := m * m / fxOne
    if 2 * fxOne ≤ s then fxLog2 k (s / 2) (2 * acc + 1) else fxLog2 k s (2 * acc)

/-- sin x for a fixed-point x in [0, 2): alternating terms. -/
def fxSin (x : Nat) : Nat → Nat → Nat → Int → Int
  | 0, _, _, acc => acc
  | k + 1, n, term, acc =>
    let t := term * x / fxOne * x / fxOne / ((2 * n) * (2 * n + 1))
    fxSin x k (n + 1) t (if n % 2 = 1 then acc - t else acc + t)

/-- sin(π r) for an exact r in [0, 1/2]. -/
def sinPi0 (r : Q) : Q :=
  let x := r.num.natAbs * fxPi / r.den
  ⟨fxSin x 20 1 x x, fxOne⟩

/-- a reduced modulo 2 into [0, 2). -/
def Q.mod2 (a : Q) : Q := ⟨a.num % (2 * a.den : Nat), a.den⟩

/-- sin(π a). -/
def sinPi (a : Q) : Q :=
  let r := a.mod2
  let h : Q := ⟨1, 2⟩
  let one := Q.ofInt 1
  if r.le h then sinPi0 r
  else if r.le one then sinPi0 (one.sub r)
  else if r.le ⟨3, 2⟩ then (sinPi0 (r.sub one)).neg
  else (sinPi0 ((Q.ofInt 2).sub r)).neg

/-- 2^a to about 110 bits. -/
def exp2Q (a : Q) : Q :=
  let n := a.num / (a.den : Int)
  let f := a.num - n * a.den
  (Q.pow2 n).mul ⟨fxExp2 f.natAbs a.den, fxOne⟩

/-- log2 a of a positive a, to 2^-100. -/
def log2Q (a : Q) : Q :=
  let e := a.log2
  let m := a.div (Q.pow2 e)
  let fx := m.num.natAbs * fxOne / m.den
  (Q.ofInt e).add ⟨fxLog2 100 fx 0, 2 ^ 100⟩

/-- One unit in the last place of FP32 at magnitude y. -/
def ulp32 (y : Q) : Q := if y.isZero then Q.pow2 (-149) else
  let e := y.abs.log2
  Q.pow2 (if e < -126 then -149 else e - 23)

/-- The FP32 result bits of a bounded function: the implementation's fixed value (Config.transcendental) where it lies
within the bound of the true value, otherwise the rounded true value (R154; log entry 5). -/
def bounded (fn a : Nat) (bound true_ : Q) : Nat :=
  let c := (Config.transcendental fn (BitVec.ofNat 32 a)).toNat
  match fp32.decode c with
  | .fin q => if (q.sub true_).abs.le bound then c else fp32.rne (FV.ofQ false true_)
  | .zero _ => if true_.abs.le bound then c else fp32.rne (FV.ofQ false true_)
  | _ => fp32.rne (FV.ofQ false true_)

/-- A power of two: its exponent. -/
def Q.isPow2 (q : Q) : Option Int := let e := q.log2; if (q.sub (Q.pow2 e)).isZero then some e else none

/-- a is an integer. -/
def Q.isInt (a : Q) : Bool := a.num % (a.den : Int) = 0

/-- The FP32 result of FN 0, 1, 3-6 of opcode 0x21 on an FP32 input value: exact cases, special inputs, and elsewhere a
bounded value (R154), as bits. a: the input's FP32 pattern, x its value after FTZ. -/
def transFn (fn a : Nat) (x : FV) (sat : Bool) : Nat :=
  let f := fp32
  let inf (s : Bool) := f.infResult sat s
  let beyond (q : Q) (s : Bool) (v : Nat) := if (Q.pow2 128).le q.abs then inf s else v
  if fn = 0 then
    (match x with
     | .nan => f.canon | .zero s => inf s | .inf s => f.withSign s 0
     | .fin q =>
       let y := (Q.ofInt 1).div q
       let s := decide (q.num < 0)
       let r := f.roundMag .rne s y.abs
       if r.beyond then inf s
       else if q.abs.isPow2.isSome && (Q.pow2 (-126)).le y.abs then f.withSign s r.mag
       else bounded 0 a (ulp32 y) y)
  else if fn = 1 then
    (match x with
     | .nan => f.canon | .zero s => inf s | .inf s => if s then f.canon else 0
     | .fin q =>
       if q.num < 0 then f.canon
       else
         let y := ((Q.ofInt 1).div q).sqrt 200
         (match q.isPow2 with
          | some e => if e % 2 = 0 then f.rne (.fin (Q.pow2 (-e / 2))) else bounded 1 a (ulp32 y) y
          | none => bounded 1 a (ulp32 y) y))
  else if fn = 3 then
    (match x with
     | .nan => f.canon | .zero _ => 0x3F800000 | .inf s => if s then 0 else inf false
     | .fin q =>
       if (Q.ofInt 128).le q then inf false
       else if q.isInt && (Q.ofInt (-149)).le q then f.rne (.fin (Q.pow2 (q.num / q.den)))
       else if q.lt (Q.ofInt (-150)) then 0
       else
         let y := exp2Q q
         if (Q.pow2 (-126)).le y then
           let c := bounded 3 a ((ulp32 y).mul (Q.ofInt 2)) y
           (match f.decode c with | .inf _ => inf false | _ => c)
         else bounded 3 a (Q.pow2 (-149)) y)
  else if fn = 4 then
    (match x with
     | .nan => f.canon | .zero _ => inf true | .inf s => if s then f.canon else inf false
     | .fin q =>
       if q.num < 0 then f.canon
       else
         (match q.isPow2 with
          | some e => f.rne (FV.ofQ false (Q.ofInt e))
          | none =>
            let y := log2Q q
            let b := if (Q.pow2 (-1)).le q && q.lt (Q.ofInt 2) then Q.pow2 (-22) else (ulp32 y).mul (Q.ofInt 2)
            beyond y (y.num < 0) (bounded 4 a b y)))
  else
    (match x with
     | .nan | .inf _ => f.canon
     | .zero s => if fn = 5 then f.withSign s 0 else 0x3F800000
     | .fin q =>
       let h := q.mul (Q.ofInt 2)
       let n := h.num / (h.den : Int)
       if q.isInt then
         (if fn = 5 then f.withSign (q.num < 0) 0
          else if (q.num / (q.den : Int)) % 2 = 0 then 0x3F800000 else 0xBF800000)
       else if h.isInt then
         (if fn = 5 then (if ((n - 1) / 2) % 2 = 0 then 0x3F800000 else 0xBF800000) else 0)
       else if fn = 5 then bounded 5 a (Q.pow2 (-22)) (sinPi q)
       else bounded 6 a (Q.pow2 (-22)) (sinPi (q.add ⟨1, 2⟩)))

/-- A function of opcode 0x21 on an element of type t (8, 9 or 10), as bits (R154). -/
def transcend (fn t : Nat) (rm : RM) (sat ftz : Bool) (a : Nat) : Nat :=
  let f := fmtOf t
  let x := f.read ftz a
  if fn = 2 then f.fround rm sat ftz x.sqrt
  else
    let w := fp32.rne x
    let y := transFn fn w x sat
    if t = 8 then (if ftz && fp32.subnormal y then fp32.withSign (bit y 31) 0 else y)
    else f.fround .rne sat ftz (fp32.decode y)

end Sys2Proof.Machine
end

