-- ==== Sys2Proof/Machine/Geometry.lean ====
section
/-! DEFINITION. Exact geometry of beams and rays on rationals (spec/26 R365, R367, R372, R373, R375, R376, R378). -/

namespace Sys2Proof.Machine

/-- A point or vector with exact coordinates. -/
structure V3 where
  x : Q
  y : Q
  z : Q
  deriving DecidableEq, Repr

/-- A plane (a, b, c, d): p is inside when a px + b py + c pz + d is 0 or more (R365). -/
structure Plane where
  n : V3
  d : Q
  deriving DecidableEq, Repr

def Q.zero : Q := ⟨0, 1⟩
def Q.sgn (a : Q) : Int := a.num.sign
/-- Same value. -/
def Q.same (a b : Q) : Bool := (a.sub b).isZero

def V3.sub (a b : V3) : V3 := ⟨(a.x.sub b.x).norm, (a.y.sub b.y).norm, (a.z.sub b.z).norm⟩
def V3.add (a b : V3) : V3 := ⟨(a.x.add b.x).norm, (a.y.add b.y).norm, (a.z.add b.z).norm⟩
def V3.scale (k : Q) (a : V3) : V3 := ⟨(k.mul a.x).norm, (k.mul a.y).norm, (k.mul a.z).norm⟩
def V3.neg (a : V3) : V3 := ⟨a.x.neg, a.y.neg, a.z.neg⟩
def V3.dot (a b : V3) : Q := (((a.x.mul b.x).add (a.y.mul b.y)).add (a.z.mul b.z)).norm
def V3.cross (a b : V3) : V3 :=
  ⟨((a.y.mul b.z).sub (a.z.mul b.y)).norm, ((a.z.mul b.x).sub (a.x.mul b.z)).norm, ((a.x.mul b.y).sub (a.y.mul b.x)).norm⟩
def V3.isZero (a : V3) : Bool := a.x.isZero && a.y.isZero && a.z.isZero
def V3.same (a b : V3) : Bool := (a.sub b).isZero
/-- Order by x, then y, then z (R376). -/
def V3.before (a b : V3) : Bool :=
  a.x.lt b.x || (a.x.same b.x && (a.y.lt b.y || (a.y.same b.y && a.z.lt b.z)))

def Plane.side (p : Plane) (v : V3) : Q := ((p.n.dot v).add p.d).norm
def Plane.neg (p : Plane) : Plane := ⟨p.n.neg, p.d.neg⟩
/-- p or its negation, whichever has a point inside. -/
def Plane.orient (p : Plane) (inside : V3) : Plane := if (p.side inside).num < 0 then p.neg else p
/-- The plane through three points, oriented (R367). -/
def planeThrough (p q r inside : V3) : Plane :=
  let n := (q.sub p).cross (r.sub p)
  (⟨n, (n.dot p).neg⟩ : Plane).orient inside

/-- Mean of a list of points. -/
def meanOf (ps : List V3) : V3 :=
  (ps.foldl V3.add ⟨.zero, .zero, .zero⟩).scale ⟨1, ps.length⟩

/-- A list with its first point moved to the end: the next vertex of each. -/
def rotated (ps : List V3) : List V3 := ps.tail ++ ps.take 1
/-- Equal neighbours collapse, the last and the first among them. -/
def dedup (ps : List V3) : List V3 :=
  match ps with
  | [] => []
  | [p] => [p]
  | _ => let qs := ((ps.zip (rotated ps)).filter fun e => !e.1.same e.2).map (·.1); if qs.isEmpty then ps.take 1 else qs

/-- What remains of the edge from a to b inside a plane: a, and the crossing. -/
def clipEdge (p : Plane) (a b : V3) : List V3 :=
  let s := p.side a
  let t := p.side b
  (if 0 ≤ s.num then [a] else []) ++ (if s.sgn * t.sgn < 0 then [a.add (V3.scale (s.div (s.sub t)) (b.sub a))] else [])
/-- Sutherland-Hodgman by planes in ascending order (R372). -/
def clipPoly (ps : List V3) (planes : List Plane) : List V3 :=
  planes.foldl (fun ps p => dedup ((ps.zip (rotated ps)).flatMap fun e => clipEdge p e.1 e.2)) ps

/-- A normal of the points' plane; none where all lie on a line. -/
def normalOf : List V3 → Option V3
  | [] => none
  | p :: ps => ps.findSome? fun q => ps.findSome? fun r =>
      let n := (q.sub p).cross (r.sub p)
      if n.isZero then none else some n
/-- The plane of a polygon, oriented: through its first vertex and the first two others that do not lie on a line with it (R373; log entry
66). -/
def planeAlong (ps : List V3) (inside : V3) : Plane :=
  match ps, normalOf ps with
  | p :: _, some n => (⟨n, (n.dot p).neg⟩ : Plane).orient inside
  | _, _ => ⟨⟨.zero, .zero, .zero⟩, .zero⟩
/-- A point of the plane of a convex polygon lies in it, boundary included. -/
def inPoly (p : V3) (ps : List V3) (n : V3) : Bool :=
  let ss := (ps.zip (rotated ps)).map fun e => (((e.2.sub e.1).cross (p.sub e.1)).dot n).sgn
  !(ss.contains 1 && ss.contains (-1))

/-- The point on three planes. -/
def meet3 (a b c : Plane) : Option V3 :=
  let bc := b.n.cross c.n
  let det := a.n.dot bc
  if det.isZero then none
  else
    let v := ((bc.scale a.d.neg).add ((c.n.cross a.n).scale b.d.neg)).add ((a.n.cross b.n).scale c.d.neg)
    some (v.scale ((Q.ofInt 1).div det))

/-- The order of two points about a centre: u and v span the plane, v a quarter turn after u. -/
def turnsBefore (c u v p q : V3) : Bool :=
  let key (r : V3) : Q × Q := ((r.sub c).dot u, (r.sub c).dot v)
  let half (k : Q × Q) : Bool := k.2.num < 0 || (k.2.isZero && k.1.num ≤ 0)
  let a := key p
  let b := key q
  if half a != half b then half b else 0 < ((a.1.mul b.2).sub (a.2.mul b.1)).num
/-- Corners of a convex point set, counter-clockwise about n from the corner least in x, y, z (R376). -/
def cornersOf (ps : List V3) (n : V3) : List V3 :=
  if (normalOf ps).isNone then ps
  else
    let c := meanOf ps
    match ps.find? fun p => !p.same c with
    | none => ps
    | some p0 =>
      let u := p0.sub c
      let v := n.cross u
      let ring := sortBy (fun p q => !turnsBefore c u v q p) ps
      let prev := ring.drop (ring.length - 1) ++ ring.take (ring.length - 1)
      let cs := ((prev.zip (ring.zip (rotated ring))).filter fun e =>
        !((e.2.1.sub e.1).cross (e.2.2.sub e.2.1)).isZero).map (·.2.1)
      let least := cs.foldl (fun m p => match m with | none => some p | some q => if p.before q then some p else some q) none
      match least with
      | none => ring
      | some m => (cs.dropWhile fun p => !p.same m) ++ cs.takeWhile fun p => !p.same m

/-- The planes of a list but one. -/
def othersThan (planes : List Plane) (k : Nat) : List Plane := (planes.zipIdx.filter fun e => decide (e.2 ≠ k)).map (·.1)
/-- The points on a plane where two of some others meet. -/
def meetings (pk : Plane) (others : List Plane) : List V3 :=
  others.zipIdx.flatMap fun a => (others.drop (a.2 + 1)).filterMap fun b => meet3 pk a.1 b
/-- The polygon that others cut from a plane. -/
def cutBy (pk : Plane) (others : List Plane) : List V3 :=
  let ins := (meetings pk others).filter fun v => others.all fun p => 0 ≤ (p.side v).num
  cornersOf (ins.foldl (fun ps v => if ps.any fun w => w.same v then ps else ps ++ [v]) []) pk.n
/-- The polygon that the other planes cut from plane k (R365: F for k = 1). -/
def sectionOf (planes : List Plane) (k : Nat) : List V3 :=
  match planes[k]? with
  | none => []
  | some pk => cutBy pk (othersThan planes k)
/-- A cube about the origin that holds in its interior some points. -/
def cubeAbout (ps : List V3) : List Plane :=
  let r := ps.foldl (fun r p => ((r.add p.x.abs).add (p.y.abs.add p.z.abs)).norm) (Q.ofInt 1)
  let one := Q.ofInt 1
  let z := Q.zero
  [⟨one, z, z⟩, ⟨z, one, z⟩, ⟨z, z, one⟩].flatMap fun (n : V3) => [⟨n, r⟩, ⟨n.neg, r⟩]
/-- A plane bounds a face of positive area, which may have no end: its part within a cube about every corner, and about a point of every
line that another plane cuts from it, has one. -/
def hasFace (planes : List Plane) (k : Nat) : Bool :=
  match planes[k]? with
  | none => false
  | some pk =>
    let others := othersThan planes k
    let feet := others.filterMap fun p => meet3 pk p ⟨pk.n.cross p.n, .zero⟩
    let foot := V3.scale (pk.d.neg.div (pk.n.dot pk.n)) pk.n
    (normalOf (cutBy pk (others ++ cubeAbout (foot :: meetings pk others ++ feet)))).isSome

/-- The same half-space: equal up to a positive factor. -/
def sameHalf (p q : Plane) : Bool :=
  (p.n.cross q.n).isZero && 0 < (p.n.dot q.n).num && (p.d.mul (q.n.dot q.n)).same (q.d.mul (p.n.dot q.n))
/-- Indices of the planes that place() keeps: 0 and 1, then side planes that bound a face and stand first (R373). -/
def keptPlanes (planes : List Plane) : List Nat :=
  (planes.zipIdx.filter fun e =>
    e.2 < 2 || (!e.1.n.isZero && !((planes.take e.2).drop 2).any (sameHalf · e.1) && ((normalOf (sectionOf planes e.2)).isSome || hasFace planes e.2))).map (·.2)

/-! ## Solid angles (R365, R367) -/

/-- Fixed point of 160 fraction bits. -/
def ang1 : Nat := 2 ^ 160
/-- π in it. -/
def angPi : Nat := 0x3243f6a8885a308d313198a2e03707344a4093822
/-- x - x^3/3 + x^5/5 - … from term n for x of ang1 in [0, 1/4]. -/
def atanTerms (x2 : Nat) : Nat → Nat → Nat → Int → Int
  | 0, _, _, acc => acc
  | k + 1, n, p, acc => atanTerms x2 k (n + 1) (p * x2 / ang1) (if n % 2 = 0 then acc + (p / (2 * n + 1) : Nat) else acc - (p / (2 * n + 1) : Nat))
/-- Halving of the angle whose tangent is x. -/
def halfTan (x : Nat) : Nat := x * ang1 / (ang1 + Nat.sqrt (ang1 * ang1 + x * x))
/-- arctan of a nonnegative rational, relative error below 2^-100. -/
def atanQ (x : Q) : Q :=
  if x.lt (Q.pow2 (-20)) then
    let x2 := (x.mul x)
    let t (k : Int) (d : Nat) : Q := ⟨k, d⟩
    x.mul ((t 1 1).add (x2.mul ((t (-1) 3).add (x2.mul ((t 1 5).add (x2.mul ((t (-1) 7).add (x2.mul (t 1 9)))))))))
  else if (Q.ofInt 1).lt x then
    let y := halfTan (halfTan ((x.den * ang1) / x.num.natAbs))
    (⟨(angPi : Int) - 8 * atanTerms (y * y / ang1) 60 0 y 0, 2 * ang1⟩ : Q)
  else
    let y := halfTan (halfTan (x.num.natAbs * ang1 / x.den))
    ⟨4 * atanTerms (y * y / ang1) 60 0 y 0, ang1⟩
/-- The angle in [0, π] of a point with y 0 or more. -/
def atan2Q (y x : Q) : Q :=
  if x.isZero then (if y.isZero then .zero else ⟨angPi, 2 * ang1⟩)
  else if 0 < x.num then atanQ (y.div x)
  else (⟨angPi, ang1⟩ : Q).sub (atanQ (y.div x.neg))

/-- Length of a vector, to more than 200 significant bits. -/
def V3.len (a : V3) : Q := let q := a.dot a; if q.isZero then .zero else q.sqrt 220
/-- Solid angle of a triangle seen from the origin: tan(Ω/2) is a · (b × c) over the sum below. -/
def triAngle (a b c : V3) : Q :=
  let la := a.len
  let lb := b.len
  let lc := c.len
  let den := (((la.mul lb).mul lc).add ((a.dot b).mul lc)).add (((a.dot c).mul lb).add ((b.dot c).mul la))
  (Q.ofInt 2).mul (atan2Q (a.dot (b.cross c)).abs den)
/-- The polygon subtends no solid angle at O. -/
def flatFrom (o : V3) (ps : List V3) : Bool :=
  match ps, normalOf ps with
  | p :: _, some n => (n.dot (p.sub o)).isZero
  | _, _ => true
/-- The solid angle of a convex polygon seen from O, 0 exactly where it has none. -/
def solidAngleOf (o : V3) (ps : List V3) : Q :=
  if flatFrom o ps then .zero
  else
    match ps.map (·.sub o) with
    | a :: rest => ((rest.zip rest.tail).map fun e => triAngle a e.1 e.2).foldl (fun s q => s.add q) .zero
    | [] => .zero

/-! ## Mirrors, strata, rays (R375, R376, R378) -/

/-- Mirror image of a point in a plane. -/
def mirrorPoint (p : V3) (m : Plane) : V3 :=
  p.sub (V3.scale (((Q.ofInt 2).mul (m.side p)).div (m.n.dot m.n)) m.n)
/-- Mirror image of a plane in a plane. -/
def mirrorPlane (q m : Plane) : Plane :=
  let k := ((Q.ofInt 2).mul (q.n.dot m.n)).div (m.n.dot m.n)
  ⟨q.n.sub (m.n.scale k), (q.d.sub (k.mul m.d)).norm⟩

/-- The stratified candidates that lie inside F, in candidate order; e1 and e2 enter as multiples of u and n x u, whose
lengths cancel (R376). -/
def strataOf (ps : List V3) (n : V3) : List V3 :=
  match ps with
  | f0 :: f1 :: _ =>
    let u := f1.sub f0
    let w := n.cross u
    let least (qs : List Q) := qs.foldl Q.min .zero
    let most (qs : List Q) := qs.foldl Q.max .zero
    let su := ps.map fun p => (p.sub f0).dot u
    let rw := ps.map fun p => (p.sub f0).dot w
    let pos (lo hi : Q) (i : Nat) : Q := lo.add ((hi.sub lo).mul ⟨2 * i + 1, 8⟩)
    ((List.range 4).flatMap fun j => (List.range 4).map fun i =>
      (f0.add (V3.scale ((pos (least su) (most su) i).div (u.dot u)) u)).add (V3.scale ((pos (least rw) (most rw) j).div (w.dot w)) w)).filter
      fun p => inPoly p ps n
  | _ => []

/-- Parameter of a ray's hit on a polygon in the open interval (0, tmax) (R378). -/
def rayHit (o dir : V3) (tmax : Q) (ps : List V3) : Option Q :=
  match dedup ps, normalOf ps with
  | p :: _, some n =>
    let nd := n.dot dir
    if nd.isZero then none
    else
      let t := ((n.dot (p.sub o)).div nd).norm
      if 0 < t.num && t.lt tmax && inPoly (o.add (V3.scale t dir)) (dedup ps) n then some t else none
  | _, _ => none

end Sys2Proof.Machine
end

