-- ==== Sys2Proof/Machine/State.lean ====
section
/-! DEFINITION. The state of the module: hub die, eight compute dies, logical devices, cores, teams, groups,
launches, fabric and memory. Each field's comment reads: meaning | width | file and rule of spec/ | reset value. -/

namespace Sys2Proof.Machine

/-- Where a group stands (R15, R35, R42, R44). -/
inductive Life where
  | absent | active | waiting | saved | ended
  deriving DecidableEq, Repr

/-- The wait kinds of the wait word (R336, R37). -/
inductive Block where
  | qrecv | bwait | nwait | waitq | qlock | msync | xwait | evwait | cwait | bpop
  deriving DecidableEq, Repr

/-- What a group that has not completed its instruction waits for: held in the scoreboard (R267), or blocked (R37). ending: it ends by a
fault and waits for its peer stores (R320, R328). sending: an STSC that has passed its checks, at a target, offset and handle, waits for its
release() (R437).
arg: phase, generation, ticket or stamp; since: the cycle of issue, or for WAITQ the first wave that counts. ready: the
condition has come to hold, with the value it gives; the instruction completes when the group next issues (R38). -/
inductive Wait where
  | run
  | held (arg : Nat) (since : Nat)
  | ending
  | sending (tgt ofs handle since : Nat)
  | blocked (kind : Block) (num : Nat) (arg : Word) (since : Nat)
  | ready (v : Word)
  deriving DecidableEq, Repr

/-- The delivered form of a trap, fault or logged event (R322, R323, R327, R331). -/
structure FRec where
  cause : BitVec 8
  detail : BitVec 8 := 0
  info : BitVec 32 := 0
  lane : BitVec 6 := 0
  addr : Word := 0
  iaddr : Word := 0
  imp : Bool := false
  fetch : Bool := false
  word : BitVec 96 := 0
  sdie : BitVec 4 := 8
  core : BitVec 6 := 0x3F
  slot : BitVec 5 := 0x1F
  job : BitVec 6 := 0
  lseq : BitVec 32 := 0
  deriving DecidableEq, Repr

/-- The source values of the work identifier (R28), fixed when the group is placed (R26). -/
structure Srcs where
  group : Nat := 0
  team : Nat := 0
  rank : Nat := 0
  gang : Nat := 0
  tileX : Nat := 0
  tileY : Nat := 0
  tileZ : Nat := 0
  task : Nat := 0
  launch : Nat := 0
  deriving DecidableEq, Repr

/-- A ticketed Dill job as the engines remember it for the group (R360, R361). -/
structure Ticket where
  num : BitVec 32
  done : Bool := false
  ecode : BitVec 8 := 0
  outlen : BitVec 32 := 0
  deriving DecidableEq, Repr

/-- One group: its control thread, its register allocation and what the machine keeps for it. -/
structure Group where
  /-- model's name of the group, 0 for none | Nat | 02 R15 | 0 -/
  uid : Nat := 0
  /-- residency of the group | Life | 02 R35, R42 | absent -/
  life : Life := .absent
  /-- the wait the group is in | Wait | 21 R336 wait word, 02 R37 | run -/
  wait : Wait := .run
  /-- word of the instruction it waits in, which is not fetched anew; the model's own field | Option 96 | 02 R38, 04 R58 | none -/
  issued : Option IWord := none
  /-- owning gang (the model's number; the handle stands in Gang) | Nat | 02 R23 | 0 -/
  gang : Nat := 0
  /-- team index within the gang | Nat | 02 R28 | 0 -/
  team : Nat := 0
  /-- rank within the gang | 7 bits | 02 R28 | 0 -/
  rank : Nat := 0
  /-- compute die, the logical device | 4 bits | 01 R9, R13 | 0 -/
  die : Nat := 0
  /-- die-local core | 6 bits | 01 R11 | 0 -/
  core : Nat := 0
  /-- resident slot | 5 bits | 21 R326 GID | 0 -/
  slot : Nat := 0
  /-- owning task | Nat | 02 R23 | 0 -/
  task : Nat := 0
  /-- owning launch | Nat | 02 R24 | 0 -/
  launch : Nat := 0
  /-- cycle at which the group began to wait for a slot | Nat | 02 R35 | 0 -/
  waitSince : Nat := 0
  /-- ended, and its allocation, share, slot and charge are free: a CHAIN successor has them or its gang is saved | 1 | 20 R321, 21 R334 | 0 -/
  handed : Bool := false
  /-- job of the launch | 6 bits | 02 R46 | 0 -/
  job : Nat := 0
  /-- bytes of the register allocation | Nat | 07 R99 | 0 -/
  alloc : Nat := 0
  /-- register allocation, by allocation offset; s0-s63 are bytes 0-511 | alloc bytes | 07 R99, R100, R107 | zero -/
  regs : Bytes := []
  /-- program counter | 64 | 07 R106, R107 | kernel entry at placement; 0 here -/
  pc : Word := 0
  /-- condition bits c0-c7; bit 0 reads 1 | 8 | 07 R106, R107 | c0 1, c1-c7 0 -/
  conds : BitVec 8 := 1
  /-- lane masks m0-m7 | 8 x 64 | 07 R106, R107 | m0 all lanes, m1-m7 0 -/
  masks : Vector Word 8 := Vector.ofFn fun i => if i.val = 0 then BitVec.allOnes 64 else 0
  /-- index registers x0-x3 | 4 x 32 | 07 R106, R107 | 0 -/
  xs : Vector (BitVec 32) 4 := Vector.replicate 4 0
  /-- vector view base VB | 64 | 07 R103 | 512 -/
  vb : Word := 512
  /-- tile view base TB | 64 | 07 R103 | 512 -/
  tb : Word := 512
  /-- tile view shape TSH | 64 | 07 R103 | 0x7F_0000 -/
  tsh : Word := 0x7F0000
  /-- GSTAT.PRIV | 1 | 21 R326, 07 R106 | 0 -/
  priv : Bool := false
  /-- GSTAT.PNOTE | 1 | 21 R326, R346 | 0 -/
  pnote : Bool := false
  /-- GSTAT.POVF | 1 | 21 R326, R329 | 0 -/
  povf : Bool := false
  /-- a precise trap entered the handler and no ERET has followed | 1 | 02 R48 | 0 -/
  unres : Bool := false
  /-- a PRENOTE not yet delivered | 1 | 21 R333, R342 | 0 -/
  preq : Bool := false
  /-- the group has executed PREACK for the pending eviction | 1 | 21 R333, R346 | 0 -/
  packed : Bool := false
  /-- pending imprecise records, oldest first, at most 4 | 4 records | 21 R329 | empty -/
  pend : List FRec := []
  /-- EPC | 64 | 21 R326 | DESIGN CHOICE 0, log entry 3 -/
  epc : Word := 0
  /-- ECAUSE | 64 | 21 R326, R327 | 0 -/
  ecause : Word := 0
  /-- EADDR | 64 | 21 R326 | DESIGN CHOICE 0, log entry 3 -/
  eaddr : Word := 0
  /-- EIADDR | 64 | 21 R326 | DESIGN CHOICE 0, log entry 3 -/
  eiaddr : Word := 0
  /-- EWORDL | 64 | 21 R326 | DESIGN CHOICE 0, log entry 3 -/
  ewordl : Word := 0
  /-- EWORDH | 64 | 21 R326 | DESIGN CHOICE 0, log entry 3 -/
  ewordh : Word := 0
  /-- ESCR0 | 64 | 21 R326 | 0 -/
  escr0 : Word := 0
  /-- ESCR1 | 64 | 21 R326 | 0 -/
  escr1 : Word := 0
  /-- event queue, oldest first | 16 x 64 | 13 R223 | empty -/
  evq : List Word := []
  /-- in a fabric-message handler: the job of the message being handled | Option 6 bits | 29 R416 | none -/
  handler : Option Nat := none
  /-- Dill ticket counter LAST | 32 | 24 R360 | 0 -/
  last : BitVec 32 := 0
  /-- statuses of the last tickets | 8 records | 24 R360 | empty -/
  tickets : List Ticket := []
  /-- matrix operations of the group that ended at a fault since its last MSYNC | 8, clamped | 18 R300 | 0 -/
  mflt : Nat := 0
  /-- identifier layout word of the launch | 64 | 02 R27 | 0 -/
  layout : Word := 0
  /-- source values of the work identifier | Srcs | 02 R26, R28 | 0 -/
  srcs : Srcs := {}
  /-- record batch of a regrouped group: record size in bytes, and each record with the flush it came of | up to 64 x 64 bytes | 02 R39, 26 R386, R394 | none -/
  batch : Option (Nat × List (Nat × BitVec 512)) := none
  deriving DecidableEq, Repr

/-- A network barrier of a gang (R277). -/
structure NetBar where
  memb : BitVec 128 := 0
  next : BitVec 128 := 0
  arr : BitVec 128 := 0
  gen : BitVec 32 := 0
  /-- arrivals held for the next generation, oldest first: (rank, group) -/
  held : List (Nat × Nat) := []
  deriving DecidableEq, Repr

/-- The task-type entry as read at acceptance (R306, R307); the gang values of a gang record replace GROUPS and TEAM.
raw: the entry's own bits. -/
structure TType where
  raw : BitVec 128 := 0
  entry : Word := 0
  regs : Nat := 1
  spad : Nat := 0
  team : Nat := 0
  groups : Nat := 1
  gangs : Nat := 1
  rl : Nat := 0
  rs : Nat := 0
  ecls : Nat := 0
  lteam : Nat := 0
  steam : Nat := 0
  deriving DecidableEq, Repr

/-- Where a gang stands (R33, R42, R333, R338). -/
inductive GangLife where
  | live | evicting | saved | restoring | retired
  deriving DecidableEq, Repr

/-- A gang that has been placed. -/
structure Gang where
  /-- gang handle, GID[31:0] | 32 | 21 R326 | at placement -/
  handle : BitVec 32
  /-- life of the gang | GangLife | 02 R42, 21 R333 | live -/
  life : GangLife := .live
  /-- logical device | 0-7 | 02 R23 | at placement -/
  die : Nat
  /-- owning task | Nat | 02 R23 | at placement -/
  task : Nat
  /-- task type as read at acceptance | R306 | 20 R307 | at placement -/
  ttype : TType
  /-- network barriers n0-n15 | 16 x 416 bits | 16 R277 | MEMB, NEXT every rank, ARR empty, GEN 0 -/
  nets : List NetBar := []
  /-- cycle at which the pending eviction was requested | Nat | 21 R333 | none -/
  evictAt : Option Nat := none
  /-- PRENOTE was sent for the pending eviction, which waits for PREACK | 1 | 21 R333 | 0 -/
  noted : Bool := false
  /-- cycle at which the gang was queued for restore | Nat | 21 R338 | none -/
  restoreAt : Option Nat := none
  /-- save-area address of the hardware image, or the CTXSAVE address | Option 64 | 34 R462, 21 R348 | none -/
  image : Option (Word × Bool) := none
  /-- the group whose CTXSAVE waits for the image, and its cycle of issue; the model's own field | Option | 21 R348 | none -/
  saver : Option (Nat × Nat) := none
  /-- the task's record and the PRIO the gang is offered for restore with, which a loaded image gives | 256, 4 bits | 21 R335, R338, R348 | at placement -/
  record : BitVec 256 := 0
  prio : Nat := 0
  deriving DecidableEq, Repr

/-- A named queue (R262, R263) with its held senders and blocked receivers, oldest first. -/
structure Queue where
  base : BitVec 15 := 0
  slots : Nat := 0
  head : Nat := 0
  count : Nat := 0
  alw : Nat := 0
  refill : Bool := false
  init : Bool := false
  senders : List (Nat × Word) := []
  receivers : List Nat := []
  deriving DecidableEq, Repr

/-- A team barrier (R270). -/
structure Bar where
  members : BitVec 20 := 0
  pend : BitVec 20 := 0
  ph : BitVec 32 := 0
  flt : Bool := false
  fhist : BitVec 8 := 0
  sflt : Bool := false
  deriving DecidableEq, Repr

/-- An incomplete BTRAV or RAYTRAV, or the traversal of a beam-engine graph node (R372, R381, R384, R396).
id: order of issue. work: slots in work-list order. taken: records of WORK slots as they stood when taken, where the
traversal has changed them (R398). cover: coverage of a graph request, 48 fraction bits. info: die, core, slot, job of the issuer. mem0: the
home copy as it stood at the issue, with every NODEWR since: a node that differs from it has been changed by other stores (R379). -/
structure Trav where
  id : Nat
  desc : BitVec 512
  owner : Nat
  launch : Nat
  task : Nat
  info : FRec
  ck : BitVec 2
  bar : Nat
  tag : BitVec 8
  work : List Nat
  taken : Table (BitVec 2048) := []
  ray : Nat := 0
  rayEnd : Nat := 0
  bnode : Bool := false
  lost : Nat := 0
  cover : Nat := 0
  /-- of a graph request: its node and its TAG -/
  request : Option (Nat × BitVec 32) := none
  mem0 : Bytes := []
  deriving DecidableEq, Repr

/-- Kinds of matrix-engine operation (R287). -/
inductive MKind where
  | mtile | mloop | mbatch | wload | acld | acst
  deriving DecidableEq, Repr

/-- An incomplete matrix operation with the operands it took at issue (R104, R288, R337). -/
structure MOp where
  id : Nat
  owner : Nat
  iaddr : Word
  kind : MKind
  /-- a product's 96-bit word (R337) -/
  word : BitVec 96 := 0
  mod : BitVec 10
  imm : BitVec 32
  /-- register allocation as it stood at issue -/
  regs : Bytes := []
  /-- allocation offsets of the first A tile and the scale view; rows and bytes per row -/
  tile : Nat := 0
  scale : Nat := 0
  rows : Nat := 0
  rlen : Nat := 0
  addr : Word := 0
  shape : Word := 0
  kpos : Nat := 0
  n : Nat := 0
  fault : Bool := false
  done : Bool := false
  deriving DecidableEq, Repr

/-- A slice of the compressed weight buffer with its descriptor and side store (R283, R284). fmt: the format the descriptor names, that of
its first block; fmts: the format of every block, which its line gave (R296).
mcls: memory class of its load. full: loaded; a restored slice is not until it is refilled (R290). -/
structure Slice where
  cls : BitVec 2
  fmt : BitVec 5
  nc : Nat
  src : Word
  mcls : BitVec 3
  full : Bool := true
  data : Bytes
  scales : List (BitVec 10)
  fmts : List (BitVec 5) := []
  deriving DecidableEq, Repr

/-- A team's matrix-engine state while the team is saved or waits for the engine after a restore (R290, R338). -/
structure Engine where
  acc : Table (BitVec 32) := []
  bands : BitVec 16 := 0
  slices : Table Slice := []
  mops : List MOp := []
  deriving DecidableEq, Repr

/-- A team: the groups of one gang on one core. -/
structure Team where
  /-- compute die | 0-7 | 01 R9 | at placement -/
  die : Nat
  /-- die-local core | 0-39 | 02 R28 | at placement -/
  core : Nat
  /-- groups in the team | 1-24 | 02 R23 | at placement -/
  groups : Nat
  /-- scratchpad window size | bytes | 13 R205 | at placement -/
  window : Nat
  /-- scratchpad window | window bytes | 13 R205 | zero -/
  spad : Bytes := []
  /-- named queues q0-q15 | 16 | 16 R262, R263 | all zero -/
  queues : List Queue := List.replicate 16 {}
  /-- team barriers b0-b15 | 16 | 16 R270 | all zero -/
  bars : List Bar := List.replicate 16 {}
  /-- beam-pool quota Q | 0-1,024 | 26 R368 | 0 -/
  quota : Nat := 0
  /-- occupied beam-pool slots and their records | Q x 2,048 bits | 26 R366, R368 | empty -/
  pool : Table (BitVec 2048) := []
  /-- slots that are DONE, oldest first | list | 26 R375, R391 | empty -/
  doneOrder : List Nat := []
  /-- incomplete BTRAV | R381 | 26 R390 | none -/
  trav : Option Trav := none
  /-- incomplete RAYTRAV | R381 | 26 R396 | none -/
  rtrav : Option Trav := none
  /-- saved matrix-engine state not yet reloaded | Option Engine | 18 R290, 21 R338 | none -/
  saved : Option Engine := none
  deriving DecidableEq, Repr

/-- A line of a core's L1 (R185-R187): data, owned words, dirty bytes, fill generation. old: the generation register has wrapped
since the fill, so that only owned words can be read. hot: its grade is above level 0. used: order of its last use. -/
structure L1Line where
  gen : BitVec 16
  data : Bytes
  own : BitVec 32 := 0
  dirty : BitVec 128 := 0
  old : Bool := false
  hot : Bool := false
  used : Nat := 0
  deriving DecidableEq, Repr

/-- A line that the L2 or the stacked cache of a die holds (R185, R189, R190): retention level, order of its last use, the residency
range whose reserved way it stands in, and the code of its compressed size. -/
structure CLine where
  level : Nat
  used : Nat
  way : Option Nat := none
  code : BitVec 4 := 3
  deriving DecidableEq, Repr

/-- The states of a line in its home's directory (R191). -/
inductive Moesi where
  | m | o | e | s | i
  deriving DecidableEq, Repr

/-- A home line that other dies cache: its MOESI state, the die that owns it in M, O or E, one sharer bit for each die (R191). -/
structure DirLine where
  st : Moesi := .i
  owner : Option Nat := none
  sharers : BitVec 8 := 0
  deriving DecidableEq, Repr

/-- The caches behind the L1s, whose data is the home copy in State.mem. -/
structure Caches where
  /-- lines in the L2s, by 2^32 x die + line; metadata lines are numbered from 2^31 | 16 slices of 2 MiB a die | 01 R11, 12 R185, R190 | empty -/
  l2 : Table CLine := []
  /-- lines in the stacked caches, by the same key | 256 MiB a die | 01 R11, 12 R185 | empty -/
  llc : Table CLine := []
  /-- directory entries by line, where another die than the home caches the line | table | 12 R191 | empty -/
  dir : Table DirLine := []
  /-- size codes that the metadata lines hold, by line | 4 bits a line | 12 R190 | empty -/
  codes : Table (BitVec 4) := []
  /-- lines whose last lease has ended and not been followed by a grant to another core: line, leasing core | table | 13 R213, 14 R230 | empty -/
  leaseEnds : Table Nat := []
  /-- accesses so far: the order of uses, the model's own | Nat | 12 R185 | 0 -/
  uses : Nat := 0
  deriving DecidableEq, Repr

/-- A store that some cores do not see yet (R232, R245, R253): its bytes as they were before it, and those cores (64 x die + core). -/
structure Echo where
  old : Table Byte
  cores : List Nat
  deriving DecidableEq, Repr

/-- Accesses made ahead of the end of a group's next instruction or of an operation (R229, R239), by the number of that group or operation: the
bytes they read, the places they wrote. -/
structure Early where
  who : Nat
  read : Table Byte := []
  wrote : List Nat := []
  deriving DecidableEq, Repr

/-- Bytes of a group's plain store that are still to be performed (R229): the core, places and values. -/
structure Late where
  uid : Nat
  die : Nat
  core : Nat
  bytes : List (Nat × Byte)
  deriving DecidableEq, Repr

/-- How accesses stand divided (R229, R232, R239); all of it the model's own. -/
structure Divided where
  /-- stores that some cores do not see yet | list | 14 R232, R245 | empty -/
  unseen : List Echo := []
  /-- accesses made ahead | list | 14 R229, R239 | empty -/
  early : List Early := []
  /-- parts of stores to come | list | 14 R229 | empty -/
  late : List Late := []
  /-- while one instruction or event runs: what it has read ahead, and the places it has written ahead | lists | 14 R229, R239 | empty -/
  read : Table Byte := []
  wrote : List Nat := []
  deriving DecidableEq, Repr

/-- A translation held by a TLB (R179): logical device, first address, size, leaf and its level. -/
structure TlbEntry where
  dev : Nat
  base : Nat
  size : Nat
  leaf : Word
  deriving DecidableEq, Repr

/-- A line lease (R212, R213). -/
structure Lease where
  line : Nat
  until_ : Nat
  owners : List Nat
  deriving DecidableEq, Repr

/-- A run of bytes a copy still has to carry: memory address, scratchpad address, length; the target, place and handle its
issue translated, for a copy that translates at issue, and whether its page is a CMP page (R190, R218, R219). -/
structure Seg where
  va : Nat
  so : Nat
  len : Nat
  xl : Option (Nat × Nat × Nat) := none
  cmp : Bool := false
  deriving DecidableEq, Repr

/-- An incomplete asynchronous copy (R217-R221), as the bytes still to copy in row-major order. -/
structure Copy where
  id : Nat
  owner : Nat
  iaddr : Word
  cls : BitVec 3
  evp : Nat := 0
  out : Bool
  mcast : BitVec 4
  ck : BitVec 2
  bar : Nat
  tag : BitVec 8
  segs : List Seg
  deliv : Nat := 0
  fault : Option FRec := none
  deriving DecidableEq, Repr

/-- A successor started by CHAIN and not yet placed (R108, R321). -/
structure Chain where
  task : Nat
  pred : Nat
  start : Nat
  bytes : List Byte
  deriving DecidableEq, Repr

/-- One core of a compute die. -/
structure Core where
  /-- generation register | 16 | 12 R187 | DESIGN CHOICE 0, log entry 3 -/
  gen : BitVec 16 := 0
  /-- L1 data cache, by line of physical memory | 128 KiB | 12 R186, R187 | empty -/
  l1 : Table L1Line := []
  /-- L1 instruction cache, by physical byte | 64 KiB | 04 R59 | empty -/
  icache : Table Byte := []
  /-- L1 TLB | 512 entries | 12 R179 | empty -/
  tlb : List TlbEntry := []
  /-- leases in force | up to 8 | 13 R212 | none -/
  leases : List Lease := []
  /-- queued lease requests, oldest first: (request number, group, line, cycles) | list | 13 R212 | empty -/
  leaseReq : List (Nat × Nat × Nat × Nat) := []
  /-- debug halt | 1 | 21 R339 | 0 -/
  halted : Bool := false
  /-- team that holds the matrix engine | Option (gang, team) | 18 R281 | none -/
  engine : Option (Nat × Nat) := none
  /-- teams held waiting for the engine, oldest first | list | 18 R281 | empty -/
  engineWait : List (Nat × Nat) := []
  /-- accumulator positions that are not +0, keyed 256 x row + column | 256 x 256 x 32 | 18 R282 | +0 -/
  acc : Table (BitVec 32) := []
  /-- bands in use | 16 | 18 R282 | 0 -/
  bands : BitVec 16 := 0
  /-- weight-buffer slices, keyed by first unit | 256 units of 1 KiB | 18 R283, R284 | empty -/
  slices : Table Slice := []
  /-- incomplete matrix operations in issue order | up to 16 | 18 R287 | empty -/
  mops : List MOp := []
  /-- incomplete asynchronous copies in issue order | up to 64 | 13 R220 | empty -/
  copies : List Copy := []
  /-- CHAIN successors waiting for their demand, oldest first | list | 20 R321 | empty -/
  chains : List Chain := []
  deriving DecidableEq, Repr

/-- A queue lock in a home slice's unit (R215). -/
structure Lock where
  holder : Nat
  waiters : List Nat
  deriving DecidableEq, Repr

/-- The sidecar of a line (R141): governing format and the scales of the blocks that touch it, by block number. -/
structure Side where
  fmt : BitVec 5
  base : Nat
  scales : Table (BitVec 10)
  deriving DecidableEq, Repr

/-- One compute die's state outside its cores and its management registers. -/
structure Die where
  /-- clock at the die's last reset: CYCLES is the clock less this | 64 | 21 R326 | 0 -/
  resetAt : Nat := 0
  /-- interval bound E as the last sync exchange gave it | 64 | 30 R427 | 0 -/
  e : Word := 0
  /-- interval bound L as the last sync exchange gave it | 64 | 30 R427 | all ones -/
  l : Word := BitVec.allOnes 64
  /-- clock at the last sync exchange, from which the bounds move | Nat | 30 R427 | 0 -/
  syncAt : Nat := 0
  /-- E and L just before the last exchange, below which no read falls | 2 x 64 | 30 R427 | 0 -/
  eMin : Word := 0
  lMin : Word := 0
  /-- the horizon H as last delivered | 64 | 30 R430 | DESIGN CHOICE 0, log entry 3 -/
  h : Word := 0
  /-- joined | 1 | 30 R429 | 0 -/
  joined : Bool := false
  /-- declared dead | 1 | 29 R405 | 0 -/
  dead : Bool := false
  /-- fabric link asleep | 1 | 29 R404 | 0 -/
  asleep : Bool := false
  /-- clock at which a packet last crossed its link; the model's own field | Nat | 29 R404 | 0 -/
  lastPacket : Nat := 0
  /-- clock at which the first packet it has not answered was sent to it | Option | 29 R405 | none -/
  asked : Option Nat := none
  /-- die TLB | 16,384 entries | 12 R179 | empty -/
  tlb : List TlbEntry := []
  /-- queue locks by global address | 64 per slice | 13 R215 | empty -/
  locks : Table Lock := []
  /-- world in force for the die, its four Dill engines and its ten beam engine clusters | 15 bits | 34 R457 | 0 -/
  world : BitVec 15 := 0
  /-- Lovage reservation for an unplaceable level-11 task | Option task | 20 R313 | none -/
  reserved : Option Nat := none
  /-- Chervil binner window, oldest first: launch, triangle, the node that feeds it, job | up to 4,096 triangles | 26 R386 | empty -/
  binner : List (Nat × BitVec 512 × Nat × Nat) := []
  deriving DecidableEq, Repr

/-- A Dill job in an engine's queue (R357, R360, R447). -/
structure DillJob where
  dev : Nat
  /-- issuing group, 0 for a transfer entry -/
  owner : Nat
  task : Nat
  launch : Nat
  job : Nat
  core : BitVec 6 := 0x3F
  slot : BitVec 5 := 0x1F
  iaddr : Word
  card : BitVec 512
  /-- virtual address of the card; of a transfer entry's, its host address -/
  cardAddr : Word
  ticket : BitVec 32
  /-- transfer entry: some true for device to host -/
  transfer : Option Bool := none
  deriving DecidableEq, Repr

/-- The RV32IMV core of a copy engine (R350): the base's registers, and those of its vector extension with VLEN 256. -/
structure Rv where
  /-- x0 to x31; x0 reads 0 whatever stands there | 32 x 32 | 24 R350 | DESIGN CHOICE 0, log entry 3 -/
  x : Vector (BitVec 32) 32 := Vector.replicate 32 0
  /-- program counter | 32 | 24 R350 | DESIGN CHOICE 0, log entry 3 -/
  pc : BitVec 32 := 0
  /-- v0 to v31 | 32 x 256 | 24 R350 | DESIGN CHOICE 0, log entry 3 -/
  v : Vector (BitVec 256) 32 := Vector.replicate 32 0
  /-- vl | 32 | 24 R350 | PRESUMED 0 (RISC-V's), log entry 28 -/
  vl : Nat := 0
  /-- vtype | 32 | 24 R350 | PRESUMED vill (RISC-V's), log entry 28 -/
  vtype : Nat := 0x80000000
  /-- vstart | 8 | 24 R350 | DESIGN CHOICE 0, log entry 3 -/
  vstart : Nat := 0
  /-- vcsr: vxrm in bits 2:1, vxsat in bit 0 | 3 | 24 R350 | DESIGN CHOICE 0, log entry 3 -/
  vcsr : Nat := 0
  /-- f0 to f31 of the F and D extensions, which V needs | 32 x 64 | 24 R350 | DESIGN CHOICE 0, log entry 3 -/
  f : Vector (BitVec 64) 32 := Vector.replicate 32 0
  /-- fcsr: frm in bits 7:5, fflags in bits 4:0 | 8 | 24 R350 | DESIGN CHOICE 0, log entry 3 -/
  fcsr : Nat := 0
  deriving DecidableEq, Repr

/-- A Dill copy engine: engines 0-31 are 4d + k of die d, 32 and 33 face the host (R350). -/
structure Dill where
  /-- jobs in queue order; the head runs when running | up to 64 | 24 R360 | empty -/
  queue : List DillJob := []
  /-- the head job has started | 1 | 24 R360 | 0 -/
  running : Bool := false
  /-- instruction memory | 64 KiB | 24 R350 | DESIGN CHOICE 0, log entry 3 -/
  imem : Bytes := []
  /-- stream-buffer SRAM; nothing but a job's routine reads it | 256 KiB | 24 R350, 34 R457 | DESIGN CHOICE 0, log entry 3 -/
  stream : Bytes := []
  /-- RV32IMV core | Rv | 24 R350 | as after reset -/
  rv : Rv := {}
  /-- source bytes that the running job has read, and destination bytes it has written (CRCGEN: entries); the model's own fields | Nat | 24 R350
  | 0 -/
  got : Nat := 0
  wrote : Nat := 0
  /-- source bytes that a firmware routine has read; the model's own field | list | 24 R350 | empty -/
  seen : List Byte := []
  /-- bytes of the destination's unfinished 4 KiB block, for its sidecar entry; the model's own field | list | 24 R356 | empty -/
  block : List Byte := []
  /-- writes held until the current job ends: (imem, index, value) | list | 24 R351 | empty -/
  held : List (Bool × Nat × Word) := []
  deriving DecidableEq, Repr

/-- An import handle (R402). -/
structure Handle where
  exporter : Nat
  index : Nat
  base : Word
  len : Word
  r : Bool
  w : Bool
  valid : Bool := true
  deriving DecidableEq, Repr

/-- One logical device's hub-die state outside the management registers. -/
structure Dev where
  /-- fault log entries by FLHEAD mod 256 | 256 x 256 | 21 R331 | 0 -/
  log : Table (BitVec 256) := []
  /-- FLHEAD | 32 | 21 R326 | 0 -/
  flhead : BitVec 32 := 0
  /-- pending counts of operand tokens | 4,095 x 20 | 20 R309 | 0 -/
  tokens : Table (BitVec 20) := []
  /-- handle table | 4,096 handles | 29 R402 | none valid -/
  handles : Table Handle := []
  /-- last gang handle given | 32 | 21 R326 | DESIGN CHOICE 0, log entry 3 -/
  lastHandle : BitVec 32 := 0
  deriving DecidableEq, Repr

/-- Statistics counts under one tensor identifier (R143). -/
structure Stat where
  sat : Nat := 0
  flush : Nat := 0
  nan : Nat := 0
  deriving DecidableEq, Repr

/-- A launch taken from a host queue (R23, R46, R47). -/
structure Launch where
  /-- logical device and host queue | 0-7, 0-15 | 33 R444 | from the entry -/
  dev : Nat
  queue : Nat
  /-- job number | 6 | 02 R46 | from the entry -/
  job : Nat
  /-- sequence value | 63 | 02 R46 | from the entry -/
  seq : Word
  /-- completion-word address | 64 | 02 R46 | from the entry -/
  cwaddr : Word
  /-- reach code | 2 | 02 R46 | from the entry -/
  reach : BitVec 2
  /-- statistics-region address | 64 | 02 R46, 09 R144 | from the entry -/
  stats : Word
  /-- identifier layout word | 64 | 02 R27 | from the entry -/
  layout : Word
  /-- IRQ bit and MSI-X vector | 1 and 6 | 33 R446 | from the entry and HQCTL -/
  irq : Bool
  vec : Nat
  /-- outstanding-task count | Nat | 02 R44, R47 | 0 -/
  outstanding : Nat := 0
  /-- the launch failed | 1 | 02 R48 | 0 -/
  failed : Bool := false
  /-- the completion word's address failed its own checks | 1 | 02 R46, R52 | 0 -/
  noWord : Bool := false
  /-- the host link has gone down since the launch was taken | 1 | 02 R52, 33 R451 | 0 -/
  cut : Bool := false
  /-- next task ordinal | 32 | 02 R28 | 0 -/
  ordinal : BitVec 32 := 0
  /-- first wave number that began after the count read zero | Option | 02 R47 | none -/
  zeroWave : Option Nat := none
  /-- step 2 of R47 is met | 1 | 02 R47 | 0 -/
  quiet : Bool := false
  /-- links touched whose flush read is not complete: die numbers, 8 the host link | list | 02 R47 | empty -/
  links : List Nat := []
  /-- statistics counts per tensor identifier | 4,095 records | 09 R143 | empty -/
  stat : Table Stat := []
  /-- its logical device's die was declared dead: its tasks count as retired | 1 | 29 R406 | 0 -/
  dead : Bool := false
  deriving DecidableEq, Repr

/-- Where a task stands (R310, R44). -/
inductive TaskLife where
  | waiting | ready | placed | retired
  deriving DecidableEq, Repr

/-- An accepted task (R44, R310). -/
structure Task where
  launch : Nat
  /-- job the record carried | 6 bits | 29 R409 | at acceptance -/
  job : Nat := 0
  /-- logical device that holds it | 0-7 | 20 R312 | at acceptance -/
  die : Nat
  /-- the 32-byte record | 256 | 20 R308 | at acceptance -/
  record : BitVec 256
  ttype : TType
  /-- task ordinal | 32 | 02 R28 | at acceptance -/
  ordinal : BitVec 32
  /-- life of the task | TaskLife | 20 R310 | waiting -/
  life : TaskLife := .waiting
  /-- cycle at which it became ready | Nat | 20 R313 | 0 -/
  readyAt : Nat := 0
  /-- cycle at which its next unplaced gang came to be offered | Nat | 20 R313 | 0 -/
  nextAt : Nat := 0
  /-- gangs placed so far and gangs retired so far | Nat | 02 R34, R44 | 0 -/
  gangsPlaced : Nat := 0
  gangsRetired : Nat := 0
  /-- argument that s0 receives | 64 | 07 R107 | record ARG -/
  arg : Word
  /-- batch of a regrouped task | Option | 02 R39 | none -/
  batch : Option (Nat × List (Nat × BitVec 512)) := none
  deriving DecidableEq, Repr

/-- A record on its way to a Lovage (R312, R318). -/
structure InRec where
  id : Nat
  /-- sending group, 0 for a host-queue entry -/
  owner : Nat
  record : BitVec 256
  gang : Bool
  launch : Nat
  /-- the job it carries (R409) -/
  job : Nat := 0
  fromDie : Nat
  toDie : Nat
  deriving DecidableEq, Repr

/-- A record on its way to, or held at, a graph node (R384, R386, R393). job: the one it carries (R409). flush: of the binner flush it came of
twice the number while it is a triangle, and one more once it is a block record; 0 for none. -/
structure GraphRec where
  id : Nat
  node : Nat
  die : Nat
  fromDie : Nat
  data : BitVec 512
  launch : Nat
  job : Nat := 0
  remote : Bool
  flush : Nat := 0
  deriving DecidableEq, Repr

/-- A fabric message (R407) with the facts its packet carries. -/
structure Msg where
  id : Nat
  bits : BitVec 512
  die : Nat
  gang : BitVec 32
  rank : Nat
  sender : Nat
  sdev : Nat
  launch : Nat
  /-- job and sequence value of the launch that sent it, for MDROP (R331, R410) -/
  ljob : BitVec 6 := 0
  lseq : BitVec 32 := 0
  slot : Nat
  iaddr : Word
  /-- it has left its core's fabric interface (R417) -/
  injected : Bool := false
  arrived : Bool := false
  deriving DecidableEq, Repr

/-- A peer store sent and not yet acknowledged (R203). -/
structure PeerStore where
  id : Nat
  owner : Nat
  launch : Nat
  job : Nat
  dev : Nat
  handle : Nat
  addr : Word
  iaddr : Word
  slot : Nat
  core : Nat
  secure : Bool
  /-- offset within the imported object, and the bytes to write there -/
  ofs : Nat
  bytes : List (Nat × Byte)
  /-- the eviction priority it asks for -/
  hint : Nat := 0
  /-- its handle has been revoked since it was sent: by the HREVOKE of a group, and the handle's exporter (R423) -/
  gone : Option (Nat × Nat) := none
  deriving DecidableEq, Repr

/-- A stamped-commit store between its STSC and its end (R432, R437). -/
structure Stamped where
  id : Nat
  owner : Nat
  launch : Nat
  job : Nat
  die : Nat
  core : Nat
  slot : Nat
  secure : Bool
  addr : Word
  iaddr : Word
  /-- import handle, 0 for local memory, and offset within the object or the memory -/
  handle : Nat
  ofs : Nat
  /-- place of the cell, known once the store has arrived -/
  cell : Nat := 0
  stamp : Word
  val : Word
  /-- cycle at which its STSC issued -/
  since : Nat
  arrived : Bool := false
  order : Nat := 0
  /-- 0 pending, 1 installed, 2 refused, 3 abandoned, 4 lost with the reset of its home die: never installed, it waits to be abandoned -/
  outcome : Nat := 0
  /-- as of a peer store -/
  gone : Option (Nat × Nat) := none
  deriving DecidableEq, Repr

/-- The store has no outcome yet (R432). -/
def Stamped.isOpen (w : Stamped) : Bool := w.outcome = 0 || w.outcome = 4

/-- The 48-bit counters one die's counting points keep for one job (R411). -/
structure Counts where
  inj : BitVec 48 := 0
  cons : BitVec 48 := 0
  lost : BitVec 48 := 0
  deriving DecidableEq, Repr

/-- What one pass of a wave collected for a job (R413). -/
structure PassSum where
  i : BitVec 48
  c : BitVec 48
  l : BitVec 48
  busy : Bool
  act : Bool
  deriving DecidableEq, Repr

/-- A Sorrel wave in progress (R412, R413). num: the waves begun before it. -/
structure Wave where
  num : Nat
  pass1 : Option (List PassSum) := none
  act : List Nat := []
  deriving DecidableEq, Repr

/-- The hub die's state outside the management registers. -/
structure Hub where
  /-- Thyme reference counter as it stood at thymeAt | 64 | 30 R426 | DESIGN CHOICE 0, log entry 3 -/
  thyme : Word := 0
  /-- clock from which the counter runs on | Nat | 30 R426 | 0 -/
  thymeAt : Nat := 0
  /-- its rate against the model's clock, in ppm, -100 to 100 | Int | 30 R426, 33 R449 | 0 -/
  rate : Int := 0
  /-- horizon H | 64 | 30 R430 | DESIGN CHOICE 0, log entry 3 -/
  h : Word := 0
  /-- ATOMSC ticket sequencer | 64 | 13 R210 | DESIGN CHOICE 0, log entry 3 -/
  ticket : Word := 0
  /-- waves in progress | up to 4 | 29 R412 | none -/
  waves : List Wave := []
  /-- wave requests not yet started | Nat | 29 R412 | 0 -/
  waveReq : Nat := 0
  /-- waves begun | Nat | 29 R412 | 0 -/
  waveNum : Nat := 0
  /-- 1 more than the number of the last wave that completed, 0 before any | Nat | 29 R420 | 0 -/
  waveDone : Nat := 0
  /-- status word of the last completed wave, by job | 64 x 64 | 29 R420 | DESIGN CHOICE 0, log entry 3 -/
  status : Table Word := []
  /-- the number and losses of the last wave that declared each job quiet | table | 29 R414, R418 | none -/
  quiet : Table (Nat × BitVec 48) := []
  /-- lost total last reported, by job | 48 | 29 R415 | 0 -/
  seenLost : Table (BitVec 48) := []
  /-- dead flag by job | 64 | 29 R414, R415 | 0 -/
  deadFlag : BitVec 64 := 0
  /-- worlds in force for the two hub Dill engines | 2 | 34 R457 | 0 -/
  world : BitVec 2 := 0
  /-- counters by 64 x die + job | 9 x 64 | 29 R411 | 0 -/
  counts : Table Counts := []
  deriving DecidableEq, Repr

/-- A write to host memory that has been posted and not yet sent (R199, R451); without bytes, an MSI-X message whose vector is addr. -/
structure Posted where
  dev : Nat
  job : Nat
  addr : Nat
  bytes : List Byte
  launch : Nat
  /-- group that stored it, 0 for another agent -/
  owner : Nat := 0
  deriving DecidableEq, Repr

/-- What is in flight between dies. -/
structure Fabric where
  /-- task and gang records not yet accepted | list | 20 R312 | empty -/
  recs : List InRec := []
  /-- graph records in flight or held at a node | list | 26 R393 | empty -/
  graph : List GraphRec := []
  /-- fabric messages in flight or pending | list | 29 R410 | empty -/
  msgs : List Msg := []
  /-- peer stores not yet acknowledged | list | 13 R203 | empty -/
  stores : List PeerStore := []
  /-- stamped-commit stores not yet joined by their STSC | list | 30 R432 | empty -/
  stamped : List Stamped := []
  /-- posted writes to host memory and MSI-X messages not yet sent, oldest first | list | 33 R451, 13 R199 | empty -/
  posted : List Posted := []
  /-- MSI-X vectors sent, oldest first | list | 33 R448 | empty -/
  msix : List Nat := []
  deriving DecidableEq, Repr

/-- Which agent moves next. group: that group issues its instruction. event: that event happens. The others are what
caches and TLBs may do at any time (R58, R59, R179, R186, R222): drop a line, an instruction byte, a translation or a
sidecar scale, carry the next line of a copy, or fill a line or an instruction byte before it is used; posted writes may leave
for the host; idle: cycles pass in which nothing issues; write: the host writes its memory, or firmware a die's; copyBytes: a copy
carries a part of a line; dirGrant: the directory gives a sole sharer E (R191). routineStep, routineIn, routineOut: a copy engine's core
executes an instruction, and a stream-buffer transfer brings source bytes or takes destination bytes (R350); jobReads, jobWrites: a firmware
routine does so before its end. inject: a message leaves its core's fabric interface (R417). The rest divide accesses (log entry 10). lag: a
turn's store is not seen by some cores for a while (R232, R245, R253). earlyRead: a group's plain load, or an operation, reads the named bytes
ahead; earlyWrite: an operation writes the named ones ahead (R229, R239). tornStore: a group's plain store whose named bytes come later, and
latePart: some of them come. splitStore: a peer store on its way travels in two parts. tornAtomic: at each moment so many lines of an atomic are
performed, then that many turns of the list pass (R209). -/
inductive Turn where
  | group (uid : Nat)
  | event (e : Instr)
  | l1Drop (die core line : Nat)
  | icDrop (die core byte : Nat)
  | tlbDrop (die core dev va : Nat)
  | dieTlbDrop (die dev va : Nat)
  | sideDrop (line block : Nat)
  | copyLine (die core copy : Nat)
  | l1Fill (die core line : Nat)
  | icFill (die core byte : Nat)
  | flushPosted
  | idle (cycles : Nat)
  | write (place : Nat) (bytes : List Byte)
  | copyBytes (die core copy n : Nat)
  | dirGrant (die line : Nat)
  | routineStep (engine : Nat)
  | routineIn (engine place n : Nat)
  | routineOut (engine place n : Nat)
  | jobReads (engine n : Nat)
  | jobWrites (engine n : Nat)
  | inject (msg : Nat)
  | splitStore (store mask : Nat)
  | earlyRead (who : Nat) (parts : List (Nat × Nat))
  | earlyWrite (e : Instr) (parts : List (Nat × Nat))
  | tornStore (uid mask : Nat)
  | latePart (uid mask : Nat)
  | lag (cores : List Nat) (t : Turn)
  | tornAtomic (uid : Nat) (moments : List (Nat × Nat))
  deriving DecidableEq, Repr

/-- The whole module. -/
structure State where
  /-- the group that issues next | Group | 02 R36 | no group -/
  g : Group := {}
  /-- every other group that is resident, saved or ended in a live gang, in round-robin order | list | 02 R15, R36 | empty -/
  rest : List Group := []
  /-- gangs placed and not yet retired, by the model's number | table | 02 R23 | empty -/
  gangs : Table Gang := []
  /-- teams, keyed 32 x gang + team index | table | 02 R23 | empty -/
  teams : Table Team := []
  /-- cores, keyed 64 x die + core; an absent core is as after reset | 8 x 40 | 01 R11 | as after reset -/
  cores : Table Core := []
  /-- compute dies | 8 | 01 R9 | as after reset -/
  dies : Table Die := []
  /-- logical devices | 8 | 01 R13 | as after reset -/
  devs : Table Dev := []
  /-- Dill engines 0-33 | 34 | 24 R350 | as after reset -/
  dills : Table Dill := []
  /-- hub die | Hub | 01 R10 | as after reset -/
  hub : Hub := {}
  /-- traffic in flight | Fabric | 29 | empty -/
  fab : Fabric := {}
  /-- launches taken from host queues | table | 02 R46 | empty -/
  launches : Table Launch := []
  /-- accepted tasks | table | 20 R310 | empty -/
  tasks : Table Task := []
  /-- device memory of die d at d x 2^35, host memory at 2^60; home copy (L2, stacked cache, devices) | 8 x 32 GiB and host | 12 R173 | DESIGN CHOICE unlisted byte 0, log entry 2 -/
  mem : Bytes := []
  /-- poisoned lines of the home copy with the bytes not yet written since | table of 128 | 12 R193 | empty -/
  poison : Table (BitVec 128) := []
  /-- sidecars attached to cached lines | table | 09 R141 | empty -/
  side : Table Side := []
  /-- the L2s, stacked caches, directories and metadata lines | Caches | 12 R185-R191 | empty -/
  cache : Caches := {}
  /-- how accesses stand divided; the model's own field | Divided | 14 R229, R232, R239 | empty -/
  split : Divided := {}
  /-- management and host-queue registers that differ from reset, by BAR0 offset | 64 each | 34 R454, 33 R444 | mregReset -/
  mreg : Table Word := []
  /-- turns to come: which agent moves next; the model's own field | list | guide | empty -/
  agenda : List Turn := []
  /-- without turns to come, an event of the module goes next; the model's own field | 1 | guide | 0 -/
  evTurn : Bool := false
  /-- events the model has chosen itself; turns its order of them; the model's own field | Nat | guide | 0 -/
  evNext : Nat := 0
  /-- core cycles since hub reset, the model's clock | Nat | 00 R5 | 0 -/
  now : Nat := 0
  /-- next number for a group, gang, launch, task, record, message, copy or operation; the model's own field | Nat | guide | 1 -/
  fresh : Nat := 1
  /-- counter of free values drawn; the model's own field | Nat | guide | DESIGN CHOICE 0, log entry 4 -/
  free : Nat := 0
  deriving DecidableEq, Repr

/-- Reasons the model itself stops. -/
inductive Fault where
  /-- Raised by every Jeniz meaning when the issuing group is absent, ended or saved: no group can issue.
  Safe: no run reaches it, because step issues only for an active group. -/
  | noGroup
  deriving DecidableEq, Repr

/-- Reasons the model gives an instruction no meaning. -/
inductive Refusal where
  /-- Raised by an arm of exec whose instruction has no meaning yet. Safe: nothing is claimed of it. -/
  | notModelled (mnemonic : String)
  deriving DecidableEq, Repr

/-- A step's outcome on this machine. -/
abbrev Res := Host.Outcome State Fault Refusal

/-- The module right after hub-die reset: nothing launched, every register at its reset value (log entries 2, 3, 4). -/
def State.reset : State := {}

end Sys2Proof.Machine
end

