-- ==== Sys2Proof/Machine/Access.lean ====
section
/-! DEFINITION. Reading and writing the parts of State: groups by number, teams, cores, dies, devices, launches, tasks. -/

namespace Sys2Proof.Machine

/-- A core as after reset where none is listed. -/
def State.core (s : State) (die core : Nat) : Core := (kget s.cores (64 * die + core)).getD {}
def State.setCore (s : State) (die core : Nat) (c : Core) : State := { s with cores := kset s.cores (64 * die + core) c }
def State.modCore (s : State) (die core : Nat) (f : Core → Core) : State := s.setCore die core (f (s.core die core))

/-- A die as after reset where none is listed. -/
def State.die (s : State) (d : Nat) : Die := (kget s.dies d).getD {}
def State.modDie (s : State) (d : Nat) (f : Die → Die) : State := { s with dies := kset s.dies d (f (s.die d)) }

/-- A logical device as after reset where none is listed. -/
def State.dev (s : State) (n : Nat) : Dev := (kget s.devs n).getD {}
def State.modDev (s : State) (n : Nat) (f : Dev → Dev) : State := { s with devs := kset s.devs n (f (s.dev n)) }

/-- A Dill engine as after reset where none is listed. -/
def State.dill (s : State) (k : Nat) : Dill := (kget s.dills k).getD {}
def State.modDill (s : State) (k : Nat) (f : Dill → Dill) : State := { s with dills := kset s.dills k (f (s.dill k)) }

/-- A team's key. -/
def teamKey (gang team : Nat) : Nat := 32 * gang + team
/-- The window-less team that stands for one that is gone. -/
def Team.gone : Team := { die := 0, core := 0, groups := 0, window := 0 }
def State.team? (s : State) (gang team : Nat) : Option Team := kget s.teams (teamKey gang team)
def State.team (s : State) (gang team : Nat) : Team := (s.team? gang team).getD Team.gone
def State.setTeam (s : State) (gang team : Nat) (t : Team) : State := { s with teams := kset s.teams (teamKey gang team) t }
def State.modTeam (s : State) (gang team : Nat) (f : Team → Team) : State :=
  match s.team? gang team with
  | some t => s.setTeam gang team (f t)
  | none => s

/-- The teams of a gang with their indices, in team order. -/
def State.teamsOf (s : State) (gang : Nat) : List (Nat × Team) :=
  (s.teams.filter fun e => decide (e.1 / 32 = gang)).map fun e => (e.1 % 32, e.2)

def State.gang? (s : State) (k : Nat) : Option Gang := kget s.gangs k
def State.modGang (s : State) (k : Nat) (f : Gang → Gang) : State :=
  match s.gang? k with
  | some g => { s with gangs := kset s.gangs k (f g) }
  | none => s

def State.launch? (s : State) (k : Nat) : Option Launch := kget s.launches k
def State.modLaunch (s : State) (k : Nat) (f : Launch → Launch) : State :=
  match s.launch? k with
  | some l => { s with launches := kset s.launches k (f l) }
  | none => s

def State.task? (s : State) (k : Nat) : Option Task := kget s.tasks k
def State.modTask (s : State) (k : Nat) (f : Task → Task) : State :=
  match s.task? k with
  | some t => { s with tasks := kset s.tasks k (f t) }
  | none => s

/-- Every group of the module, the issuing one first. -/
def State.groups (s : State) : List Group := s.g :: s.rest
/-- A group by the model's number. -/
def State.group? (s : State) (uid : Nat) : Option Group := s.groups.find? fun g => decide (g.uid = uid) && decide (g.life ≠ .absent)
/-- Updates the group with a number. -/
def State.modGroup (s : State) (uid : Nat) (f : Group → Group) : State :=
  if s.g.uid = uid then { s with g := f s.g }
  else { s with rest := s.rest.map fun g => if g.uid = uid then f g else g }
/-- Updates every group. -/
def State.modGroups (s : State) (f : Group → Group) : State := { s with g := f s.g, rest := s.rest.map f }
/-- The groups of a gang in rank order. -/
def State.groupsOf (s : State) (gang : Nat) : List Group :=
  let gs := s.groups.filter fun g => decide (g.gang = gang) && decide (g.life ≠ .absent)
  sortBy (fun a b => decide (a.rank ≤ b.rank)) gs

/-- The next unused number. -/
def State.take (s : State) : Nat × State := (s.fresh, { s with fresh := s.fresh + 1 })

/-- A free value (R4): the counter's next value of Config.freeValue. -/
def State.draw (s : State) : Word × State := (Config.freeValue s.free, { s with free := s.free + 1 })

/-- n free bytes. -/
def State.freeBytes (s : State) : Nat → List Byte × State
  | 0 => ([], s)
  | n + 1 =>
    let (v, s) := s.draw
    let (bs, s) := s.freeBytes n
    (v.setWidth 8 :: bs, s)

/-! ## Time (R18, R427) -/

/-- Nanoseconds of a number of core cycles at 1.7 GHz. -/
def nsOf (cycles : Nat) : Nat := cycles * 10 / 17
/-- Thyme time now (R426). -/
def State.thyme (s : State) : Word :=
  let n := nsOf s.now - nsOf s.hub.thymeAt
  s.hub.thyme + BitVec.ofNat 64 n + BitVec.ofInt 64 ((n : Int) * s.hub.rate / 1000000)
/-- Nanoseconds since a die's last sync exchange, and how far the bounds have moved apart since: 50 ppm (R427). -/
def State.sinceSync (s : State) (die : Nat) : Nat := nsOf s.now - nsOf (s.die die).syncAt
def State.drift (s : State) (die : Nat) : Nat := s.sinceSync die * 50 / 1000000
/-- The bounds E and L of a die's interval now. -/
def State.eOf (s : State) (die : Nat) : Word :=
  let d := s.die die
  if d.l = BitVec.allOnes 64 then 0
  else BitVec.ofNat 64 (Nat.max d.eMin.toNat (Nat.min (d.e.toNat + s.sinceSync die - s.drift die) s.thyme.toNat))
def State.lOf (s : State) (die : Nat) : Word :=
  let d := s.die die
  if d.l = BitVec.allOnes 64 then d.l
  else BitVec.ofNat 64 (Nat.max d.lMin.toNat (Nat.max (d.l.toNat + s.sinceSync die + s.drift die) s.thyme.toNat))
/-- The width L - E. -/
def State.width (s : State) (die : Nat) : Nat := (s.lOf die).toNat - (s.eOf die).toNat

end Sys2Proof.Machine
end

