-- ==== Sys2Proof/Machine/MReg.lean ====
section
/-! DEFINITION. The management register space and the host-queue registers (spec/34 R454, spec/33 R443, R444). -/

namespace Sys2Proof.Machine

/-- Hub registers (R454). -/
def offRDYSTAT : Nat := 0x000
def offRDYMEM : Nat := 0x008
def offWLD (i : Nat) : Nat := 0x010 + 8 * i
def offHLSTAT : Nat := 0x028
def offFABCFG : Nat := 0x030
def offTMCFG : Nat := 0x038
def offFWSTAT : Nat := 0x040
def offPWRCFG : Nat := 0x048
def offMEASSEQ : Nat := 0x050
def offMEAS (slot i : Nat) : Nat := 0x100 + 0x40 * slot + 8 * i

/-- Registers of logical device n (R454). -/
def offDev (n r : Nat) : Nat := 0x10000 + 0x1000 * n + r
def offPTBR (n : Nat) : Nat := offDev n 0x000
def offTVEC (n : Nat) : Nat := offDev n 0x008
def offTTBR (n : Nat) : Nat := offDev n 0x010
def offWGBR (n : Nat) : Nat := offDev n 0x018
def offEXBR (n : Nat) : Nat := offDev n 0x020
def offMHTB (n : Nat) : Nat := offDev n 0x028
def offSAVEBASE (n : Nat) : Nat := offDev n 0x030
def offSAVELEN (n : Nat) : Nat := offDev n 0x038
def offRGN (n k : Nat) : Nat := offDev n (0x100 + 8 * k)
def offHDC (n j : Nat) : Nat := offDev n (0x400 + 8 * j)

/-- Registers of compute die d (R454). -/
def offDie (d r : Nat) : Nat := 0x100000 + 0x10000 * d + r
def offFWRNG (d w : Nat) : Nat := offDie d (0x10 * w)
def offFWCTL (d w : Nat) : Nat := offDie d (0x10 * w + 8)
def offRRNG (d r : Nat) : Nat := offDie d (0x100 + 0x10 * r)
def offRRCTL (d r : Nat) : Nat := offDie d (0x108 + 0x10 * r)
def offLSCFG (d : Nat) : Nat := offDie d 0x180
def offLVCFG (d : Nat) : Nat := offDie d 0x188
def offLVBUD (d : Nat) : Nat := offDie d 0x190
def offLVECW (d k : Nat) : Nat := offDie d (0x198 + 8 * k)
def offTCWSTAT (d : Nat) : Nat := offDie d 0x1B8
def offTCWCNT (d : Nat) : Nat := offDie d 0x1C0
def offPWRSTAT (d : Nat) : Nat := offDie d 0x1C8
def offCMPCFG (d : Nat) : Nat := offDie d 0x1D0

/-- DXRT entry e of Dill engine k: engines 0-31 are 4d + i, 32 and 33 the hub engines (R454). -/
def offDXRT (k e : Nat) : Nat :=
  if k < 32 then offDie (k / 4) (0x800 + 0x200 * (k % 4) + 8 * e) else 0x800 + 0x200 * (k - 32) + 8 * e

/-- Registers of host queue q of logical device n (R443, R444): r is 0x00 HQBASE, 0x08 HQCTL, 0x10 HQTAIL, 0x18 HQHEAD. -/
def offHQ (n q r : Nat) : Nat := 0x1000000 + 0x10000 * n + 0x1000 * q + r

/-- An offset holds entry 0-3 of a routine table (R351). -/
def isFixedDXRT (off : Nat) : Bool :=
  let hub := off < 0x10000 && 0x800 ≤ off && off < 0xC00 && (off - 0x800) % 0x200 < 32
  let die := 0x100000 ≤ off && off < 0x180000 && 0x800 ≤ off % 0x10000 && off % 0x10000 < 0x1000
    && (off % 0x10000 - 0x800) % 0x200 < 32
  hub || die

/-- Reset value of the register at an offset (R404, R428, R461, R214, R316, R351; every other register 0: SAVEBASE, SAVELEN, HQBASE,
HQTAIL, HQHEAD, FWSTAT, CMPCFG and RDYMEM by log entry 3, DESIGN CHOICE, the rest by their maps). -/
def mregReset (off : Nat) : Word :=
  if off = offFABCFG then BitVec.ofNat 64 (100 * 2 ^ 32 + 50 * 2 ^ 16 + 2000)
  else if off = offTMCFG then BitVec.ofNat 64 (8192 * 2 ^ 16 + 1000)
  else if off = offPWRCFG then 760
  else if isFixedDXRT off then 0x8000000000000000
  else if 0x100000 ≤ off && off < 0x180000 then
    (if off % 0x10000 = 0x180 then 4096 else if off % 0x10000 = 0x188 then 6
     else if off % 0x10000 = 0x190 then 0xFFFFFFFF else 0)
  else 0

/-- The register at an offset. -/
def State.mr (s : State) (off : Nat) : Word := (kget s.mreg off).getD (mregReset off)
/-- The register at an offset, as a number. -/
def State.mrN (s : State) (off : Nat) : Nat := (s.mr off).toNat
/-- Writes a register. -/
def State.setMr (s : State) (off : Nat) (v : Word) : State := { s with mreg := kset s.mreg off v }
/-- Sets or clears one bit of a register. -/
def State.mrBit (s : State) (off i : Nat) (b : Bool) : State :=
  let v := s.mr off
  s.setMr off (if b then v ||| (1#64 <<< i) else v &&& ~~~(1#64 <<< i))

/-- The host link is up (HLSTAT.UP, R450). -/
def State.linkUp (s : State) : Bool := (s.mr offHLSTAT).getLsbD 0
/-- Compute die d is ready (RDYSTAT.DIE, R455). -/
def State.dieReady (s : State) (d : Nat) : Bool := (s.mr offRDYSTAT).getLsbD (2 + d)
/-- Dill engine k is ready (RDYSTAT.DILL and HDILL, R455). -/
def State.dillReady (s : State) (k : Nat) : Bool :=
  (s.mr offRDYSTAT).getLsbD (if k < 32 then 12 + k else 10 + (k - 32))

/-- Bit of WLD0-WLD2, numbered on from WLD0, of a block (R457): dies 0-7, hub engines 8-9, engines 10-41, then beam
clusters 42-121. -/
def worldRegBit (block : Nat) : Nat × Nat :=
  if block < 42 then (offWLD 0, block) else if block < 106 then (offWLD 1, block - 42) else (offWLD 2, block - 106)
/-- The world written for a block. -/
def State.worldWritten (s : State) (block : Nat) : Bool := (s.mr (worldRegBit block).1).getLsbD (worldRegBit block).2
/-- The world in force for a block (R457). Die.world: bit 0 the die, bits 1-4 its Dill engines, bits 5-14 its clusters. -/
def State.worldInForce (s : State) (block : Nat) : Bool :=
  if block < 8 then (s.die block).world.getLsbD 0
  else if block < 10 then s.hub.world.getLsbD (block - 8)
  else if block < 42 then (s.die ((block - 10) / 4)).world.getLsbD (1 + (block - 10) % 4)
  else (s.die ((block - 42) / 10)).world.getLsbD (5 + (block - 42) % 10)
/-- A world change of a block is pending. -/
def State.worldPending (s : State) (block : Nat) : Bool := s.worldWritten block != s.worldInForce block
/-- World of a die's groups (R457). -/
def State.secure (s : State) (die : Nat) : Bool := s.worldInForce die
/-- Block number of a Dill engine. -/
def dillBlock (k : Nat) : Nat := if k < 32 then 10 + k else 8 + (k - 32)

end Sys2Proof.Machine
end

