-- ==== Sys2Proof/Machine/Mem.lean ====
section
/-! DEFINITION. Memory: page-table walks and checks, the home copy, the L1 with word ownership and generations, format
windows and sidecars, retention levels (spec/12 R172-R195, spec/09 R139-R142, spec/29 R401-R406, spec/34 R457, R458). -/

namespace Sys2Proof.Machine

/-! ## Cause codes (R323) -/
def cILLEGAL : BitVec 8 := 0x01
def cPRIV : BitVec 8 := 0x02
def cREGBOUND : BitVec 8 := 0x03
def cXFER : BitVec 8 := 0x04
def cVIEWVAL : BitVec 8 := 0x05
def cSWTRAP : BitVec 8 := 0x07
def cBRK : BitVec 8 := 0x08
def cSYSARG : BitVec 8 := 0x09
def cPRENOTE : BitVec 8 := 0x0A
def cCTXBAD : BitVec 8 := 0x0B
def cTRANS : BitVec 8 := 0x10
def cPTRSV : BitVec 8 := 0x11
def cWORLD : BitVec 8 := 0x12
def cPERM : BitVec 8 := 0x13
def cCLASS : BitVec 8 := 0x14
def cALIGN : BitVec 8 := 0x15
def cSPBOUND : BitVec 8 := 0x16
def cPOISON : BitVec 8 := 0x17
def cLOCKOWN : BitVec 8 := 0x18
def cQINIT : BitVec 8 := 0x20
def cQCFG : BitVec 8 := 0x21
def cQBUSY : BitVec 8 := 0x22
def cBARINIT : BitVec 8 := 0x23
def cBAROVF : BitVec 8 := 0x24
def cNBMEMB : BitVec 8 := 0x25
def cACCBOUND : BitVec 8 := 0x28
def cMSHAPE : BitVec 8 := 0x29
def cWBOUND : BitVec 8 := 0x2A
def cTREC : BitVec 8 := 0x2C
def cTOKUND : BitVec 8 := 0x2D
def cTOKOVF : BitVec 8 := 0x2E
def cXJOB : BitVec 8 := 0x30
def cXTICK : BitVec 8 := 0x31
def cXFMT : BitVec 8 := 0x32
def cXCAP : BitVec 8 := 0x33
def cCRCMIS : BitVec 8 := 0x34
def cXROUT : BitVec 8 := 0x35
def cBPOOL : BitVec 8 := 0x38
def cBREC : BitVec 8 := 0x39
def cBNODE : BitVec 8 := 0x3A
def cRPFULL : BitVec 8 := 0x3B
def cGNODE : BitVec 8 := 0x3C
def cRPERM : BitVec 8 := 0x40
def cHINV : BitVec 8 := 0x41
def cHIMP : BitVec 8 := 0x42
def cMTGT : BitVec 8 := 0x43
def cMSTATE : BitVec 8 := 0x44
def cMDROP : BitVec 8 := 0x45
def cMLOST : BitVec 8 := 0x46
def cTWIDE : BitVec 8 := 0x48
def cTCAP : BitVec 8 := 0x49
def cMSLICE : BitVec 8 := 0x60
def cWLFMT : BitVec 8 := 0x61
def cCPYFLT : BitVec 8 := 0x62
def cLAYOUT : BitVec 8 := 0x68
def cCTARGET : BitVec 8 := 0x69
def cTTYPE : BitVec 8 := 0x6A
def cTOKFULL : BitVec 8 := 0x6B
def cLOCKEND : BitVec 8 := 0x6C
def cENDFLT : BitVec 8 := 0x6D
def cDEADDIE : BitVec 8 := 0x70
def cLINKDN : BitVec 8 := 0x71

/-! ## Addresses -/

/-- A valid virtual address (R172). -/
def validVa (a : Int) : Bool := 0 ≤ a && a < 2 ^ 57
/-- A valid control-transfer target (R57, R72). -/
def validTarget (t : Int) : Bool := validVa t && t % 12 = 0
/-- Place of a die's physical address in the model's memory. -/
def memKey (die p : Nat) : Nat := die * 2 ^ 35 + p
/-- Place of a host address in the model's memory. -/
def hostKey (a : Nat) : Nat := 2 ^ 60 + a
/-- The line of a place. -/
def lineOf (k : Nat) : Nat := k / 128
/-- The die whose memory holds a place. -/
def dieOfKey (k : Nat) : Nat := k / 2 ^ 35

/-! ## The home copy and the L1 (R186, R187, R193) -/

/-- A byte of an L1 line can be read: its word is owned or the line's fill generation is the register's (R187). -/
def L1Line.readable (l : L1Line) (gen : BitVec 16) (i : Nat) : Bool := l.own.getLsbD (i / 4) || (l.gen == gen && !l.old)

/-- The readable L1 copy of a byte. -/
def Core.l1Byte? (c : Core) (k : Nat) : Option Byte :=
  match kget c.l1 (lineOf k) with
  | some l => if l.readable c.gen (k % 128) then some (bget l.data (k % 128)) else none
  | none => none

/-- The bytes of a store within [lo, lo + n), counted from lo. -/
def slice (m : Bytes) (lo n : Nat) : Bytes :=
  (m.filter fun e => decide (lo ≤ e.1) && decide (e.1 < lo + n)).map fun e => (e.1 - lo, e.2)

/-- The core owns the word. -/
def Core.owns (c : Core) (line w : Nat) : Bool := match kget c.l1 line with | some l => l.own.getLsbD w | none => false
/-- A byte as it was before a store that the core does not see yet (R232, R245). -/
def State.unseenByte (s : State) (die core k : Nat) : Option Byte :=
  s.split.unseen.findSome? fun e => if e.cores.contains (64 * die + core) then kget e.old k else none
/-- The home copy as an agent that is no core reads it: what it has read ahead stays (R239). -/
def State.readByte (s : State) (k : Nat) : Byte := (kget s.split.read k).getD (bget s.mem k)
/-- The home copy as a core sees it: a store it does not see yet has not changed it. -/
def State.homeByte (s : State) (die core k : Nat) : Byte := (s.unseenByte die core k).getD (bget s.mem k)
/-- The bytes of a line's home copy as a core sees them. -/
def State.homeLine (s : State) (die core line : Nat) : Bytes :=
  let m := slice s.mem (128 * line) 128
  if s.split.unseen.isEmpty then m
  else (List.range 128).foldl (fun m i => match s.unseenByte die core (128 * line + i) with | some b => bset m i b | none => m) m
/-- What a load of the core reads at a place: what it has read ahead (R229), its readable L1 copy, else the home copy. -/
def State.see (s : State) (die core k : Nat) : Byte :=
  (kget s.split.read k).getD (((s.core die core).l1Byte? k).getD (s.homeByte die core k))

/-- Stores that some cores do not see yet, as far as a test keeps them. -/
def State.keepUnseen (s : State) (p : Echo → Bool) : State :=
  if s.split.unseen.isEmpty then s else { s with split := { s.split with unseen := s.split.unseen.filter p } }
/-- Every core sees them: what follows may order them before what it does (R230, R232; log entry 10). -/
def State.reveal (s : State) : State := s.keepUnseen fun _ => false
/-- A core may make known what it has seen: the stores that it does not see itself stay unseen. -/
def State.publish (s : State) (die core : Nat) : State := s.keepUnseen fun e => e.cores.contains (64 * die + core)
/-- A byte is stored anew, or its word gets an owner: a store of the aligned eight bytes about it that some cores do not see is seen (R229). -/
def State.revealAt (s : State) (k : Nat) : State := s.keepUnseen fun e => !e.old.any fun b => decide (b.1 / 8 = k / 8)

/-- Writes a core's dirty bytes of chosen words of a line back to the home copy (R186). -/
def writeBack (m : Bytes) (line : Nat) (l : L1Line) (words : BitVec 32) : Bytes :=
  (List.range 128).foldl (fun m i =>
    if l.dirty.getLsbD i && words.getLsbD (i / 4) then bset m (128 * line + i) (bget l.data i) else m) m

/-- A line leaves a core's L1: its dirty bytes are written back (R186). -/
def State.dropLine (s : State) (die core line : Nat) : State :=
  let c := s.core die core
  match kget c.l1 line with
  | some l => { (s.setCore die core { c with l1 := kdel c.l1 line }) with mem := writeBack s.mem line l (BitVec.allOnes 32) }
  | none => s

/-- Lines of a core's L1: 128 KiB (R16). -/
def l1Lines : Nat := 1024
/-- The line that leaves a full L1 for another: of the lower grade, the least recently used; a leased line stays (R185). -/
def Core.l1Victim (c : Core) (line : Nat) : Option Nat :=
  ((c.l1.filter fun e => decide (e.1 ≠ line) && !c.leases.any fun l => decide (l.line = e.1)).foldl
    (fun (best : Option (Nat × L1Line)) e => match best with
      | none => some e
      | some b => if (!e.2.hot && b.2.hot) || (e.2.hot == b.2.hot && decide (e.2.used < b.2.used)) then some e else best) none).map (·.1)
/-- A full L1 gives up a line for another (R16, R185). -/
def State.l1Room (s : State) (die core line : Nat) : State :=
  if (s.core die core).l1.length ≤ l1Lines then s
  else match (s.core die core).l1Victim line with | some v => s.dropLine die core v | none => s

/-- Fills a line: words not owned take the home copy, the fill generation becomes the register's (R187). -/
def State.l1Fill (s : State) (die core line : Nat) : State :=
  let c := s.core die core
  let home := s.homeLine die core line
  let l : L1Line := match kget c.l1 line with
    | some o =>
      let keep := o.data.filter fun e => o.own.getLsbD (e.1 / 4)
      let fresh := home.filter fun e => !o.own.getLsbD (e.1 / 4)
      { o with gen := c.gen, data := keep.foldl (fun m e => bset m e.1 e.2) fresh, old := false }
    | none => { gen := c.gen, data := home }
  (s.setCore die core { c with l1 := kset c.l1 line l }).l1Room die core line

/-- An access of a core to a line of its L1: the order of its use, and its grade (R185). -/
def State.l1Use (s : State) (die core line : Nat) (hot : Bool) : State :=
  match kget (s.core die core).l1 line with
  | some l => s.modCore die core fun c => { c with l1 := kset c.l1 line { l with hot := l.hot || hot, used := s.cache.uses } }
  | none => s

/-- Chosen words with the other halves of their aligned eight bytes: what an atomic access has written whole is written back whole (R229). -/
def pairs (words : BitVec 32) : BitVec 32 :=
  words ||| ((words >>> 1) &&& 0x55555555#32) ||| ((words &&& 0x55555555#32) <<< 1)

/-- Bits of the dirty mask that belong to chosen words. -/
def wordBytes (words : BitVec 32) : BitVec 128 :=
  (List.range 128).foldl (fun m i => if words.getLsbD (i / 4) then m ||| (1#128 <<< i) else m) 0

/-- The home slice takes chosen words of a line from every core of the line's die but one: their dirty bytes are written back, with
those of the rest of an aligned eight bytes (R186, R229). -/
def State.revoke (s : State) (line : Nat) (words : BitVec 32) (except : Option (Nat × Nat)) : State :=
  s.cores.foldl (fun s e =>
    if e.1 / 64 = dieOfKey (128 * line) && except ≠ some (e.1 / 64, e.1 % 64) then
      match kget e.2.l1 line with
      | some l =>
        if l.own &&& words = 0 then s
        else
          let l' := { l with own := l.own &&& ~~~words, dirty := l.dirty &&& ~~~(wordBytes (pairs words)) }
          { s with mem := writeBack s.mem line l (pairs words), cores := kset s.cores e.1 { e.2 with l1 := kset e.2.l1 line l' } }
      | none => s
    else s) s

/-- acquire(): the generation register advances; where it wraps, the L1 drops what it does not own (R187). -/
def State.acquire (s : State) (die core : Nat) : State :=
  s.modCore die core fun c =>
    if c.gen = BitVec.allOnes 16 then
      { c with gen := 0, l1 := (c.l1.filter fun e => decide (e.2.own ≠ 0)).map fun e => (e.1, { e.2 with old := true }) }
    else { c with gen := c.gen + 1 }

/-- No die but the home caches the line any more: its directory takes it back before a word is written or owned (R191). -/
def State.claim (s : State) (line : Nat) : State :=
  if (kget s.cache.dir line).isSome then
    { s with cache := { s.cache with
        dir := kdel s.cache.dir line
        l2 := s.cache.l2.filter fun e => decide (e.1 % 2 ^ 32 ≠ line) || decide (e.1 / 2 ^ 32 = dieOfKey (128 * line)) } }
  else s

/-- The core that leased the line last, where that lease has ended and no other core has been granted anything since. -/
def State.leaseEnded (s : State) (line : Nat) : Option Nat :=
  match kget s.cache.leaseEnds line with
  | some c => some c
  | none => (s.cores.find? fun e => e.2.leases.any fun l => decide (l.line = line) && decide (l.until_ ≤ s.now)).map (·.1)
/-- A grant on a line to another core than the one whose lease has ended follows that end: the core acquires (R230). -/
def State.afterLease (s : State) (die core line : Nat) : State :=
  match s.leaseEnded line with
  | some c =>
    if c = 64 * die + core then s
    else
      let s := { s with cores := s.cores.map fun (e : Nat × Core) =>
        (e.1, { e.2 with leases := e.2.leases.filter fun l => decide (l.line ≠ line) || decide (s.now < l.until_) }) }
      (({ s with cache := { s.cache with leaseEnds := kdel s.cache.leaseEnds line } } : State).acquire die core).reveal
  | none => s

/-- A line of an L1 comes to own a word. The word takes the home copy, and so does the rest of its aligned eight bytes where that is not
owned: no atomic access is then read in two parts (R186, R229). -/
def L1Line.take (l : L1Line) (home : Bytes) (line w : Nat) : L1Line :=
  let fresh := ((List.range 32).filter fun i => (pairs (1#32 <<< w)).getLsbD i && !l.own.getLsbD i)
  { l with
    data := fresh.foldl (fun d i => bsetMany d (4 * i) (bytesAt home (128 * line + 4 * i) 4)) l.data
    own := l.own ||| (1#32 <<< w) }
/-- The core becomes the owner of the word that holds a place; an acquire that the grant follows comes first (R186, R187, R230). -/
def State.ownWord (s : State) (die core k : Nat) : State :=
  let line := lineOf k
  let w := k % 128 / 4
  if (s.core die core).owns line w then s
  else
    let s := (((s.claim line).afterLease die core line).revealAt k).revoke line (1#32 <<< w) (some (die, core))
    let s := if (kget (s.core die core).l1 line).isSome then s else s.l1Fill die core line
    match kget (s.core die core).l1 line with
    | some l => s.modCore die core fun c => { c with l1 := kset c.l1 line (l.take s.mem line w) }
    | none => s

/-- A byte of a poisoned line has been written; the line is clean once all have (R193). -/
def State.unpoison (s : State) (k : Nat) : State :=
  match kget s.poison (lineOf k) with
  | none => s
  | some m =>
    let m := m &&& ~~~(1#128 <<< (k % 128))
    { s with poison := if m = 0 then kdel s.poison (lineOf k) else kset s.poison (lineOf k) m }

/-- A core's load of one byte of local memory: a readable copy, or a fill of the line (R187). -/
def State.loadByte (s : State) (die core k : Nat) : Byte × State :=
  match (s.core die core).l1Byte? k with
  | some b => (b, s)
  | none => (s.homeByte die core k, s.l1Fill die core (lineOf k))

/-- A core's store of one byte of local memory: the word is registered, the byte merged and dirty (R186). -/
def State.storeByte (s : State) (die core k : Nat) (b : Byte) : State :=
  let s := (s.ownWord die core k).unpoison k
  s.modCore die core fun c => match kget c.l1 (lineOf k) with
    | some l =>
      let l' := { l with data := bset l.data (k % 128) b, dirty := l.dirty ||| (1#128 <<< (k % 128)) }
      { c with l1 := kset c.l1 (lineOf k) l' }
    | none => c

/-- Loads n bytes upward. -/
def State.loadBytes (s : State) (die core k : Nat) : Nat → List Byte × State
  | 0 => ([], s)
  | n + 1 =>
    let (b, s) := s.loadByte die core k
    let (bs, s) := s.loadBytes die core (k + 1) n
    (b :: bs, s)

/-- Stores bytes upward. -/
def State.storeBytes (s : State) (die core k : Nat) : List Byte → State
  | [] => s
  | b :: bs => (s.storeByte die core k b).storeBytes die core (k + 1) bs

/-- An agent other than a core, or another die's access, writes one byte at its home L2 slice: owners lose the word first. -/
def State.homeWriteByte (s : State) (k : Nat) (b : Byte) : State :=
  let s := (((s.claim (lineOf k)).revealAt k).revoke (lineOf k) (1#32 <<< (k % 128 / 4)) none).unpoison k
  { s with mem := bset s.mem k b }
/-- Writes bytes at the home L2 slice upward. -/
def State.homeWrite (s : State) (k : Nat) : List Byte → State
  | [] => s
  | b :: bs => (s.homeWriteByte k b).homeWrite (k + 1) bs
/-- The same for an operation, but for the bytes it has written ahead (R239). -/
def State.opWrite (s : State) (k : Nat) (bs : List Byte) : State :=
  if s.split.wrote.isEmpty then s.homeWrite k bs
  else bs.zipIdx.foldl (fun s b => if s.split.wrote.contains (k + b.2) then s else s.homeWriteByte (k + b.2) b.1) s

/-- Writes back every dirty byte of a core. Ownership stays. -/
def State.cleanCore (s : State) (die core : Nat) : State :=
  let c := s.core die core
  let m := c.l1.foldl (fun m e => if e.2.dirty = 0 then m else writeBack m e.1 e.2 (BitVec.allOnes 32)) s.mem
  { (s.setCore die core { c with l1 := c.l1.map fun e => (e.1, { e.2 with dirty := 0 }) }) with mem := m }
/-- The write-back of release() (R199): what the core has seen and stored may then be known to others. -/
def State.flushCore (s : State) (die core : Nat) : State := (s.cleanCore die core).publish die core

/-- The newest byte of a place as a page-table walk reads it, coherently with stores (R181). -/
def State.cohByte (s : State) (k : Nat) : Byte :=
  match s.cores.find? fun e => decide (e.1 / 64 = dieOfKey k) &&
      (match kget e.2.l1 (lineOf k) with | some l => l.dirty.getLsbD (k % 128) | none => false) with
  | some e => (match kget e.2.l1 (lineOf k) with | some l => bget l.data (k % 128) | none => 0)
  | none => bget s.mem k
/-- n bytes as a walk reads them, little-endian. -/
def State.cohLE (s : State) (k n : Nat) : Nat := leVal ((List.range n).map fun i => s.cohByte (k + i))

/-- The memory channel that holds a line of a die is ready (R456); which one that is matters only where some are and some are not. -/
def State.channelReady (s : State) (die line : Nat) : Bool :=
  let ready := bits (s.mrN offRDYMEM) (8 * die + 7) (8 * die)
  if ready = 0 then false else if ready = 255 then true else ready.testBit (Config.channelOf line).toNat
/-- A line of device memory that an access would find poisoned: marked (R193) or on a channel not ready (R456). -/
def State.lineBad (s : State) (k : Nat) : Bool :=
  (kget s.poison (lineOf k)).isSome || !s.channelReady (dieOfKey k) (lineOf k)
/-- Some line of [k, k + n) is bad. -/
def State.anyBad (s : State) (k n : Nat) : Bool :=
  (List.range ((k % 128 + n + 127) / 128)).any fun i => s.lineBad (128 * (lineOf k + i))

/-! ## Leases on a line, seen by other agents (R212): a lease is in force until its cycles have passed -/

/-- A core other than the given one leases the line. -/
def State.leasedByOther (s : State) (die core line : Nat) : Bool :=
  s.cores.any fun e => decide (e.1 ≠ 64 * die + core) && e.2.leases.any fun l => decide (l.line = line) && decide (s.now < l.until_)
/-- Any core leases the line. -/
def State.leased (s : State) (line : Nat) : Bool := s.cores.any fun e => e.2.leases.any fun l => decide (l.line = line) && decide (s.now < l.until_)

/-! ## Translation (R172-R182) -/

/-- The right an access needs. -/
inductive Need where
  | r | w | x | rw | any
  deriving DecidableEq, Repr

def Need.reads : Need → Bool | .r | .rw => true | _ => false
def Need.writes : Need → Bool | .w | .rw => true | _ => false

/-- Memory class codes (R70). -/
def clsNormal : Nat := 0
def clsHuc : Nat := 3
def clsStream : Nat := 4
def clsPeer : Nat := 5

/-- Page size of a PS code (R176). -/
def psSize (ps : Nat) : Nat :=
  if ps = 0 then 2 ^ 12 else if ps = 1 then 2 ^ 16 else if ps = 2 then 2 ^ 21 else if ps = 3 then 2 ^ 25
  else if ps = 4 then 2 ^ 29 else 2 ^ 34
/-- The level at which a PS stands (R177). -/
def psLevel (ps : Nat) : Nat := if ps < 2 then 0 else if ps < 5 then 1 else 2

/-- A translated address. tgt: 0 local, 1 host, 2 peer. ofs: the physical address, the host address, or the offset within
the imported object. -/
structure Xl where
  tgt : Nat
  ofs : Nat
  handle : Nat := 0
  leaf : Nat := 0
  deriving DecidableEq, Repr

/-- A fault at an address. -/
def fltAt (cause detail : BitVec 8) (va : Int) : FRec := { cause := cause, detail := detail, addr := BitVec.ofInt 64 va }

/-- A page-table entry breaches R177 at a level, or lies in the metadata region; CMP is ignored where compression is disabled
(R190, R463). -/
def State.entryBad (s : State) (dev e level : Nat) : Bool :=
  let ps := bits e 63 61
  let tgt := bits e 60 59
  let leaf := bits e 6 4 ≠ 0
  let cfg := s.mrN (offCMPCFG dev)
  let meta_ := bits cfg 35 23 * 0x8000
  bits e 9 7 ≠ 0 || bits e 3 1 ≠ 0 || 5 < ps || tgt = 3
    || (tgt = 0 && bits e 58 35 ≠ 0)
    || ((tgt = 0 || !leaf) && bit cfg 0 && meta_ ≤ bits e 34 12 && bits e 34 12 < meta_ + 0x8000)
    || (if leaf then psLevel ps ≠ level || (bit e 5 && !bit e 4) || (tgt ≠ 0 && ((bit e 10 && bit cfg 0) || bit e 6)) else level = 0)

/-- Steps 1 and 2 of R178, entry by entry: the argument is one more than the level of the table. An entry on a bad line is not valid
(log entry 16). Of an entry that points to a table TGT, PS, SEC and CMP have no effect beyond the checks of R177, and bits [34:12] of it
name the table whatever its TGT (log entry 61). -/
def State.walkFrom (s : State) (dev va : Nat) : Nat → Nat → Except FRec Nat
  | 0, _ => .error (fltAt cTRANS 0 va)
  | n + 1, table =>
    let k := memKey dev (4096 * table + 8 * (va / 2 ^ (12 + 9 * n) % 512))
    let e := s.cohLE k 8
    if s.lineBad k || !bit e 0 then .error (fltAt cTRANS 0 va)
    else if s.entryBad dev e n then .error (fltAt cPTRSV (BitVec.ofNat 8 n) va)
    else if bits e 6 4 ≠ 0 then .ok e
    else s.walkFrom dev va n (bits e 34 12)

/-- A fresh walk from the root register (R175, R176). -/
def State.walk (s : State) (dev va : Nat) : Except FRec Nat :=
  let root := s.mrN (offPTBR dev)
  if !bit root 0 then .error (fltAt cTRANS 0 va) else s.walkFrom dev va 5 (bits root 34 12)

/-- Places of the entries that steps 1 and 2 of R178 read, from a table down (R176, R177); the argument is one more than its level. -/
def State.tablePlaces (s : State) (dev va : Nat) : Nat → Nat → List Nat
  | 0, _ => []
  | n + 1, table =>
    let k := memKey dev (4096 * table + 8 * (va / 2 ^ (12 + 9 * n) % 512))
    let e := s.cohLE k 8
    k :: (if bit e 0 && bits e 6 4 = 0 then s.tablePlaces dev va n (bits e 34 12) else [])
/-- Those a fresh walk reads. -/
def State.walkPlaces (s : State) (dev va : Nat) : List Nat := s.tablePlaces dev va 5 (bits (s.mrN (offPTBR dev)) 34 12)

/-- The leaf a TLB holds for an address (R179). -/
def tlbFind (tlb : List TlbEntry) (dev va : Nat) : Option Nat :=
  (tlb.find? fun e => decide (e.dev = dev) && decide (e.base ≤ va) && decide (va < e.base + e.size)).map fun e => e.leaf.toNat

/-- The leaf that governs an access: the core's TLB, the die's, or a fresh walk (R179, R182); none while translation is off (R175).
Agents that have no L1 TLB give none for the core. -/
def State.leafFor (s : State) (dev : Nat) (core : Option Nat) (va : Nat) : Except FRec Nat :=
  if !bit (s.mrN (offPTBR dev)) 0 then s.walk dev va
  else
    match core.bind fun c => tlbFind (s.core dev c).tlb dev va with
    | some l => .ok l
    | none =>
      match tlbFind (s.die dev).tlb dev va with
      | some l => .ok l
      | none => s.walk dev va

/-- The TLB entry of a leaf for an address it maps (R179). -/
def tlbEntry (dev va leaf : Nat) : TlbEntry :=
  let size := psSize (bits leaf 63 61)
  { dev := dev, base := va / size * size, size := size, leaf := BitVec.ofNat 64 leaf }
/-- The address a leaf maps an address to (R176, R177). -/
def leafTarget (e va : Nat) : Xl :=
  let size := psSize (bits e 63 61)
  let low := va % size
  let tgt := bits e 60 59
  if tgt = 2 then ⟨2, bits e 46 12 * 4096 / size * size + low, bits e 58 47, e⟩
  else ⟨tgt, bits e 58 12 * 4096 / size * size + low, 0, e⟩

/-- The world of the enabled regions a physical page lies in, SEC governing; none outside every one (R458). -/
def State.region (s : State) (dev page : Nat) : Option Bool :=
  let hits := (List.range 64).filterMap fun k =>
    let v := s.mrN (offRGN dev k)
    if bit v 63 && bits v 22 0 ≤ page && page ≤ bits v 45 23 then some (bit v 62) else none
  if hits.isEmpty then none else some (hits.any id)

/-- Missing rights of a leaf (R323, PERM). -/
def missing (need : Need) (e : Nat) : BitVec 8 :=
  (if need.reads && !bit e 4 then 1 else 0) ||| (if need.writes && !bit e 5 then 2 else 0) |||
    (if need = .x && !bit e 6 then 4 else 0)

/-- Targets a class admits (R184). -/
def admits (cls tgt : Nat) : Bool :=
  if cls = 0 || cls = 4 then tgt = 0 else if cls = 1 || cls = 2 then tgt = 0 || tgt = 2
  else if cls = 3 then tgt = 1 else if cls = 5 then tgt = 2 else false

/-- The checks after the walk: HINV (R403), then steps 3 to 5 of R178. -/
def State.checkLeaf (s : State) (dev : Nat) (secure : Bool) (need : Need) (cls : Nat) (va : Nat) (e : Nat) : Except FRec Xl :=
  let x := leafTarget e va
  let h := kget (s.dev dev).handles x.handle
  if x.tgt = 2 && !(match h with | some h => h.valid | none => false) then
    .error { fltAt cHINV 0 va with info := BitVec.ofNat 32 x.handle }
  else if bit e 11 && !secure then .error (fltAt cWORLD 0 va)
  else if x.tgt = 0 && (match s.region dev (x.ofs / 4096) with | some w => w != secure | none => false) then
    .error (fltAt cWORLD 0 va)
  else if missing need e ≠ 0 then .error (fltAt cPERM (missing need e) va)
  else if !admits cls x.tgt then .error (fltAt cCLASS 0 va)
  else .ok x

/-- R172 and R178 for one address, whose class the leaf may decide; a check that a leaf from a TLB fails is made again on a fresh
walk's (R179). -/
def State.translateBy (s : State) (dev : Nat) (core : Option Nat) (secure : Bool) (need : Need) (cls : Nat → Nat) (va : Int) : Except FRec Xl :=
  if !validVa va then .error (fltAt cTRANS 0 va)
  else
    let check (e : Nat) := s.checkLeaf dev secure need (cls (bits e 60 59)) va.toNat e
    match s.leafFor dev core va.toNat with
    | .error f => .error f
    | .ok e =>
      match check e with
      | .ok x => .ok x
      | .error _ => (match s.walk dev va.toNat with | .error f => .error f | .ok e => check e)

/-- R172 and R178 for one address of a class. -/
def State.translate (s : State) (dev : Nat) (core : Option Nat) (secure : Bool) (need : Need) (cls : Nat) (va : Int) : Except FRec Xl :=
  s.translateBy dev core secure need (fun _ => cls) va

/-- The class that admits a target. -/
def clsOf (tgt : Nat) : Nat := if tgt = 1 then clsHuc else if tgt = 2 then clsPeer else clsNormal
/-- R178 for a class that any target admits: the reads the hub die makes. -/
def State.translateAny (s : State) (dev : Nat) (secure : Bool) (need : Need) (va : Int) : Except FRec Xl :=
  s.translateBy dev none secure need clsOf va

/-! ## The home die's check (R403, R406) -/

/-- The check of a peer access at its home: the place, none for a dead home that reads poisoned, or the refusal. -/
def State.peerHome (s : State) (dev handle ofs : Nat) (need : Need) (secure : Bool) : Except FRec (Option Nat) :=
  let bad (d : BitVec 8) : FRec := { cause := cRPERM, detail := d, info := BitVec.ofNat 32 handle }
  match kget (s.dev dev).handles handle with
  | none => .error (bad cHINV)
  | some h =>
    if !h.valid then .error (bad cHINV)
    else if (s.die h.exporter).dead then (if need = .w then .error (bad cDEADDIE) else .ok none)
    else if h.len.toNat / 4096 ≤ ofs / 4096 || (need.reads && !h.r) || (need.writes && !h.w) then .error (bad cPERM)
    else
      match s.translate h.exporter none secure need clsNormal (h.base.toNat + ofs) with
      | .ok x => .ok (some (memKey h.exporter x.ofs))
      | .error f => .error (bad f.cause)

/-- The exporter of a handle. -/
def State.exporterOf (s : State) (dev handle : Nat) : Nat := ((kget (s.dev dev).handles handle).map (·.exporter)).getD dev
/-- The exporter whose memory a store under way names: the handle's, or where that has been revoked since, the one it had (R423). -/
def State.exporterThen (s : State) (dev handle : Nat) (gone : Option (Nat × Nat)) : Nat :=
  match gone with | some e => e.2 | none => s.exporterOf dev handle
/-- The check of such a store at its home: one whose handle has been revoked is refused there (R403, R423). -/
def State.storeHome (s : State) (dev handle ofs : Nat) (need : Need) (secure : Bool) (gone : Option (Nat × Nat)) : Except FRec (Option Nat) :=
  match gone with
  | some e => .error { cause := cRPERM, detail := if (s.die e.2).dead then cDEADDIE else cHINV, info := BitVec.ofNat 32 handle }
  | none => s.peerHome dev handle ofs need secure

/-! ## Retention levels and sidecars (R185, R188, R139-R142) -/

/-- The residency range that governs a physical page, if enabled (R188, R189). -/
def State.rangeOf (s : State) (d page : Nat) : Option Nat :=
  (List.range 8).find? fun r =>
    let g := s.mrN (offRRNG d r)
    bit (s.mrN (offRRCTL d r)) 0 && bits g 22 0 ≤ page && page ≤ bits g 45 23

/-- The line of a place is selected by its range (R188). -/
def State.lineSelected (s : State) (k : Nat) : Bool :=
  let d := dieOfKey k
  let p := k % 2 ^ 35
  match s.rangeOf d (p / 4096) with
  | some r => (Config.lineHash (BitVec.ofNat 28 (p / 128))).toNat < bits (s.mrN (offRRCTL d r)) 23 16
  | none => false

/-- The enabled format window that governs a physical page of a die (R139, R140). -/
def State.windowOf (s : State) (d page : Nat) : Option Nat :=
  (List.range 16).find? fun w =>
    let g := s.mrN (offFWRNG d w)
    bit (s.mrN (offFWCTL d w)) 0 && bits g 22 0 ≤ page && page ≤ bits g 45 23

/-- Bytes of a block of 32 elements (R140). -/
def blockBytes (fmt : Nat) : Nat := if fmt = 11 || fmt = 12 then 32 else if fmt = 13 || fmt = 14 then 24 else 16

/-- Scale of block j of a window, read coherently from the scale region (R131, R140, R226); NaN where its line is bad (log entry 16). A
scale word past the die's 32 GiB does not exist: the spec states no scale for such a block, and a free value stands for it (log entry 9). -/
def State.scaleAt (s : State) (d w j : Nat) : BitVec 10 :=
  let p := bits (s.mrN (offFWCTL d w)) 35 8 * 128 + 4 * (j / 3)
  if 2 ^ 35 ≤ p then Config.absentScale d j
  else if s.lineBad (memKey d p) then 0x0FF
  else BitVec.ofNat 10 (s.cohLE (memKey d p) 4 / 2 ^ (10 * (j % 3)))

/-- The sidecar the memory controller attaches to a line at its fill (R141). -/
def State.freshSide (s : State) (line : Nat) : Option Side :=
  let d := dieOfKey (128 * line)
  let p := 128 * line % 2 ^ 35
  match s.windowOf d (p / 4096) with
  | none => none
  | some w =>
    let fmt := bits (s.mrN (offFWCTL d w)) 5 1
    let base := 4096 * bits (s.mrN (offFWRNG d w)) 22 0
    let b := blockBytes fmt
    let lo := (p - base) / b
    let hi := (p - base + 127) / b
    some { fmt := BitVec.ofNat 5 fmt, base := base,
           scales := (List.range (hi + 1 - lo)).map fun i => (lo + i, s.scaleAt d w (lo + i)) }

/-- A line that an access fills carries its sidecar, unless one is attached (R141). -/
def State.attachSide (s : State) (line : Nat) : State :=
  match kget s.side line with
  | some sd =>
    (match s.freshSide line with
     | some f => { s with side := kset s.side line { sd with scales := f.scales.map fun e => (e.1, (kget sd.scales e.1).getD e.2) } }
     | none => s)
  | none => match s.freshSide line with
    | some f => { s with side := kset s.side line f }
    | none => s

end Sys2Proof.Machine
end

