-- ==== Sys2Proof/Machine/Cache.lean ====
section
/-! DEFINITION. Which lines the L2s and the stacked caches hold: retention levels, reserved ways, compressed lines, the home directory
(spec/01 R11, R16, R19, spec/12 R184-R191). The data of these caches is the home copy, State.mem. -/

namespace Sys2Proof.Machine

/-- How an access asks for its line to be kept: its EVP, streaming (R184), a page with CMP (R190). -/
structure Hint where
  evp : Nat := 0
  stream : Bool := false
  cmp : Bool := false
  deriving DecidableEq, Repr

/-- The two levels behind the L1s. -/
inductive Level where
  | l2 | llc
  deriving DecidableEq, Repr

/-- A line as a die's caches name it. -/
def cacheKey (die line : Nat) : Nat := 2 ^ 32 * die + line
/-- The metadata line that covers a line: 64 superblocks each, outside every address (R190). -/
def metaLine (line : Nat) : Nat := 2 ^ 31 + line / 256
/-- The lines of a level, and the same replaced. -/
def State.lines (s : State) : Level → Table CLine
  | .l2 => s.cache.l2
  | .llc => s.cache.llc
def State.setLines (s : State) (v : Level) (t : Table CLine) : State :=
  match v with
  | .l2 => { s with cache := { s.cache with l2 := t } }
  | .llc => { s with cache := { s.cache with llc := t } }

/-- The set of a level that holds a line of a die: an L2 set by superblock (R190). -/
def Level.setOf (v : Level) (key : Nat) : Nat × Nat :=
  (key / 2 ^ 32, match v with
    | .l2 => (Config.l2Index (key % 2 ^ 32 / 4)).toNat
    | .llc => (Config.llcIndex (key % 2 ^ 32)).toNat)
/-- The low bit of a level's way field in RRCTLn (R188). -/
def Level.wayField : Level → Nat
  | .l2 => 12
  | .llc => 8
/-- Ways of each set that an enabled range reserves (R188), and those left to every other line, of 16. -/
def State.rangeWays (s : State) (v : Level) (die range : Nat) : Nat :=
  let c := s.mrN (offRRCTL die range)
  if bit c 0 then bits c (v.wayField + 3) v.wayField else 0
def State.openWays (s : State) (v : Level) (die : Nat) : Nat := 16 - ((List.range 8).map (s.rangeWays v die)).sum

/-- The range whose reserved ways a selected line of a place stands in (R189). -/
def State.wayOf (s : State) (v : Level) (k : Nat) : Option Nat :=
  if s.lineSelected k then
    (s.rangeOf (dieOfKey k) (k % 2 ^ 35 / 4096)).bind fun r => if s.rangeWays v (dieOfKey k) r = 0 then none else some r
  else none
/-- The level an access gives a line of a place in a die's caches: 7 in a reserved way only, and only the home's ways are reserved for it
(R185, R188, R189; a selected line that stands in none counts as EVP 7 outside one, log entry 58). -/
def State.evpAt (s : State) (v : Level) (die k evp : Nat) : Nat :=
  if die = dieOfKey k && (s.wayOf v k).isSome then 7 else if s.lineSelected k || evp = 7 then 6 else evp

/-- Sectors of 32 bytes that a line takes (R190). -/
def CLine.sectors (c : CLine) : Nat := c.code.toNat % 4 + 1
/-- Lines fit in some ways of a set: four sectors and one superblock tag a way (R190; log entry 58). -/
def fitsWays (ways : Nat) (t : Table CLine) : Bool :=
  decide ((t.map fun e => e.2.sectors).sum ≤ 4 * ways) && decide ((t.map fun e => e.1 / 4).eraseDups.length ≤ ways)
/-- The lines that leave so that others, which stay, fit: of the lowest level present, the least recently used first (R185). The list is
in that order. -/
def leaving (ways : Nat) (stay : Table CLine) : Table CLine → List Nat
  | [] => []
  | e :: es => if fitsWays ways (stay ++ e :: es) then [] else e.1 :: leaving ways stay es
/-- The order in which lines leave. -/
def leavesFirst (a b : Nat × CLine) : Bool := decide (a.2.level < b.2.level) || (a.2.level == b.2.level && decide (a.2.used ≤ b.2.used))
/-- Ways of a die's sets that lines outside every range, or of a range, can stand in. -/
def State.waysFor (s : State) (v : Level) (die : Nat) : Option Nat → Nat
  | none => s.openWays v die
  | some r => s.rangeWays v die r
/-- A line is leased by some core, under its number in a level; it stays there (R212). -/
def State.pinned (s : State) (e : Nat × CLine) : Bool := s.leased (e.1 % 2 ^ 32)
/-- Of some lines of a level the others of a line's set and of the same ways (R189). -/
def company (t : Table CLine) (v : Level) (key : Nat) (c : CLine) : Table CLine :=
  t.filter fun e => decide (e.1 ≠ key) && decide (e.2.way = c.way) && decide (v.setOf e.1 = v.setOf key)
/-- Who leaves a level when a line comes: of that company, those that are not leased. -/
def State.victims (s : State) (v : Level) (key : Nat) (c : CLine) : List Nat :=
  if (s.lines v).length < (if c.way.isNone then 8 else 1) then []
  else
    let es := company (s.lines v) v key c
    leaving (s.waysFor v (key / 2 ^ 32) c.way) ((key, c) :: es.filter s.pinned) (sortBy leavesFirst (es.filter fun e => !s.pinned e))
/-- A line finds room beside what cannot leave. -/
def State.finds (s : State) (v : Level) (key : Nat) (c : CLine) : Bool :=
  match company ((s.lines v).filter s.pinned) v key c with
  | [] => true
  | es => fitsWays (s.waysFor v (key / 2 ^ 32) c.way) ((key, c) :: es)

/-! ## The home directory (R191) -/

/-- A die that reads a line of another die becomes a sharer; a line that a further die had to itself is shared. -/
def DirLine.read (d : DirLine) (die : Nat) : DirLine :=
  let d := if d.owner = some die then d
    else match d.st with | .m => { d with st := .o } | .e => { d with st := .s, owner := none } | .i => { d with st := .s } | _ => d
  { d with sharers := d.sharers ||| (1#8 <<< die) }
/-- A die gives a line up. -/
def DirLine.leave (d : DirLine) (die : Nat) : DirLine :=
  { d with
    sharers := d.sharers &&& ~~~(1#8 <<< die)
    owner := if d.owner = some die then none else d.owner
    st := if d.owner = some die then .s else d.st }
/-- The same for the directory's table: a line nobody shares is not listed. -/
def dirLeave (t : Table DirLine) (die line : Nat) : Table DirLine :=
  match kget t line with
  | none => t
  | some d => if (d.leave die).sharers = 0 then kdel t line else kset t line (d.leave die)
/-- A read at the home by a die: another die is listed, the home's own read finds what another die has to itself (R191). -/
def State.dirRead (s : State) (die line : Nat) : State :=
  let d := kget s.cache.dir line
  if die = dieOfKey (128 * line) then
    match d with
    | some d => { s with cache := { s.cache with dir := kset s.cache.dir line { d.read die with sharers := d.sharers } } }
    | none => s
  else { s with cache := { s.cache with dir := kset s.cache.dir line ((d.getD {}).read die) } }
/-- The directory gives a sole sharer E, so that its next store needs no leave (R191). -/
def State.dirGrant (s : State) (die line : Nat) : State :=
  match kget s.cache.dir line with
  | some d =>
    if d.sharers = 1#8 <<< die && d.st = .s then
      { s with cache := { s.cache with dir := kset s.cache.dir line { d with st := .e, owner := some die } } }
    else s
  | none => s
/-- After a die's store to a line of another die, whose every other sharer has lost it, the storing die holds it in M (R191). -/
def State.dirStore (s : State) (die line : Nat) : State :=
  if die = dieOfKey (128 * line) || (kget s.cache.l2 (cacheKey die line)).isNone then s
  else { s with cache := { s.cache with dir := kset s.cache.dir line { st := .m, owner := some die, sharers := 1#8 <<< die } } }

/-! ## Lines come and go (R185, R186) -/

/-- The sidecar goes with the last copy of its line in its home's caches (R141). -/
def State.settleSide (s : State) (line : Nat) : State :=
  let key := cacheKey (dieOfKey (128 * line)) line
  if (kget s.cache.l2 key).isSome || (kget s.cache.llc key).isSome then s else { s with side := kdel s.side line }
/-- A line leaves a level of a die's caches: before it leaves its home's L2 every owner writes back its dirty bytes and loses its words
(R186); another die's copy leaves the directory (R191). -/
def State.leaveLevel (s : State) (v : Level) (key : Nat) : State :=
  let die := key / 2 ^ 32
  let line := key % 2 ^ 32
  let s := s.setLines v (kdel (s.lines v) key)
  if 2 ^ 31 ≤ line then s
  else if die = dieOfKey (128 * line) then
    (if v = .l2 then s.revoke line (BitVec.allOnes 32) none else s).settleSide line
  else { s with cache := { s.cache with dir := dirLeave s.cache.dir die line } }

/-- An access touches a line at a level of a die's caches: its level rises to the access's, or starts there at a fill, for which others
leave (R185). In a set whose ways are taken by leased lines it is not kept (log entry 58). -/
def State.touchLevel (s : State) (v : Level) (key level : Nat) (way : Option Nat) (code : BitVec 4) : State :=
  let old := kget (s.lines v) key
  let top := match old with | some o => Nat.max level o.level | none => level
  let c : CLine := { level := if way.isSome then top else Nat.min top 6, used := s.cache.uses, way := way, code := code }
  if s.finds v key c then
    let s := (s.victims v key c).foldl (fun s k => s.leaveLevel v k) s
    s.setLines v (kset (s.lines v) key c)
  else if s.leased (key % 2 ^ 32) || old.isNone then s.setLines v (kdel (s.lines v) key)
  else s.leaveLevel v key
/-- Lines of a die outside every range leave a level until those of each set fit its open ways: a range has come to reserve some (R189). -/
def State.trimLevel (s : State) (v : Level) (die : Nat) : State :=
  let t := (s.lines v).filter fun e => decide (e.1 / 2 ^ 32 = die) && e.2.way.isNone
  ((t.map fun e => v.setOf e.1).eraseDups).foldl (fun s set =>
    let es := t.filter fun e => decide (v.setOf e.1 = set)
    (leaving (s.openWays v die) (es.filter s.pinned) (sortBy leavesFirst (es.filter fun e => !s.pinned e))).foldl
      (fun s k => s.leaveLevel v k) s) s

/-- A translation that a TLB of a die holds maps a place to a CMP page (R190). -/
def State.cmpPage (s : State) (die k : Nat) : Bool :=
  let hit (e : TlbEntry) : Bool :=
    let x := leafTarget e.leaf.toNat e.base
    x.tgt = 0 && bit e.leaf.toNat 10 && decide (memKey die x.ofs ≤ k) && decide (k < memKey die x.ofs + e.size)
  (s.die die).tlb.any hit || s.cores.any fun c => decide (c.1 / 64 = die) && c.2.tlb.any hit
/-- A line of a CMP page while compression is on, as the access's page, a TLB of the home or the line's code shows: its size code stands in
its metadata line, which is a line of level 3 (R190). -/
def State.sizeOf (s : State) (die k : Nat) (h : Hint) : BitVec 4 × State :=
  if bit (s.mrN (offCMPCFG die)) 0 && (h.cmp || (kget s.cache.codes (lineOf k)).isSome || s.cmpPage die k) then
    let line := lineOf k
    let code := Config.sizeCode (rdLE s.mem (128 * line) 128)
    let s := s.touchLevel .l2 (cacheKey die (metaLine line)) 3 none 3
    (code, { s with cache := { s.cache with codes := kset s.cache.codes line code } })
  else (3, s)

/-- A line of a CMP page whose bytes have changed is written back with another code, and others leave its set where it now takes more room (R190,
R185). -/
def State.recode (s : State) (line : Nat) : State :=
  let code := Config.sizeCode (rdLE s.mem (128 * line) 128)
  if kget s.cache.codes line = some code then s
  else
    let s := { s with cache := { s.cache with codes := kset s.cache.codes line code } }
    (s.cache.l2.filter fun e => decide (e.1 % 2 ^ 32 = line)).foldl (fun s e =>
      let c := { e.2 with code := code }
      let s := s.setLines .l2 (kset (s.lines .l2) e.1 c)
      (s.victims .l2 e.1 c).foldl (fun s k => s.leaveLevel .l2 k) s) s
/-- The codes of all of them follow their bytes. -/
def State.settleCodes (s : State) : State := (s.cache.codes.map (·.1)).foldl State.recode s

/-- An access touches the line of a place in a level of a die's caches, with a priority and a code. -/
def State.putLine (s : State) (v : Level) (die k evp : Nat) (code : BitVec 4) : State :=
  s.touchLevel v (cacheKey die (lineOf k)) (s.evpAt v die k evp) (if die = dieOfKey k then s.wayOf v k else none) code
/-- One more use. -/
def State.use (s : State) : State := { s with cache := { s.cache with uses := s.cache.uses + 1 } }
/-- A cached access by a die to a place of its own or of another's memory: its own L2 and, for its own memory, the stacked cache, where
a streaming access allocates nothing (R184); the home's L2 for another's; then the sidecar (R141). A streaming access has priority 0, but
that a line is selected wins over it (R184 against R188; log entry 58). -/
def State.noteFrom (s : State) (die k : Nat) (h : Hint) : State :=
  let home := dieOfKey k
  let evp := if h.stream then 0 else h.evp
  let (code, s) := s.use.sizeOf home k h
  let s := s.putLine .l2 home k evp code
  let s := if h.stream && (kget s.cache.llc (cacheKey home (lineOf k))).isNone then s else s.putLine .llc home k evp code
  let s := if die = home then s else s.putLine .l2 die k evp code
  (s.dirRead die (lineOf k)).attachSide (lineOf k)
/-- A prefetch into the stacked cache of the line's home, with its sidecar (R141, R226). It allocates there whatever its class, at the
priority it names (R226 against R184; log entry 58). -/
def State.noteStacked (s : State) (k : Nat) (h : Hint) : State :=
  let (code, s) := s.use.sizeOf (dieOfKey k) k h
  (s.putLine .llc (dieOfKey k) k h.evp code).attachSide (lineOf k)

/-- What a cached access of a line's own die leaves on the line. -/
def State.noteLine (s : State) (k : Nat) (h : Hint) : State := s.noteFrom (dieOfKey k) k h

/-- A walk reads the tables through its die's L2 (R181). -/
def State.walkTouch (s : State) (dev va : Nat) : State := (s.walkPlaces dev va).foldl (fun s k => s.noteLine k { evp := 3 }) s
/-- A die's TLB is filled with the leaf an access has used, unless it gave that leaf itself (R181). -/
def State.fillDieTlb (s : State) (dev va leaf : Nat) : State :=
  if tlbFind (s.die dev).tlb dev va = some leaf then s
  else (s.walkTouch dev va).modDie dev fun d =>
    { d with tlb := (tlbEntry dev va leaf :: d.tlb).take 16384 }
/-- The same for both TLBs of a core's access: a walk that has ended at a leaf fills them (R181), also where the leaf a TLB held failed
its check (R179). -/
def State.fillTlb (s : State) (dev core va leaf : Nat) : State :=
  if tlbFind (s.core dev core).tlb dev va = some leaf then s
  else (s.modCore dev core fun c => { c with tlb := (tlbEntry dev va leaf :: c.tlb).take 512 }).fillDieTlb dev va leaf

/-- The line's grade in the core's L1 and its place in the order of uses (R185). -/
def State.l1Note (s : State) (die core k : Nat) (h : Hint) : State :=
  s.l1Use die core (lineOf k) (!h.stream && decide (s.evpAt .l2 die k h.evp ≠ 0))

end Sys2Proof.Machine
end

