-- ==== Sys2Proof/Machine/Ops.lean ====
section
/-! DEFINITION. The operations every meaning is built from: issuing an instruction (R66, R78), the fault log (R331),
taking a trap and returning from it (R325, R328, R342), counting points (R411), release (R199). -/

namespace Sys2Proof.Machine

/-! ## The issuing group -/

/-- Replaces the issuing group. -/
def State.setG (s : State) (g : Group) : State := { s with g := g }

/-- Sets the program counter and ends any wait. -/
def Group.jump (g : Group) (t : Word) : Group := { g with pc := t, wait := .run }

/-- Sequential execution: the program counter advances by 12 (R57). -/
def State.advance (s : State) : State := s.setG (s.g.jump (s.g.pc + 12))

/-- Writes bytes of the register allocation at an allocation offset (R99). -/
def Group.setBytes (g : Group) (ofs : Nat) (bs : List Byte) : Group := { g with regs := bsetMany g.regs ofs bs }

/-- Scalar register n (R100). -/
def Group.sreg (g : Group) (n : Nat) : Word := BitVec.ofNat 64 (rdLE g.regs (8 * n) 8)
/-- Writes scalar register n (R100). -/
def Group.setSreg (g : Group) (n : Nat) (v : Word) : Group := { g with regs := wrLE g.regs (8 * n) 8 v.toNat }

/-- Condition bit n; c0 reads 1 (R106). -/
def Group.cond (g : Group) (n : BitVec 3) : Bool := n = 0 || g.conds.getLsbD n.toNat
/-- Writes condition bit n; c0 cannot be written (R106). -/
def Group.setCond (g : Group) (n : BitVec 3) (b : Bool) : Group :=
  if n = 0 then g
  else { g with conds := if b then g.conds ||| (1#8 <<< n.toNat) else g.conds &&& ~~~(1#8 <<< n.toNat) }

/-- Mask n. -/
def Group.mask (g : Group) (n : BitVec 3) : Word := g.masks.get n.toFin
/-- Writes mask n; m0 cannot be written (R106). -/
def Group.setMask (g : Group) (n : BitVec 3) (v : Word) : Group :=
  if n = 0 then g else { g with masks := g.masks.set n.toNat v n.isLt }
/-- Index register n. -/
def Group.index (g : Group) (n : BitVec 2) : BitVec 32 := g.xs.get n.toFin
/-- Writes index register n. -/
def Group.setIndex (g : Group) (n : BitVec 2) (v : BitVec 32) : Group := { g with xs := g.xs.set n.toNat v n.isLt }

/-! ## Operands (R60-R65, R101, R102) -/

/-- Bytes of a tile (R102). -/
def Group.tileBytes (g : Group) : Nat := (bits g.tsh.toNat 23 16 + 1) * (16 * (bits g.tsh.toNat 15 8 + 1))

/-- The effective index of an operand (R63). -/
def Group.eff (g : Group) : Opnd → Int
  | .sreg n => n.toNat
  | .view n | .tile n => n.toNat
  | .rel _ x o => (g.index x).toInt + o.toInt
  | _ => 0

/-- Allocation offset of an operand's first byte (R100-R102). -/
def Group.ofs (g : Group) (o : Opnd) : Int :=
  if o.isScalar then 8 * g.eff o
  else if o.isView then g.vb.toNat + 256 * g.eff o
  else g.tb.toNat + g.eff o * g.tileBytes

/-- An operand with its position and extent in bytes; a scalar's extent is not read. -/
structure Ref where
  pos : Nat
  op : Opnd
  len : Nat := 8
  deriving DecidableEq, Repr

/-- An operand is in range (R65). -/
def Group.inRange (g : Group) (r : Ref) : Bool :=
  if r.op.isScalar then 0 ≤ g.eff r.op && g.eff r.op < 64
  else if r.op.isView || r.op.isTile then
    0 ≤ g.eff r.op && 0 ≤ g.ofs r.op && g.ofs r.op + r.len ≤ g.alloc
  else true

/-- REGBOUND for the first operand out of range, in the order given (R65). -/
def Group.regbound (g : Group) (rs : List Ref) : Option FRec :=
  (rs.find? fun r => !g.inRange r).map fun r =>
    { cause := cREGBOUND, detail := BitVec.ofNat 8 r.pos, info := BitVec.ofInt 32 (g.eff r.op) }

/-- D, A and B of a form whose operands are scalars or control state. -/
def dab (f : Fields) (_g : Group) : List Ref := [⟨0, f.d, 8⟩, ⟨1, f.a, 8⟩, ⟨2, f.b, 8⟩]

/-- The mark of a form whose D is only read, and the operands of such a form. -/
def Ref.noDest : Ref := ⟨0, .zero, 0⟩
def srcD (refs : Group → List Ref) (g : Group) : List Ref := .noDest :: refs g

/-- opval of an operand (R64). -/
def Group.opval (g : Group) (imm : BitVec 32) : Opnd → Word
  | .sreg n => g.sreg n.toNat
  | .rel .scalar x o => g.sreg ((g.index x).toInt + o.toInt).toNat
  | .cond n => if g.cond n then 1 else 0
  | .mask n => g.mask n
  | .index n => (g.index n).signExtend 64
  | .vb => g.vb | .tb => g.tb | .tsh => g.tsh
  | .immv => imm.signExtend 64
  | _ => 0

/-- opval of A, B, C and D. -/
def State.va (s : State) (f : Fields) : Word := s.g.opval f.imm f.a
def State.vb (s : State) (f : Fields) : Word := s.g.opval f.imm f.b
def State.vc (s : State) (f : Fields) : Word := s.g.opval f.imm f.c
def State.vd (s : State) (f : Fields) : Word := s.g.opval f.imm f.d

/-- Writes a scalar, condition bit, mask, index or view register; a write to ZERO is discarded (R61, R114, R121). -/
def Group.put (g : Group) (o : Opnd) (v : Word) : Group :=
  match o with
  | .sreg n => g.setSreg n.toNat v
  | .rel .scalar x ofs => g.setSreg ((g.index x).toInt + ofs.toInt).toNat v
  | .cond n => g.setCond n (v ≠ 0)
  | .mask n => g.setMask n v
  | .index n => g.setIndex n (v.setWidth 32)
  | .vb => { g with vb := v }
  | .tb => { g with tb := v }
  | .tsh => { g with tsh := v }
  | _ => g
/-- Writes D. -/
def State.putD (s : State) (f : Fields) (v : Word) : State := s.setG (s.g.put f.d v)

/-! ## Guards (R66) -/

/-- The guard lets the instruction execute. -/
def executed (cls : GClass) (f : Fields) (g : Group) : Bool :=
  if f.gn && f.grd = 0 then false
  else
    match cls with
    | .m => true
    | .c => g.cond f.grd != f.gn
    | .k => f.d.isView || (g.cond f.grd != f.gn)

/-- The lane set of a class-M instruction. -/
def Group.lanes (g : Group) (f : Fields) : Word :=
  g.mask 0 &&& (if f.gn then ~~~(g.mask f.grd) else g.mask f.grd)

/-- The lanes of a set in ascending order. -/
def laneList (m : Word) : List Nat := (List.range 64).filter fun l => m.getLsbD l

/-! ## The fault log and counting (R331, R332, R411) -/

/-- The 32 bytes of a fault-log entry (R331). -/
def FRec.pack (r : FRec) (head : BitVec 32) : BitVec 256 :=
  r.addr ++ r.iaddr ++ r.info ++ r.lseq ++ r.job ++ r.lane ++ r.sdie ++ r.core ++ r.slot ++ r.cause ++ r.detail
    ++ head.setWidth 20 ++ 1#1

/-- Writes a fault-log entry of a logical device (R331). -/
def State.log (s : State) (dev : Nat) (r : FRec) : State :=
  s.modDev dev fun d => { d with log := kset d.log (d.flhead.toNat % 256) (r.pack d.flhead), flhead := d.flhead + 1 }

/-- The launch fails (R48). -/
def State.failLaunch (s : State) (l : Nat) : State := s.modLaunch l fun x => { x with failed := true }

/-- A logged cause: the log entry, counted against the launch (R322). -/
def State.logFail (s : State) (dev launch : Nat) (r : FRec) : State := (s.log dev r).failLaunch launch

/-- Job and sequence value of a launch in a record (R331). -/
def FRec.ofLaunch (r : FRec) (l : Launch) : FRec := { r with job := BitVec.ofNat 6 l.job, lseq := l.seq.setWidth 32 }
/-- The same by the launch's number. -/
def State.launchRec (s : State) (launch : Nat) (r : FRec) : FRec :=
  match s.launch? launch with | some l => r.ofLaunch l | none => r

/-- A record with the issuing group's die, core, slot and launch; iaddr its program counter. -/
def Group.fill (g : Group) (r : FRec) : FRec :=
  { r with iaddr := g.pc, sdie := BitVec.ofNat 4 g.die, core := BitVec.ofNat 6 g.core, slot := BitVec.ofNat 5 g.slot,
           job := BitVec.ofNat 6 g.job, lseq := BitVec.ofNat 32 g.srcs.launch }

/-- A job's counters, busy bit or pending work rose: every wave past its pass 1 sees the activity (R413). -/
def State.touch (s : State) (job : Nat) : State :=
  { s with hub := { s.hub with waves := s.hub.waves.map fun w =>
      if w.pass1.isSome && !w.act.contains job then { w with act := job :: w.act } else w } }

/-- The same at a die's points; a dead die's points are not read (R406). -/
def State.touchAt (s : State) (die job : Nat) : State := if (s.die die).dead then s else s.touch job

/-- The kinds of counter (R411). -/
inductive CKind where
  | inj | cons | lost
  deriving DecidableEq, Repr

/-- Adds one to a counter of a die's counting points for a job (R411); die 8 is the fabric. -/
def State.count (s : State) (die job : Nat) (k : CKind) : State :=
  let c := (kget s.hub.counts (64 * die + job)).getD {}
  let c := match k with
    | .inj => { c with inj := c.inj + 1 } | .cons => { c with cons := c.cons + 1 } | .lost => { c with lost := c.lost + 1 }
  { s with hub := { s.hub with counts := kset s.hub.counts (64 * die + job) c } }.touchAt die job

/-! ## Discarding messages, releasing locks, ending a group (R215, R328, R410) -/

/-- Discards a message: consumed at the target die's store, MDROP in both logs with the launch that the packet names, the sender's launch fails
(R331, R410). -/
def State.dropMsg (s : State) (m : Msg) (reason : BitVec 8) : State :=
  let b := m.bits.toNat
  let r : FRec := { cause := cMDROP, detail := reason, info := BitVec.ofNat 32 (bits b 63 56), iaddr := m.iaddr,
                    sdie := BitVec.ofNat 4 (bits b 43 40), core := BitVec.ofNat 6 (bits b 49 44), slot := BitVec.ofNat 5 m.slot }
  let r := { r with job := m.ljob, lseq := m.lseq }
  let s := s.log m.die r
  let s := if m.sdev = m.die then s else s.log m.sdev r
  let s := (s.failLaunch m.launch).count m.die (bits b 55 50) .cons
  { s with fab := { s.fab with msgs := s.fab.msgs.filter fun x => decide (x.id ≠ m.id) } }

/-- A message is addressed to a group. -/
def State.msgFor (s : State) (m : Msg) (g : Group) : Bool :=
  m.die = g.die && m.rank = g.rank && (match s.gang? g.gang with | some k => k.handle = m.gang | none => false)

/-- A condition that a waiting group waits for has come to hold, with a value (R38). -/
def State.wake (s : State) (uid : Nat) (v : Word) : State := s.modGroup uid fun g => { g with wait := .ready v }

/-- The unit of a lock's home hands it to its longest-waiting group, whose QLOCK is granted, or frees it (R215). -/
def State.handLock (s : State) (key : Nat) : State :=
  let die := dieOfKey key
  let locks := (s.die die).locks
  match kget locks key with
  | some l =>
    (match l.waiters with
     | u :: us => (s.modDie die fun d => { d with locks := kset locks key { holder := u, waiters := us } }).wake u 0
     | [] => s.modDie die fun d => { d with locks := kdel locks key })
  | none => s

/-- The dies' lock units give back what a group that ends holds, LOCKEND logged for each lock (R215). -/
def State.endLocks (s : State) (g : Group) : State :=
  s.dies.foldl (fun s e => e.2.locks.foldl (fun s l =>
    let ws := l.2.waiters.filter fun u => decide (u ≠ g.uid)
    let s := s.modDie e.1 fun d => { d with locks := kset d.locks l.1 { l.2 with waiters := ws } }
    if l.2.holder = g.uid then (s.handLock l.1).logFail g.die g.launch (g.fill { cause := cLOCKEND }) else s) s) s

/-- Every group of a team has ended. -/
def State.teamEnded (s : State) (gang team : Nat) : Bool :=
  s.groups.all fun g => g.gang ≠ gang || g.team ≠ team || decide (g.life = .ended) || decide (g.life = .absent)

/-- A team takes a core's matrix engine: its saved state, or cleared state (R281, R290). -/
def State.takeEngine (s : State) (die core : Nat) (k : Nat × Nat) : State :=
  let e := (s.team k.1 k.2).saved.getD {}
  (s.modCore die core fun c => { c with
    engine := some k, engineWait := c.engineWait.filter fun x => decide (x ≠ k),
    acc := e.acc, bands := e.bands, slices := e.slices, mops := e.mops }).modTeam k.1 k.2 fun t => { t with saved := none }

/-- A core's matrix engine is released; the team that has waited longest takes it (R281). -/
def State.freeEngine (s : State) (die core : Nat) : State :=
  let s := s.modCore die core fun c => { c with engine := none, acc := [], bands := 0, slices := [], mops := [] }
  match (s.core die core).engineWait with
  | [] => s
  | k :: _ => s.takeEngine die core k

/-- A saved engine state of the team holds operations that have not completed. -/
def Team.hasSavedOps (t : Team) : Bool := match t.saved with | some e => !e.mops.isEmpty | none => false
/-- A team whose last group has ended neither waits for the engine nor keeps it past its operations (R281); operations that a restore has
still to bring back go on waiting for it (R320, R338). -/
def State.settleEngine (s : State) (gang team : Nat) : State :=
  match s.team? gang team with
  | none => s
  | some t =>
    if s.teamEnded gang team && !t.hasSavedOps then
      let s := s.modCore t.die t.core fun c => { c with engineWait := c.engineWait.filter fun x => decide (x ≠ (gang, team)) }
      let c := s.core t.die t.core
      if c.engine = some (gang, team) && c.mops.isEmpty then s.freeEngine t.die t.core else s
    else s

/-- The group issues nothing more: its active slot frees, its core's dirty bytes are released, locks and pending messages
follow R215 and R410, a message being handled counts as consumed (R411, R419); with its team's last group the team's queue
state goes (R262). -/
def State.endGroup (s : State) : State :=
  let g := s.g
  let s := s.flushCore g.die g.core
  let s := s.endLocks g
  let s := match g.handler with | some j => s.count g.die j .cons | none => s
  let s := (s.fab.msgs.filter fun m => m.arrived && s.msgFor m g).foldl (fun s m => s.dropMsg m 3) s
  let s := if g.unres then s.failLaunch g.launch else s
  let s := s.setG { s.g with life := .ended, wait := .run, handler := none, preq := false, pnote := false, packed := false, unres := false }
  let s := if s.teamEnded g.gang g.team then s.modTeam g.gang g.team fun t => { t with queues := List.replicate 16 {} } else s
  s.settleEngine g.gang g.team

/-- A peer store of the group is not yet acknowledged (R199, R203). -/
def State.storesOut (s : State) (uid : Nat) : Bool := s.fab.stores.any fun p => p.owner = uid

/-- A trap or delivered fault that finds no handler ends the group (R328): pending records and ENDFLT are logged, and it ends as by
RETIRE, once its peer stores are performed (R199, R320). -/
def State.endByFault (s : State) (cause : BitVec 8) : State :=
  let g := s.g
  let s := g.pend.foldl (fun s r => s.logFail g.die g.launch r) s
  let s := s.setG { s.g with pend := [], povf := false }
  let s := s.logFail g.die g.launch (g.fill { cause := cENDFLT, detail := cause })
  if s.storesOut g.uid then s.setG { s.g with wait := .ending } else s.endGroup
/-- The group ends by a fault and waits for its peer stores. -/
def Group.isEnding (g : Group) : Bool := g.wait = .ending

/-! ## Taking a trap and returning (R325, R342) -/

/-- ECAUSE of a record (R327). -/
def FRec.ecause (r : FRec) : Word :=
  BitVec.ofBool r.imp ++ BitVec.ofBool r.fetch ++ 0#8 ++ r.lane ++ r.info ++ r.detail ++ r.cause

/-- The handler register of the issuing group's logical device (R324). -/
def State.vec (s : State) : Word := s.mr (offTVEC s.g.die)
/-- Its HANDLER field. -/
def State.handlerPc (s : State) : Word := (s.vec.extractLsb' 0 57).setWidth 64

/-- The trap finds a handler: the group is unprivileged, EN is set and HANDLER is a valid target (R325). -/
def State.canEnter (s : State) : Bool := !s.g.priv && s.vec.getLsbD 63 && validTarget s.handlerPc.toNat

/-- Entry into the handler (R325): the saved registers, the mode and the program counter. Nothing else of the group. -/
def State.enterHandler (s : State) (r : FRec) : State :=
  let ill := r.cause = cILLEGAL
  s.setG { s.g with
    epc := if r.cause = cSWTRAP then s.g.pc + 12 else s.g.pc
    ecause := r.ecause
    eaddr := r.addr
    eiaddr := r.iaddr
    ewordl := if ill then r.word.setWidth 64 else 0
    ewordh := if ill then (r.word.extractLsb' 64 32).setWidth 64 else 0
    priv := true
    pc := s.handlerPc
    wait := .run }

/-- Causes that are logged only when they end the group or halt the core (R332). -/
def quietCause (c : BitVec 8) : Bool := c = cSWTRAP || c = cBRK || c = cPRENOTE

/-- A precise trap, or an imprecise fault delivered at an ordering point, of the issuing group (R325, R332). An imprecise
record already carries its instruction address and source; a fault of poisoned host data fails the launch (R451). -/
def State.takeTrap (s : State) (r : FRec) : State :=
  let r := if r.imp then r else s.g.fill r
  if r.cause = cBRK && s.vec.getLsbD 61 then
    ((s.log s.g.die r).advance).modCore s.g.die s.g.core fun c => { c with halted := true }
  else if s.canEnter then
    let s := if quietCause r.cause then s else s.log s.g.die r
    let s := if r.imp || r.cause = cLINKDN then s.failLaunch s.g.launch else s
    let s := if quietCause r.cause then s else s.setG { s.g with unres := true }
    s.enterHandler r
  else (s.logFail s.g.die s.g.launch r).endByFault r.cause

/-- Takes a group out of the orders it waits in: senders, receivers, held arrivals, lease requests, lock queues (R267, R268,
R279, R212, R215). -/
def State.leaveOrders (s : State) (g : Group) (blockedToo : Bool) : State :=
  let q (x : Queue) : Queue := { x with
    senders := x.senders.filter fun e => decide (e.1 ≠ g.uid)
    receivers := if blockedToo then x.receivers.filter fun u => decide (u ≠ g.uid) else x.receivers }
  let s := { s with teams := s.teams.map fun (e : Nat × Team) => if e.1 / 32 = g.gang then (e.1, { e.2 with queues := e.2.queues.map q }) else e }
  let s := s.modGang g.gang fun k => { k with nets := k.nets.map fun b => { b with held := b.held.filter fun h => decide (h.2 ≠ g.uid) } }
  let s := s.modCore g.die g.core fun c => { c with leaseReq := c.leaseReq.filter fun r => decide (r.2.1 ≠ g.uid) }
  if blockedToo then
    { s with dies := s.dies.map fun (e : Nat × Die) => (e.1, { e.2 with locks := e.2.locks.map fun (l : Nat × Lock) =>
        (l.1, { l.2 with waiters := l.2.waiters.filter fun u => decide (u ≠ g.uid) }) }) }
  else s

/-- A group that waits leaves its instruction: it goes out of the orders it stands in and is idle no more (R413). -/
def State.leaveWait (s : State) : State := if s.g.wait = .run then s else (s.leaveOrders s.g true).touchAt s.g.die s.g.job
/-- PRENOTE reaches the issuing group at an instruction boundary outside a handler (R333); a group that waits leaves the
order it waits in and re-issues its instruction on ERET. -/
def State.deliverPrenote (s : State) : State :=
  let s := s.leaveWait
  (s.setG { s.g with preq := false, pnote := true }).takeTrap { cause := cPRENOTE }

/-- Return from a handler to a checked target (R342): the mode, the program counter, and a pending PRENOTE at the target. -/
def State.returnTrap (s : State) (t : Word) : State :=
  let s := s.setG { s.g.jump t with priv := false, unres := false }
  if s.g.preq then s.deliverPrenote else s

/-- Records an imprecise fault against a group: pending, or logged at once when the group has ended (R330) or holds four
(R329). The launch fails (R48). -/
def State.imprecise (s : State) (uid dev launch : Nat) (r : FRec) : State :=
  let r := { r with imp := true }
  match s.group? uid with
  | none => s.logFail dev launch r
  | some g =>
    if g.life = .ended || g.isEnding then s.logFail dev launch r
    else if g.pend.length < 4 then (s.modGroup uid fun g => { g with pend := g.pend ++ [r] }).failLaunch launch
    else (s.logFail dev launch r).modGroup uid fun g => { g with povf := true }

/-- The oldest pending record, removed; POVF clears with the last (R329). -/
def State.popPending (s : State) : Option (FRec × State) :=
  match s.g.pend with
  | [] => none
  | r :: rs => some (r, s.setG { s.g with pend := rs, povf := s.g.povf && !rs.isEmpty })

/-! ## Issuing an instruction (R78) -/

/-- How an executed instruction's own part ends: done, a precise trap, or not completed yet. -/
inductive Out where
  | done (s : State)
  | trap (r : FRec) (s : State)
  | wait (s : State)
  deriving DecidableEq, Repr

/-- The outcome as a step's next state. -/
def Out.res : Out → Res
  | .done s => .next s
  | .trap r s => .next (s.takeTrap r)
  | .wait s => .next s

/-- A product (R287). -/
def MKind.product : MKind → Bool | .mtile | .mloop | .mbatch => true | _ => false
/-- AFMT and KCNT of a product (R292). -/
def MOp.afmt (m : MOp) : Nat := m.mod.toNat / 32
def MOp.kcnt (m : MOp) : Nat := if m.kind = .mtile then 1 else bits m.imm.toNat 23 16 + 1
/-- Tiles of A and views of scales per step (R293). -/
def tilesOf (k : MKind) : Nat := if k = .mbatch then 16 else 1
def viewsOf (k : MKind) : Nat := if k = .mbatch then 3 else 1
/-- The source bytes an incomplete product has still to read, as runs of the allocation (R288); a 16-bit format has no scales. -/
def MOp.unread (m : MOp) : List (Nat × Nat) :=
  if !m.kind.product || m.done then []
  else
    let left := m.kcnt - m.kpos
    let tile := tilesOf m.kind * (m.rows * m.rlen)
    (m.tile + m.kpos * tile, left * tile) ::
      (if m.afmt = 9 || m.afmt = 10 then [] else [(m.scale + m.kpos * viewsOf m.kind * 256, left * viewsOf m.kind * 256)])
/-- The incomplete matrix operations of a group: in its core's engine, or saved with its team. -/
def State.mopsOf (s : State) (g : Group) : List MOp :=
  ((s.core g.die g.core).mops ++ (((s.team g.gang g.team).saved.map (·.mops)).getD [])).filter fun m => m.owner = g.uid
/-- The source bytes that the group's products have still to read. -/
def State.unread (s : State) (g : Group) : List (Nat × Nat) := (s.mopsOf g).flatMap MOp.unread
/-- Places of the bytes that runs name. -/
def runBytes (runs : List (Nat × Nat)) : List Nat := runs.flatMap fun r => (List.range r.2).map fun i => r.1 + i
/-- An operand's bytes take in a place of the allocation. -/
def Group.covers (g : Group) (r : Ref) (k : Nat) : Bool :=
  (r.op.isScalar || r.op.isView || r.op.isTile) && decide (g.ofs r.op ≤ k) && decide ((k : Int) < g.ofs r.op + (if r.op.isScalar then 8 else r.len))
/-- The place belongs to a D that is written, in a lane that the guard lets through (R66, R148). -/
def Group.inDest (g : Group) (cls : GClass) (f : Fields) (refs : List Ref) (k : Nat) : Bool :=
  !refs.contains .noDest && refs.any fun r => r.pos = 0 && g.covers r k &&
    (r.op.isScalar || decide (cls = .c) || (g.lanes f).getLsbD ((k - (g.ofs r.op).toNat) * 64 / r.len))
/-- The place belongs to an operand other than D. -/
def Group.inSources (g : Group) (refs : List Ref) (k : Nat) : Bool := refs.any fun r => decide (r.pos ≠ 0) && g.covers r k
/-- Registers with the bytes of some places inverted. -/
def flipped (m : Bytes) (ks : List Nat) : Bytes := ks.foldl (fun r k => bset r k (~~~(bget m k))) m
/-- On registers with some bytes inverted the instruction would leave one of the named bytes other than it was: it writes that byte. -/
def State.writesOf (s : State) (body : State → Out) (flip ks : List Nat) : Bool :=
  let m := flipped s.g.regs flip
  match body (s.setG { s.g with regs := m }) with
  | .done t => ks.any fun k => bget t.g.regs k ≠ bget m k
  | _ => false
/-- An instruction writes a byte that a product of the group has still to read, be it with the value the byte has (R104, R288): a byte it does
not read, a byte of any kind, or one of D that is also a source. -/
def State.overwrites (s : State) (cls : GClass) (refs : List Ref) (f : Fields) (body : State → Out) : Bool :=
  let ks := runBytes (s.unread s.g)
  !ks.isEmpty && (s.writesOf body [] ks || s.writesOf body (ks.filter fun k => !s.g.inSources refs k) ks || s.writesOf body ks ks ||
    ks.any fun k => s.g.inDest cls f refs k && s.g.inSources refs k)

/-- What an instruction has done stands, unless it would write a source byte that a product of the group has still to read: then it is held
in the scoreboard and has done nothing; one that waits already keeps its wait, with what that has brought (R104, R288). -/
def guardSources (cls : GClass) (refs : List Ref) (f : Fields) (body : State → Out) (s : State) : Out :=
  match body s with
  | .done t =>
    if s.overwrites cls refs f body then .wait (if s.g.wait = .run then s.setG { s.g with wait := .held 0 s.now } else s)
    else .done t
  | o => o

/-- The common part of every Jeniz instruction: the guard (R66), the privilege trap (R75), REGBOUND (R65), then its own
part, held where it would overwrite a product's source (R288). Fetch and decoding stand before it (Step). -/
def issue (cls : GClass) (priv : Bool) (refs : Group → List Ref) (f : Fields) (body : State → Out) (s : State) : Res :=
  if s.g.life ≠ .active then .fault .noGroup
  else if !executed cls f s.g then .next s.advance
  else if priv && !s.g.priv then .next (s.takeTrap { cause := cPRIV })
  else
    match s.g.regbound (refs s.g) with
    | some r => .next (s.takeTrap r)
    | none => (guardSources cls (refs s.g) f body s).res

/-! ## Waiting and release (R37, R199, R267) -/

/-- The instruction is held in the scoreboard; its wait starts at the first attempt. -/
def State.hold (s : State) (arg : Nat := 0) : State :=
  match s.g.wait with
  | .held .. => s
  | _ => s.setG { s.g with wait := .held arg s.now }

/-- The instruction's issue part has been done and it waits in the scoreboard. -/
def Group.isHeld (g : Group) : Bool := match g.wait with | .held .. | .sending .. => true | _ => false
/-- The instruction's issue part has been done and it is blocked. -/
def Group.isBlocked (g : Group) : Bool := match g.wait with | .blocked .. => true | _ => false

/-- The group is blocked in its instruction; a group already blocked keeps its wait (R37). -/
def State.block (s : State) (k : Block) (num : Nat) (arg : Word) (since : Nat) : State :=
  if s.g.isBlocked then s else s.setG { s.g with wait := .blocked k num arg since }

/-- release() and then the rest: held until every earlier access of the group is performed, then the core's dirty owned
bytes are written back (R199). -/
def State.releasing (s : State) (k : State → Out) : Out :=
  if s.storesOut s.g.uid then .wait s.hold else k (s.flushCore s.g.die s.g.core)

/-- acquire() by the issuing group (R199). -/
def State.acquireG (s : State) : State := s.acquire s.g.die s.g.core

/-- An ordering point: the oldest pending record is delivered before the instruction has any effect (R329). -/
def State.ordering (s : State) (k : State → Out) : Out :=
  match s.popPending with
  | some (r, s') => .trap r s'
  | none => k s

/-- The world of the issuing group (R457). -/
def State.gSecure (s : State) : Bool := s.secure s.g.die

/-- The issuing group's team. -/
def State.myTeam (s : State) : Team := s.team s.g.gang s.g.team
def State.modMyTeam (s : State) (f : Team → Team) : State := s.modTeam s.g.gang s.g.team f

end Sys2Proof.Machine
end

