-- ==== Sys2Proof/Machine/Flags.lean ====
section
/-! DEFINITION. Condition bits and masks computed from values: comparison codes (spec/04 R69), mask tests (spec/07 R123). -/

namespace Sys2Proof.Machine

/-- Width of an integer TYPE code 0x00-0x07 (R68). -/
def intWidth (t : Nat) : Nat := 8 * 2 ^ (t % 4)
/-- An I type (R68). -/
def isSigned (t : Nat) : Bool := t < 4
/-- Element width in bits of a TYPE code (R68, R129). -/
def typeWidth (t : Nat) : Nat := if t < 8 then intWidth t else (fmtOf t).width
/-- A pattern read by an integer TYPE: signed for the I types (R112). -/
def intVal (t p : Nat) : Int := if isSigned t then sgn p (intWidth t) else (p % 2 ^ intWidth t : Nat)
/-- Least and greatest value of an integer TYPE. -/
def minVal (t : Nat) : Int := if isSigned t then -(2 ^ (intWidth t - 1) : Nat) else 0
def maxVal (t : Nat) : Int := if isSigned t then (2 ^ (intWidth t - 1) : Nat) - 1 else (2 ^ intWidth t : Nat) - 1
/-- Clamp to an integer TYPE's range. -/
def clampTo (t : Nat) (r : Int) : Int := if r < minVal t then minVal t else if maxVal t < r then maxVal t else r
/-- ext of R112: the low W bits of r, extended to 64 by TYPE. -/
def extTo (t : Nat) (r : Int) : Word := BitVec.ofInt 64 (intVal t (wrap r (intWidth t)))

/-- A comparison code of two ordered integers (R69). -/
def ccInt (cc : Nat) (a b : Int) : Bool :=
  if cc = 0 then a = b else if cc = 1 then a ≠ b else if cc = 2 then a < b
  else if cc = 3 then a ≤ b else if cc = 4 then b < a else b ≤ a

/-- A comparison code of two floating values (R69). -/
def ccFlt (cc : Nat) (a b : FV) : Bool :=
  if a.isNan || b.isNan then cc = 1 || cc = 6
  else if cc = 6 then false else if cc = 7 then true else ccInt cc (a.cmp b) 0

/-- A comparison code of two patterns of a TYPE; FTZ is not part of layout K (R157). -/
def ccHolds (cc t pa pb : Nat) : Bool :=
  if t < 8 then ccInt cc (intVal t pa) (intVal t pb) else ccFlt cc ((fmtOf t).decode pa) ((fmtOf t).decode pb)

/-- MANY: some active lane's bit is set (R123). -/
def maskAny (m m0 : Word) : Bool := m &&& m0 ≠ 0
/-- MALL: every active lane's bit is set (R123). -/
def maskAll (m m0 : Word) : Bool := m &&& m0 = m0

end Sys2Proof.Machine
end

