-- ==== Sys2Proof/Machine/Operands.lean ====
section
/-! DEFINITION. Vector and tile operands: elements, extents and lane writes (spec/10 R146-R149, spec/09 R129). -/

namespace Sys2Proof.Machine

/-- Bytes of a vector view of 64 elements of w bits (R101, R129, R147). -/
def viewLen (w : Nat) : Nat := 8 * w

/-- Allocation offset of an operand's first byte, as a number: the operand is in range (R65). -/
def Group.base (g : Group) (o : Opnd) : Nat := (g.ofs o).toNat

/-- The w-bit pattern of lane l of a source (R146). -/
def Group.elem (g : Group) (imm : BitVec 32) (o : Opnd) (w l : Nat) : Nat :=
  if o.isView then rdBits g.regs (g.base o) (l * w) w else (g.opval imm o).toNat % 2 ^ w

/-- Writes the w-bit element of lane l of a view, leaving its neighbours (R148). -/
def Group.setElem (g : Group) (o : Opnd) (w l v : Nat) : Group :=
  { g with regs := wrBits g.regs (g.base o) (l * w) w v }

/-- Writes an element of each listed lane of D; val is taken before any is written (R148). -/
def Group.setLanes (g : Group) (o : Opnd) (w : Nat) (lanes : List Nat) (val : Nat → Nat) : Group :=
  { g with regs := (lanes.map fun l => (l, val l)).foldl (fun m e => wrBits m (g.base o) (e.1 * w) w e.2) g.regs }

/-- The floating value of a pattern of a TYPE, subnormals read as zero when FTZ (R149). -/
def fltVal (t : Nat) (ftz : Bool) (p : Nat) : FV := (fmtOf t).read ftz p

/-- iround of R149 as W bits. -/
def iround (t : Nat) (sat : Bool) (r : Int) : Nat := wrap (if sat then clampTo t r else r) (intWidth t)

/-- References of a vector form: D, A, B and C with the extents their widths give. -/
def vrefs (f : Fields) (wd wa wb : Nat) (_g : Group) : List Ref :=
  [⟨0, f.d, viewLen wd⟩, ⟨1, f.a, viewLen wa⟩, ⟨2, f.b, viewLen wb⟩]
/-- The same with a third source of width wc. -/
def vrefsC (f : Fields) (wd wa wb wc : Nat) (_g : Group) : List Ref :=
  [⟨0, f.d, viewLen wd⟩, ⟨1, f.a, viewLen wa⟩, ⟨2, f.b, viewLen wb⟩, ⟨3, f.c, viewLen wc⟩]

/-- The listed bytes of a view (a record, a message, a payload). -/
def Group.viewBytes (g : Group) (o : Opnd) (n : Nat) : List Byte := bytesAt g.regs (g.base o) n

/-- Common part of a vector instruction: every lane of its set takes a value computed from the state before it (R148). -/
def execLanes (f : Fields) (refs : Group → List Ref) (w : Nat) (val : Group → Nat → Nat) (s : State) : Res :=
  issue .m false refs f (fun s =>
    .done (s.setG (s.g.setLanes f.d w (laneList (s.g.lanes f)) (val s.g))).advance) s

end Sys2Proof.Machine
end

