-- ==== Sys2Proof/Machine/LaneMem.lean ====
section
/-! DEFINITION. What memory instructions share: the checks of every lane, then the accesses, by target
(spec/13 R196-R203, spec/12 R183, R193, spec/29 R403, spec/33 R451). -/

namespace Sys2Proof.Machine

/-- One lane's checked address. -/
structure LaneAcc where
  lane : Nat
  va : Int
  x : Xl
  deriving DecidableEq, Repr

/-- ALIGN, then R178, for one element (R197). -/
def State.checkElem (s : State) (need : Need) (cls e lane : Nat) (va : Int) : Except FRec Xl :=
  if va % (e : Int) ≠ 0 then .error { fltAt cALIGN 0 va with lane := BitVec.ofNat 6 lane }
  else
    match s.translate s.g.die (some s.g.core) s.gSecure need cls va with
    | .ok x => .ok x
    | .error r => .error { r with lane := BitVec.ofNat 6 lane }

/-- The checks of the lanes in ascending order; the first fault is the lowest lane's (R197). -/
def State.checkLanes (s : State) (need : Need) (cls e : Nat) (addr : Nat → Int) : List Nat → Except FRec (List LaneAcc)
  | [] => .ok []
  | l :: ls =>
    match s.checkElem need cls e l (addr l) with
    | .error r => .error r
    | .ok x =>
      match s.checkLanes need cls e addr ls with
      | .error r => .error r
      | .ok xs => .ok (⟨l, addr l, x⟩ :: xs)

/-- An access leaves a dead die: what it sends out is given up and never answered (R406). -/
def State.outOfDead (s : State) (a : LaneAcc) : Bool :=
  (s.die s.g.die).dead && (a.x.tgt = 1 || (a.x.tgt = 2 && decide (s.exporterOf s.g.die a.x.handle ≠ s.g.die)))
/-- The fault of a read that consumes poisoned bytes: POISON, or LINKDN for a host read while the link is down
(R193, R406, R451). An access out of a dead die is given up and finds none. -/
def State.poisonOf (s : State) (need : Need) (e : Nat) (a : LaneAcc) : Option FRec :=
  let r (c : BitVec 8) : FRec := { fltAt c 0 a.va with lane := BitVec.ofNat 6 a.lane }
  if a.x.tgt = 0 then (if s.anyBad (memKey s.g.die a.x.ofs) e then some (r cPOISON) else none)
  else if s.outOfDead a then none
  else if a.x.tgt = 1 then (if s.linkUp then none else some (r cLINKDN))
  else
    match s.peerHome s.g.die a.x.handle a.x.ofs need s.gSecure with
    | .ok none => some (r cPOISON)
    | .ok (some k) => if s.anyBad k e then some (r cPOISON) else none
    | .error _ => none

/-- The lowest lane's poison (R193). -/
def State.firstPoison (s : State) (need : Need) (e : Nat) (xs : List LaneAcc) : Option FRec := xs.findSome? (s.poisonOf need e)

/-! ## Links (R47, R404, R405) -/

/-- Records that the launch used a link by an access to memory: a die's, or 8 for the host's (R47 step 5; log entry 36: what TENQ, GENQ,
BEMIT and MSEND send is counted by R411 and touches no link). -/
def State.touchLink (s : State) (launch link : Nat) : State :=
  s.modLaunch launch fun l => if l.links.contains link then l else { l with links := l.links ++ [link] }
/-- A packet crosses a die's fabric link, which is awake (R404, R405). -/
def State.wakeLink (s : State) (die : Nat) : State :=
  if die < 8 then s.modDie die fun d => { d with asleep := false, lastPacket := s.now } else s
/-- A packet is sent to another die: both links wake, and the die has one to answer (R405). -/
def State.wakePair (s : State) (src dst : Nat) : State :=
  if src = dst then s
  else
    let s := (s.wakeLink src).wakeLink dst
    if dst < 8 then s.modDie dst fun d => { d with asked := some (d.asked.getD s.now) } else s
/-- A packet stands in the fabric that a die has not answered: a store, a stamped store, a record or a message (R405). -/
def State.owes (s : State) (die : Nat) : Bool :=
  s.fab.stores.any (fun p => p.dev ≠ die && s.exporterThen p.dev p.handle p.gone = die)
    || s.fab.stamped.any (fun w => !w.arrived && w.isOpen && w.handle ≠ 0 && w.die ≠ die && s.exporterThen w.die w.handle w.gone = die)
    || s.fab.recs.any (fun r => r.fromDie ≠ die && r.toDie = die)
    || s.fab.graph.any (fun r => r.remote && r.die = die)
    || s.fab.msgs.any (fun m => m.sdev ≠ die && m.die = die && !m.arrived)
/-- A die answers a packet that has left the fabric: while it owes answers to others the time-out counts anew, from now (R405; log entry
36). -/
def State.answer (s : State) (die : Nat) : State :=
  if die < 8 then s.modDie die fun d => { d with asked := if s.owes die then some s.now else none } else s
/-- A packet crosses to another die, which answers it (R405). -/
def State.cross (s : State) (src dst : Nat) : State := if src = dst then s else (s.wakePair src dst).answer dst
/-- An access by a die to a place of another's memory over that die's link. -/
def State.touchPeer (s : State) (dev launch home : Nat) : State := if home = dev then s else (s.touchLink launch home).cross dev home

/-- A refusal at the home die: the exporter's log, and an imprecise record of the group (R403). A dead home logs nothing. -/
def State.refuse (s : State) (uid dev launch exporter : Nat) (r : FRec) : State :=
  let s := if r.detail = cDEADDIE then s else s.log exporter r
  s.imprecise uid dev launch r

/-- The refusal record of the issuing group's access (R403). -/
def State.refuseG (s : State) (a : LaneAcc) (r : FRec) : State :=
  s.refuse s.g.uid s.g.die s.g.launch (s.exporterOf s.g.die a.x.handle)
    { s.g.fill r with addr := BitVec.ofInt 64 a.va, lane := BitVec.ofNat 6 a.lane }

/-- Posted host writes and messages reach the host in order (R199, R448, R451). -/
def State.send (s : State) (ps : List Posted) : State :=
  ps.foldl (fun (s : State) p =>
    if p.bytes.isEmpty then { s with fab := { s.fab with msix := s.fab.msix ++ [p.addr] } }
    else { s with mem := bsetMany s.mem (hostKey p.addr) p.bytes }) s
/-- Every posted write has been sent. -/
def State.flushPosted (s : State) : State :=
  let s := s.send s.fab.posted
  { s with fab := { s.fab with posted := [] } }
/-- Posted writes up to a group's last: what its own read of the host follows (R199, R261; log entry 36). -/
def ownPosted (uid : Nat) : List Posted → List Posted × List Posted
  | [] => ([], [])
  | p :: ps => if (p :: ps).any fun q => q.owner = uid then let (a, b) := ownPosted uid ps; (p :: a, b) else ([], p :: ps)
/-- Those writes have been sent; the rest stay. -/
def State.flushOwn (s : State) (uid : Nat) : State :=
  let (out, rest) := ownPosted uid s.fab.posted
  let s := s.send out
  { s with fab := { s.fab with posted := rest } }

/-- A host write discarded because the link is down: HDC counts it, saturating, and the launch fails (R450, R451). -/
def State.discardPosted (s : State) (dev job launch : Nat) : State :=
  let v := s.mrN (offHDC dev job)
  (s.setMr (offHDC dev job) (BitVec.ofNat 64 (if v < 0xFFFFFFFF then v + 1 else v))).failLaunch launch

/-- A posted host write: queued at the link, or discarded (R199, R451). -/
def State.postHost (s : State) (p : Posted) : State :=
  if s.linkUp then ({ s with fab := { s.fab with posted := s.fab.posted ++ [p] } } : State).touchLink p.launch 8
  else s.discardPosted p.dev p.job p.launch

/-- An MSI-X message is sent while the link is up; it follows the posted writes before it (R448). job 64: of no job. -/
def State.postMsix (s : State) (dev job launch vec : Nat) : State :=
  if s.linkUp then { s with fab := { s.fab with posted := s.fab.posted ++ [{ dev := dev, job := job, addr := vec, bytes := [], launch := launch }] } }
  else s

/-! ## What holds an access -/

/-- What an access through a handle translates to at its home, whatever its rights: the exporter, the address there, the translation. -/
def State.homeXl (s : State) (dev handle ofs : Nat) (secure : Bool) : Option (Nat × Nat × Xl) :=
  (kget (s.dev dev).handles handle).bind fun h =>
    let va := h.base.toNat + ofs
    match s.translate h.exporter none secure .any clsNormal va with
    | .ok x => some (h.exporter, va, x)
    | .error _ => none
/-- Where it lies. -/
def State.homePlace (s : State) (dev handle ofs : Nat) (secure : Bool) : Option Nat :=
  (s.homeXl dev handle ofs secure).map fun e => memKey e.1 e.2.2.ofs
/-- The TLB of an exporter's die is filled by an access through a handle (R181). -/
def State.fillHome (s : State) (dev handle ofs : Nat) (secure : Bool) : State :=
  match s.homeXl dev handle ofs secure with
  | some (d, va, x) => s.fillDieTlb d va x.leaf
  | none => s
/-- The TLBs that a translated access fills: both of its core's, or the die's for an agent of the die; and the exporter's die's (R181). -/
def State.fillXl (s : State) (dev : Nat) (core : Option Nat) (secure : Bool) (va : Nat) (x : Xl) : State :=
  let s := match core with | some c => s.fillTlb dev c va x.leaf | none => s.fillDieTlb dev va x.leaf
  if x.tgt = 2 then s.fillHome dev x.handle x.ofs secure else s
/-- The same for an access of the issuing group. -/
def State.fillLane (s : State) (a : LaneAcc) : State := s.fillXl s.g.die (some s.g.core) s.gSecure a.va.toNat a.x
/-- Two accesses through handles of a device, each a handle, an offset and a length, name a common byte. -/
def State.sameBytes (s : State) (dev : Nat) (secure : Bool) (a b : Nat × Nat × Nat) : Bool :=
  (a.1 = b.1 && decide (a.2.1 < b.2.1 + b.2.2) && decide (b.2.1 < a.2.1 + a.2.2)) ||
    (match s.homePlace dev a.1 a.2.1 secure, s.homePlace dev b.1 b.2.1 secure with
     | some i, some j => decide (i < j + b.2.2) && decide (j < i + a.2.2)
     | _, _ => false)

/-- An access out of the die is held: an unacknowledged store of the group names one of its bytes, in program order (R200), or it leaves
a dead die and waits for an answer (R406). -/
def State.peerBusy (s : State) (e : Nat) (a : LaneAcc) : Bool :=
  s.outOfDead a || (a.x.tgt = 2 && s.fab.stores.any fun p =>
    p.owner = s.g.uid && p.gone.isNone && s.sameBytes s.g.die s.gSecure (a.x.handle, a.x.ofs, e) (p.handle, p.ofs, p.bytes.length))

/-- A store to the line would have to snoop a die whose link sleeps: the home directory holds it until that link is awake (R405). -/
def State.snoopHeld (s : State) (line : Nat) : Bool :=
  match kget s.cache.dir line with
  | some d => (List.range 8).any fun n => d.sharers.getLsbD n && (s.die n).asleep
  | none => false
/-- Requests at the home slice for a line before a number: groups held there for a lease, a store or an atomic (R212, R213). -/
def State.queuedBefore (s : State) (line num : Nat) : Bool :=
  s.cores.any fun c => c.2.leaseReq.any fun r => r.2.2.1 = line && decide (r.1 < num) &&
    (match s.group? r.2.1 with | some g => g.isHeld | none => false)
/-- A read of a line by a die waits at the home: it stands behind a request whose snoop is held, or the die that has the line sleeps
(R191, R405). -/
def State.readHeld (s : State) (die line : Nat) : Bool :=
  (s.snoopHeld line && s.queuedBefore line s.fresh) ||
    (match (kget s.cache.dir line).bind (·.owner) with | some n => n ≠ die && (s.die n).asleep | none => false)
/-- The number of a group's own request for a line, or one behind every other. -/
def State.ownRequest (s : State) (g : Group) (line : Nat) : Nat :=
  (((s.core g.die g.core).leaseReq.find? fun r => decide (r.2.1 = g.uid) && decide (r.2.2.1 = line)).map (·.1)).getD s.fresh
/-- The issuing group's store or atomic to a line of its die waits at the home slice: another core leases the line, an earlier request
stands there, or a snoop is held (R212, R213, R405). -/
def State.lineBusy (s : State) (line : Nat) : Bool :=
  s.leasedByOther s.g.die s.g.core line || s.queuedBefore line (s.ownRequest s.g line) || s.snoopHeld line
/-- The same for an agent that is no core. -/
def State.lineTaken (s : State) (line : Nat) : Bool := s.leased line || s.queuedBefore line s.fresh || s.snoopHeld line
/-- Lines of [k, k + n). -/
def linesOf (k n : Nat) : List Nat := if n = 0 then [] else (List.range (lineOf (k + n - 1) + 1 - lineOf k)).map fun i => lineOf k + i
/-- The line that a lane writes in local memory is busy. -/
def State.leaseBusy (s : State) (e : Nat) (a : LaneAcc) : Bool :=
  a.x.tgt = 0 && (linesOf (memKey s.g.die a.x.ofs) e).any s.lineBusy
/-- A peer-homed line of the lane is taken. -/
def State.homeLeased (s : State) (need : Need) (e : Nat) (a : LaneAcc) : Bool :=
  a.x.tgt = 2 && (match s.peerHome s.g.die a.x.handle a.x.ofs need s.gSecure with
    | .ok (some k) => (linesOf k e).any s.lineTaken
    | _ => false)
/-- A line that a lane of a load has to fetch is held. -/
def State.loadHeld (s : State) (e : Nat) (a : LaneAcc) : Bool :=
  if a.x.tgt = 0 then
    let k := memKey s.g.die a.x.ofs
    (linesOf k e).any fun l => s.readHeld s.g.die l &&
      (List.range e).any fun i => lineOf (k + i) = l && ((s.core s.g.die s.g.core).l1Byte? (k + i)).isNone
  else a.x.tgt = 2 && (match s.peerHome s.g.die a.x.handle a.x.ofs .r s.gSecure with
    | .ok (some k) => s.readHeld s.g.die (lineOf k)
    | _ => false)
/-- The group takes its places in the queues of the lines it waits for, behind whoever stands there (R213). -/
def State.queueAt (s : State) (lines : List Nat) : State :=
  (lines.filter fun l => decide (s.ownRequest s.g l = s.fresh)).foldl (fun s l =>
    let (num, s) := s.take
    s.modCore s.g.die s.g.core fun c => { c with leaseReq := c.leaseReq ++ [(num, s.g.uid, l, 0)] }) s
/-- The group gives up its places. -/
def State.leaveLines (s : State) : State :=
  if (s.core s.g.die s.g.core).leaseReq.any fun r => r.2.1 = s.g.uid then
    s.modCore s.g.die s.g.core fun c => { c with leaseReq := c.leaseReq.filter fun r => decide (r.2.1 ≠ s.g.uid) }
  else s
/-- The instruction is held in the lines' queues (R212, R213). -/
def State.waitLines (s : State) (e : Nat) (xs : List LaneAcc) : Out :=
  let lines := ((xs.filter fun a => decide (a.x.tgt = 0)).flatMap fun a => linesOf (memKey s.g.die a.x.ofs) e).eraseDups
  .wait ((if s.g.isHeld then s else s.leaveLines).queueAt lines).hold
/-- Every lane's line is free, or the instruction is held in the lines' queues. -/
def State.whenFree (s : State) (e : Nat) (xs : List LaneAcc) (k : State → Out) : Out :=
  if xs.any (s.leaseBusy e) then s.waitLines e xs else k s.leaveLines

/-! ## The accesses (R202, R203) -/

/-- How the instruction asks a lane's line to be kept (R184, R185, R190). -/
def hintOf (f : Fields) (a : LaneAcc) : Hint := { evp := f.evp, stream := f.mcls = clsStream, cmp := bit a.x.leaf 10 }

/-- The same for an instruction without a MOD field of its own for it: EVP 3 (log entry 58). -/
def ownHint (a : LaneAcc) : Hint := { evp := 3, cmp := bit a.x.leaf 10 }

/-- What a lane of a load reads (R202): the core's readable copy or the home copy, host memory behind the group's own posted writes, or
the home die's copy; a refused load gives zeros. -/
def State.laneBytes (s : State) (e : Nat) (a : LaneAcc) : List Byte :=
  if a.x.tgt = 0 then (List.range e).map fun i => s.see s.g.die s.g.core (memKey s.g.die a.x.ofs + i)
  else if a.x.tgt = 1 then (List.range e).map fun i => (s.flushOwn s.g.uid).readByte (hostKey a.x.ofs + i)
  else
    match s.peerHome s.g.die a.x.handle a.x.ofs .r s.gSecure with
    | .ok (some k) => (List.range e).map fun i => (kget s.split.read (k + i)).getD (s.homeByte s.g.die s.g.core (k + i))
    | _ => List.replicate e 0
/-- The core's L1 holds a readable copy of the line of a place, with the bytes of it that are read (R187). -/
def State.fillFor (s : State) (die core k e : Nat) : State :=
  if (List.range e).all fun i => ((s.core die core).l1Byte? (k + i)).isSome then s else s.l1Fill die core (lineOf k)
/-- What a lane of a load leaves: caches and TLBs filled, the link crossed, a refusal recorded. -/
def State.loadTouch (s : State) (h : LaneAcc → Hint) (e : Nat) (a : LaneAcc) : State :=
  let s := s.fillLane a
  if a.x.tgt = 0 then
    let k := memKey s.g.die a.x.ofs
    ((s.noteLine k (h a)).fillFor s.g.die s.g.core k e).l1Note s.g.die s.g.core k (h a)
  else if a.x.tgt = 1 then (s.flushOwn s.g.uid).touchLink s.g.launch 8
  else
    let s := s.touchPeer s.g.die s.g.launch (s.exporterOf s.g.die a.x.handle)
    match s.peerHome s.g.die a.x.handle a.x.ofs .r s.gSecure with
    | .ok (some k) => s.noteFrom s.g.die k (h a)
    | .ok none => s
    | .error r => s.refuseG a r

/-- Loads the lanes: every lane reads the same memory, and the accesses are noted in order. -/
def State.loadLanes (s : State) (h : LaneAcc → Hint) (e : Nat) (xs : List LaneAcc) : List (Nat × Nat) × State :=
  (xs.map fun a => (a.lane, leVal (s.laneBytes e a)), xs.foldl (fun s a => s.loadTouch h e a) s)

/-- A structure of 64 bytes of local memory, read as a plain load of one element; the continuation takes it, with the state after the
load. -/
def State.plainRead (s : State) (va : Int) (k : Nat → State → Out) : Out :=
  match s.checkElem .r clsNormal 64 0 va with
  | .error r => .trap r s
  | .ok x =>
    let a : LaneAcc := ⟨0, va, x⟩
    match s.poisonOf .r 64 a with
    | some r => .trap r s
    | none => if s.loadHeld 64 a then .wait s.hold else k (leVal (s.laneBytes 64 a)) (s.loadTouch ownHint 64 a)

/-- Stores one lane's bytes (R202, R203): into the L1, posted to the link (out of a dead die it is given up, R406), or sent to the home
die. -/
def State.storeLane (s : State) (h : LaneAcc → Hint) (a : LaneAcc) (bs : List Byte) : State :=
  let s := s.fillLane a
  if a.x.tgt = 0 then
    let k := memKey s.g.die a.x.ofs
    ((s.noteLine k (h a)).storeBytes s.g.die s.g.core k bs).l1Note s.g.die s.g.core k (h a)
  else if a.x.tgt = 1 then
    if s.outOfDead a then s
    else s.postHost { dev := s.g.die, job := s.g.job, addr := a.x.ofs, bytes := bs, launch := s.g.launch, owner := s.g.uid }
  else
    let (id, s) := s.take
    let p : PeerStore := {
      id := id, owner := s.g.uid, launch := s.g.launch, job := s.g.job, dev := s.g.die,
      handle := a.x.handle, addr := BitVec.ofInt 64 a.va, iaddr := s.g.pc, slot := s.g.slot, core := s.g.core,
      secure := s.gSecure, ofs := a.x.ofs, bytes := (List.range bs.length).zip bs, hint := (h a).evp }
    let home := s.exporterOf s.g.die a.x.handle
    (({ s with fab := { s.fab with stores := s.fab.stores ++ [p] } } : State).touchLink s.g.launch home).wakePair s.g.die home

/-- Stores the lanes in ascending order: the highest lane's bytes stand (R202). -/
def State.storeLanes (s : State) (h : LaneAcc → Hint) (val : Nat → List Byte) : List LaneAcc → State
  | [] => s
  | a :: as => (s.storeLane h a (val a.lane)).storeLanes h val as

/-- Element size of layout M in bytes (R67). -/
def szBytes (f : Fields) : Nat := 2 ^ f.sz

/-- Release before the access when ORD says so (R202, R209). -/
def State.relIf (s : State) (b : Bool) (k : State → Out) : Out := if b then s.releasing k else k s
/-- Acquire after the access when ORD says so. -/
def State.acqIf (s : State) (b : Bool) : State := if b then s.acquireG else s

/-- A load of a lane set: checks, poison, the accesses, then the destination (R183, R202). -/
def loadOut (f : Fields) (addr : Group → Nat → Int) (lanes : Group → List Nat) (write : Group → List (Nat × Nat) → Group)
    (s : State) : Out :=
  let e := szBytes f
  match s.checkLanes .r f.mcls e (addr s.g) (lanes s.g) with
  | .error r => .trap r s
  | .ok xs =>
    match s.firstPoison .r e xs with
    | some r => .trap r s
    | none =>
      if xs.any fun a => s.peerBusy e a || s.loadHeld e a then .wait s.hold
      else
        let (vs, s) := s.loadLanes (hintOf f) e xs
        .done ((s.setG (write s.g vs)).acqIf (f.ord = 1)).advance

/-- A store of a lane set (R183, R202): values are read before any byte is written. -/
def storeOut (f : Fields) (addr : Group → Nat → Int) (lanes : Group → List Nat) (val : Group → Nat → Nat) (s : State) : Out :=
  s.relIf (f.ord = 2) fun s =>
    let e := szBytes f
    match s.checkLanes .w f.mcls e (addr s.g) (lanes s.g) with
    | .error r => .trap r s
    | .ok xs =>
      s.whenFree e xs fun s =>
        let g := s.g
        .done (s.storeLanes (hintOf f) (fun l => leBytes (val g l) e) xs).advance

end Sys2Proof.Machine
end

