-- ==== Sys2Proof/Machine/LoadStore.lean ====
section
/-! DEFINITION. Loads and stores, the scratchpad, atomics: opcodes 0x50 to 0x52 (spec/13 R201-R210). -/

namespace Sys2Proof.Machine

/-! ## Opcode 0x50 -/

/-- opval(A) + sext(IMM). -/
def baseAddr (f : Fields) (g : Group) : Int := (g.opval f.imm f.a).toNat + f.simm
/-- Addresses of LD and ST (R202). -/
def rowAddr (f : Fields) (g : Group) (l : Nat) : Int := baseAddr f g + l * szBytes f
/-- Addresses of LDG and STG: B's elements are signed 8-byte offsets (R202). -/
def gatherAddr (f : Fields) (g : Group) (l : Nat) : Int := baseAddr f g + sgn (g.elem f.imm f.b 64 l) 64
/-- The lane set. -/
def laneSet (f : Fields) (g : Group) : List Nat := laneList (g.lanes f)
/-- Loaded elements into the vector D. -/
def toLanes (f : Fields) (g : Group) (vs : List (Nat × Nat)) : Group :=
  g.setLanes f.d (8 * szBytes f) (vs.map (·.1)) fun l => (kget vs l).getD 0
/-- A loaded element, zero-extended, into the scalar D. -/
def toScalar (f : Fields) (g : Group) (vs : List (Nat × Nat)) : Group := g.put f.d (BitVec.ofNat 64 ((kget vs 0).getD 0))
/-- The element of lane l of the vector D. -/
def fromLane (f : Fields) (g : Group) (l : Nat) : Nat := g.elem f.imm f.d (8 * szBytes f) l
/-- The low bytes of the scalar D. -/
def fromScalar (f : Fields) (g : Group) (_ : Nat) : Nat := (g.opval f.imm f.d).toNat

/-- LD (R202). -/
def execLd (f : Fields) (s : State) : Res :=
  issue .m false (vrefs f (8 * szBytes f) 8 8) f (loadOut f (rowAddr f) (laneSet f) (toLanes f)) s
/-- ST (R202). -/
def execSt (f : Fields) (s : State) : Res :=
  issue .m false (srcD (vrefs f (8 * szBytes f) 8 8)) f (storeOut f (rowAddr f) (laneSet f) (fromLane f)) s
/-- SLD (R202). -/
def execSld (f : Fields) (s : State) : Res :=
  issue .c false (dab f) f (loadOut f (fun g _ => baseAddr f g) (fun _ => [0]) (toScalar f)) s
/-- SST (R202). -/
def execSst (f : Fields) (s : State) : Res :=
  issue .c false (srcD (dab f)) f (storeOut f (fun g _ => baseAddr f g) (fun _ => [0]) (fromScalar f)) s
/-- LDG (R202). -/
def execLdg (f : Fields) (s : State) : Res :=
  issue .m false (vrefs f (8 * szBytes f) 8 64) f (loadOut f (gatherAddr f) (laneSet f) (toLanes f)) s
/-- STG (R202). -/
def execStg (f : Fields) (s : State) : Res :=
  issue .m false (srcD (vrefs f (8 * szBytes f) 8 64)) f (storeOut f (gatherAddr f) (laneSet f) (fromLane f)) s

/-! ## The format-taking load (R204) -/

/-- What a line's sidecar gives for a physical place: format code and the number of the block that holds it; outside every
window format 0, blocks counted from physical address 0. -/
def State.formatAt (s : State) (k : Nat) : Nat × Nat × Nat :=
  match kget s.side (lineOf k) with
  | some sd =>
    let b := blockBytes sd.fmt.toNat
    (sd.fmt.toNat, (k % 2 ^ 35 - sd.base) / b, (k % 2 ^ 35 - sd.base) % b)
  | none => (0, k % 2 ^ 35 / 16, k % 16)

/-- The scale a line's sidecar gives for a block; 0x0FF outside every window (R141, R204). -/
def State.sideScale (s : State) (k j : Nat) : BitVec 10 :=
  match kget s.side (lineOf k) with
  | some sd => (kget sd.scales j).getD 0x0FF
  | none => 0x0FF

/-- A block's scale as it is written: TY of an E4M3, E5M2, E3M2 or E2M3 block is 0b00 (R130). -/
def writtenScale (fmt : Nat) (sc : BitVec 10) : BitVec 10 := if 11 ≤ fmt && fmt ≤ 14 then 0#2 ++ sc.setWidth 8 else sc
/-- Bytes of the element of a lane in a packed stream: first and last offset (R129). -/
def elemSpan (w l : Nat) : Nat × Nat := (l * w / 8, (l * w + w - 1) / 8)

/-- Translates and loads single bytes at virtual addresses, for elements that need not be aligned. -/
def State.byteAccs (s : State) (lane : Nat) : List Int → Except FRec (List LaneAcc)
  | [] => .ok []
  | a :: as =>
    match s.checkElem .r clsNormal 1 lane a with
    | .error r => .error r
    | .ok x => (match s.byteAccs lane as with | .error r => .error r | .ok xs => .ok (⟨lane, a, x⟩ :: xs))

/-- Every byte of every lane's element, lanes ascending. -/
def State.spanAccs (s : State) (base : Int) (w : Nat) : List Nat → Except FRec (List LaneAcc)
  | [] => .ok []
  | l :: ls =>
    let (lo, hi) := elemSpan w l
    match s.byteAccs l ((List.range (hi + 1 - lo)).map fun i => base + (lo + i : Nat)) with
    | .error r => .error r
    | .ok xs => (match s.spanAccs base w ls with | .error r => .error r | .ok ys => .ok (xs ++ ys))

/-- LD, format-taking form (R204): the element of each lane of the set, and both blocks' scales in sB. A fault of addr(0)
names lane 0, one of the second block's scale names lane 32 (log entry 12). A second block in a window of another format has no scale
that the spec states: a free value (log entry 9). TY of an MX block goes to sB as 0 (R130, R204). -/
def execLdFormat (f : Fields) (s : State) : Res :=
  issue .m false (fun _ => [⟨0, f.d, 64⟩, ⟨1, f.a, 8⟩, ⟨2, f.b, 8⟩]) f (fun s =>
    let lanes := laneSet f s.g
    let base := baseAddr f s.g
    match lanes with
    | [] => .done (s.acqIf (f.ord = 1)).advance
    | _ :: _ =>
      match s.checkElem .r f.mcls 1 0 base with
      | .error r => .trap r s
      | .ok x0 =>
        let k0 := memKey s.g.die x0.ofs
        let s1 := s.noteLine k0 (hintOf f ⟨0, base, x0⟩)
        let (fmt, j, off) := s1.formatAt k0
        let b := blockBytes fmt
        let w := if fmt = 0 then 4 else narrowWidth fmt
        if off ≠ 0 then .trap (fltAt cALIGN 0 base) s
        else
          match s.spanAccs base w lanes, s.checkElem .r f.mcls 1 32 (base + (b : Nat)) with
          | .error r, _ | .ok _, .error r => .trap r s
          | .ok xs, .ok x1 =>
            match s.firstPoison .r 1 xs with
            | some r => .trap r s
            | none =>
              if xs.any (s.loadHeld 1) then .wait s.hold else
              let k1 := memKey s.g.die x1.ofs
              let s2 := s1.noteLine k1 (hintOf f ⟨32, base + (b : Nat), x1⟩)
              let j1 := (s2.formatAt k1).2.1
              let second := if fmt = 0 || (s2.formatAt k1).1 = fmt || (s2.formatAt k1).1 = 0 then (if fmt = 0 then 0x0FF else s2.sideScale k1 j1)
                else Config.absentScale s.g.die (j + 1)
              let stream := xs.foldl (fun m a => bset m (a.va - base).toNat (s.see s.g.die s.g.core (memKey s.g.die a.x.ofs))) []
              let sc := (writtenScale fmt (s1.sideScale k0 j)).toNat + 2 ^ 10 * (writtenScale fmt second).toNat + 2 ^ 20 * fmt
              let (_, s2) := s2.loadLanes (hintOf f) 1 xs
              let g := s2.g.setLanes f.d w lanes fun l => rdBits stream 0 (l * w) w
              .done ((s2.setG (g.put f.b (BitVec.ofNat 64 sc))).acqIf (f.ord = 1)).advance) s

/-! ## The scratchpad (R205, R206) -/

/-- The team of the issuing gang at a cluster position of the issuing core's cluster: also one whose groups have all ended, until the gang
retires, which R264 and R206 leave open (log entry 66). -/
def State.teamAt (s : State) (pos : Nat) : Option (Nat × Team) :=
  (s.teamsOf s.g.gang).find? fun e => decide (e.2.die = s.g.die) && decide (e.2.core / 4 = s.g.core / 4) && decide (e.2.core % 4 = pos)
/-- Address of a lane in a window (R206). -/
def spadAddr (f : Fields) (g : Group) (l : Nat) : Int := (g.opval f.imm f.a).toNat + (f.immN % 2 ^ 18 : Nat) + l * szBytes f
/-- An access of n bytes lies inside a window of a size. -/
def spadIn (window : Nat) (a : Int) (n : Nat) : Bool := 0 ≤ a && a + n ≤ window
/-- ALIGN, then SPBOUND on every target window, lanes ascending (R197, R206). The check is a lane's: with an empty lane set a position without
a team raises nothing (log entry 66). -/
def spadCheck (f : Fields) (g : Group) (windows : List Nat) : Option FRec :=
  (laneSet f g).findSome? fun l =>
    let a := spadAddr f g l
    if a % (szBytes f : Int) ≠ 0 then some { fltAt cALIGN 0 a with lane := BitVec.ofNat 6 l }
    else if windows.all fun w => spadIn w a (szBytes f) then none
    else some { fltAt cSPBOUND 0 a with lane := BitVec.ofNat 6 l }

/-- Place of a scratchpad byte among the places of memory, for accesses made ahead or later. -/
def spadKey (gang team a : Nat) : Nat := 2 ^ 70 + 2 ^ 20 * teamKey gang team + a
/-- A team's window as a load of it reads it: bytes read ahead stay (R229). -/
def State.spadSeen (s : State) (gang team : Nat) (t : Team) : Bytes :=
  s.split.read.foldl (fun m e => if e.1 / 2 ^ 20 = spadKey gang team 0 / 2 ^ 20 then bset m (e.1 % 2 ^ 20) e.2 else m) t.spad
/-- Loads from a window (R206). -/
def spadLoad (f : Fields) (team : Option (Nat × Team)) (s : State) : Out :=
  match spadCheck f s.g [(team.map (·.2.window)).getD 0] with
  | some r => .trap r s
  | none =>
    let m := (team.map fun t => s.spadSeen s.g.gang t.1 t.2).getD []
    let g := s.g.setLanes f.d (8 * szBytes f) (laneSet f s.g) fun l => rdLE m (spadAddr f s.g l).toNat (szBytes f)
    .done ((s.setG g).acqIf (f.ord = 1)).advance

/-- LDS (R206). -/
def execLds (f : Fields) (s : State) : Res :=
  issue .m false (vrefs f (8 * szBytes f) 8 8) f (fun s => spadLoad f (some (s.g.team, s.myTeam)) s) s
/-- LDSB (R206). -/
def execLdsb (f : Fields) (s : State) : Res :=
  issue .m false (vrefs f (8 * szBytes f) 8 8) f (fun s => spadLoad f (s.teamAt (f.immN / 2 ^ 18 % 4)) s) s

/-- Positions of a multicast mask. -/
def mcastPos (m : Nat) : List Nat := (List.range 4).filter fun p => bit m p
/-- The teams a store or copy with MCAST writes: team index and window, window 0 where a position holds no team. -/
def State.mcastTeams (s : State) (m : Nat) : List (Option Nat × Nat) :=
  if m = 0 then [(some s.g.team, s.myTeam.window)]
  else (mcastPos m).map fun p => match s.teamAt p with | some (i, t) => (some i, t.window) | none => (none, 0)
/-- Writes bytes in a team's window. -/
def State.spadWrite (s : State) (gang team a : Nat) (bs : List Byte) : State :=
  s.modTeam gang team fun t => { t with spad := bsetMany t.spad a bs }

/-- The bytes an STS writes in the windows of teams: team, address and byte, target by target, lanes ascending (R206). -/
def stsBytes (f : Fields) (g : Group) (teams : List Nat) : List (Nat × Nat × Byte) :=
  teams.flatMap fun t => (laneSet f g).flatMap fun l =>
    ((leBytes (fromLane f g l) (szBytes f)).zipIdx).map fun b => (t, (spadAddr f g l).toNat + b.2, b.1)
/-- A team written from another core whose own core is halted: its scratchpad then changes by no other core (R339). -/
def State.spadStopped (s : State) (gang team : Nat) : Bool :=
  let t := s.team gang team
  (s.core t.die t.core).halted
/-- STS: every target is checked before any byte is written (R206). -/
def execSts (f : Fields) (s : State) : Res :=
  issue .m false (srcD (vrefs f (8 * szBytes f) 8 8)) f (fun s => s.relIf (f.ord = 2) fun s =>
    let ts := s.mcastTeams (f.immN / 2 ^ 18 % 16)
    match spadCheck f s.g (ts.map (·.2)) with
    | some r => .trap r s
    | none =>
      let g := s.g
      if (ts.filterMap (·.1)).any (s.spadStopped g.gang) then .wait s.hold
      else .done ((ts.filterMap (·.1)).foldl (fun s t => (laneSet f g).foldl (fun s l =>
        s.spadWrite g.gang t (spadAddr f g l).toNat (leBytes (fromLane f g l) (szBytes f))) s) s).advance) s

/-! ## Atomics (R207-R210) -/

/-- The new value of an OP on w-bit values (R208). -/
def atomOp (op w old c : Nat) : Nat :=
  if op = 0 then c else if op = 1 then (old + c) % 2 ^ w
  else if op = 2 then old &&& c else if op = 3 then old ||| c else if op = 4 then old ^^^ c
  else if op = 5 then (if sgn old w ≤ sgn c w then old else c)
  else if op = 6 then (if sgn old w ≤ sgn c w then c else old)
  else if op = 7 then Nat.min old c else if op = 8 then Nat.max old c
  else fp32.rne ((fp32.decode old).add .rne (fp32.decode c))

/-- The core comes to own every word of a line, with its coherent contents (R186, R209). -/
def State.ownLine (s : State) (die core k : Nat) : State :=
  (List.range 32).foldl (fun s i => s.ownWord die core (128 * lineOf k + 4 * i)) s

/-- One read-modify-write of e bytes: new is none where nothing is to be written (a failed CAS). atHome: performed at the
home slice (R209, R210). -/
def State.rmw (s : State) (h : LaneAcc → Hint) (e : Nat) (atHome : Bool) (a : LaneAcc) (new : Nat → Option Nat) : Nat × State :=
  let s := s.fillLane a
  if a.x.tgt = 0 then
    let k := memKey s.g.die a.x.ofs
    let s := s.noteLine k (h a)
    if atHome then
      let s := s.revoke (lineOf k) (BitVec.allOnes 32) none
      let old := rdLE s.mem k e
      (old, match new old with | some v => s.homeWrite k (leBytes v e) | none => s)
    else
      let s := (s.revoke (lineOf k) (BitVec.allOnes 32) (some (s.g.die, s.g.core))).l1Fill s.g.die s.g.core (lineOf k)
      let old := leVal ((List.range e).map fun i => s.see s.g.die s.g.core (k + i))
      (old, match new old with
        | some v => ((s.ownLine s.g.die s.g.core k).storeBytes s.g.die s.g.core k (leBytes v e)).l1Note s.g.die s.g.core k (h a)
        | none => s)
  else
    let s := s.touchPeer s.g.die s.g.launch (s.exporterOf s.g.die a.x.handle)
    match s.peerHome s.g.die a.x.handle a.x.ofs .rw s.gSecure with
    | .ok (some k) =>
      let s := s.revoke (lineOf k) (BitVec.allOnes 32) none
      let old := rdLE s.mem k e
      (old, (match new old with | some v => s.homeWrite k (leBytes v e) | none => s).noteFrom s.g.die k (h a))
    | .ok none => (0, s)
    | .error r => (0, s.refuseG a r)

/-- The lanes' read-modify-writes in ascending order, with the old values (R209). -/
def State.rmwLanes (s : State) (h : LaneAcc → Hint) (e : Nat) (atHome : Bool) (new : Nat → Nat → Option Nat) : List LaneAcc → List (Nat × Nat) × State
  | [] => ([], s)
  | a :: as =>
    let (old, s) := s.rmw h e atHome a (new a.lane)
    let (r, s) := s.rmwLanes h e atHome new as
    ((a.lane, old) :: r, s)

/-- References of an atomic: a vector D has vector offsets B and C of D's width. -/
def atomRefs (f : Fields) (_g : Group) : List Ref :=
  let w := 8 * szBytes f
  [⟨0, f.d, viewLen w⟩, ⟨1, f.a, 8⟩, ⟨2, f.b, 512⟩, ⟨3, f.c, viewLen w⟩]
/-- Lanes and addresses of an atomic (R207). -/
def atomLanes (f : Fields) (g : Group) : List Nat := if f.d.isView then laneSet f g else [0]
def atomAddr (f : Fields) (g : Group) (l : Nat) : Int :=
  (g.opval f.imm f.a).toNat + (if f.d.isView then sgn (g.elem f.imm f.b 64 l) 64 else 0)
/-- c(l), d(l) of R209. -/
def atomC (f : Fields) (g : Group) (l : Nat) : Nat := g.elem f.imm f.c (8 * szBytes f) l
def atomD (f : Fields) (g : Group) (l : Nat) : Nat := g.elem f.imm f.d (8 * szBytes f) l

/-- The shared part of opcode 0x52 (R209). sc: ATOMSC, which releases, acquires, takes a ticket and acts at the home. -/
def atomOut (f : Fields) (sc : Bool) (new : Group → Nat → Nat → Option Nat) (s : State) : Out :=
  s.relIf (sc || f.ord = 2 || f.ord = 3) fun s =>
    let e := szBytes f
    match s.checkLanes .rw f.mcls e (atomAddr f s.g) (atomLanes f s.g) with
    | .error r => .trap r s
    | .ok xs =>
      match s.firstPoison .rw e xs with
      | some r => .trap r s
      | none =>
        if xs.any (fun a => s.peerBusy e a || s.homeLeased .rw e a) then .wait s.hold
        else s.whenFree e xs fun s =>
          let s := if sc then { s with hub := { s.hub with ticket := s.hub.ticket + 1 } } else s
          let (olds, s) := s.rmwLanes (hintOf f) e sc (new s.g) xs
          let g := if f.d.isView then toLanes f s.g olds else toScalar f s.g olds
          .done ((s.setG g).acqIf (sc || f.ord = 1 || f.ord = 3)).advance

/-- The line of a lane: lanes of one line are one indivisible group of an atomic, and one request of a copy (R209, R220). -/
def State.atomLine (s : State) (a : LaneAcc) : Nat × Nat :=
  if a.x.tgt = 0 then (0, lineOf (memKey s.g.die a.x.ofs))
  else if a.x.tgt = 1 then (0, lineOf (hostKey a.x.ofs))
  else match s.homePlace s.g.die a.x.handle a.x.ofs s.gSecure with
    | some k => (0, lineOf k)
    | none => (1 + a.x.handle, lineOf a.x.ofs)
/-- The lanes line by line, in the order of each line's lowest lane. -/
def State.byLine (s : State) (xs : List LaneAcc) : List (List LaneAcc) :=
  ((xs.map s.atomLine).eraseDups).map fun l => xs.filter fun a => s.atomLine a = l
/-- The new value of ATOM and ATOMSC. -/
def atomNew (f : Fields) (g : Group) (l old : Nat) : Option Nat :=
  some (atomOp (f.immN / 4096 % 16) (8 * szBytes f) old (atomC f g l))
/-- The new value of CAS: none unless the old value is the expected one. -/
def casNew (f : Fields) (g : Group) (l old : Nat) : Option Nat := if old = atomD f g l then some (atomC f g l) else none

/-- ATOM (R209). -/
def execAtom (f : Fields) (s : State) : Res := issue .k false (atomRefs f) f (atomOut f false (atomNew f)) s
/-- ATOMSC (R210). -/
def execAtomsc (f : Fields) (s : State) : Res := issue .c false (atomRefs f) f (atomOut f true (atomNew f)) s
/-- CAS (R209). -/
def execCas (f : Fields) (s : State) : Res := issue .k false (atomRefs f) f (atomOut f false (casNew f)) s

end Sys2Proof.Machine
end

