-- ==== Sys2Proof/Machine/Sync.lean ====
section
/-! DEFINITION. Named queues, team barriers and network barriers: opcodes 0x70 to 0x72 (spec/16 R262-R280). -/

namespace Sys2Proof.Machine

/-! ## Queues (R262-R269) -/

/-- Queue number, and the team a queue instruction names: none where a named position holds no team (R264). -/
def qNum (f : Fields) : Nat := f.modN % 16
def State.qTeam (s : State) (f : Fields) : Option Nat :=
  if bit f.modN 6 then (s.teamAt (f.modN / 16 % 4)).map (·.1) else some s.g.team
/-- Queue q of a team. -/
def Team.queue (t : Team) (q : Nat) : Queue := t.queues.getD q {}
/-- Replaces queue q of a team. -/
def Team.setQueue (t : Team) (q : Nat) (x : Queue) : Team := { t with queues := t.queues.set q x }

/-- A value enters the ring (R267). -/
def Team.push (t : Team) (q : Nat) (v : Word) : Team :=
  let x := t.queue q
  let t := { t with spad := bsetMany t.spad (8 * x.base.toNat + 8 * ((x.head + x.count) % x.slots)) (leBytes v.toNat 8) }
  t.setQueue q { x with count := x.count + 1, alw := x.alw - 1 }
/-- The oldest value leaves the ring (R268). -/
def Team.pop (t : Team) (q : Nat) : Word × Team :=
  let x := t.queue q
  let v := BitVec.ofNat 64 (rdLE t.spad (8 * x.base.toNat + 8 * x.head) 8)
  (v, t.setQueue q { x with
    head := (x.head + 1) % x.slots, count := x.count - 1, alw := if x.refill then Nat.min (x.alw + 1) 65535 else x.alw })
/-- A value can be sent at once (R267). -/
def Queue.canSend (x : Queue) : Bool := x.count < x.slots && 0 < x.alw

/-- Held senders and blocked receivers proceed while they can, oldest first; answers the groups that proceed with the
values they receive (R267, R268). No sender proceeds while the team's core is halted, whose scratchpad then stands still (R339). -/
def Team.settle (halted : Bool) (q : Nat) : Nat → Team → List (Nat × Word) → List (Nat × Word) × Team
  | 0, t, ws => (ws, t)
  | n + 1, t, ws =>
    let x := t.queue q
    match x.receivers, x.senders with
    | r :: rs, ss =>
      if 0 < x.count then
        let (v, t) := (t.setQueue q { x with receivers := rs }).pop q
        Team.settle halted q n t (ws ++ [(r, v)])
      else
        (match ss with
         | (u, v) :: us =>
           if x.canSend && !halted then Team.settle halted q n ((t.setQueue q { x with senders := us }).push q v) (ws ++ [(u, 0)])
           else (ws, t)
         | [] => (ws, t))
    | [], (u, v) :: us =>
      if x.canSend && !halted then Team.settle halted q n ((t.setQueue q { x with senders := us }).push q v) (ws ++ [(u, 0)]) else (ws, t)
    | [], [] => (ws, t)

/-- Settles a queue of a gang's team; the groups that proceed are woken. -/
def State.settleQueue (s : State) (gang team q : Nat) : State :=
  let (ws, t) := Team.settle (s.spadStopped gang team) q 400 (s.team gang team) []
  ws.foldl (fun s w => s.wake w.1 w.2) (s.setTeam gang team t)
/-- The same for the issuing gang. -/
def State.settleQ (s : State) (team q : Nat) : State := s.settleQueue s.g.gang team q
/-- A core goes on after a halt: what its teams' queues held up proceeds (R267, R339). -/
def State.settleCore (s : State) (die core : Nat) : State :=
  s.teams.foldl (fun s e =>
    if e.2.die = die && e.2.core = core then (List.range 16).foldl (fun s q =>
      if ((s.team (e.1 / 32) (e.1 % 32)).queue q).senders.isEmpty then s else s.settleQueue (e.1 / 32) (e.1 % 32) q) s
    else s) s
/-- Updates a queue of the issuing gang. -/
def State.modQ (s : State) (team q : Nat) (h : Queue → Queue) : State :=
  s.modTeam s.g.gang team fun t => t.setQueue q (h (t.queue q))
/-- A queue of the issuing gang. -/
def State.queue (s : State) (team q : Nat) : Queue := (s.team s.g.gang team).queue q

/-- A trap that reports a queue or barrier number. -/
def numTrap (c : BitVec 8) (n : Nat) : FRec := { cause := c, info := BitVec.ofNat 32 n }
/-- SPBOUND for a position without a team, else the rest with the team. -/
def withQTeam (f : Fields) (k : Nat → State → Out) (s : State) : Out :=
  match s.qTeam f with
  | none => .trap { cause := cSPBOUND } s
  | some t => k t s

/-- The issuing group still stands in an order of some queue of its gang, whose team may have moved since (R267, R268). -/
def State.inQueue (s : State) (p : Queue → Bool) : Bool := (s.teamsOf s.g.gang).any fun t => t.2.queues.any p

/-- QSEND (R267): after its release the group joins the senders' order; it proceeds at once or is held there. A value that has been sent
completes it wherever the team stands by then; a queue that went with its team ends it with SPBOUND. -/
def execQsend (f : Fields) (s : State) : Res :=
  issue .c false (dab f) f (fun s =>
    match s.g.wait with
    | .ready _ => .done s.advance
    | .held 1 _ =>
      if s.inQueue fun x => x.senders.any fun e => e.1 = s.g.uid then .wait s else .trap { cause := cSPBOUND } s
    | _ => s |> withQTeam f fun t s => s.releasing fun s =>
      if !(s.queue t (qNum f)).init then .trap (numTrap cQINIT (qNum f)) s
      else
        let s := (s.modQ t (qNum f) fun x => { x with senders := x.senders ++ [(s.g.uid, s.va f)] }).settleQ t (qNum f)
        match s.g.wait with
        | .ready _ => .done s.advance
        | _ => .wait (s.setG { s.g with wait := .held 1 s.now })) s

/-- QTRYS (R267): sends only if it can do so at once without overtaking a held sender. -/
def execQtrys (f : Fields) (s : State) : Res :=
  issue .c false (dab f) f (withQTeam f fun t s => s.releasing fun s =>
    let x := s.queue t (qNum f)
    if !x.init then .trap (numTrap cQINIT (qNum f)) s
    else if x.senders.isEmpty && x.canSend && !s.spadStopped s.g.gang t then
      let s := (s.modTeam s.g.gang t fun m => m.push (qNum f) (s.va f)).settleQ t (qNum f)
      .done (s.putD f 1).advance
    else .done (s.putD f 0).advance) s

/-- QRECV (R268): the group joins the receivers' order; it takes a value at once or is blocked there. A value that it has been given
completes it wherever the team stands by then. -/
def execQrecv (f : Fields) (s : State) : Res :=
  issue .c false (dab f) f (fun s =>
    match s.g.wait with
    | .ready v => .done (s.putD f v).acquireG.advance
    | .blocked .qrecv _ _ _ =>
      if s.inQueue fun x => x.receivers.contains s.g.uid then .wait s else .trap { cause := cSPBOUND } s
    | _ => s |> withQTeam f fun t s =>
      if !(s.queue t (qNum f)).init then .trap (numTrap cQINIT (qNum f)) s
      else
        let s := (s.modQ t (qNum f) fun x => { x with receivers := x.receivers ++ [s.g.uid] }).settleQ t (qNum f)
        match s.g.wait with
        | .ready v => .done (s.putD f v).acquireG.advance
        | _ => .wait (s.block .qrecv (qNum f) 0 s.now)) s

/-- QTRYR (R268): B's condition bit says whether a value was taken. -/
def execQtryr (f : Fields) (s : State) : Res :=
  issue .c false (dab f) f (withQTeam f fun t s =>
    let x := s.queue t (qNum f)
    if !x.init then .trap (numTrap cQINIT (qNum f)) s
    else if x.receivers.isEmpty && 0 < x.count then
      let (v, m) := (s.team s.g.gang t).pop (qNum f)
      let s := (s.setTeam s.g.gang t m).settleQ t (qNum f)
      let s := s.putD f v
      .done (s.setG (s.g.put f.b 1)).acquireG.advance
    else .done (s.setG (s.g.put f.b 0)).advance) s

/-- The shared part of QALLOW with INIT = 0: adds to the allowance and releases held senders (R266). -/
def qallowAdd (f : Fields) (t : Nat) (s : State) : Out :=
  if !(s.queue t (qNum f)).init then .trap (numTrap cQINIT (qNum f)) s
  else
    let s := s.modQ t (qNum f) fun x => { x with alw := Nat.min (x.alw + f.immN / 65536 + (s.va f).toNat) 65535 }
    .done (s.settleQ t (qNum f)).advance
/-- QALLOW (R266). -/
def execQallow (f : Fields) (s : State) : Res := issue .c false (dab f) f (withQTeam f (qallowAdd f)) s

/-- QALLOW with INIT = 1 (R266). -/
def execQallowInit (f : Fields) (s : State) : Res :=
  issue .c false (dab f) f (withQTeam f fun t s =>
    let slots := f.immN % 128
    let b := (s.va f).toNat
    let x := s.queue t (qNum f)
    if slots < 8 || 64 < slots then .trap (numTrap cQCFG (qNum f)) s
    else if b % 8 ≠ 0 then .trap (fltAt cALIGN 0 b) s
    else if (s.team s.g.gang t).window < b + 8 * slots then .trap (fltAt cSPBOUND 0 b) s
    else if 0 < x.senders.length + x.receivers.length then .trap (numTrap cQBUSY (qNum f)) s
    else
      let x : Queue := {
        base := BitVec.ofNat 15 (b / 8), slots := slots, refill := bit f.immN 14, alw := f.immN / 65536, init := true }
      .done (s.modQ t (qNum f) fun _ => x).advance) s

/-- The word of R263. -/
def Queue.depth (x : Queue) : Word :=
  BitVec.ofNat 16 x.alw ++ BitVec.ofNat 6 x.head ++ BitVec.ofNat 7 x.count ++ BitVec.ofNat 7 x.slots ++ BitVec.ofBool x.refill
    ++ BitVec.ofBool x.init ++ BitVec.ofNat 5 (Nat.min x.senders.length 31) ++ BitVec.ofNat 5 (Nat.min x.receivers.length 31)
    ++ 0#1 ++ x.base
/-- QDEPTH (R269). -/
def execQdepth (f : Fields) (s : State) : Res :=
  issue .c false (dab f) f (withQTeam f fun t s => .done (s.putD f (s.queue t (qNum f)).depth).advance) s

/-! ## Team barriers (R270-R276) -/

/-- Barrier b of a team. -/
def Team.bar (t : Team) (b : Nat) : Bar := t.bars.getD b {}
def Team.setBar (t : Team) (b : Nat) (x : Bar) : Team := { t with bars := t.bars.set b x }
def State.bar (s : State) (gang team b : Nat) : Bar := (s.team gang team).bar b
def State.modBar (s : State) (gang team b : Nat) (h : Bar → Bar) : State := s.modTeam gang team fun t => t.setBar b (h (t.bar b))

/-- An arrival (R271). -/
def Bar.arrive (b : Bar) : Bar :=
  if b.pend - 1 = 0 then
    { b with fhist := b.fhist <<< 1 ||| (if b.flt then 1 else 0), sflt := b.sflt || b.flt, flt := false, ph := b.ph + 1, pend := b.members }
  else { b with pend := b.pend - 1 }
/-- Phase p is complete (R270). -/
def Bar.complete (b : Bar) (p : BitVec 32) : Bool := 1 ≤ (b.ph - p).toNat && (b.ph - p).toNat ≤ 2 ^ 31
/-- The fault a complete phase reports (R275). -/
def Bar.fault (b : Bar) (p : BitVec 32) : Bool :=
  let d := (b.ph - 1 - p).toNat
  if d < 8 then b.fhist.getLsbD d else b.sflt

/-- Barrier number. -/
def bNum (f : Fields) : Nat := f.modN % 16
def State.myBar (s : State) (f : Fields) : Bar := s.bar s.g.gang s.g.team (bNum f)
def State.modMyBar (s : State) (f : Fields) (h : Bar → Bar) : State := s.modBar s.g.gang s.g.team (bNum f) h

/-- BEXP (R273). -/
def execBexp (f : Fields) (s : State) : Res :=
  issue .c false (dab f) f (fun s =>
    let n := (s.va f).toNat
    let b := s.myBar f
    if bit f.modN 4 then
      (if 0xFFFFF < n then .trap (numTrap cBAROVF (bNum f)) s
       else .done (s.modMyBar f fun b =>
         { b with members := BitVec.ofNat 20 n, pend := BitVec.ofNat 20 n, flt := false, sflt := false }).advance)
    else if b.members = 0 then .trap (numTrap cBARINIT (bNum f)) s
    else if 0xFFFFF < b.pend.toNat + n then .trap (numTrap cBAROVF (bNum f)) s
    else .done (s.modMyBar f fun b => { b with pend := b.pend + BitVec.ofNat 20 n }).advance) s
/-- BARV (R274). -/
def execBarv (f : Fields) (s : State) : Res :=
  issue .c false (dab f) f (fun s => s.releasing fun s =>
    let b := s.myBar f
    if b.members = 0 then .trap (numTrap cBARINIT (bNum f)) s
    else .done ((s.modMyBar f Bar.arrive).putD f (b.ph.setWidth 64)).advance) s
/-- BWAIT (R275). -/
def execBwait (f : Fields) (s : State) : Res :=
  issue .c false (dab f) f (fun s =>
    let p := (s.va f).setWidth 32
    let b := s.myBar f
    if b.complete p then .done (s.putD f (if b.fault p then 1 else 0)).acquireG.advance
    else .wait (s.block .bwait (bNum f) (p.setWidth 64) s.now)) s
/-- The word of R276. -/
def Bar.test (b : Bar) (p : BitVec 32) : Word :=
  b.ph ++ b.pend ++ b.fhist ++ BitVec.ofBool b.sflt ++ BitVec.ofBool b.flt ++ BitVec.ofBool (b.complete p) ++ BitVec.ofBool (b.members ≠ 0)
/-- BTEST (R276). -/
def execBtest (f : Fields) (s : State) : Res :=
  issue .c false (dab f) f (fun s =>
    let p := (s.va f).setWidth 32
    let b := s.myBar f
    .done ((s.putD f (b.test p)).acqIf (b.complete p)).advance) s

/-! ## Network barriers (R277-R280) -/

/-- The bit of a rank. -/
def rankBit (r : Nat) : BitVec 128 := 1#128 <<< r
/-- A generation that is full completes; held arrivals are then made, oldest first (R277). Answers the groups that
proceed with the generation they arrive in. -/
def NetBar.settle : Nat → NetBar → List (Nat × Word) → List (Nat × Word) × NetBar
  | 0, b, ws => (ws, b)
  | n + 1, b, ws =>
    if b.arr = b.memb && b.memb ≠ 0 then
      let gen := b.gen + 1
      let arr := b.held.foldl (fun a h => a ||| rankBit h.1) 0
      NetBar.settle n { b with gen := gen, memb := b.next, arr := arr, held := [] } (ws ++ b.held.map fun h => (h.2, gen.setWidth 64))
    else (ws, b)
/-- Generation g is complete (R277). -/
def NetBar.complete (b : NetBar) (g : BitVec 32) : Bool := 1 ≤ (b.gen - g).toNat && (b.gen - g).toNat ≤ 2 ^ 31

/-- Network barrier number, and the barrier of the issuing gang. -/
def nNum (f : Fields) : Nat := f.modN % 16
def State.net (s : State) (f : Fields) : NetBar := ((s.gang? s.g.gang).map fun g => g.nets.getD (nNum f) {}).getD {}
def State.setNet (s : State) (f : Fields) (b : NetBar) : State := s.modGang s.g.gang fun g => { g with nets := g.nets.set (nNum f) b }
/-- Stores a barrier after settling it; the groups that proceed are woken. -/
def State.settleNet (s : State) (f : Fields) (b : NetBar) : State :=
  let (ws, b) := NetBar.settle 4 b []
  ws.foldl (fun s w => s.wake w.1 w.2) (s.setNet f b)

/-- NARR (R279). -/
def execNarr (f : Fields) (s : State) : Res :=
  issue .c false (dab f) f (fun s =>
    match s.g.wait with
    | .ready v => .done (s.putD f v).advance
    | .held 1 _ => .wait s
    | _ => s.releasing fun s =>
      let b := s.net f
      let r := rankBit s.g.rank
      let inM := b.memb &&& r ≠ 0
      let inA := b.arr &&& r ≠ 0
      let inN := b.next &&& r ≠ 0
      if inM && !inA then
        .done ((s.settleNet f { b with arr := b.arr ||| r }).putD f (b.gen.setWidth 64)).advance
      else if inN then
        let s := s.setNet f { b with held := b.held ++ [(s.g.rank, s.g.uid)] }
        .wait (s.setG { s.g with wait := .held 1 s.now })
      else .trap (numTrap cNBMEMB (nNum f)) s) s
/-- NWAIT (R279). -/
def execNwait (f : Fields) (s : State) : Res :=
  issue .c false (dab f) f (fun s =>
    let g := (s.va f).setWidth 32
    if (s.net f).complete g then .done s.acquireG.advance
    else .wait (s.block .nwait (nNum f) (g.setWidth 64) s.now)) s
/-- NJOIN (R280). -/
def execNjoin (f : Fields) (s : State) : Res :=
  issue .c false (dab f) f (fun s =>
    let b := s.net f
    let r := rankBit s.g.rank
    .done (s.settleNet f { b with next := b.next ||| r, memb := if b.memb = 0 then r else b.memb }).advance) s
/-- NLEAVE (R280). -/
def execNleave (f : Fields) (s : State) : Res :=
  issue .c false (dab f) f (fun s =>
    let b := s.net f
    let r := rankBit s.g.rank
    let arr := if b.memb &&& r ≠ 0 && b.arr &&& r = 0 then b.arr ||| r else b.arr
    .done (s.settleNet f { b with next := b.next &&& ~~~r, arr := arr }).advance) s

end Sys2Proof.Machine
end

