-- ==== Sys2Proof/Machine/MemCtl.lean ====
section
/-! DEFINITION. Leases, queue locks, ordering instructions, asynchronous copies, event queues, cache control: opcodes 0x53
to 0x57 and the events that complete them (spec/13 R211-R227, spec/12 R181, R193, spec/29 R403). -/

namespace Sys2Proof.Machine

/-! ## Leases (R212, R213) -/

/-- LMAX of a die (R214). -/
def State.lmax (s : State) (die : Nat) : Nat := s.mrN (offLSCFG die) % 2 ^ 13
/-- Leases of a core in force. -/
def State.leasesNow (s : State) (die core : Nat) : List Lease := (s.core die core).leases.filter fun l => decide (s.now < l.until_)
/-- The core leases the line. -/
def State.leasesLine (s : State) (die core line : Nat) : Bool := (s.leasesNow die core).any fun l => decide (l.line = line)
/-- A request can be granted now: the core leases the line already, or no other core does, no earlier request stands at the home slice
(FIFO, R212) and no snoop is held there (R405). -/
def State.canLease (s : State) (die core line num : Nat) : Bool :=
  s.leasesLine die core line || (!s.leasedByOther die core line && !s.queuedBefore line num && !s.snoopHeld line)
/-- The core may lease one line more (R212). -/
def State.leaseRoom (s : State) (die core line : Nat) : Bool := s.leasesLine die core line || (s.leasesNow die core).length < 8
/-- The grant: the line stands in the caches, the core owns every word of it, and the count starts (R212). -/
def State.grantLease (s : State) (die core uid line n : Nat) : State :=
  let s := (s.reveal.noteLine (128 * line) { evp := 3 }).ownLine die core (128 * line)
  let owners := ((s.leasesNow die core).find? fun l => decide (l.line = line)).map (·.owners) |>.getD []
  s.modCore die core fun c => { c with
    leases := (c.leases.filter fun l => decide (l.line ≠ line)) ++
      [{ line := line, until_ := s.now + n, owners := if owners.contains uid then owners else owners ++ [uid] }]
    leaseReq := c.leaseReq.filter fun r => decide (r.2.1 ≠ uid) }
/-- The queued request of a group. -/
def State.requestOf (s : State) (g : Group) : Option (Nat × Nat × Nat × Nat) :=
  (s.core g.die g.core).leaseReq.find? fun r => decide (r.2.1 = g.uid)

/-- LEASE (R212): release, wait held for the grant, acquire. -/
def execLease (f : Fields) (s : State) : Res :=
  issue .c false (dab f) f (fun s =>
    match s.g.wait, s.requestOf s.g with
    | .ready _, _ => .done s.acquireG.advance
    | .held 1 _, some (num, _, line, n) =>
      if s.leaseRoom s.g.die s.g.core line && s.canLease s.g.die s.g.core line num then
        .done (s.grantLease s.g.die s.g.core s.g.uid line n).acquireG.advance
      else .wait s
    | _, _ => s.releasing fun s =>
      match s.checkElem .rw clsNormal 1 0 (s.va f).toNat with
      | .error r => .trap r s
      | .ok x =>
        let line := lineOf (memKey s.g.die x.ofs)
        let b := (s.vb f).toNat
        let n := if b = 0 then 1 else Nat.min b (s.lmax s.g.die)
        let (num, s) := (s.fillLane ⟨0, (s.va f).toNat, x⟩).leaveLines.take
        if !s.leaseRoom s.g.die s.g.core line then .wait s.hold
        else if s.canLease s.g.die s.g.core line num then
          .done (s.grantLease s.g.die s.g.core s.g.uid line n).acquireG.advance
        else
          let s := s.modCore s.g.die s.g.core fun c => { c with leaseReq := c.leaseReq ++ [(num, s.g.uid, line, n)] }
          .wait (s.setG { s.g with wait := .held 1 s.now })) s

/-- Leases of a core on lines that a test names end (R213); what is granted there next follows them (R230). -/
def State.endLeases (s : State) (die core : Nat) (p : Lease → Bool) : State :=
  match (s.core die core).leases.filter p with
  | [] => s
  | ls =>
    let s := s.modCore die core fun c => { c with leases := c.leases.filter fun l => !p l }
    { s with cache := { s.cache with leaseEnds := ls.foldl (fun t l => kset t l.line (64 * die + core)) s.cache.leaseEnds } }
/-- UNLEASE: release, then the lease of the line ends; an address that names no leased line has no other effect (R213). -/
def execUnlease (f : Fields) (s : State) : Res :=
  issue .c false (dab f) f (fun s => s.releasing fun s =>
    match s.checkElem .any clsNormal 1 0 (s.va f).toNat with
    | .error _ => .done s.advance
    | .ok x =>
      let line := lineOf (memKey s.g.die x.ofs)
      .done ((s.fillLane ⟨0, (s.va f).toNat, x⟩).endLeases s.g.die s.g.core fun l => decide (l.line = line)).advance) s

/-- LEASE_GRANT: the home slice grants the first queued request of a core for a line (R212). -/
def execLeaseGrant (die core line : Nat) (s : State) : Res :=
  match (s.core die core).leaseReq.find? fun r => decide (r.2.2.1 = line) && decide (r.2.2.2 ≠ 0) with
  | some (num, uid, _, n) =>
    if s.leaseRoom die core line && s.canLease die core line num then .next ((s.grantLease die core uid line n).wake uid 0) else .next s
  | none => .next s

/-- LEASE_EXPIRY: a lease whose cycles have passed ends; it is not a release (R213). -/
def execLeaseExpiry (die core line : Nat) (s : State) : Res :=
  .next (s.endLeases die core fun l => l.line = line && decide (l.until_ ≤ s.now))

/-! ## Queue locks (R215) -/

/-- The lock an address names: its home place; none for a refusal at the home die, which is recorded. What a dead die's group sends gets to no
lock: some place of the other die stands for it (R406). -/
def State.lockKey (s : State) (va : Int) : Except FRec (Option Nat × State) :=
  match s.checkElem .r 1 8 0 va with
  | .error r => .error r
  | .ok x =>
    let s := s.fillLane ⟨0, va, x⟩
    if x.tgt = 0 then .ok (some (memKey s.g.die x.ofs), s)
    else if s.outOfDead ⟨0, va, x⟩ then .ok (some (memKey (s.exporterOf s.g.die x.handle) 0), s)
    else
      match s.peerHome s.g.die x.handle x.ofs .r s.gSecure with
      | .ok (some k) => .ok (some k, s)
      | .ok none => .ok (none, s.refuseG ⟨0, va, x⟩ { cause := cRPERM, detail := cDEADDIE, info := BitVec.ofNat 32 x.handle })
      | .error r => .ok (none, s.refuseG ⟨0, va, x⟩ r)

/-- A lock of its home die's unit. -/
def State.lock? (s : State) (k : Nat) : Option Lock := kget (s.die (dieOfKey k)).locks k
/-- The L2 slice that holds a place: the high bits of its set's index (R11; log entry 9). -/
def sliceOf (k : Nat) : Nat := (Config.l2Index (lineOf k / 4)).toNat / 1024
def State.modLocks (s : State) (k : Nat) (h : Table Lock → Table Lock) : State :=
  s.modDie (dieOfKey k) fun d => { d with locks := h d.locks }
/-- The unit of the lock's slice has no free entry (R215). -/
def State.unitFull (s : State) (k : Nat) : Bool :=
  let locks := (s.die (dieOfKey k)).locks
  decide (64 ≤ locks.length) && decide (64 ≤ (locks.filter fun l => sliceOf l.1 = sliceOf k).length)

/-- A lock of another die is reached over the links; a dead die's request is given up and never answered (R405, R406). -/
def State.atLock (s : State) (k : Nat) (h : State → Out) : Out :=
  if (s.die s.g.die).dead && decide (dieOfKey k ≠ s.g.die) then .wait s.hold else h (s.cross s.g.die (dieOfKey k))

/-- QLOCK's request at the unit: granted, or blocked in its queue; a request that finds no free entry waits outside. -/
def lockRequest (k : Nat) (s : State) : Out :=
  match s.lock? k with
  | none =>
    if s.unitFull k then .wait (s.block .qlock 0 (BitVec.ofNat 64 k) s.now)
    else .done (s.modLocks k fun t => kset t k { holder := s.g.uid, waiters := [] }).acquireG.advance
  | some l =>
    let s := s.modLocks k fun t => kset t k { l with waiters := l.waiters ++ [s.g.uid] }
    .wait (s.block .qlock 0 (BitVec.ofNat 64 k) s.now)

/-- QLOCK (R215): the hand-over that a blocked QLOCK is given completes it. -/
def execQlock (f : Fields) (s : State) : Res :=
  issue .c false (dab f) f (fun s =>
    match s.g.wait with
    | .ready _ => .done s.acquireG.advance
    | .blocked .qlock _ a _ =>
      (match s.lock? a.toNat with
       | some l =>
         if l.waiters.contains s.g.uid then .wait s
         else if l.holder = s.g.uid then .done s.acquireG.advance
         else lockRequest a.toNat s
       | none => lockRequest a.toNat s)
    | _ => s.releasing fun s =>
      match s.lockKey (s.va f).toNat with
      | .error r => .trap r s
      | .ok (none, s) => .done s.advance
      | .ok (some k, s) => s.atLock k (lockRequest k)) s

/-- QUNLOCK (R215): LOCKOWN unless the group holds the lock. -/
def execQunlock (f : Fields) (s : State) : Res :=
  issue .c false (dab f) f (fun s => s.releasing fun s =>
    match s.lockKey (s.va f).toNat with
    | .error r => .trap r s
    | .ok (none, s) => .done s.advance
    | .ok (some k, s) => s.atLock k fun s =>
      match s.lock? k with
      | some l =>
        if l.holder = s.g.uid then .done (s.handLock k).advance
        else .trap (fltAt cLOCKOWN 0 (s.va f).toNat) s
      | none => .trap (fltAt cLOCKOWN 0 (s.va f).toNat) s) s

/-! ## Ordering instructions (R216) -/

/-- ACQ. -/
def execAcq (f : Fields) (s : State) : Res := issue .c false (dab f) f (fun s => .done s.acquireG.advance) s
/-- REL. -/
def execRel (f : Fields) (s : State) : Res := issue .c false (dab f) f (fun s => s.releasing fun s => .done s.advance) s
/-- FENCE: held until the group's peer stores are acknowledged, then an ordering point, a release and an acquire. -/
def execFence (f : Fields) (s : State) : Res :=
  issue .c false (dab f) f (fun s =>
    if s.storesOut s.g.uid then .wait s.hold
    else s.ordering fun s => s.releasing fun s => .done s.acquireG.advance) s

/-! ## Asynchronous copies (R217-R222) -/

/-- The team of a gang at a position of a core's cluster. -/
def State.teamPos (s : State) (gang die core pos : Nat) : Option Nat :=
  ((s.teamsOf gang).find? fun e => decide (e.2.die = die) && decide (e.2.core / 4 = core / 4) && decide (e.2.core % 4 = pos)).map (·.1)

/-- A segment lies in the line of another, as its translation names it. -/
def Seg.inLine (g : Option (Nat × Nat × Nat)) (h : Seg) : Bool :=
  match g, h.xl with
  | some x, some y => decide (x.1 = y.1) && decide (x.2.1 / 128 = y.2.1 / 128) && decide (x.2.2 = y.2.2)
  | _, _ => false
/-- What a copy takes of its first segment at once, with the rest: the bytes up to the end of the line, or, where segments are translated, all
that lie in one line (R220, R222). -/
def lineParts : List Seg → List Seg × List Seg
  | [] => ([], [])
  | g :: gs =>
    let n := Nat.min g.len (128 - g.va % 128)
    if n < g.len then ([{ g with len := n }], { g with va := g.va + n, so := g.so + n, len := g.len - n } :: gs)
    else (g :: gs.takeWhile (Seg.inLine g.xl), gs.dropWhile (Seg.inLine g.xl))

/-- A part's place: home key for local and peer memory, host address otherwise; the fault that ends the copy, with the
exporter's record for a refusal (R222). -/
inductive Place where
  | home (k : Nat)
  | host (a : Nat)
  | fault (cause : BitVec 8)
  | refused (handle : Nat) (r : FRec)
  deriving DecidableEq, Repr

/-- Where a translated part lies, after the checks made when it is performed (R193, R403, R406, R451); a part whose line has been checked
already stands under 3 with its place, or under 5 with its host address, and one whose handle has been revoked under 4 (R222, R423). -/
def State.placeOf (s : State) (dev : Nat) (secure out : Bool) (n : Nat) (x : Nat × Nat × Nat) : Place :=
  if x.1 = 3 then .home x.2.1
  else if x.1 = 0 then (if !out && s.anyBad (memKey dev x.2.1) n then .fault cPOISON else .home (memKey dev x.2.1))
  else if x.1 = 1 then (if !out && !s.linkUp then .fault cLINKDN else .host x.2.1)
  else if x.1 = 5 then .host x.2.1
  else if x.1 = 4 then .refused x.2.2 { cause := cRPERM, detail := cHINV, info := BitVec.ofNat 32 x.2.2 }
  else
    match s.peerHome dev x.2.2 x.2.1 (if out then .w else .r) secure with
    | .ok (some k) => if !out && s.anyBad k n then .fault cPOISON else .home k
    | .ok none => .fault cPOISON
    | .error r => .refused x.2.2 r

/-- Where a part lies. -/
def State.partPlace (s : State) (c : Copy) (dev : Nat) (secure : Bool) (p : Seg) : Place :=
  match p.xl with
  | some x => s.placeOf dev secure c.out p.len x
  | none =>
    match s.translate dev none secure (if c.out then .w else .r) c.cls.toNat p.va with
    | .ok x => s.placeOf dev secure c.out p.len (x.tgt, x.ofs, x.handle)
    | .error r => .fault r.cause

/-- The TLBs that a part fills: an ACPY's own translations were made at its issue (R181, R219). -/
def State.partFill (s : State) (c : Copy) (dev : Nat) (secure : Bool) (p : Seg) : State :=
  match p.xl with
  | some (2, ofs, handle) => s.fillHome dev handle ofs secure
  | some _ => s
  | none =>
    match s.translate dev none secure (if c.out then .w else .r) c.cls.toNat p.va with
    | .ok x => s.fillXl dev none secure p.va x
    | .error _ => s

/-- Reads bytes at a place as an agent of a device does: the home copy, or host memory behind its own posted writes (R236, R261).
uid: the group whose operation it is, 0 for none. -/
def State.agentRead (s : State) (dev uid launch : Nat) (p : Place) (n : Nat) (h : Hint) : List Byte × State :=
  match p with
  | .home k => ((List.range n).map fun i => s.readByte (k + i), (s.touchPeer dev launch (dieOfKey k)).noteFrom dev k h)
  | .host a => let s := (s.flushOwn uid).touchLink launch 8; ((List.range n).map fun i => s.readByte (hostKey a + i), s)
  | _ => (List.replicate n 0, s)
/-- Writes bytes at a place as an agent does. -/
def State.agentWrite (s : State) (dev job uid launch : Nat) (p : Place) (bs : List Byte) (h : Hint) : State :=
  match p with
  | .home k => ((s.opWrite k bs).touchPeer dev launch (dieOfKey k)).noteLine k h
  | .host a => s.postHost { dev := dev, job := job, addr := a, bytes := bs, launch := launch, owner := uid }
  | _ => s
/-- An agent's accesses wait: a line it writes is taken (R212, R213, R405), one it reads is held (R405), or its die is dead and what it sends
out is given up (R406). -/
def State.placeHeld (s : State) (dev : Nat) (out : Bool) (n : Nat) (p : Place) : Bool :=
  match p with
  | .home k => (linesOf k n).any (fun l => if out then s.lineTaken l else s.readHeld dev l) || ((s.die dev).dead && decide (dieOfKey k ≠ dev))
  | .host _ => (s.die dev).dead
  | _ => false

/-- Replaces a core's copy. -/
def State.modCopy (s : State) (die core id : Nat) (h : Copy → Copy) : State :=
  s.modCore die core fun c => { c with copies := c.copies.map fun x => if x.id = id then h x else x }

/-- A completion object of a copy or of an asynchronous matrix transfer: barrier arrival or event record (R221, R223). -/
def State.complete (s : State) (owner : Nat) (ck : BitVec 2) (bar : Nat) (tag : BitVec 8) (deliv : Nat) (flt : Bool) : State :=
  match s.group? owner with
  | none => s
  | some g =>
    if ck = 1 then
      s.modBar g.gang g.team bar fun b =>
        if b.members = 0 then b else ({ b with flt := b.flt || flt } : Bar).arrive
    else if ck = 2 then
      let r : Word := 1#1 ++ 0#15 ++ BitVec.ofNat 32 deliv ++ 0#7 ++ BitVec.ofBool flt ++ tag
      s.modGroup owner fun g => { g with evq := g.evq ++ [r] }
    else s

/-- The copy leaves the core and its completion object is signalled (R221). -/
def State.endCopy (s : State) (die core : Nat) (c : Copy) (flt : Bool) : State :=
  (s.modCore die core fun x => { x with copies := x.copies.filter fun y => decide (y.id ≠ c.id) }).complete c.owner c.ck c.bar c.tag c.deliv flt

/-- An asynchronous operation of a group met a fault: CPYFLT with the underlying cause and TAG, the launch fails (R222). -/
def State.logCopyFault (s : State) (owner : Nat) (iaddr : Word) (cause : BitVec 8) (tag : BitVec 8) (va : Nat) : State :=
  match s.group? owner with
  | none => s
  | some g => s.logFail g.die g.launch
      { g.fill { cause := cCPYFLT, detail := cause, info := tag.setWidth 32, addr := BitVec.ofNat 64 va } with iaddr := iaddr }

/-- How a copy asks for a part's line to be kept (R185, R190, R217). -/
def Copy.hint (c : Copy) (p : Seg) : Hint := { evp := c.evp, stream := c.cls.toNat = clsStream, cmp := p.cmp }
/-- A part that is translated now knows its page (R190). -/
def State.partPage (s : State) (c : Copy) (dev : Nat) (secure : Bool) (p : Seg) : Seg :=
  match p.xl with
  | some _ => p
  | none =>
    match s.translate dev none secure (if c.out then .w else .r) c.cls.toNat p.va with
    | .ok x => { p with cmp := x.tgt = 0 && bit x.leaf 10 }
    | .error _ => p
/-- The windows a copy writes. -/
def State.copyTargets (s : State) (g : Group) (die core : Nat) (c : Copy) : List Nat :=
  if c.mcast = 0 then [g.team] else (mcastPos c.mcast.toNat).filterMap fun q => s.teamPos g.gang die core q
/-- One part of a copy is carried. -/
def State.carry (s : State) (g : Group) (die core : Nat) (c : Copy) (p : Seg × Place) : State :=
  if c.out then s.agentWrite g.die g.job g.uid g.launch p.2 (bytesAt (s.team g.gang g.team).spad p.1.so p.1.len) (c.hint p.1)
  else
    let (bs, s) := s.agentRead g.die g.uid g.launch p.2 p.1.len (c.hint p.1)
    (s.copyTargets g die core c).foldl (fun s t => s.spadWrite g.gang t p.1.so bs) s
/-- The bytes of checked parts, one by one, at the places found: the line is then brought to its end, whatever happens to it (R220, R222). -/
def byteParts (ps : List (Seg × Place)) : List (Seg × Place) :=
  ps.flatMap fun p => (List.range p.1.len).map fun i =>
    let q : Place := match p.2 with | .home k => .home (k + i) | .host a => .host (a + i) | x => x
    let xl : Option (Nat × Nat × Nat) := match q with | .home k => some (3, k, 0) | .host a => some (5, a, 0) | _ => none
    ({ p.1 with va := p.1.va + i, so := p.1.so + i, len := 1, xl := xl }, q)
/-- The next line of a copy is carried, or the copy ends at its fault; it waits while the home slice queues it behind a
lease (R212, R220, R222). Of the line, the bytes a mask names are carried now and the rest later, where a mask is given. -/
def State.copyPart (s : State) (die core id : Nat) (mask : Option Nat) : State :=
  match (s.core die core).copies.find? fun c => decide (c.id = id) with
  | none => s
  | some c =>
    match s.group? c.owner with
    | none => s
    | some g =>
      let (parts, rest) := lineParts c.segs
      let parts := parts.map (s.partPage c g.die (s.secure g.die))
      let places := parts.map fun p => (p, s.partPlace c g.die (s.secure g.die) p)
      match places.find? fun p => match p.2 with | .fault _ | .refused .. => true | _ => false with
      | some (p, .fault cause) => (s.logCopyFault c.owner c.iaddr cause c.tag p.va).endCopy die core c true
      | some (p, .refused h r) =>
        let s := s.log (s.exporterOf g.die h) { g.fill r with addr := BitVec.ofNat 64 p.va, iaddr := c.iaddr, imp := true }
        (s.logCopyFault c.owner c.iaddr cRPERM c.tag p.va).endCopy die core c true
      | _ =>
        if places.any (fun p => s.placeHeld g.die c.out p.1.len p.2)
            || (!c.out && (s.copyTargets g die core c).any fun t => t ≠ g.team && s.spadStopped g.gang t) then s
        else
          let (now, later) := match mask with
            | none => (places, [])
            | some m => (byteParts places).partition fun p => m.testBit (p.1.va % 128)
          let s := parts.foldl (fun s p => s.partFill c g.die (s.secure g.die) p) s
          let n := (now.map fun p => p.1.len).sum * (if c.out then 1 else (s.copyTargets g die core c).length)
          let s := now.foldl (fun s p => s.carry g die core c p) s
          let c := { c with segs := later.map (·.1) ++ rest, deliv := c.deliv + n }
          if c.segs.isEmpty then s.endCopy die core c false else s.modCopy die core id fun _ => c
/-- The next line of a copy, whole. -/
def State.copyLine (s : State) (die core id : Nat) : State := s.copyPart die core id none

/-- Carries every remaining line of a copy. -/
def State.copyRun (s : State) (die core id : Nat) : Nat → State
  | 0 => s
  | n + 1 => (s.copyLine die core id).copyRun die core id n

/-- Lines a list of segments touches, at most. -/
def segLines (gs : List Seg) : Nat := (gs.map fun g => g.len / 128 + 2).sum

/-- COPY_COMPLETE (R221). -/
def execCopyComplete (die core copy : Nat) (s : State) : Res :=
  match (s.core die core).copies.find? fun c => decide (c.id = copy) with
  | some c => .next (s.copyRun die core copy (segLines c.segs + 1))
  | none => .next s

/-- A group's operations that will write an event record: copies, and traversals, which complete as copies do (R223, R380). -/
def State.evqDue (s : State) (g : Group) : Nat :=
  let trav (o : Option Trav) : Nat := match o with | some t => if t.owner = g.uid && t.ck = 2 then 1 else 0 | none => 0
  let t := s.team g.gang g.team
  ((s.core g.die g.core).copies.filter fun x => x.owner = g.uid && x.ck = 2).length + trav t.trav + trav t.rtrav
/-- The event queue has room for one more record (R223). -/
def State.evqRoom (s : State) (ck : Nat) : Bool := ck ≠ 2 || s.g.evq.length + s.evqDue s.g < 16
/-- Room for a new copy: 64 in the core (R220), 16 event records for the group (R223). -/
def State.copyRoom (s : State) (ck : Nat) : Bool := (s.core s.g.die s.g.core).copies.length < 64 && s.evqRoom ck

/-- The last checks and the start of a copy (R219, R220, R223, R271). A barrier that is not initialised is reported after the copy's other
faults; R78, R197 and R219 give no order among them (log entry 23). -/
def startCopy (f : Fields) (mcast : Nat) (segs : List Seg) (s : State) : Out :=
  let ck := f.immN / 16 % 4
  let bar := f.immN % 16
  if ck = 1 && (s.bar s.g.gang s.g.team bar).members = 0 then .trap (numTrap cBARINIT bar) s
  else if !s.copyRoom ck then .wait s.hold
  else
    let (id, s) := s.take
    let c : Copy := {
      id := id, owner := s.g.uid, iaddr := s.g.pc, cls := BitVec.ofNat 3 f.mcls, out := bit f.immN 6,
      evp := f.evp, mcast := BitVec.ofNat 4 mcast, ck := BitVec.ofNat 2 ck, bar := bar, tag := BitVec.ofNat 8 (f.immN / 256), segs := segs }
    let s := s.modCore s.g.die s.g.core fun x => { x with copies := x.copies ++ [c] }
    let s := if f.mcls = clsHuc then s.touchLink s.g.launch 8 else s
    .done (if segs.isEmpty then s.endCopy s.g.die s.g.core c false else s).advance

/-- Memory address of a lane, opval(A) + elem(B, l), and its scratchpad address (R218). -/
def acpyVa (f : Fields) (g : Group) (l : Nat) : Int := (g.opval f.imm f.a).toNat + sgn (g.elem f.imm f.b 64 l) 64
def acpySo (f : Fields) (g : Group) (l : Nat) : Nat := (g.opval f.imm f.d).toNat + l * szBytes f
/-- The checks of a lane of an ACPY: ALIGN of its memory address and of its scratchpad address, R178, SPBOUND (R196, R197, R219; of two
addresses not aligned the memory's is reported, log entry 23). -/
def acpyLane (f : Fields) (s : State) (window : Nat) (l : Nat) : Except FRec LaneAcc :=
  let e := szBytes f
  let va := acpyVa f s.g l
  let so := acpySo f s.g l
  if va % (e : Int) = 0 && so % e ≠ 0 then .error { fltAt cALIGN 0 so with lane := BitVec.ofNat 6 l }
  else
    match s.checkElem (if bit f.immN 6 then .w else .r) f.mcls e l va with
    | .error r => .error r
    | .ok x => if spadIn window so e then .ok ⟨l, va, x⟩ else .error { fltAt cSPBOUND 0 so with lane := BitVec.ofNat 6 l }
/-- Those of every lane; the first fault is the lowest lane's (R197). -/
def acpyCheck (f : Fields) (s : State) (window : Nat) : List Nat → Except FRec (List LaneAcc)
  | [] => .ok []
  | l :: ls =>
    match acpyLane f s window l with
    | .error r => .error r
    | .ok a => (match acpyCheck f s window ls with | .error r => .error r | .ok as => .ok (a :: as))
/-- What a checked lane copies. -/
def acpySeg (f : Fields) (g : Group) (a : LaneAcc) : Seg :=
  { va := a.va.toNat, so := acpySo f g a.lane, len := szBytes f, xl := some (a.x.tgt, a.x.ofs, a.x.handle), cmp := a.x.tgt = 0 && bit a.x.leaf 10 }
/-- The lanes in the order in which they are carried: line by line of memory, by the lowest address that names each, and by lane within one, so
that of two lanes that name a byte the highest comes last, under whatever addresses (R220, R222). -/
def State.acpyOrder (s : State) (xs : List LaneAcc) : List LaneAcc :=
  let first (a : LaneAcc) : Int := ((xs.filter fun b => s.atomLine b = s.atomLine a).map fun b => b.va / 128).foldl (fun m v => if v < m then v else m) (a.va / 128)
  sortBy (fun a b => decide (first a ≤ first b)) xs

/-- ACPY (R218, R219). Lines go in ascending order. -/
def execAcpy (f : Fields) (s : State) : Res :=
  issue .m false (srcD (vrefs f 8 8 64)) f (fun s =>
    match acpyCheck f s s.myTeam.window (laneSet f s.g) with
    | .error r => .trap r s
    | .ok xs =>
      startCopy f 0 ((s.acpyOrder xs).map (acpySeg f s.g)) (xs.foldl (fun s a => s.fillTlb s.g.die s.g.core a.va.toNat a.x.leaf) s)) s

/-- ACPYB (R218, R219). Whatever is not aligned, ALIGN reports opval(A); SPBOUND reports opval(D) (log entry 23). -/
def execAcpyb (f : Fields) (s : State) : Res :=
  issue .c false (srcD (dab f)) f (fun s =>
    let a := (s.va f).toNat
    let b := (s.vb f).toNat
    let d := (s.vd f).toNat
    let e := szBytes f
    let rb := b % 2 ^ 16 + 1
    let nr := b / 2 ^ 16 % 2 ^ 12 + 1
    let stride := b / 2 ^ 32
    let mc := f.immN / 2 ^ 16 % 16
    if a % e ≠ 0 || rb % e ≠ 0 || stride % e ≠ 0 || d % e ≠ 0 then .trap (fltAt cALIGN 0 a) s
    else if !((s.mcastTeams mc).all fun t => spadIn t.2 d (nr * rb)) then .trap (fltAt cSPBOUND 0 d) s
    else startCopy f mc ((List.range nr).map fun i => { va := a + i * stride, so := d + i * rb, len := rb }) s) s

/-! ## Event queues (R224) -/

/-- The oldest record is taken, and the copy joined. -/
def takeEvent (f : Fields) (r : Word) (rs : List Word) (s : State) : State :=
  ((s.setG { s.g with evq := rs }).putD f r).acquireG.advance
/-- EVWAIT. -/
def execEvwait (f : Fields) (s : State) : Res :=
  issue .c false (dab f) f (fun s =>
    match s.g.evq with
    | r :: rs => .done (takeEvent f r rs s)
    | [] => .wait (s.block .evwait 0 0 s.now)) s
/-- EVPOLL. -/
def execEvpoll (f : Fields) (s : State) : Res :=
  issue .c false (dab f) f (fun s =>
    match s.g.evq with
    | r :: rs => .done (takeEvent f r rs s)
    | [] => .done (s.putD f 0).advance) s

/-! ## Prefetch, retention, maintenance (R225, R226) -/

/-- Virtual addresses of the lines that have a byte in [a, a + n): the first byte of each within the range. -/
def lineAddrs (a n : Nat) : List Nat :=
  if n = 0 then [] else (List.range ((a + n - 1) / 128 + 1 - a / 128)).map fun i => if i = 0 then a else 128 * (a / 128 + i)
/-- The home place of a line that passes the checks, with its translation; pages that fail one, and host pages, give none (R226), and so
does what a dead die's group would send out (R406). cls: the class for a target. -/
def State.lineXl (s : State) (need : Need) (cls : Nat → Nat) (va : Int) : Option (Nat × Xl) :=
  match s.translateBy s.g.die (some s.g.core) s.gSecure need cls va with
  | .ok x =>
    if x.tgt = 0 then some (memKey s.g.die x.ofs, x)
    else if x.tgt = 1 || s.outOfDead ⟨0, va, x⟩ then none
    else (match s.peerHome s.g.die x.handle x.ofs need s.gSecure with | .ok k => k.map fun k => (k, x) | .error _ => none)
  | .error _ => none
def State.linePlace (s : State) (need : Need) (cls : Nat → Nat) (va : Int) : Option Nat := (s.lineXl need cls va).map (·.1)
/-- What reaching such a line leaves: TLBs filled, and the link crossed where the line is fetched (R181, R405). -/
def State.reachLine (s : State) (va : Int) (e : Nat × Xl) (fetches : Bool) : State :=
  let s := s.fillLane ⟨0, va, e.2⟩
  if fetches then s.touchPeer s.g.die s.g.launch (dieOfKey e.1) else s

/-- PREF: the lines come into the named level and those below it; into the stacked cache also those of the streaming class, at EVP (R226; log
entry 58). -/
def execPref (f : Fields) (s : State) : Res :=
  issue .m false (vrefs f 8 8 64) f (fun s =>
    let addrs : List Int := if f.b = .zero then [baseAddr f s.g] else (laneSet f s.g).map (gatherAddr f s.g)
    let h (e : Nat × Xl) : Hint := { evp := f.evp, stream := f.mcls = clsStream, cmp := bit e.2.leaf 10 }
    .done (addrs.foldl (fun s a =>
      match s.lineXl .r (fun _ => f.mcls) a with
      | some e =>
        let k := e.1
        let s := s.reachLine a e true
        if f.sz = 2 then s.noteStacked k (h e)
        else
          let s := s.noteFrom s.g.die k (h e)
          if f.sz = 0 && dieOfKey k = s.g.die then (s.l1Fill s.g.die s.g.core (lineOf k)).l1Note s.g.die s.g.core k (h e) else s
      | none => s) s).advance) s
/-- The lines of [opval(A), opval(A) + opval(B)[31:0]) that are not skipped: an address, its home place and its translation. -/
def State.reached (s : State) (f : Fields) (need : Need) : List (Nat × Nat × Xl) :=
  (lineAddrs (s.va f).toNat ((s.vb f).toNat % 2 ^ 32)).filterMap fun (a : Nat) => (s.lineXl need clsOf (a : Int)).map fun e => (a, e)
/-- A line operation over that range. -/
def overLines (f : Fields) (need : Need) (fetches : Bool) (h : State → Nat × Xl → State) (s : State) : State :=
  (s.reached f need).foldl (fun s e => h (s.reachLine e.1 e.2 fetches) e.2) s
/-- RETAIN. -/
def execRetain (f : Fields) (s : State) : Res :=
  issue .c false (dab f) f (fun s => .done (overLines f .r true (fun s k => s.noteFrom s.g.die k.1 { evp := f.evp, cmp := bit k.2.leaf 10 }) s).advance) s

/-- The core's dirty owned bytes of a line go to the L2; the line stays. -/
def State.cleanLine (s : State) (die core line : Nat) : State :=
  match kget (s.core die core).l1 line with
  | some l =>
    { (s.modCore die core fun c => { c with l1 := kset c.l1 line { l with dirty := 0 } }) with
      mem := writeBack s.mem line l (BitVec.allOnes 32) }
  | none => s
/-- A line leaves a die's L2 and stacked cache: of the die's own memory every owner has written back its bytes, and the sidecar goes;
another die's leaves the directory (R186, R191, R226). -/
def State.evictFrom (s : State) (die line : Nat) : State :=
  let key := cacheKey die line
  let s := if die = dieOfKey (128 * line) then s.revoke line (BitVec.allOnes 32) none
    else { s with cache := { s.cache with dir := dirLeave s.cache.dir die line } }
  let s := { s with cache := { s.cache with l2 := kdel s.cache.l2 key, llc := kdel s.cache.llc key } }
  if die = dieOfKey (128 * line) then { s with side := kdel s.side line } else s
/-- The line leaves the core's L1 too. -/
def State.evictLine (s : State) (die core line : Nat) : State := (s.evictFrom die line).dropLine die core line
/-- A line's retention level falls in both levels of a die (R189, R226). -/
def State.lowerLine (s : State) (die line : Nat) (h : CLine → CLine) : State :=
  let low (t : Table CLine) : Table CLine := t.map fun e => if e.1 = cacheKey die line then (e.1, h e.2) else e
  { s with cache := { s.cache with l2 := low s.cache.l2, llc := low s.cache.llc } }

/-- CACHE CLEAN. Of the checks by which a page is skipped the spec names no right: CACHE asks for none, PREF and RETAIN for R (log entry 66). -/
def execCacheClean (f : Fields) (s : State) : Res :=
  issue .c false (dab f) f (fun s =>
    .done (overLines f .any false (fun s k => s.cleanLine s.g.die s.g.core (lineOf k.1)) s).advance) s
/-- CACHE EVICT; held while the home slice queues it behind a lease (R212). -/
def execCacheEvict (f : Fields) (s : State) : Res :=
  issue .c false (dab f) f (fun s =>
    if (s.reached f .any).any fun e => s.lineBusy (lineOf e.2.1) then .wait s.hold
    else .done (overLines f .any false (fun s k => s.evictLine s.g.die s.g.core (lineOf k.1)) s).advance) s
/-- CACHE DEMOTE. -/
def execCacheDemote (f : Fields) (s : State) : Res :=
  issue .c false (dab f) f (fun s =>
    .done (overLines f .any false (fun s k => s.lowerLine s.g.die (lineOf k.1) fun c => { c with level := 0 }) s).advance) s
/-- CACHE IINV: the lines leave the core's L1 instruction cache (R59). -/
def execCacheIinv (f : Fields) (s : State) : Res :=
  issue .c false (dab f) f (fun s =>
    .done (overLines f .any false (fun s k => s.modCore s.g.die s.g.core fun c =>
      { c with icache := c.icache.filter fun e => decide (lineOf e.1 ≠ lineOf k.1) }) s).advance) s

/-! ## Events of the memory system -/

/-- WALK_COMPLETE: a walk that ends at a leaf fills both TLBs; a faulting walk fills none (R179, R181). -/
def execWalkComplete (die core : Nat) (va : Word) (s : State) : Res :=
  if !validVa va.toNat then .next s
  else
    match s.walk die va.toNat with
    | .error _ => .next s
    | .ok e =>
      let t := tlbEntry die va.toNat e
      let s := (s.walkTouch die va.toNat).modCore die core fun c => { c with tlb := (t :: c.tlb).take 512 }
      .next (s.modDie die fun d => { d with tlb := (t :: d.tlb).take 16384 })

/-- An earlier store of the same group to a common byte is still on its way: stores of a group arrive in order there. -/
def State.storeBehind (s : State) (p : PeerStore) : Bool :=
  s.fab.stores.any fun q => q.id < p.id && q.owner = p.owner && q.dev = p.dev && q.gone.isNone &&
    s.sameBytes p.dev p.secure (q.handle, q.ofs, q.bytes.length) (p.handle, p.ofs, p.bytes.length)
/-- A store leaves the fabric. -/
def State.dropStore (s : State) (id : Nat) : State :=
  { s with fab := { s.fab with stores := s.fab.stores.filter fun p => decide (p.id ≠ id) } }

/-- PEER_STORE_ACK: the home die performs the store and acknowledges it (R191, R203). A store out of a dead die is given up and
never acknowledged (R406). -/
def execPeerStoreAck (store : Nat) (s : State) : Res :=
  match s.fab.stores.find? fun p => decide (p.id = store) with
  | none => .next s
  | some p =>
    match s.storeHome p.dev p.handle p.ofs .w p.secure p.gone with
    | .ok (some k) =>
      if (s.die p.dev).dead || s.storeBehind p || (linesOf k p.bytes.length).any s.lineTaken then .next s
      else
        let s := p.bytes.foldl (fun s b => s.homeWriteByte (k + b.1) b.2) s
        let s := (s.fillHome p.dev p.handle p.ofs p.secure).noteFrom p.dev k { evp := p.hint }
        .next (((s.dirStore p.dev (lineOf k)).dropStore store).cross p.dev (dieOfKey k))
    | _ => .next s

/-- HOME_REFUSAL: the home die refuses the store; it writes nothing and RPERM is recorded (R192, R403). -/
def execHomeRefusal (store : Nat) (s : State) : Res :=
  match s.fab.stores.find? fun p => decide (p.id = store) with
  | none => .next s
  | some p =>
    match s.storeHome p.dev p.handle p.ofs .w p.secure p.gone with
    | .error r =>
      if (s.die p.dev).dead then .next s else
      let r := s.launchRec p.launch { r with
        addr := p.addr, iaddr := p.iaddr, sdie := BitVec.ofNat 4 p.dev, core := BitVec.ofNat 6 p.core, slot := BitVec.ofNat 5 p.slot }
      let home := s.exporterThen p.dev p.handle p.gone
      .next (((s.dropStore store).cross p.dev home).refuse p.owner p.dev p.launch home { r with imp := true })
    | .ok _ => .next s

/-- UNCORRECTABLE_ERROR: the line is marked poisoned (R193). -/
def execUncorrectableError (line : Nat) (s : State) : Res :=
  .next { s with poison := kset s.poison line (BitVec.allOnes 128) }

end Sys2Proof.Machine
end

