-- ==== Sys2Proof/Machine/Scalar.lean ====
section
/-! DEFINITION. Scalar and control instructions: opcodes 0x00 to 0x05 (spec/07 R110-R125, spec/04 R76). -/

namespace Sys2Proof.Machine

/-- The scalar functions of R113. -/
inductive Alu where
  | add | sub | mul | mulh | div | rem | and | or | xor | shl | shr | sra | min | max | popc | clz
  deriving DecidableEq, Repr

/-- Number of one bits of a W-bit pattern. -/
def popCount (p w : Nat) : Nat := ((List.range w).filter fun i => bit p i).length
/-- Zero bits above the highest one bit of a W-bit pattern (R113). -/
def clz (p w : Nat) : Nat := if p = 0 then w else w - 1 - Nat.log2 p

/-- Quotient truncated toward zero; with b = 0 every result bit is one (R113). -/
def aluDiv (t : Nat) (a b : Int) : Int := if b = 0 then (if isSigned t then -1 else maxVal t) else a.tdiv b

/-- r of R112 from the patterns of A and B (W bits each) and the shift count n (R113). A shift by W or more gives what a
shift by W gives: 0, or the clamp of a nonzero value. -/
def aluR (op : Alu) (t pa pb n : Nat) : Int :=
  let w := intWidth t
  let a := intVal t pa
  let b := intVal t pb
  match op with
  | .add => a + b
  | .sub => a - b
  | .mul => a * b
  | .mulh => (a * b) / (2 ^ w : Nat)
  | .div => aluDiv t a b
  | .rem => if b = 0 then a else a.tmod b
  | .and => ((pa % 2 ^ w) &&& (pb % 2 ^ w) : Nat)
  | .or => ((pa % 2 ^ w) ||| (pb % 2 ^ w) : Nat)
  | .xor => ((pa % 2 ^ w) ^^^ (pb % 2 ^ w) : Nat)
  | .shl => a * (2 ^ Nat.min n w : Nat)
  | .shr => (pa % 2 ^ w / 2 ^ Nat.min n w : Nat)
  | .sra => sgn pa w / (2 ^ Nat.min n w : Nat)
  | .min => if a ≤ b then a else b
  | .max => if a ≤ b then b else a
  | .popc => (popCount (pa % 2 ^ w) w : Nat)
  | .clz => (clz (pa % 2 ^ w) w : Nat)

/-- SAT clamps these five only (R112). -/
def Alu.saturates : Alu → Bool
  | .add | .sub | .mul | .div | .shl => true
  | _ => false

/-- The value a scalar arithmetic instruction writes (R112). -/
def scalarValue (op : Alu) (t : Nat) (sat : Bool) (va vb : Word) : Word :=
  let r := aluR op t va.toNat vb.toNat vb.toNat
  extTo t (if sat && op.saturates then clampTo t r else r)

/-- The shared part of opcode 0x01 (R112). -/
def execAlu (op : Alu) (f : Fields) (s : State) : Res :=
  issue .c false (dab f) f (fun s =>
    .done (s.putD f (scalarValue op f.type f.sat (s.va f) (s.vb f))).advance) s

/-- NOP (R76). -/
def execNop (f : Fields) (s : State) : Res := issue .c false (dab f) f (fun s => .done s.advance) s
/-- SADD (R113). -/
def execSadd (f : Fields) (s : State) : Res := execAlu .add f s
/-- SSUB (R113). -/
def execSsub (f : Fields) (s : State) : Res := execAlu .sub f s
/-- SMUL (R113). -/
def execSmul (f : Fields) (s : State) : Res := execAlu .mul f s
/-- SMULH (R113). -/
def execSmulh (f : Fields) (s : State) : Res := execAlu .mulh f s
/-- SDIV (R113). -/
def execSdiv (f : Fields) (s : State) : Res := execAlu .div f s
/-- SREM (R113). -/
def execSrem (f : Fields) (s : State) : Res := execAlu .rem f s
/-- SAND (R113). -/
def execSand (f : Fields) (s : State) : Res := execAlu .and f s
/-- SOR (R113). -/
def execSor (f : Fields) (s : State) : Res := execAlu .or f s
/-- SXOR (R113). -/
def execSxor (f : Fields) (s : State) : Res := execAlu .xor f s
/-- SSHL (R113). -/
def execSshl (f : Fields) (s : State) : Res := execAlu .shl f s
/-- SSHR (R113). -/
def execSshr (f : Fields) (s : State) : Res := execAlu .shr f s
/-- SSRA (R113). -/
def execSsra (f : Fields) (s : State) : Res := execAlu .sra f s
/-- SMIN (R113). -/
def execSmin (f : Fields) (s : State) : Res := execAlu .min f s
/-- SMAX (R113). -/
def execSmax (f : Fields) (s : State) : Res := execAlu .max f s
/-- SPOPC (R113). -/
def execSpopc (f : Fields) (s : State) : Res := execAlu .popc f s
/-- SCLZ (R113). -/
def execSclz (f : Fields) (s : State) : Res := execAlu .clz f s

/-- SMOV: one value between a scalar and the control state (R114). -/
def execSmov (f : Fields) (s : State) : Res :=
  issue .c false (dab f) f (fun s => .done (s.putD f (s.va f)).advance) s
/-- SLI (R115). -/
def execSli (f : Fields) (s : State) : Res :=
  issue .c false (dab f) f (fun s => .done (s.putD f (f.imm.signExtend 64)).advance) s
/-- SLIH: the high half takes IMM, the low half stays (R115). -/
def execSlih (f : Fields) (s : State) : Res :=
  issue .c false (dab f) f (fun s => .done (s.putD f (f.imm ++ (s.vd f).setWidth 32)).advance) s
/-- SCMP (R116). -/
def execScmp (f : Fields) (s : State) : Res :=
  issue .c false (dab f) f (fun s =>
    .done (s.putD f (if ccInt f.cc (intVal f.type (s.va f).toNat) (intVal f.type (s.vb f).toNat) then 1 else 0)).advance) s
/-- SSEL (R117). -/
def execSsel (f : Fields) (s : State) : Res :=
  issue .c false (dab f) f (fun s => .done (s.putD f (if s.vc f ≠ 0 then s.va f else s.vb f)).advance) s

/-! ## Control transfer (R118, R119) -/

/-- A taken transfer: XFER unless the exact target is valid (R72), then the effect. -/
def xferTo (t : Int) (s : State) (k : State → State) : Out :=
  if validTarget t then .done (k s) else .trap { cause := cXFER } s
/-- The program counter takes the target. -/
def State.goto (s : State) (t : Int) : State := s.setG (s.g.jump (BitVec.ofInt 64 t))
/-- The displacement's exact target (R71). -/
def dispTarget (f : Fields) (s : State) : Int := s.g.pc.toNat + 12 * f.simm

/-- BRA (R119). -/
def execBra (f : Fields) (s : State) : Res :=
  issue .c false (dab f) f (fun s => xferTo (dispTarget f s) s fun s => s.goto (dispTarget f s)) s
/-- BRC: taken when A is not zero (R119). -/
def execBrc (f : Fields) (s : State) : Res :=
  issue .c false (dab f) f (fun s =>
    if s.va f ≠ 0 then xferTo (dispTarget f s) s fun s => s.goto (dispTarget f s) else .done s.advance) s
/-- CALL: s63 takes the return address once the target is checked (R119). -/
def callTo (t : Int) (s : State) : Out :=
  xferTo t s fun s => (s.setG (s.g.setSreg 63 (s.g.pc + 12))).goto t
/-- CALL target (R119). -/
def execCall (f : Fields) (s : State) : Res :=
  issue .c false (dab f) f (fun s => callTo (dispTarget f s) s) s
/-- CALL sA (R119). -/
def execCallIndirect (f : Fields) (s : State) : Res :=
  issue .c false (dab f) f (fun s => callTo (s.va f).toNat s) s
/-- RET (R119). -/
def execRet (f : Fields) (s : State) : Res :=
  issue .c false (dab f) f (fun s => xferTo (s.g.sreg 63).toNat s fun s => s.goto (s.g.sreg 63).toNat) s
/-- LOOP: the count falls by one, modulo 2^64; taken while it is not zero (R119). -/
def execLoop (f : Fields) (s : State) : Res :=
  issue .c false (dab f) f (fun s =>
    let k := s.vd f - 1
    if k ≠ 0 then xferTo (dispTarget f s) s fun s => (s.putD f k).goto (dispTarget f s)
    else .done (s.putD f 0).advance) s
/-- JIDX (R119). -/
def execJidx (f : Fields) (s : State) : Res :=
  issue .c false (dab f) f (fun s =>
    let t := dispTarget f s + 12 * (s.va f).toNat
    xferTo t s fun s => s.goto t) s

/-! ## The work identifier, views, index registers (R28-R31, R120-R122) -/

/-- Width and source of field k of a layout word (R27). -/
def fieldWidth (layout : Word) (k : Nat) : Nat := bits layout.toNat (10 * k + 9) (10 * k + 4)
def fieldSource (layout : Word) (k : Nat) : Nat := bits layout.toNat (10 * k + 3) (10 * k)
/-- Value of a source for a lane (R28). -/
def Srcs.value (v : Srcs) (lane src : Nat) : Nat :=
  match src with
  | 1 => lane | 2 => v.group | 3 => v.team | 4 => v.rank | 5 => v.gang | 6 => v.tileX | 7 => v.tileY | 8 => v.tileZ
  | 9 => v.task | 10 => v.launch | _ => 0
/-- Field k of a lane's identifier; 0 when its width is 0 (R30). -/
def Group.idField (g : Group) (lane k : Nat) : Nat :=
  g.srcs.value lane (fieldSource g.layout k) % 2 ^ fieldWidth g.layout k
/-- Fields k, k + 1, … of the identifier from the lowest (R30). -/
def Group.idFrom (g : Group) (lane : Nat) : Nat → Nat → Nat
  | 0, _ => 0
  | n + 1, k => g.idField lane k + 2 ^ fieldWidth g.layout k * g.idFrom lane n (k + 1)
/-- A lane's whole work identifier (R30). -/
def Group.ident (g : Group) (lane : Nat) : Word := BitVec.ofNat 64 (g.idFrom lane 6 0)

/-- ID (R120). -/
def execId (f : Fields) (s : State) : Res :=
  issue .c false (dab f) f (fun s =>
    let sel := f.immN % 8
    let v := if sel = 7 then s.g.layout else if sel = 6 then s.g.ident 0 else BitVec.ofNat 64 (s.g.idField 0 sel)
    .done (s.putD f v).advance) s

/-- A value a view register does not take: a reserved bit is set, or a BASE above 24,575 (R103, R121). -/
def viewBad (o : Opnd) (v : Word) : Bool :=
  if o = .tsh then v.toNat % 256 ≠ 0 || v.toNat / 2 ^ 24 ≠ 0
  else v.toNat % 16 ≠ 0 || v.toNat / 2 ^ 19 ≠ 0 || 24575 < v.toNat / 16
/-- VIEW (R121). -/
def execView (f : Fields) (s : State) : Res :=
  issue .c false (dab f) f (fun s =>
    if viewBad f.d (s.va f) then .trap { cause := cVIEWVAL } s else .done (s.putD f (s.va f)).advance) s
/-- XSET (R122). -/
def execXset (f : Fields) (s : State) : Res :=
  issue .c false (dab f) f (fun s => .done (s.putD f (s.va f)).advance) s
/-- XADD (R122). -/
def execXadd (f : Fields) (s : State) : Res :=
  issue .c false (dab f) f (fun s => .done (s.putD f (s.va f + s.vb f)).advance) s

/-! ## Masks (R123-R125) -/

/-- MANY (R123). -/
def execMany (f : Fields) (s : State) : Res :=
  issue .c false (dab f) f (fun s => .done (s.putD f (if maskAny (s.va f) (s.g.mask 0) then 1 else 0)).advance) s
/-- MALL (R123). -/
def execMall (f : Fields) (s : State) : Res :=
  issue .c false (dab f) f (fun s => .done (s.putD f (if maskAll (s.va f) (s.g.mask 0) then 1 else 0)).advance) s
/-- OP and NEG of MLOG (R124). -/
def mlogValue (mod : Nat) (a b : Word) : Word :=
  let r := if mod % 4 = 0 then a &&& b else if mod % 4 = 1 then a ||| b else if mod % 4 = 2 then a ^^^ b else a &&& ~~~b
  if bit mod 2 then ~~~r else r
/-- MLOG (R124). -/
def execMlog (f : Fields) (s : State) : Res :=
  issue .c false (dab f) f (fun s => .done (s.putD f (mlogValue f.modN (s.va f) (s.vb f))).advance) s
/-- A mask from a lane count or a lane number (R125). -/
def mfromValue (one : Bool) (n : Nat) : Word :=
  if one then (if n < 64 then 1#64 <<< n else 0) else if 64 ≤ n then BitVec.allOnes 64 else BitVec.ofNat 64 (2 ^ n - 1)
/-- MFROM (R125). -/
def execMfrom (f : Fields) (s : State) : Res :=
  issue .c false (dab f) f (fun s => .done (s.putD f (mfromValue (f.mod.getLsbD 0) (s.va f).toNat)).advance) s

end Sys2Proof.Machine
end

