-- ==== Sys2Proof/Machine/Vector.lean ====
section
/-! DEFINITION. Vector arithmetic, functions, bit operations, comparison, selection, conversion, lane movement, reductions
and scans: opcodes 0x20 to 0x26 but for the block-scaled forms (spec/10 R145-R171). -/

namespace Sys2Proof.Machine

/-! ## Arithmetic (R150-R152) -/

/-- The functions of R152. -/
inductive VOp where
  | add | sub | mul | mulh | fma | fms | min | max | abs | neg | div
  deriving DecidableEq, Repr

/-- Integer f of R152. -/
def vInt (op : VOp) (t : Nat) (a b c : Int) : Int :=
  match op with
  | .add => a + b
  | .sub => a - b
  | .mul => a * b
  | .mulh => (a * b) / (2 ^ intWidth t : Nat)
  | .fma => a * b + c
  | .fms => a * b - c
  | .min => if a ≤ b then a else b
  | .max => if a ≤ b then b else a
  | .abs => a.natAbs
  | .neg => -a
  | .div => aluDiv t a b

/-- Floating f of R152, exact; rm decides the sign of an exact zero sum. -/
def vFlt (op : VOp) (rm : RM) (a b c : FV) : FV :=
  match op with
  | .add => a.add rm b
  | .sub => a.add rm b.neg
  | .mul => a.mul b
  | .mulh => .nan
  | .fma => (a.mul b).add rm c
  | .fms => (a.mul b).add rm c.neg
  | .min => FV.minMax false a b
  | .max => FV.minMax true a b
  | .abs => a.abs
  | .neg => a.neg
  | .div => a.div b

/-- SAT has no effect on these (R152). -/
def VOp.noSat : VOp → Bool
  | .mulh | .min | .max => true
  | _ => false

/-- An element of the result from the patterns of A, B and C (R151). -/
def vArith (op : VOp) (t rnd : Nat) (sat ftz : Bool) (pa pb pc : Nat) : Nat :=
  let sat := sat && !op.noSat
  if t < 8 then iround t sat (vInt op t (intVal t pa) (intVal t pb) (intVal t pc))
  else
    let rm := RM.ofCode rnd
    (fmtOf t).fround rm sat ftz (vFlt op rm (fltVal t ftz pa) (fltVal t ftz pb) (fltVal t ftz pc))

/-- The shared part of opcode 0x20 without C. -/
def execVArith (op : VOp) (f : Fields) (s : State) : Res :=
  let w := typeWidth f.type
  execLanes f (vrefs f w w w) w (fun g l => vArith op f.type f.rnd f.sat f.ftz (g.elem f.imm f.a w l) (g.elem f.imm f.b w l) 0) s
/-- The shared part of VFMA and VFMS. -/
def execVFma (op : VOp) (f : Fields) (s : State) : Res :=
  let w := typeWidth f.type
  execLanes f (vrefsC f w w w w) w (fun g l =>
    vArith op f.type f.rnd f.sat f.ftz (g.elem f.imm f.a w l) (g.elem f.imm f.b w l) (g.elem f.imm f.c w l)) s

/-- VADD (R152). -/
def execVadd (f : Fields) (s : State) : Res := execVArith .add f s
/-- VSUB (R152). -/
def execVsub (f : Fields) (s : State) : Res := execVArith .sub f s
/-- VMUL (R152). -/
def execVmul (f : Fields) (s : State) : Res := execVArith .mul f s
/-- VMULH (R152). -/
def execVmulh (f : Fields) (s : State) : Res := execVArith .mulh f s
/-- VFMA (R152). -/
def execVfma (f : Fields) (s : State) : Res := execVFma .fma f s
/-- VFMS (R152). -/
def execVfms (f : Fields) (s : State) : Res := execVFma .fms f s
/-- VMIN (R152). -/
def execVmin (f : Fields) (s : State) : Res := execVArith .min f s
/-- VMAX (R152). -/
def execVmax (f : Fields) (s : State) : Res := execVArith .max f s
/-- VABS (R152). -/
def execVabs (f : Fields) (s : State) : Res := execVArith .abs f s
/-- VNEG (R152). -/
def execVneg (f : Fields) (s : State) : Res := execVArith .neg f s
/-- VDIV (R152). -/
def execVdiv (f : Fields) (s : State) : Res := execVArith .div f s

/-! ## Functions of one source (R153, R154) -/

/-- The shared part of opcode 0x21. -/
def execVFn (fn : Nat) (f : Fields) (s : State) : Res :=
  let w := typeWidth f.type
  execLanes f (vrefs f w w w) w (fun g l => transcend fn f.type (RM.ofCode f.rnd) f.sat f.ftz (g.elem f.imm f.a w l)) s
/-- VRCP (R154). -/
def execVrcp (f : Fields) (s : State) : Res := execVFn 0 f s
/-- VRSQ (R154). -/
def execVrsq (f : Fields) (s : State) : Res := execVFn 1 f s
/-- VSQRT (R154). -/
def execVsqrt (f : Fields) (s : State) : Res := execVFn 2 f s
/-- VEXP2 (R154). -/
def execVexp2 (f : Fields) (s : State) : Res := execVFn 3 f s
/-- VLOG2 (R154). -/
def execVlog2 (f : Fields) (s : State) : Res := execVFn 4 f s
/-- VSINP (R154). -/
def execVsinp (f : Fields) (s : State) : Res := execVFn 5 f s
/-- VCOSP (R154). -/
def execVcosp (f : Fields) (s : State) : Res := execVFn 6 f s

/-! ## Bitwise operations and shifts (R155, R156) -/

/-- An element by the scalar rule; the shift count is the element's pattern (R156). -/
def vBit (op : Alu) (t : Nat) (sat : Bool) (pa pb : Nat) : Nat := iround t (sat && op.saturates) (aluR op t pa pb pb)
/-- The shared part of opcode 0x22. -/
def execVBit (op : Alu) (f : Fields) (s : State) : Res :=
  let w := typeWidth f.type
  execLanes f (vrefs f w w w) w (fun g l => vBit op f.type f.sat (g.elem f.imm f.a w l) (g.elem f.imm f.b w l)) s
/-- VAND (R156). -/
def execVand (f : Fields) (s : State) : Res := execVBit .and f s
/-- VOR (R156). -/
def execVor (f : Fields) (s : State) : Res := execVBit .or f s
/-- VXOR (R156). -/
def execVxor (f : Fields) (s : State) : Res := execVBit .xor f s
/-- VNOT: the complement of A (R156). -/
def execVnot (f : Fields) (s : State) : Res :=
  let w := typeWidth f.type
  execLanes f (vrefs f w w w) w (fun g l => 2 ^ w - 1 - g.elem f.imm f.a w l) s
/-- VSHL (R156). -/
def execVshl (f : Fields) (s : State) : Res := execVBit .shl f s
/-- VSHR (R156). -/
def execVshr (f : Fields) (s : State) : Res := execVBit .shr f s
/-- VSRA (R156). -/
def execVsra (f : Fields) (s : State) : Res := execVBit .sra f s
/-- VPOPC (R156). -/
def execVpopc (f : Fields) (s : State) : Res := execVBit .popc f s
/-- VCLZ (R156). -/
def execVclz (f : Fields) (s : State) : Res := execVBit .clz f s

/-! ## Comparison and selection (R157, R158) -/

/-- A mask whose bits in the lane set come from a test; the others stay (R157). -/
def maskLanes (lanes : List Nat) (old : Word) (p : Nat → Bool) : Word :=
  lanes.foldl (fun m l => if p l then m ||| (1#64 <<< l) else m &&& ~~~(1#64 <<< l)) old
/-- VCMP (R157). -/
def execVcmp (f : Fields) (s : State) : Res :=
  let w := typeWidth f.type
  issue .m false (vrefs f w w w) f (fun s =>
    let g := s.g
    .done (s.putD f (maskLanes (laneList (g.lanes f)) (s.vd f)
      fun l => ccHolds f.cc f.type (g.elem f.imm f.a w l) (g.elem f.imm f.b w l))).advance) s
/-- VSEL (R158). -/
def execVsel (f : Fields) (s : State) : Res :=
  execLanes f (vrefs f 32 32 32) 32 (fun g l =>
    if (g.opval f.imm f.c).getLsbD l then g.elem f.imm f.a 32 l else g.elem f.imm f.b 32 l) s

/-! ## Conversion (R159, R135) -/

/-- One element converted from type st to type dt (R159). Between equal floating types the element is copied: SAT does not change an
infinity, since nothing is rounded (R134), while FTZ flushes a subnormal (R136); R159 does not say so (log entry 60). -/
def convert (dt st rnd : Nat) (sat ftz : Bool) (p : Nat) : Nat :=
  let rm := RM.ofCode rnd
  if st < 8 then
    (if dt < 8 then iround dt sat (intVal st p) else (fmtOf dt).fround rm sat ftz (FV.ofQ false (Q.ofInt (intVal st p))))
  else
    let x := fltVal st ftz p
    if dt < 8 then
      (match x with
       | .nan => 0
       | .inf n => wrap (if n then minVal dt else maxVal dt) (intWidth dt)
       | .zero _ => 0
       | .fin q => wrap (clampTo dt (roundInt rm q)) (intWidth dt))
    else if dt = st then
      (match x with
       | .nan => (fmtOf dt).canon
       | .zero n => (fmtOf dt).withSign n 0
       | _ => p)
    else (fmtOf dt).fround rm sat ftz x
/-- VCVT (R159). -/
def execVcvt (f : Fields) (s : State) : Res :=
  let st := f.immN % 32
  execLanes f (vrefs f (typeWidth f.type) (typeWidth st) 8) (typeWidth f.type) (fun g l =>
    convert f.type st f.rnd f.sat f.ftz (g.elem f.imm f.a (typeWidth st) l)) s

/-! ## Lane movement (R166-R168) -/

/-- Element width of ESZ (R166). -/
def eszWidth (f : Fields) : Nat := 8 * 2 ^ (f.modN % 4)
/-- idx of R167. -/
def laneIdx (f : Fields) (g : Group) : Nat := (g.opval f.imm f.b).toNat % 64
/-- VMOV (R167). -/
def execVmov (f : Fields) (s : State) : Res :=
  let w := eszWidth f
  execLanes f (vrefs f w w w) w (fun g l => g.elem f.imm f.a w l) s
/-- VBC (R167). -/
def execVbc (f : Fields) (s : State) : Res :=
  let w := eszWidth f
  execLanes f (vrefs f w w w) w (fun g _ => g.elem f.imm f.a w (laneIdx f g)) s
/-- VEXT: the scalar takes the element of a lane of the set (R167). -/
def execVext (f : Fields) (s : State) : Res :=
  let w := eszWidth f
  issue .m false (vrefs f w w w) f (fun s =>
    let i := laneIdx f s.g
    let p := s.g.elem f.imm f.a w i
    if (s.g.lanes f).getLsbD i then
      .done (s.putD f (if f.mod.getLsbD 2 then BitVec.ofInt 64 (sgn p w) else BitVec.ofNat 64 p)).advance
    else .done s.advance) s
/-- VINS (R167). -/
def execVins (f : Fields) (s : State) : Res :=
  let w := eszWidth f
  issue .m false (vrefs f w w w) f (fun s =>
    let i := laneIdx f s.g
    if (s.g.lanes f).getLsbD i then
      .done (s.setG (s.g.setElem f.d w i ((s.va f).toNat % 2 ^ w))).advance
    else .done s.advance) s
/-- VSHUF (R167). -/
def execVshuf (f : Fields) (s : State) : Res :=
  let w := eszWidth f
  execLanes f (vrefs f w w w) w (fun g l =>
    let k := g.elem f.imm f.b w l
    if bit k 6 then 0 else g.elem f.imm f.a w (k % 64)) s
/-- VIDX (R168). -/
def execVidx (f : Fields) (s : State) : Res :=
  let w := eszWidth f
  let sel := f.immN % 8
  execLanes f (vrefs f w w w) w (fun g l =>
    (if sel = 7 then l else if sel = 6 then (g.ident l).toNat else g.idField l sel) % 2 ^ w) s

/-! ## Reductions and scans (R169-R171) -/

/-- comb of R170 on patterns of a TYPE. -/
def comb (op t rnd x y : Nat) : Nat :=
  if t < 8 then
    (if op = 0 then wrap (intVal t x + intVal t y) (intWidth t)
     else if op = 1 then (if intVal t x ≤ intVal t y then x else y)
     else if op = 2 then (if intVal t x ≤ intVal t y then y else x)
     else if op = 3 then x &&& y else if op = 4 then x ||| y else x ^^^ y)
  else
    vArith (if op = 0 then .add else if op = 1 then .min else .max) t rnd false false x y 0
/-- A value that meets no other: every floating NaN result is canonical (R128). -/
def lone (op t x : Nat) : Nat := if 8 ≤ t && op < 3 && (fmtOf t).decode x = .nan then (fmtOf t).canon else x
/-- comb of optional values: with an absent value, the other (R128, R170). -/
def combOpt (op t rnd : Nat) : Option Nat → Option Nat → Option Nat
  | none, y => y.map (lone op t)
  | x, none => x.map (lone op t)
  | some x, some y => some (comb op t rnd x y)
/-- One level of the tree of R170 over neighbouring pairs. -/
def pairUp (op t rnd : Nat) : List (Option Nat) → List (Option Nat)
  | x :: y :: r => combOpt op t rnd x y :: pairUp op t rnd r
  | r => r
/-- The tree's value over 64 lanes (R170): six levels. -/
def treeRed (op t rnd : Nat) (xs : List (Option Nat)) : Option Nat :=
  let p := pairUp op t rnd
  (p (p (p (p (p (p xs)))))).head?.join
/-- The identity of an OP (R170). -/
def redIdentity (op t : Nat) : Nat :=
  let w := typeWidth t
  if op = 1 then (if t < 8 then wrap (maxVal t) w else (fmtOf t).infinity false)
  else if op = 2 then (if t < 8 then wrap (minVal t) w else (fmtOf t).infinity true)
  else if op = 3 then 2 ^ w - 1 else 0
/-- VRED (R170). -/
def execVred (f : Fields) (s : State) : Res :=
  let w := typeWidth f.type
  let op := f.modN % 8
  issue .m false (vrefs f w w w) f (fun s =>
    let lanes := s.g.lanes f
    let xs := (List.range 64).map fun l => if lanes.getLsbD l then some (s.g.elem f.imm f.a w l) else none
    let r := (treeRed op f.type f.rnd xs).getD (redIdentity op f.type)
    .done (s.putD f (if f.type < 8 then extTo f.type r else BitVec.ofNat 64 r)).advance) s
/-- Inclusive prefixes in ascending lane order (R171). -/
def scanLanes (op t rnd : Nat) (val : Nat → Nat) : List Nat → Option Nat → List (Nat × Nat)
  | [], _ => []
  | l :: ls, acc =>
    let a := (combOpt op t rnd acc (some (val l))).getD 0
    (l, a) :: scanLanes op t rnd val ls (some a)
/-- VSCAN (R171). -/
def execVscan (f : Fields) (s : State) : Res :=
  let w := typeWidth f.type
  issue .m false (vrefs f w w w) f (fun s =>
    let g := s.g
    let ps := scanLanes (f.modN % 8) f.type f.rnd (g.elem f.imm f.a w) (laneList (g.lanes f)) none
    .done (s.setG (g.setLanes f.d w (ps.map (·.1)) fun l => (kget ps l).getD 0)).advance) s

end Sys2Proof.Machine
end

