-- ==== Sys2Proof/Machine/Pack.lean ====
section
/-! DEFINITION. Block-scaled packing: VPACK, VUNPK, VSCALE, VQUANT (spec/10 R160-R165) and the statistics counters they
keep (spec/09 R143). -/

namespace Sys2Proof.Machine

/-- Adds events to a launch's counts under a tensor identifier; identifier 0 counts nothing (R143). -/
def State.stat (s : State) (launch tid sat flush nan : Nat) : State :=
  if tid = 0 || (sat = 0 && flush = 0 && nan = 0) then s
  else s.modLaunch launch fun l =>
    let c := (kget l.stat tid).getD {}
    { l with stat := kset l.stat tid { sat := c.sat + sat, flush := c.flush + flush, nan := c.nan + nan } }

/-- NFMT, RND, WT and FTZ of R160. -/
def nfmt (f : Fields) : Nat := f.modN / 32
def packRm (f : Fields) : RM := RM.ofCode (f.modN / 8 % 4)
def wideType (f : Fields) : Nat := 8 + f.modN / 2 % 4
def packFtz (f : Fields) : Bool := f.mod.getLsbD 0

/-- Scale of block b in a scale operand (R160). -/
def blockScale (v : Word) (b : Nat) : Nat := v.toNat / 2 ^ (10 * b) % 1024
/-- Lanes of a set in block b. -/
def blockLanes (lanes : List Nat) (b : Nat) : List Nat := lanes.filter fun l => l / 32 = b
/-- Event totals of quantised elements (R143). -/
def countQ (qs : List Quant) (p : Quant → Bool) : Nat := (qs.filter p).length

/-- quant of R161 on a wide pattern. -/
def quantOf (f : Fields) (s p : Nat) : Quant :=
  let t := wideType f
  quant (nfmt f) s (packRm f) (packFtz f) ((fmtOf t).subnormal p) ((fmtOf t).decode p)

/-- VPACK (R162). A block with a NaN scale and a lane of the set counts one NAN. -/
def execVpack (f : Fields) (s : State) : Res :=
  let nw := narrowWidth (nfmt f)
  let ww := typeWidth (wideType f)
  issue .m false (vrefs f nw ww 8) f (fun s =>
    let g := s.g
    let sb := s.vb f
    let lanes := laneList (g.lanes f)
    let q (l : Nat) : Quant :=
      let sc := blockScale sb (l / 32)
      if sc % 256 = 255 then { code := 0 } else quantOf f sc (g.elem f.imm f.a ww l)
    let qs := lanes.map q
    let nanBlocks := ((List.range 2).filter fun b => blockScale sb b % 256 = 255 && !(blockLanes lanes b).isEmpty).length
    let s := s.stat g.launch (f.immN % 4096) (countQ qs (·.sat)) (countQ qs (·.flush)) (countQ qs (·.nan) + nanBlocks)
    .done (s.setG (g.setLanes f.d nw lanes fun l => (q l).code)).advance) s

/-- An element widened under its block's scale: the narrow element is decoded as it is, FTZ flushing wide values alone (R160, R163). -/
def unpackElem (f : Fields) (s p : Nat) : Nat :=
  (fmtOf (wideType f)).fround (packRm f) false (packFtz f) (scaledDecode (nfmt f) s p)
/-- VUNPK (R163). -/
def execVunpk (f : Fields) (s : State) : Res :=
  let nw := narrowWidth (nfmt f)
  let ww := typeWidth (wideType f)
  execLanes f (vrefs f ww nw 8) ww (fun g l =>
    unpackElem f (blockScale (g.opval f.imm f.b) (l / 32)) (g.elem f.imm f.a nw l)) s

/-- A wide element times or divided by its block's scale value (R164). -/
def scaleElem (f : Fields) (s p : Nat) : Nat :=
  let t := wideType f
  let m := fmtOf t
  if s % 256 = 255 then m.canon
  else
    let x := m.read (packFtz f) p
    let y := match x with
      | .fin q => FV.fin (if f.imm.getLsbD 0 then q.div (scaleX s) else q.mul (scaleX s))
      | v => v
    m.fround (packRm f) false (packFtz f) y
/-- VSCALE (R164). -/
def execVscale (f : Fields) (s : State) : Res :=
  let ww := typeWidth (wideType f)
  execLanes f (vrefs f ww ww 8) ww (fun g l =>
    scaleElem f (blockScale (g.opval f.imm f.b) (l / 32)) (g.elem f.imm f.a ww l)) s

/-- What VQUANT makes of one block: its scale and the quantised elements of its lanes; nan: a NaN block (R165). -/
structure QBlock where
  scale : Nat
  elems : List (Nat × Quant)
  nan : Bool
  deriving DecidableEq, Repr

/-- The greatest magnitude of a list of values. -/
def maxMag (xs : List FV) : Q := xs.foldl (fun m x => Q.max m x.abs.toQ) ⟨0, 1⟩

/-- The block of R165 over lanes with wide patterns. -/
def quantBlock (f : Fields) (val : Nat → Nat) (lanes : List Nat) : QBlock :=
  let t := wideType f
  let ty := f.immN / 4096 % 4
  let xs := lanes.map fun l => (fmtOf t).read (packFtz f) (val l)
  if xs.any fun x => x.isNan || x.isInf then
    { scale := ty * 256 + 255, elems := lanes.map fun l => (l, { code := 0 }), nan := true }
  else
    let amax := maxMag xs
    let e : Int := if amax.isZero then 127 else
      let v := amax.log2 - emaxOf (nfmt f) ty + 127
      if v < 0 then 0 else if 254 < v then 254 else v
    let sc := ty * 256 + e.toNat
    { scale := sc, elems := lanes.map fun l => (l, quantOf f sc (val l)), nan := false }

/-- VQUANT (R165). -/
def execVquant (f : Fields) (s : State) : Res :=
  let nw := narrowWidth (nfmt f)
  let ww := typeWidth (wideType f)
  issue .m false (vrefs f nw ww 8) f (fun s =>
    let g := s.g
    let lanes := laneList (g.lanes f)
    if lanes.isEmpty then .done s.advance
    else
      let val := g.elem f.imm f.a ww
      let bs := (List.range 2).filterMap fun b =>
        let ls := blockLanes lanes b
        if ls.isEmpty then none else some (b, quantBlock f val ls)
      let es := bs.flatMap fun b => b.2.elems
      let qs := es.map (·.2)
      let sb := bs.foldl (fun v b => putBits v (10 * b.1 + 9) (10 * b.1) b.2.scale) (s.vb f).toNat
      let nans := (bs.filter fun b => b.2.nan).length
      let s := s.stat g.launch (f.immN % 4096) (countQ qs (·.sat)) (countQ qs (·.flush)) (countQ qs (·.nan) + nans)
      let g' := g.setLanes f.d nw lanes fun l => ((kget es l).map (·.code)).getD 0
      .done (s.setG (g'.put f.b (BitVec.ofNat 64 sb))).advance) s

end Sys2Proof.Machine
end

