-- ==== Sys2Proof/Machine/Matrix.lean ====
section
/-! DEFINITION. The matrix engine: opcodes 0x80 to 0x83, K-steps and the completion of operations (spec/18 R281-R302,
spec/09 R137). -/

namespace Sys2Proof.Machine

/-! ## Holding the engine (R281, R287) -/

/-- The issuing group's core. -/
def State.myCore (s : State) : Core := s.core s.g.die s.g.core
def State.modMyCore (s : State) (h : Core → Core) : State := s.modCore s.g.die s.g.core h
/-- The issuing group's team, as the engine names it. -/
def Group.teamId (g : Group) : Nat × Nat := (g.gang, g.team)

/-- The engine is the issuing team's, taken now if it is free; otherwise the instruction is held (R281). -/
def withEngine (k : State → Out) (s : State) : Out :=
  if s.myCore.engine = some s.g.teamId then k s
  else if s.myCore.engine = none then k (s.takeEngine s.g.die s.g.core s.g.teamId)
  else
    .wait (s.modMyCore fun c =>
      if c.engineWait.contains s.g.teamId then c else { c with engineWait := c.engineWait ++ [s.g.teamId] }).hold

/-- The operations the sequencer performs one at a time; WLOAD runs beside it (R287). -/
def MKind.sequenced : MKind → Bool | .wload => false | _ => true

/-- An operation enters the core's list, or is held while 16 are incomplete (R287). -/
def issueMop (op : MOp) (s : State) : Out :=
  if 16 ≤ s.myCore.mops.length then .wait s.hold
  else
    let (id, s) := s.take
    .done (s.modMyCore fun c => { c with mops := c.mops ++ [{ op with id := id }] }).advance

/-- An operation that the sequencer performs at its issue: held until no earlier one is incomplete, or while 16 are (R287). -/
def whenIdle (k : State → Out) (s : State) : Out :=
  if 16 ≤ s.myCore.mops.length || s.myCore.mops.any fun m => m.kind.sequenced && !m.done then .wait s.hold else k s

/-! ## The accumulator (R282) -/

/-- A rectangle lies within the accumulator. -/
def accOk (row col nr nc : Nat) : Bool := row + nr ≤ 256 && col + nc ≤ 256
/-- A position's bits. -/
def Core.accAt (c : Core) (row col : Nat) : Nat := ((kget c.acc (256 * row + col)).getD 0).toNat
/-- Writes a position; its band is in use. -/
def Core.accSet (c : Core) (row col v : Nat) : Core :=
  { c with acc := if v = 0 then kdel c.acc (256 * row + col) else kset c.acc (256 * row + col) (BitVec.ofNat 32 v)
           bands := c.bands ||| (1#16 <<< (row / 16)) }
/-- Positions of a rectangle, row by row. -/
def rect (nr nc : Nat) : List (Nat × Nat) := (List.range nr).flatMap fun i => (List.range nc).map fun j => (i, j)

/-- Row, column, and the upper two bytes of the IMM of accumulator instructions. -/
def accRow (imm : BitVec 32) : Nat := bits imm.toNat 15 8
def accCol (imm : BitVec 32) : Nat := imm.toNat % 256

/-- ACLR (R297). -/
def execAclr (f : Fields) (s : State) : Res :=
  issue .c false (dab f) f (fun s =>
    let r := accRow f.imm
    let c := accCol f.imm
    let nr := bits f.immN 23 16 + 1
    let nc := bits f.immN 31 24 + 1
    if !accOk r c nr nc then .trap { cause := cACCBOUND } s
    else withEngine (whenIdle fun s =>
      .done (s.modMyCore fun k => (rect nr nc).foldl (fun k p => k.accSet (r + p.1) (c + p.2) 0) k).advance) s) s

/-- WT of R298 and R299 as a TYPE code. -/
def accType (f : Fields) : Nat := 8 + f.modN % 4
/-- The accumulator position of a lane (R298). -/
def acmovPos (f : Fields) (l : Nat) : Nat × Nat :=
  if bit f.modN 5 then (accRow f.imm + l, accCol f.imm) else (accRow f.imm, accCol f.imm + l)
/-- An element widened exactly to FP32; a NaN becomes canonical (R298, R299). -/
def widen (t p : Nat) : Nat := fp32.rne ((fmtOf t).decode p)
/-- ACMOV (R298). -/
def execAcmov (f : Fields) (s : State) : Res :=
  let w := typeWidth (accType f)
  issue .c false (vrefs f w w 8) f (fun s =>
    if !(if bit f.modN 5 then accOk (accRow f.imm) (accCol f.imm) 64 1 else accOk (accRow f.imm) (accCol f.imm) 1 64) then
      .trap { cause := cACCBOUND } s
    else withEngine (whenIdle fun s =>
      let lanes := laneList (s.g.mask 0)
      if f.d.isView then
        let c := s.myCore
        .done (s.setG (s.g.setLanes f.d w lanes fun l =>
          (fmtOf (accType f)).fround (RM.ofCode f.rnd) f.sat false (fp32.decode (c.accAt (acmovPos f l).1 (acmovPos f l).2)))).advance
      else
        let g := s.g
        .done (s.modMyCore fun c => lanes.foldl (fun c l =>
          c.accSet (acmovPos f l).1 (acmovPos f l).2 (widen (accType f) (g.elem f.imm f.a w l))) c).advance) s) s

/-! ## Products (R286, R292-R294) -/

/-- Bytes of a block and units of a slice of a class (R283). -/
def bclBytes (bcl : Nat) : Nat := if bcl = 0 then 16 else if bcl = 1 then 24 else if bcl = 2 then 32 else 64
def bclUnits (bcl : Nat) : Nat := if bcl = 0 then 2 else if bcl = 1 then 3 else if bcl = 2 then 4 else 8
/-- The class of a format (R283). -/
def fmtClass (t : Nat) : Nat := if t = 15 then 0 else if t = 13 || t = 14 then 1 else if t = 11 || t = 12 then 2 else 3
/-- Bits of an element of a matrix operand's format. -/
def matWidth (t : Nat) : Nat := if t = 9 || t = 10 then 16 else narrowWidth t

/-- ZA, BCL and WBOFF of a product (R292). -/
def MOp.za (m : MOp) : Bool := m.mod.getLsbD 4
def MOp.bcl (m : MOp) : Nat := m.mod.toNat % 4
def MOp.wboff (m : MOp) : Nat := if m.kind.product then bits m.imm.toNat 31 24 else m.imm.toNat % 256
/-- Units of the slices of one K-step. -/
def MOp.stepUnits (m : MOp) : Nat := (if m.kind = .mbatch then 4 else 1) * bclUnits m.bcl
/-- NC, NS and STRIDE of a WLOAD's shape (R295). -/
def MOp.nc (m : MOp) : Nat := m.shape.toNat % 256 + 1
def MOp.ns (m : MOp) : Nat := bits m.shape.toNat 19 8 + 1
def MOp.stride (m : MOp) : Nat := m.shape.toNat / 2 ^ 32
/-- The units a WLOAD writes, or a product has still to read: first and number (R287). -/
def MOp.units (m : MOp) : Nat × Nat :=
  if m.kind = .wload then (m.wboff, m.ns * bclUnits m.bcl)
  else if m.kind.product then (m.wboff + m.kpos * m.stepUnits, (m.kcnt - m.kpos) * m.stepUnits)
  else (0, 0)
/-- Two runs of units have one in common. -/
def meets (a b : Nat × Nat) : Bool := a.1 < b.1 + b.2 && b.1 < a.1 + a.2

/-- A product as issued. -/
def productOp (k : MKind) (f : Fields) (g : Group) (iaddr : Word) : MOp := {
  id := 0, owner := g.uid, iaddr := iaddr, kind := k, word := packWord 0x80 (if k = .mtile then 0 else if k = .mloop then 1 else 2) f, mod := f.mod, imm := f.imm, regs := g.regs
  tile := g.base f.a, scale := if f.b.isView then g.base f.b else 0
  rows := bits g.tsh.toNat 23 16 + 1, rlen := 16 * (bits g.tsh.toNat 15 8 + 1) }

/-- References of a product: the tiles and scale views of every step (R294). -/
def prefs (k : MKind) (f : Fields) (g : Group) : List Ref :=
  let m := productOp k f g 0
  [⟨1, f.a, m.kcnt * tilesOf k * g.tileBytes⟩, ⟨2, f.b, m.kcnt * viewsOf k * 256⟩]

/-- The shared part of MTILE, MLOOP and MBATCH: the checks of R294, then the issue. -/
def product (k : MKind) (f : Fields) (s : State) : Out :=
  let m := productOp k f s.g s.g.pc
  let c := 4 * matWidth m.afmt
  let mOk := if k = .mbatch then m.rows = 32 else m.rows ≤ 128
  let rows := if k = .mbatch then 128 else m.rows
  if m.rlen < c || !mOk || (k = .mbatch && 256 < accCol f.imm + 128) then .trap { cause := cMSHAPE } s
  else if 256 < accRow f.imm + rows then .trap { cause := cACCBOUND } s
  else if 256 < m.wboff + m.kcnt * m.stepUnits then .trap { cause := cWBOUND } s
  else withEngine (issueMop m) s
/-- MTILE (R294). -/
def execMtile (f : Fields) (s : State) : Res := issue .c false (prefs .mtile f) f (product .mtile f) s
/-- MLOOP (R294). -/
def execMloop (f : Fields) (s : State) : Res := issue .c false (prefs .mloop f) f (product .mloop f) s
/-- MBATCH (R294). -/
def execMbatch (f : Fields) (s : State) : Res := issue .c false (prefs .mbatch f) f (product .mbatch f) s

/-- Element value of a matrix operand: a 16-bit format has no scale (R283, R286). -/
def matVal (t scale p : Nat) : FV := if t = 9 || t = 10 then (fmtOf t).decode p else scaledDecode t scale p
/-- A(i, 32k + e): tile and scale view given by their offsets; sr: the row that picks the scale word (R286, R293). -/
def MOp.aElem (m : MOp) (tile scale i sr e : Nat) : FV :=
  let w := matWidth m.afmt
  matVal m.afmt (rdLE m.regs (scale + 4 * (sr / 3)) 4 / 2 ^ (10 * (sr % 3)) % 1024) (rdBits m.regs (tile + i * m.rlen) (e * w) w)
/-- B(32k + e, j) of a slice (R283). -/
def Slice.bElem (b : Slice) (j e : Nat) : FV :=
  let t := (b.fmts.getD j b.fmt).toNat
  matVal t ((b.scales.getD j 0x0FF).toNat) (rdBits b.data (j * bclBytes b.cls.toNat) (e * matWidth t) (matWidth t))
/-- The exact sum of 32 products, rounded to FP32 (R137). -/
def dot32 (a b : Nat → FV) : Nat :=
  fp32.rne ((List.range 32).foldl (fun p e => match FV.add .rne p ((a e).mul (b e)) with | .fin q => .fin q.norm | v => v) (.zero false))
/-- The new value of a position after a K-step (R137, R294). -/
def accStep (write : Bool) (old q : Nat) : Nat := if write then q else fp32.rne (FV.add .rne (fp32.decode old) (fp32.decode q))

/-- The slices of a product's next step, when each is there and fits (R294). -/
def MOp.stepSlices (m : MOp) (c : Core) : Option (List Slice) :=
  let us := (List.range (if m.kind = .mbatch then 4 else 1)).map fun q => m.wboff + m.kpos * m.stepUnits + q * bclUnits m.bcl
  let bs := us.filterMap fun u => kget c.slices u
  if bs.length = us.length && bs.all fun b =>
      b.cls.toNat = m.bcl && (m.kind ≠ .mbatch || b.nc = 128) && (m.kpos = 0 || m.kind = .mbatch || b.nc = m.n)
        && accCol m.imm + b.nc ≤ 256
  then some bs else none

/-- One K-step of a product on the accumulator (R137, R293, R294). -/
def MOp.step (m : MOp) (bs : List Slice) (c : Core) : Core :=
  let w := m.za && m.kpos = 0
  let put (c : Core) (row col : Nat) (q : Nat) : Core := c.accSet row col (accStep w (c.accAt row col) q)
  let none_ : Slice := { cls := 0, fmt := 0, nc := 0, src := 0, mcls := 0, data := [], scales := [] }
  if m.kind = .mbatch then
    (List.range 16).foldl (fun c b =>
      let sl := bs.getD (b / 4) none_
      (rect 32 32).foldl (fun c p =>
        put c (accRow m.imm + 32 * (b / 4) + p.1) (accCol m.imm + 32 * (b % 4) + p.2)
          (dot32 (m.aElem (m.tile + (16 * m.kpos + b) * (m.rows * m.rlen)) (m.scale + 768 * m.kpos) p.1 (32 * b + p.1))
            (sl.bElem (32 * (b % 4) + p.2)))) c) c
  else
    let sl := bs.getD 0 none_
    (rect m.rows sl.nc).foldl (fun c p =>
      put c (accRow m.imm + p.1) (accCol m.imm + p.2)
        (dot32 (m.aElem (m.tile + m.kpos * (m.rows * m.rlen)) (m.scale + 256 * m.kpos) p.1 p.1) (sl.bElem p.2))) c

/-! ## Reading blocks for the weight buffer (R296) -/

/-- The record of a matrix operation's fault in the log of its group (R294, R296, R299). -/
def State.logMop (s : State) (m : MOp) (r : FRec) : State :=
  match s.group? m.owner with
  | none => s
  | some g => s.logFail g.die g.launch { g.fill r with iaddr := m.iaddr }

/-- Translation and place of n bytes that lie in one line, for an engine of a group's core. -/
def State.enginePlace (s : State) (dev : Nat) (out : Bool) (cls : Nat) (va : Int) (n : Nat) : Place :=
  match s.translate dev none (s.secure dev) (if out then .w else .r) cls va with
  | .ok x => s.placeOf dev (s.secure dev) out n (x.tgt, x.ofs, x.handle)
  | .error r => .fault r.cause

/-- The TLBs that access fills (R181). -/
def State.engineFill (s : State) (dev : Nat) (out : Bool) (cls va : Nat) : State :=
  match s.translate dev none (s.secure dev) (if out then .w else .r) cls va with
  | .ok x => s.fillXl dev none (s.secure dev) va x
  | .error _ => s
/-- The parts of n bytes at a virtual address, split at lines, with their places. -/
def State.engineParts (s : State) (dev : Nat) (out : Bool) (cls va n : Nat) : List (Seg × Place) :=
  let k := Nat.min n (128 - va % 128)
  let ps : List Seg := if n = 0 then [] else if k < n then [{ va := va, so := 0, len := k }, { va := va + k, so := k, len := n - k }] else [{ va := va, so := 0, len := n }]
  ps.map fun p => (p, s.enginePlace dev out cls p.va p.len)
/-- The first part whose place is a fault. -/
def badPart (ps : List (Seg × Place)) : Option (Seg × Place) :=
  ps.find? fun p => match p.2 with | .fault _ | .refused .. => true | _ => false

/-- One block of a WLOAD: format, scale and bytes, or the part whose fault ends the load. A line outside every window gives WLFMT in
sidecar mode, as R296 asks for a format of the class, and not the NaN blocks of R141 (log entry 26). -/
def State.loadBlock (s : State) (dev uid launch : Nat) (cls bcl wfmt va : Nat) :
    Except (Seg × Place) (Nat × BitVec 10 × List Byte) × State :=
  let ps := s.engineParts dev false cls va (bclBytes bcl)
  match badPart ps with
  | some p => (.error p, s)
  | none =>
    let (bs, s) := ps.foldl (fun (r : List Byte × State) p =>
      let (b, s) := (r.2.engineFill dev false cls p.1.va).agentRead dev uid launch p.2 p.1.len { evp := 3, stream := cls = clsStream }
      (r.1 ++ b, s)) ([], s)
    let bad : Seg × Place := ({ va := va, so := 0, len := bclBytes bcl }, .fault cWLFMT)
    if wfmt ≠ 0 then (.ok (wfmt, 0, bs), s)
    else
      match ps with
      | (_, .home k) :: _ =>
        let s := s.attachSide (lineOf k)
        let (fmt, j, off) := s.formatAt k
        if fmt = 0 || fmtClass fmt ≠ bcl || off ≠ 0 then (.error bad, s) else (.ok (fmt, s.sideScale k j, bs), s)
      | _ => (.error bad, s)

/-- The columns of a slice, in order. -/
def State.loadCols (s : State) (dev uid launch cls bcl wfmt va : Nat) :
    Nat → Slice → Except (Seg × Place) Slice × State
  | 0, sl => (.ok sl, s)
  | n + 1, sl =>
    match s.loadBlock dev uid launch cls bcl wfmt (va + sl.scales.length * bclBytes bcl) with
    | (.error e, s) => (.error e, s)
    | (.ok (fmt, sc, bs), s) =>
      s.loadCols dev uid launch cls bcl wfmt va n { sl with
        fmt := if sl.fmts.isEmpty then BitVec.ofNat 5 fmt else sl.fmt, fmts := sl.fmts ++ [BitVec.ofNat 5 fmt], scales := sl.scales ++ [sc]
        data := bsetMany sl.data (sl.scales.length * bclBytes bcl) bs }

/-- A slice of NC columns read from memory at an address (R295). -/
def State.loadSlice (s : State) (dev uid launch cls bcl wfmt va nc : Nat) : Except (Seg × Place) Slice × State :=
  s.loadCols dev uid launch cls bcl wfmt va nc
    { cls := BitVec.ofNat 2 bcl, fmt := 0, nc := nc, src := BitVec.ofNat 64 va, mcls := BitVec.ofNat 3 cls, data := [], scales := [] }

/-- Slices of U units at a key that touch a run of units are emptied (R284). -/
def clearUnits (t : Table Slice) (run : Nat × Nat) : Table Slice :=
  t.filter fun e => !meets (e.1, bclUnits e.2.cls.toNat) run

/-- The refill on restore: every slice whose data were not saved is read again; one whose read faults is empty (R290). -/
def State.refill (s : State) (die core : Nat) : State :=
  match (s.core die core).engine with
  | none => s
  | some k =>
    let launch := ((s.groups.find? fun g => g.gang = k.1 && g.team = k.2).map (·.launch)).getD 0
    (s.core die core).slices.foldl (fun s e =>
      if e.2.full then s
      else
        let wf := if e.2.fmt = 9 || e.2.fmt = 10 then e.2.fmt.toNat else 0
        match s.loadSlice die 0 launch e.2.mcls.toNat e.2.cls.toNat wf e.2.src.toNat e.2.nc with
        | (.ok sl, s) => s.modCore die core fun c => { c with slices := kset c.slices e.1 sl }
        | (.error _, s) => s.modCore die core fun c => { c with slices := kdel c.slices e.1 }) s

/-! ## Running the sequencer (R287, R294) -/

/-- Operations issued before an operation. -/
def Core.before (c : Core) (id : Nat) : List MOp := c.mops.takeWhile fun m => decide (m.id ≠ id)
/-- The operation the sequencer performs now. -/
def Core.current (c : Core) : Option MOp := c.mops.find? fun m => m.kind.sequenced && !m.done
/-- Nothing of R287 holds an operation. -/
def Core.canRun (c : Core) (m : MOp) : Bool :=
  (!m.kind.sequenced || c.current = some m) &&
    (c.before m.id).all fun b => !((m.kind = .wload && b.kind.product) || (m.kind.product && b.kind = .wload)) || !meets b.units m.units

/-- Replaces an operation. -/
def State.modMop (s : State) (die core id : Nat) (h : MOp → MOp) : State :=
  s.modCore die core fun c => { c with mops := c.mops.map fun m => if m.id = id then h m else m }
/-- An operation has completed or ended at a fault, which its group's next MSYNC reports (R300). -/
def State.endMop (s : State) (die core : Nat) (m : MOp) (flt : Bool) : State :=
  let s := s.modCore die core fun c => { c with mops := c.mops.filter fun x => decide (x.id ≠ m.id) }
  let s := if flt then s.modGroup m.owner fun g => { g with mflt := Nat.min (g.mflt + 1) 255 } else s
  match s.group? m.owner with
  | some g => s.settleEngine g.gang g.team
  | none => s

/-- K_STEP: the next K-step of the product at the sequencer, or its end at MSLICE (R294). -/
def execKStep (die core : Nat) (s : State) : Res :=
  match (s.core die core).current with
  | none => .next s
  | some m =>
    if !m.kind.product || !(s.core die core).canRun m then .next s
    else
      let s := s.refill die core
      match m.stepSlices (s.core die core) with
      | none =>
        .next ((s.logMop m { cause := cMSLICE, detail := BitVec.ofNat 8 m.kpos }).modMop die core m.id fun m => { m with fault := true, done := true })
      | some bs =>
        let n := ((bs.head?).map (·.nc)).getD 0
        .next ((s.modCore die core (m.step bs)).modMop die core m.id fun x =>
          { x with kpos := x.kpos + 1, n := n, done := x.kcnt ≤ x.kpos + 1 })

/-- The record and end of a transfer at a fault (R222, R296, R299). -/
def State.endAtFault (s : State) (die core : Nat) (m : MOp) (p : Seg × Place) : State :=
  let s := match p.2, s.group? m.owner with
    | .refused h r, some g =>
      s.log (s.exporterOf g.die h) { g.fill r with addr := BitVec.ofNat 64 p.1.va, iaddr := m.iaddr, imp := true }
    | _, _ => s
  let cause := match p.2 with | .fault c => c | _ => cRPERM
  (s.logCopyFault m.owner m.iaddr cause 0 p.1.va).endMop die core m true

/-- Slices s, s + 1, … of a WLOAD, until one faults (R296). -/
def State.wloadRun (s : State) (die core launch : Nat) (m : MOp) : Nat → Nat → State
  | 0, _ => s.endMop die core m false
  | n + 1, i =>
    match s.loadSlice die m.owner launch (bits m.mod.toNat 4 2) m.bcl (m.mod.toNat / 32) (m.addr.toNat + i * m.stride) m.nc with
    | (.ok sl, s) =>
      (s.modCore die core fun c => { c with slices := kset c.slices (m.wboff + i * bclUnits m.bcl) sl }).wloadRun die core launch m n (i + 1)
    | (.error p, s) =>
      if p.2 = .fault cWLFMT then
        (s.logMop m { cause := cWLFMT, info := BitVec.ofNat 32 i, addr := BitVec.ofNat 64 p.1.va }).endMop die core m true
      else s.endAtFault die core m p

/-- Rows, columns, first position, element width and class of an ACLD or ACST (R299). -/
def MOp.rows2 (m : MOp) : Nat := m.shape.toNat % 256 + 1
def MOp.cols2 (m : MOp) : Nat := bits m.shape.toNat 15 8 + 1
def MOp.wtype (m : MOp) : Nat := 8 + m.mod.toNat % 4
def MOp.esize (m : MOp) : Nat := typeWidth m.wtype / 8
def MOp.mclass (m : MOp) : Nat := bits m.mod.toNat 8 6
/-- The bytes of a transfer as runs, row by row; so counts bytes of the rectangle. -/
def MOp.segs (m : MOp) : List Seg :=
  (List.range m.rows2).map fun i =>
    { va := m.addr.toNat + i * m.stride, so := i * m.cols2 * m.esize, len := m.cols2 * m.esize }
/-- Position of the element at byte b of a transfer. -/
def MOp.posOf (m : MOp) (b : Nat) : Nat × Nat :=
  let e := b / m.esize
  (accRow m.imm + e / m.cols2, accCol m.imm + e % m.cols2)

/-- fround of an FP32 pattern with the events it counts: clamped, flushed, NaN (R143). A result that rounds to the largest finite value with
SAT = 0 is no clamp of R134 and is not counted (log entry 27). -/
def froundCount (t : Nat) (rm : RM) (sat ftz : Bool) (p : Nat) : Nat × Bool × Bool × Bool :=
  let f := fmtOf t
  let x := fp32.read ftz p
  let v := f.fround rm sat ftz x
  let zeroIn := match fp32.decode p with | .zero _ => true | _ => false
  let big := match x with | .inf _ => true | .fin q => (f.roundMag rm (decide (q.num < 0)) q.abs).beyond | _ => false
  (v, sat && big, !zeroIn && decide (v % 2 ^ (f.width - 1) = 0), x.isNan)

/-- The bytes of a part of an ACST, and its counts. -/
def MOp.storePart (m : MOp) (c : Core) (p : Seg) : List Byte × Nat × Nat × Nat :=
  let md := m.mod.toNat
  let rs := (List.range (p.len / m.esize)).map fun i =>
    let q := m.posOf (p.so + i * m.esize)
    froundCount m.wtype (RM.ofCode (bits md 5 4)) (bit md 3) (bit md 2) (c.accAt q.1 q.2)
  (rs.flatMap fun r => leBytes r.1 m.esize, (rs.filter (·.2.1)).length, (rs.filter (·.2.2.1)).length, (rs.filter (·.2.2.2)).length)

/-- The parts of an ACLD or ACST in order, until one faults. -/
def State.accRun (s : State) (die core : Nat) (g : Group) (m : MOp) : Nat → List Seg → State
  | 0, _ => s.endMop die core m false
  | n + 1, segs =>
    match lineParts segs with
    | (p :: _, rest) =>
      let pl := s.enginePlace die (m.kind = .acst) m.mclass p.va p.len
      if (badPart [(p, pl)]).isSome then s.endAtFault die core m (p, pl)
      else if m.kind = .acst then
        let (bs, a, b, c) := m.storePart (s.core die core) p
        (((s.engineFill die true m.mclass p.va).agentWrite g.die g.job g.uid g.launch pl bs { evp := 3, stream := m.mclass = clsStream }).stat g.launch (bits m.imm.toNat 27 16) a b c).accRun die core g m n rest
      else
        let (bs, s) := (s.engineFill die false m.mclass p.va).agentRead g.die g.uid g.launch pl p.len { evp := 3, stream := m.mclass = clsStream }
        let s := s.modCore die core fun c => (List.range (p.len / m.esize)).foldl (fun c i =>
          let q := m.posOf (p.so + i * m.esize)
          c.accSet q.1 q.2 (widen m.wtype (leVal ((bs.drop (i * m.esize)).take m.esize)))) c
        s.accRun die core g m n rest
    | ([], _) => s.endMop die core m false

/-- Class of a transfer's accesses, and what it touches in memory: runs of an ACLD or ACST, slices of a WLOAD. -/
def MOp.cls (m : MOp) : Nat := if m.kind = .wload then bits m.mod.toNat 4 2 else m.mclass
def MOp.runs (m : MOp) : List (Nat × Nat) :=
  if m.kind = .wload then (List.range m.ns).map fun i => (m.addr.toNat + i * m.stride, m.nc * bclBytes m.bcl) else m.segs.map fun p => (p.va, p.len)
/-- A line an ACST would write is taken, or one that a transfer would read is held: it waits at the home slice (R212, R405); or the operation
would leave a dead die (R406). -/
def State.accLeased (s : State) (die : Nat) (m : MOp) : Bool :=
  let out := decide (m.kind = .acst)
  ((s.die die).dead && (m.cls = clsHuc || m.cls = clsPeer)) ||
  m.runs.any fun p =>
    (List.range (if p.2 = 0 then 0 else p.2 / 128 + 2)).any fun i =>
      s.placeHeld die out 1 (s.enginePlace die out m.cls (Nat.min (p.1 + 128 * i) (p.1 + p.2 - 1) : Nat) 1)

/-- Runs one operation other than a product to its end. -/
def State.runMop (s : State) (die core : Nat) (m : MOp) : State :=
  match s.group? m.owner with
  | none => s.endMop die core m false
  | some g =>
    if m.kind = .wload then
      (s.modCore die core fun c => { c with slices := clearUnits c.slices m.units }).wloadRun die core g.launch m m.ns 0
    else s.accRun die core g m (segLines m.segs + 1) m.segs

/-- MATRIX_OP_COMPLETE: a WLOAD, ACLD or ACST runs to its end; a product whose last K-step is done completes (R287). -/
def execMatrixOpComplete (die core op : Nat) (s : State) : Res :=
  match (s.core die core).mops.find? fun m => decide (m.id = op) with
  | none => .next s
  | some m =>
    if m.kind.product then (if m.done then .next (s.endMop die core m m.fault) else .next s)
    else if !(s.core die core).canRun m || s.accLeased die m then .next s
    else .next (s.runMop die core m)

/-! ## WLOAD, ACLD, ACST (R295, R296, R299) -/

/-- WLOAD. -/
def execWload (f : Fields) (s : State) : Res :=
  issue .c false (dab f) f (fun s =>
    let m : MOp := { id := 0, owner := s.g.uid, iaddr := s.g.pc, kind := .wload, mod := f.mod, imm := f.imm, addr := s.va f, shape := s.vb f }
    if 128 < m.nc then .trap { cause := cMSHAPE } s
    else if m.addr.toNat % 16 ≠ 0 || m.stride % bclBytes m.bcl ≠ 0 then .trap (fltAt cALIGN 0 m.addr.toNat) s
    else if 256 < m.wboff + m.ns * bclUnits m.bcl then .trap { cause := cWBOUND } s
    else withEngine (issueMop m) s) s

/-- The shared part of ACLD and ACST. -/
def accTransfer (k : MKind) (f : Fields) (s : State) : Out :=
  let m : MOp := { id := 0, owner := s.g.uid, iaddr := s.g.pc, kind := k, mod := f.mod, imm := f.imm, addr := s.va f, shape := s.vb f }
  if !accOk (accRow f.imm) (accCol f.imm) m.rows2 m.cols2 then .trap { cause := cACCBOUND } s
  else if m.addr.toNat % m.esize ≠ 0 || m.stride % m.esize ≠ 0 then .trap (fltAt cALIGN 0 m.addr.toNat) s
  else withEngine (issueMop m) s
/-- ACLD (R299). -/
def execAcld (f : Fields) (s : State) : Res := issue .c false (dab f) f (accTransfer .acld f) s
/-- ACST (R299). -/
def execAcst (f : Fields) (s : State) : Res := issue .c false (dab f) f (accTransfer .acst f) s

/-! ## Joining, status, splitting (R300-R302) -/

/-- The group's incomplete operations, those saved with its team among them. -/
def State.myMops (s : State) : List MOp := s.mopsOf s.g

/-- The status word of MSYNC (R300). -/
def msyncWord (nflt : Nat) (freed : Bool) : Word :=
  BitVec.ofNat 64 (256 * nflt + (if freed then 2 else 0) + (if nflt = 0 then 0 else 1))
/-- MSYNC (R300). -/
def execMsync (f : Fields) (s : State) : Res :=
  issue .c false (dab f) f (withEngine fun s =>
    if !s.myMops.isEmpty then .wait (s.block .msync 0 0 s.now)
    else
      let n := s.g.mflt
      let s := (s.setG { s.g with mflt := 0 }).acquireG
      let free := f.mod.getLsbD 0 && s.myCore.mops.isEmpty
      let s := s.putD f (msyncWord n free)
      .done (if free then s.freeEngine s.g.die s.g.core else s).advance) s

/-- The word of R301. -/
def State.mstatWord (s : State) : Word :=
  let kpos := ((s.myMops.find? fun m => m.kind.product).map (·.kpos)).getD 0
  BitVec.ofNat 64 (s.myMops.length * 2 ^ 32 + kpos * 2 ^ 16 + (if s.g.mflt = 0 then 0 else 4)
    + (if s.myCore.engineWait.contains s.g.teamId then 2 else 0) + (if s.myCore.engine = some s.g.teamId then 1 else 0))
/-- MSTAT (R301). -/
def execMstat (f : Fields) (s : State) : Res :=
  issue .c false (dab f) f (fun s => .done (s.putD f s.mstatWord).advance) s

/-- A team's block of a result, or all ones (R302). -/
def msplitValue (t rb cb : Nat) : Word :=
  if rb * cb ≤ t then BitVec.allOnes 64 else BitVec.ofNat 64 (256 * (t / cb) + 256 * (t % cb) * 2 ^ 32)
/-- MSPLIT (R302). -/
def execMsplit (f : Fields) (s : State) : Res :=
  issue .c false (dab f) f (fun s =>
    let rb := (s.va f).toNat % 256
    let cb := bits (s.va f).toNat 15 8
    if rb = 0 || cb = 0 || 32 < rb * cb then .trap { cause := cMSHAPE } s
    else .done (s.putD f (msplitValue s.g.srcs.team rb cb)).advance) s

end Sys2Proof.Machine
end

