-- ==== Sys2Proof/Machine/Sched.lean ====
section
/-! DEFINITION. Records, operand tokens, Lovage's acceptance and placement, the retirement of gangs and tasks, opcode 0x90
(spec/20 R305-R321, spec/02 R23-R45). -/

namespace Sys2Proof.Machine

/-! ## Time and the hub die's reads -/

/-- Core cycles of a number of microseconds at 1.7 GHz (R18). -/
def usCycles (us : Nat) : Nat := 1700 * us

/-- n bytes that the hub die or an engine reads at a virtual address of a logical device, within one page; none where the
access fails (R178, R193, R403, R451). -/
def State.hubRead (s : State) (dev : Nat) (secure : Bool) (va : Int) (n : Nat) : Option (List Byte) :=
  match s.translateAny dev secure .r va with
  | .error _ => none
  | .ok x =>
    if x.tgt = 0 then
      let k := memKey dev x.ofs
      if s.anyBad k n then none else some (bytesAt s.mem k n)
    else if x.tgt = 1 then (if s.linkUp then some (bytesAt s.mem (hostKey x.ofs) n) else none)
    else
      match s.peerHome dev x.handle x.ofs .r secure with
      | .ok (some k) => if s.anyBad k n then none else some (bytesAt s.mem k n)
      | _ => none

/-- What such a read leaves: the die's TLB filled, the line in its home's L2, the link crossed (R181, R185, R405). -/
def State.hubTouch (s : State) (dev : Nat) (secure : Bool) (va : Int) : State :=
  match s.translateAny dev secure .r va with
  | .error _ => s
  | .ok x =>
    let s := s.fillXl dev none secure va.toNat x
    let h : Hint := { evp := 3, cmp := bit x.leaf 10 }
    if x.tgt = 0 then s.noteLine (memKey dev x.ofs) h
    else if x.tgt = 2 then
      match s.peerHome dev x.handle x.ofs .r secure with
      | .ok (some k) => (s.cross dev (dieOfKey k)).noteFrom dev k h
      | _ => s
    else s
/-- The same for an entry of a table, at an offset from the base that a register gives. -/
def State.entryTouch (s : State) (dev reg : Nat) (secure : Bool) (ofs : Nat) : State :=
  if bit (s.mrN reg) 0 then s.hubTouch dev secure (bits (s.mrN reg) 56 12 * 4096 + ofs : Nat) else s

/-! ## Task types (R305-R307) -/

/-- A table entry's fields (R306). -/
def TType.ofEntry (e : Nat) : TType := {
  raw := BitVec.ofNat 128 e, entry := BitVec.ofNat 64 e, regs := bits e 72 64, spad := bits e 81 73, team := bits e 86 82
  groups := bits e 93 87 + 1, gangs := bits e 101 94 + 1, rl := bits e 103 102, rs := bits e 105 104, ecls := bits e 109 106
  lteam := bits e 114 110, steam := bits e 119 115 }

/-- Groups of a loader and of a storer team, and the cluster size (R307). -/
def TType.lt (t : TType) : Nat := if t.lteam = 0 then t.team else t.lteam
def TType.st (t : TType) : Nat := if t.steam = 0 then t.team else t.steam
def TType.ksize (t : TType) : Nat := t.rl * t.lt + t.rs * t.st + (4 - t.rl - t.rs) * t.team
/-- The gang has roles. -/
def TType.roles (t : TType) : Bool := t.rl ≠ 0 || t.rs ≠ 0
/-- Groups that fit on an empty core (R307). -/
def TType.most (t : TType) : Nat := Nat.min (Nat.min 24 (384 / t.regs)) (if t.spad = 0 then 24 else 256 / t.spad)

/-- An entry is valid (R307). -/
def TType.valid (t : TType) : Bool :=
  let e := t.raw.toNat
  bit e 127 && bits e 126 120 = 0 && decide (1 ≤ t.regs) && decide (t.regs ≤ 384) && decide (t.spad ≤ 256) && decide (t.team ≤ 24)
    && validTarget t.entry.toNat && decide (t.rl + t.rs ≤ 3) && decide (t.lteam ≤ 24) && decide (t.steam ≤ 24)
    && (if t.roles then
          t.team ≠ 0 && t.ksize ≠ 0 && t.groups % t.ksize = 0 && decide (t.groups / t.ksize ≤ 8)
            && decide (t.lt ≤ t.most) && decide (t.st ≤ t.most)
        else t.team = 0 || (t.groups % t.team = 0 && decide (t.groups / t.team ≤ 32)))
    && decide (t.team ≤ t.most) && decide (t.groups ≤ 32 * (if t.team = 0 then t.most else t.team))

/-- An entry of a logical device's task-type table; none where the table is not in use or cannot be read (R305). -/
def State.typeEntry (s : State) (dev type : Nat) : Option TType :=
  let r := s.mrN (offTTBR dev)
  if bit r 0 then (s.hubRead dev (s.secure dev) (bits r 56 12 * 4096 + 16 * type : Nat) 16).map fun b => TType.ofEntry (leVal b)
  else none

/-- The read of such an entry. -/
def State.typeTouch (s : State) (dev type : Nat) : State := s.entryTouch dev (offTTBR dev) (s.secure dev) (16 * type)

/-! ## Records (R308) -/

/-- Fields of a record. -/
def recArg (r : Nat) : Nat := bits r 63 0
def recType (r : Nat) : Nat := bits r 119 112
def recPrio (r : Nat) : Nat := bits r 123 120
def recDie (r : Nat) : Nat := bits r 127 124
def recIns (r : Nat) : List Nat := ((List.range 4).map fun i => bits r (139 + 12 * i) (128 + 12 * i)).filter fun t => decide (t ≠ 0)
def recOuts (r : Nat) : List Nat := ([bits r 187 176, bits r 199 188]).filter fun t => decide (t ≠ 0)
/-- The entry a record runs under: a gang record replaces GROUPS and TEAM and takes one gang (R308). -/
def TType.under (t : TType) (gang : Bool) (r : Nat) : TType :=
  if gang then { t with groups := bits r 206 200 + 1, team := bits r 211 207, gangs := 1 } else t

/-! ## Operand tokens (R309-R311) -/

/-- A token's pending count. -/
def State.token (s : State) (dev t : Nat) : Nat := ((kget (s.dev dev).tokens t).getD 0).toNat
/-- Sets a token's pending count. -/
def State.setToken (s : State) (dev t n : Nat) : State :=
  s.modDev dev fun d => { d with tokens := if n = 0 then kdel d.tokens t else kset d.tokens t (BitVec.ofNat 20 n) }
/-- Every input token of a record reads zero. -/
def State.insClear (s : State) (dev : Nat) (rec : BitVec 256) : Bool := (recIns rec.toNat).all fun t => s.token dev t = 0
/-- Waiting tasks of a logical device whose input tokens all read zero become ready (R310). -/
def State.wakeTasks (s : State) (dev : Nat) : State :=
  { s with tasks := s.tasks.map fun (e : Nat × Task) =>
      if e.2.die = dev && decide (e.2.life = .waiting) && s.insClear dev e.2.record then
        (e.1, { e.2 with life := .ready, readyAt := s.now, nextAt := s.now })
      else e }
/-- Subtracts 1 from a nonzero count (R310). -/
def State.subToken (s : State) (dev t : Nat) : State :=
  let n := s.token dev t - 1
  let s := s.setToken dev t n
  if n = 0 then s.wakeTasks dev else s

/-! ## Acceptance (R310, R312, R464) -/

/-- The launch's outstanding count reads zero: a wave is requested, and the waves that begin from now on count (R47). -/
def State.countZero (s : State) (launch : Nat) : State :=
  { s.modLaunch launch fun l => { l with zeroWave := some s.hub.waveNum, quiet := false } with
    hub := { s.hub with waveReq := s.hub.waveReq + 1 } }

/-- A rejected record: logged, and the launch fails (R307). A launch without tasks then counts zero (R44). -/
def State.rejectRec (s : State) (dev launch : Nat) (cause : BitVec 8) (info : Nat) : State :=
  let s := s.logFail dev launch (s.launchRec launch { cause := cause, info := BitVec.ofNat 32 info })
  match s.launch? launch with
  | some l => if l.outstanding = 0 && l.zeroWave.isNone then s.countZero launch else s
  | none => s

/-- A task is counted as outstanding and takes the launch's next ordinal (R28, R44). A CHAIN successor and a regrouped task, for which no
record is accepted, take one too, in the order of their start: R28 speaks of records only (log entry 42). -/
def State.addTask (s : State) (launch job die : Nat) (rec : BitVec 256) (t : TType) (life : TaskLife) : Nat × State :=
  let (id, s) := s.take
  let k : Task := {
    launch := launch, job := job, die := die, record := rec, ttype := t, ordinal := ((s.launch? launch).map (·.ordinal)).getD 0, life := life
    readyAt := s.now, nextAt := s.now, arg := BitVec.ofNat 64 (recArg rec.toNat) }
  let s := { s with tasks := kset s.tasks id k }
  let s := s.modLaunch launch fun l =>
    if l.dead then { l with ordinal := l.ordinal + 1 }
    else { l with ordinal := l.ordinal + 1, outstanding := l.outstanding + 1, zeroWave := none, quiet := false }
  (id, s.touchAt die job)

/-- How often a token stands in a list. -/
def occurs (t : Nat) (ts : List Nat) : Nat := (ts.filter fun u => decide (u = t)).length

/-- Lovage takes a record, or the hub die rejects it: the task type first, then the tokens (R307, R310, R464). Of two output tokens that would
both overflow TOKFULL names OUT0, which the spec does not say (log entry 66). -/
def State.acceptRec (s : State) (launch job die : Nat) (rec : BitVec 256) (gang : Bool) : State :=
  let r := rec.toNat
  match (s.typeEntry die (recType r)).map fun t => t.under gang r with
  | none => s.rejectRec die launch cTTYPE (recType r)
  | some t =>
    if !t.valid then s.rejectRec die launch cTTYPE (recType r)
    else
      let outs := recOuts r
      match outs.find? fun k => 0xFFFFF < s.token die k + occurs k outs with
      | some k => s.rejectRec die launch cTOKFULL k
      | none =>
        let s := outs.foldl (fun s k => s.setToken die k (s.token die k + 1)) (s.typeTouch die (recType r))
        (s.addTask launch job die rec t (if s.insClear die rec then .ready else .waiting)).2

/-- Waiting and ready tasks of a die, and whether Lovage is full (R312). -/
def State.held (s : State) (die : Nat) : Nat :=
  (s.tasks.filter fun e => e.2.die = die && (decide (e.2.life = .waiting) || decide (e.2.life = .ready))).length
def State.lovageFull (s : State) (die : Nat) : Bool := 16384 ≤ s.held die

/-- A record that enters the fabric or goes to the die's own Lovage, with the job it carries; one to or from a dead die is given up (R318,
R406, R409, R411). -/
def State.sendRec (s : State) (owner launch job fromDie toDie : Nat) (rec : BitVec 256) (gang : Bool) : State :=
  let (id, s) := s.take
  let s := if fromDie = toDie then s.touchAt fromDie job else s.count fromDie job .inj
  if fromDie ≠ toDie && ((s.die fromDie).dead || (s.die toDie).dead) then s.count 8 job .lost
  else ({ s with fab := { s.fab with recs := s.fab.recs ++ [{
    id := id, owner := owner, record := rec, gang := gang, launch := launch, job := job, fromDie := fromDie, toDie := toDie }] } } : State).wakePair fromDie toDie

/-- RECORD_ACCEPTANCE: the target die takes a record once it is ready and Lovage has room, in the order of its sender
(R310, R312, R411, R456). -/
def execRecordAcceptance (rec : Nat) (s : State) : Res :=
  match s.fab.recs.find? fun r => decide (r.id = rec) with
  | none => .next s
  | some r =>
    let behind := s.fab.recs.any fun q => q.id < r.id && q.owner = r.owner && q.toDie = r.toDie
    if behind || !s.dieReady r.toDie || s.lovageFull r.toDie then .next s
    else
      let s := { s with fab := { s.fab with recs := s.fab.recs.filter fun q => decide (q.id ≠ rec) } }
      let s := if r.fromDie = r.toDie then s else (s.count r.toDie r.job .cons).cross r.fromDie r.toDie
      .next (s.acceptRec r.launch r.job r.toDie r.record r.gang)

/-! ## Resources (R33, R315, R316) -/

/-- A group holds its core's resources. -/
def Group.resident (g : Group) : Bool :=
  !g.handed && (match g.life with | .active | .waiting | .ended => true | _ => false)
/-- A gang's teams stand on their cores: it is not saved. What is no gang's counts as standing. -/
def State.standing (s : State) (gang : Nat) : Bool :=
  match s.gang? gang with | some k => decide (k.life = .live) || decide (k.life = .evicting) | none => true
/-- Pool entries of a core that no standing team but one reserves (R368, R388). -/
def State.unreserved (s : State) (die core key : Nat) : Nat :=
  1024 - (s.teams.map fun t =>
    if t.1 ≠ key && t.2.die = die && t.2.core = core && s.standing (t.1 / 32) then t.2.quota else 0).sum
/-- The groups that hold a core's resources. -/
def State.residents (s : State) (die core : Nat) : List Group := s.groups.filter fun g => g.resident && g.die = die && g.core = core
/-- KiB of scratchpad share of a group. -/
def State.shareOf (s : State) (g : Group) : Nat := ((s.gang? g.gang).map (·.ttype.spad)).getD 0
/-- Weight of an energy class on a die, in mW per group (R316). -/
def State.weight (s : State) (die cls : Nat) : Nat :=
  if cls = 0 then 0 else bits (s.mrN (offLVECW die (cls / 4))) (16 * (cls % 4) + 15) (16 * (cls % 4))
/-- Charges standing on a die (R315). -/
def State.charges (s : State) (die : Nat) : Nat :=
  ((s.groups.filter fun g => g.resident && g.die = die).map fun g =>
    s.weight die (((s.gang? g.gang).map (·.ttype.ecls)).getD 0)).sum
/-- n more groups of a class are admitted under BUDGET, not counting an amount (R315). -/
def State.admitted (s : State) (die cls n less : Nat) : Bool :=
  s.charges die - less + n * s.weight die cls ≤ s.mrN (offLVBUD die) % 2 ^ 32

/-- Groups of a task type that a core can take now; none while a CHAIN successor waits there (R33, R321). A free run of the register
space (R99) is one: R99 does not say where an allocation lies, and the model never finds the free KiB in pieces (log entry 62). -/
def State.fit (s : State) (die core : Nat) (t : TType) : Nat :=
  if !(s.core die core).chains.isEmpty then 0
  else
    let gs := s.residents die core
    let regs := 384 - (gs.map fun g => g.alloc / 1024).sum
    let spad := 256 - (gs.map s.shareOf).sum
    Nat.min (Nat.min (24 - gs.length) (regs / t.regs)) (if t.spad = 0 then 24 else spad / t.spad)

/-! ## Placement (R23, R28, R33, R313, R314) -/

/-- What cores can take, from a core on, cluster by cluster: the rest of that core's cluster first. -/
def byCluster (fits : List Nat) (c : Nat) : List (List Nat) :=
  (fits.take (4 - c % 4) :: (List.range 10).map fun i => (fits.drop (4 - c % 4 + 4 * i)).take 4).filter fun l => !l.isEmpty
/-- Some groups left can be placed on at most m cores of a list of clusters, the first of which has a team already where got holds, so that
no cluster before the last used one is left out. must: what the best core of each cluster passed can take; free: what the others can. -/
def finishes (left m : Nat) : Bool → List (List Nat) → List Nat → List Nat → Bool
  | _, [], _, _ => false
  | got, fs :: rest, must, free =>
    let best := fs.foldl Nat.max 0
    if !got && best = 0 then false
    else
      let must := if got then must else best :: must
      let free := free ++ (if got then fs else fs.erase best)
      (decide (must.length ≤ Nat.min m left) &&
        decide (left ≤ must.sum + ((sortBy (fun a b => decide (b ≤ a)) free).take (m - must.length)).sum)) || finishes left m false rest must free
/-- Core by core from a cluster upward, where Lovage chooses the teams: each core takes as many groups as it can of what is left so that the
rest finds its place on at most 32 cores; no cluster between two used ones is left out (R23, R25, R314). fits: what the cores from core c can take. -/
def planFrom : Nat → List Nat → Nat → List (Nat × Nat) → Bool → Option (List (Nat × Nat))
  | 0, _, _, plan, _ => some plan
  | _, [], _, _, _ => none
  | left, f :: fs, c, plan, got =>
    let last := decide (c % 4 = 3)
    let after (k : Nat) : Bool := !last && (got || decide (0 < k))
    let ok (k : Nat) : Bool := left - k = 0 || ((!last || got || decide (0 < k)) &&
      finishes (left - k) (32 - plan.length - (if k = 0 then 0 else 1)) (after k) (byCluster fs (c + 1)) [] [])
    let most := if plan.length < 32 then Nat.min f left else 0
    match ((List.range (most + 1)).map fun i => most - i).find? ok with
    | none => none
    | some k => planFrom (left - k) fs (c + 1) (if k = 0 then plan else plan ++ [(c, k)]) (after k)
termination_by structural _ fs => fs

/-- A team may stand on a core behind the team before it: cores ascend and no cluster is left out (R23, R28). -/
def behind (prev : Option Nat) (c : Nat) : Bool := match prev with | none => true | some p => decide (p < c) && decide (c / 4 ≤ p / 4 + 1)
/-- For every team, the last first given by the recursion: the cores on which it can stand so that every later team has a place too.
can: the team of an index may stand on a core. -/
def stands (can : Nat → Nat → Bool) : Nat → Nat → List (List Nat)
  | 0, _ => []
  | n + 1, i =>
    let later := stands can n (i + 1)
    ((List.range 40).filter fun c => can i c && (match later with | [] => true | r :: _ => r.any (behind (some c)))) :: later
/-- The lowest cores, team by team. -/
def lowest : Option Nat → List (List Nat) → Option (List Nat)
  | _, [] => some []
  | prev, r :: rs =>
    match r.find? (behind prev) with
    | some c => (lowest (some c) rs).map fun cs => c :: cs
    | none => none

/-- The teams of a gang with roles over whole clusters from a cluster (R314). -/
def rolePlan (t : TType) (c0 : Nat) : List (Nat × Nat) :=
  (List.range (t.groups / t.ksize)).flatMap fun i => (List.range 4).map fun p =>
    (4 * (c0 + i) + p, if p < t.rl then t.lt else if 4 - t.rs ≤ p then t.st else t.team)

/-- The placement of least lowest cluster, then lowest cores, for given team sizes (R314). may: a further condition on a team's core. -/
def State.plan (s : State) (die : Nat) (t : TType) (sizes : Option (List Nat)) (may : Nat → Nat → Bool := fun _ _ => true) :
    Option (List (Nat × Nat)) :=
  let fits := (List.range 40).map fun c => s.fit die c t
  if !s.admitted die t.ecls t.groups 0 then none
  else if t.roles then
    ((List.range (11 - t.groups / t.ksize)).map (rolePlan t)).find? fun p =>
      p.zipIdx.all fun e => decide (e.1.2 ≤ fits.getD e.1.1 0) && may e.2 e.1.1
  else
    match sizes with
    | none => (List.range 10).findSome? fun c0 => planFrom t.groups (fits.drop (4 * c0)) (4 * c0) [] false
    | some ss => (lowest none (stands (fun i c => decide (ss.getD i 0 ≤ fits.getD c 0) && may i c) ss.length 0)).map fun cs => cs.zip ss

/-- Team sizes of a task type: fixed, or those given when they divide the gang, or Lovage's own (R25, R314); where those given do not fit,
its own are taken. -/
def TType.sizes (t : TType) (given : List Nat) : Option (List Nat) :=
  if t.team ≠ 0 then some (List.replicate (t.groups / t.team) t.team)
  else if given.sum = t.groups && given.length ≤ 32 && given.all (fun n => 0 < n) then some given else none

/-- The lowest slot of a core that is free. -/
def State.freeSlot (s : State) (die core : Nat) : Nat :=
  ((List.range 24).find? fun k => (s.residents die core).all fun g => g.slot ≠ k).getD 0

/-- A gang handle that no live gang of the logical device has, after the last one given; 0 names no gang (R326, R407). -/
def State.newHandle (s : State) (die : Nat) : BitVec 32 :=
  let used := (s.gangs.filter fun e => e.2.die = die).map fun e => e.2.handle
  let l := (s.dev die).lastHandle
  ((List.range (used.length + 2)).findSome? fun i =>
    let h := l + 1 + BitVec.ofNat 32 i
    if h = 0 || used.contains h then none else some h).getD 1

/-- The register allocation of a placed group (R107, R108). -/
def firstRegs (arg : Word) (start : Nat) (inherited : List Byte) : Bytes := bsetMany (wrLE [] 0 8 arg.toNat) start inherited
/-- m0 of a placed group (R107, R39). -/
def firstMask (batch : Option (Nat × List (Nat × BitVec 512))) : Word :=
  match batch with | none => BitVec.allOnes 64 | some b => mfromValue false b.2.length

/-- One group of a gang being placed (R28, R107). -/
def State.placeGroup (s : State) (gid : Nat) (gangIdx tid : Nat) (t : Task) (l : Option Launch) (die core team idx rank : Nat)
    (start : Nat) (inherited : List Byte) : State :=
  let (uid, s) := s.take
  let r := t.record.toNat
  let g : Group := {
    uid := uid, life := .waiting, gang := gid, team := team, rank := rank, die := die, core := core, slot := s.freeSlot die core
    task := tid, launch := t.launch, waitSince := s.now, job := t.job, alloc := 1024 * t.ttype.regs
    regs := firstRegs t.arg start inherited, pc := t.ttype.entry
    masks := Vector.ofFn fun i => if i.val = 0 then firstMask t.batch else 0
    layout := (l.map (·.layout)).getD 0, batch := t.batch
    srcs := { group := idx, team := team, rank := rank, gang := gangIdx, tileX := bits r 79 64, tileY := bits r 95 80
              tileZ := bits r 111 96, task := t.ordinal.toNat, launch := (l.map (·.seq.toNat % 2 ^ 32)).getD 0 } }
  ({ s with rest := s.rest ++ [g] }).acquire die core

/-- The groups of a plan, team by team: (core, team, index in the team, rank). -/
def planGroups (plan : List (Nat × Nat)) : List (Nat × Nat × Nat × Nat) :=
  (plan.foldl (fun (r : Nat × Nat × List (Nat × Nat × Nat × Nat)) p =>
    (r.1 + 1, r.2.1 + p.2, r.2.2 ++ (List.range p.2).map fun i => (p.1, r.1, i, r.2.1 + i))) (0, 0, [])).2.2

/-- The first n ranks. -/
def allRanks (n : Nat) : BitVec 128 := BitVec.ofNat 128 (2 ^ n - 1)

/-- A gang of a task is placed by a plan (R28, R33, R99, R107, R205, R262, R277). Its index is the number of the task's gangs placed before
it: the model places a task's gangs in ascending order, where R34 allows any (log entry 42). -/
def State.placeGang (s : State) (tid : Nat) (t : Task) (plan : List (Nat × Nat)) (start : Nat) (inherited : List Byte) : State :=
  let (gid, s) := s.take
  let h := s.newHandle t.die
  let l := s.launch? t.launch
  let n := allRanks t.ttype.groups
  let k : Gang := { handle := h, die := t.die, task := tid, ttype := t.ttype, record := t.record, prio := recPrio t.record.toNat,
                    nets := List.replicate 16 { memb := n, next := n } }
  let s := { s with gangs := kset s.gangs gid k }
  let s := s.modDev t.die fun d => { d with lastHandle := h }
  let s := (plan.zipIdx).foldl (fun s e =>
    s.setTeam gid e.2 { die := t.die, core := e.1.1, groups := e.1.2, window := 1024 * t.ttype.spad * e.1.2 }) s
  let s := (planGroups plan).foldl (fun s p =>
    s.placeGroup gid t.gangsPlaced tid t l t.die p.1 p.2.1 p.2.2.1 p.2.2.2 start inherited) s
  let s := s.modTask tid fun x => { x with
    gangsPlaced := x.gangsPlaced + 1, nextAt := s.now, life := if x.ttype.gangs ≤ x.gangsPlaced + 1 then .placed else x.life }
  s.touchAt t.die t.job

/-! ## Order of placement (R313, R338) -/

/-- AGE of a die in cycles (R316). -/
def State.age (s : State) (die : Nat) : Nat := usCycles (2 ^ (s.mrN (offLVCFG die) % 16))

/-- Something Lovage offers: a ready task, or a saved gang queued for restore. -/
structure Offer where
  restore : Bool
  id : Nat
  order : Nat
  prio : Nat
  since : Nat
  stuck : Nat
  deriving DecidableEq, Repr

/-- What Lovage of a die can offer. -/
def State.offers (s : State) (die : Nat) : List Offer :=
  let ts := (s.tasks.filter fun e => e.2.die = die && decide (e.2.life = .ready)).map fun e =>
    { restore := false, id := e.1, order := e.1, prio := recPrio e.2.record.toNat, since := e.2.readyAt, stuck := e.2.nextAt : Offer }
  let gs := (s.gangs.filter fun e => e.2.die = die && decide (e.2.life = .restoring)).map fun e =>
    let w := e.2.restoreAt.getD s.now
    { restore := true, id := e.1, order := e.2.task, prio := e.2.prio,
      since := w, stuck := w : Offer }
  ts ++ gs
/-- Effective level (R313). -/
def State.level (s : State) (die : Nat) (o : Offer) : Nat := Nat.min 11 (o.prio + (s.now - o.since) / s.age die)
/-- Offers in descending level, and in acceptance order within a level (R313). -/
def State.offered (s : State) (die : Nat) : List Offer :=
  sortBy (fun a b => decide (s.level die b < s.level die a) ||
    (s.level die a = s.level die b && decide (a.order ≤ b.order))) (s.offers die)

/-- Sizes of a saved gang's teams. -/
def State.savedSizes (s : State) (gang : Nat) : List Nat := (s.teamsOf gang).map fun e => e.2.groups
/-- The pools of the cores have the entries that a saved gang's teams reserved (R368). -/
def State.quotaFits (s : State) (gang die team core : Nat) : Bool :=
  (s.team gang team).quota ≤ s.unreserved die core (teamKey gang team)
/-- The placement an offer would get now. -/
def State.offerPlan (s : State) (die : Nat) (o : Offer) (given : List Nat) : Option (List (Nat × Nat)) :=
  if o.restore then
    match s.gang? o.id with
    | some k => s.plan die k.ttype (some (s.savedSizes o.id)) (s.quotaFits o.id die)
    | none => none
  else
    match s.task? o.id with
    | some t =>
      if s.worldPending die then none else (s.plan die t.ttype (t.ttype.sizes given)).orElse fun _ => s.plan die t.ttype (t.ttype.sizes [])
    | none => none
/-- An offer that a pending world change keeps back: it is not unplaceable, and saved gangs are restored past it (R457). -/
def State.barred (s : State) (die : Nat) (o : Offer) : Bool := !o.restore && s.worldPending die

/-- The oldest level-11 offer has been unplaceable for 2 × AGE at that level: it reserves the die (R313). -/
def State.reserves (s : State) (die : Nat) : Option Offer :=
  match (s.offered die).head? with
  | some o =>
    let at11 := Nat.max (o.since + (11 - o.prio) * s.age die) o.stuck
    if !s.barred die o && s.level die o = 11 && at11 + 2 * s.age die ≤ s.now && (s.offerPlan die o []).isNone then some o else none
  | none => none

/-- The offer that Lovage places next: the first that can be placed, unless the die is reserved for another (R313). -/
def State.nextOffer (s : State) (die : Nat) (given : List Nat) : Option (Offer × List (Nat × Nat)) :=
  let kept : Option Offer := match (s.die die).reserved with
    | some id => (s.offers die).find? fun o => decide (o.id = id)
    | none => s.reserves die
  let os := match kept.filter fun o => !s.barred die o with | some o => [o] | none => s.offered die
  os.findSome? fun o => (s.offerPlan die o given).map fun p => (o, p)

/-- GANG_PLACEMENT (R33, R313-R315). -/
def execGangPlacement (die : Nat) (sizes : List Nat) (s : State) : Res :=
  match s.nextOffer die sizes with
  | some (o, p) =>
    (match o.restore, s.task? o.id with
     | false, some t =>
       .next ((s.placeGang o.id t p 0 []).modDie die fun d => { d with reserved := if d.reserved = some o.id then none else d.reserved })
     | _, _ => .next s)
  | none => .next s

/-- The offer a die is reserved for, while it stands (R313). -/
def State.reservedFor (s : State) (die : Nat) : Option Offer :=
  (s.die die).reserved.bind fun id => (s.offers die).find? fun o => decide (o.id = id)
/-- AGING_RESERVATION: a standing reservation stays (R313). -/
def execAgingReservation (die : Nat) (s : State) : Res :=
  match s.reservedFor die, s.reserves die with
  | none, some o => .next (s.modDie die fun d => { d with reserved := some o.id })
  | _, _ => .next s

/-! ## Retirement (R320) -/

/-- Something of the gang's resources is still read or written: a copy, a matrix operation, a BTRAV, a CHAIN successor whose
predecessor it holds. A RAYTRAV touches none of them. -/
def State.gangBusy (s : State) (gang : Nat) : Bool :=
  (s.teamsOf gang).any (fun e =>
    e.2.trav.isSome || e.2.hasSavedOps ||
    ((s.core e.2.die e.2.core).engine = some (gang, e.1) && !(s.core e.2.die e.2.core).mops.isEmpty))
  || s.cores.any fun c =>
    c.2.copies.any (fun x => match s.group? x.owner with | some g => g.gang = gang | none => false)
    || c.2.chains.any fun x => match s.group? x.pred with | some g => g.gang = gang | none => false

/-- GANG_RETIRE: its slots, allocations, shares and charges are free (R315, R320). -/
def execGangRetire (gang : Nat) (s : State) : Res :=
  match s.gang? gang with
  | none => .next s
  | some k =>
    if (s.groupsOf gang).any (fun g => decide (g.life ≠ .ended)) || s.gangBusy gang then .next s
    else
      let s := (s.teamsOf gang).foldl (fun s e => s.settleEngine gang e.1) s
      let s := { s with
        gangs := kdel s.gangs gang
        teams := s.teams.filter fun e => decide (e.1 / 32 ≠ gang) || e.2.rtrav.isSome
        rest := s.rest.filter fun g => decide (g.gang ≠ gang)
        g := if s.g.gang = gang then {} else s.g }
      .next (s.modTask k.task fun t => { t with gangsRetired := t.gangsRetired + 1 })

/-- An asynchronous operation of a task's groups is incomplete: an XCOPY job or a RAYTRAV (R320); the others hold their gang. -/
def State.taskBusy (s : State) (task : Nat) : Bool :=
  (s.dills.any fun e => e.2.queue.any fun j => j.task = task && j.owner ≠ 0)
    || s.teams.any fun e => match e.2.rtrav with | some t => t.task = task | none => false

/-- TASK_RETIRE: the output tokens, then the launch's outstanding count (R310, R44, R320). -/
def execTaskRetire (task : Nat) (s : State) : Res :=
  match s.task? task with
  | none => .next s
  | some t =>
    if t.life ≠ .placed || t.gangsRetired < t.ttype.gangs || s.taskBusy task then .next s
    else
      let s := { s with tasks := kdel s.tasks task }
      let s := (recOuts t.record.toNat).foldl (fun s k =>
        if s.token t.die k = 0 then
          s.logFail t.die t.launch (s.launchRec t.launch { cause := cTOKUND, info := BitVec.ofNat 32 k })
        else s.subToken t.die k) s
      match s.launch? t.launch with
      | none => .next s
      | some l =>
        if l.dead then .next s
        else
          let s := s.modLaunch t.launch fun x => { x with outstanding := x.outstanding - 1 }
          .next (if l.outstanding = 1 then s.countZero t.launch else s)

/-! ## TENQ, GENQ, TDEP (R318, R319) -/

/-- The issuing device holds a valid handle of another device. -/
def State.holdsHandle (s : State) (dev die : Nat) : Bool := (s.dev dev).handles.any fun h => h.2.valid && h.2.exporter = die

/-- TREC of R318. -/
def State.badRecord (s : State) (gang : Bool) (r : Nat) : Bool :=
  r / 2 ^ 212 ≠ 0 || 11 < recPrio r || (8 ≤ recDie r && recDie r ≠ 15) || (!gang && bits r 211 200 ≠ 0)
    || (recDie r ≠ 15 && recDie r ≠ s.g.die && !s.holdsHandle s.g.die (recDie r))

/-- The shared part of TENQ and GENQ: the record is read as a plain load reads, which a held line holds (R318, R405). -/
def enqueue (gang : Bool) (f : Fields) (s : State) : Out :=
  s.releasing fun s =>
    match s.checkElem .r clsNormal 32 0 (s.va f).toNat with
    | .error r => .trap r s
    | .ok x =>
      let a : LaneAcc := ⟨0, (s.va f).toNat, x⟩
      match s.poisonOf .r 32 a with
      | some r => .trap r s
      | none =>
        if s.loadHeld 32 a then .wait s.hold else
        let s' := s.loadTouch ownHint 32 a
        let rcd := BitVec.ofNat 256 (leVal (s.laneBytes 32 a))
        let dest := if recDie rcd.toNat = 15 then s.g.die else recDie rcd.toNat
        if s.badRecord gang rcd.toNat then .trap { cause := cTREC } s
        else if dest = s.g.die && 16384 ≤ s.held dest + (s.fab.recs.filter fun r => r.toDie = dest && r.fromDie = dest).length then .wait s.hold
        else .done (s'.sendRec s.g.uid s.g.launch s.g.job s.g.die dest rcd gang).advance
/-- TENQ (R318). -/
def execTenq (f : Fields) (s : State) : Res := issue .c false (dab f) f (enqueue false f) s
/-- GENQ (R318). -/
def execGenq (f : Fields) (s : State) : Res := issue .c false (dab f) f (enqueue true f) s

/-- Token and N of a TDEP; the trap that reports a token. -/
def tdepTok (f : Fields) : Nat := f.immN % 4096
def tokTrap (c : BitVec 8) (t : Nat) : FRec := { cause := c, info := BitVec.ofNat 32 t }
/-- TDEP with ADD (R319). -/
def execTdepAdd (f : Fields) (s : State) : Res :=
  issue .c false (dab f) f (fun s =>
    let t := tdepTok f
    let n := f.immN / 4096
    if t = 0 then .trap (tokTrap cTREC t) s
    else if 0xFFFFF < s.token s.g.die t + n then .trap (tokTrap cTOKOVF t) s
    else .done (s.setToken s.g.die t (s.token s.g.die t + n)).advance) s
/-- TDEP with DONE (R319). -/
def execTdepDone (f : Fields) (s : State) : Res :=
  issue .c false (dab f) f (fun s =>
    let t := tdepTok f
    if t = 0 || f.immN / 4096 ≠ 0 then .trap (tokTrap cTREC t) s
    else s.releasing fun s =>
      if s.token s.g.die t = 0 then .trap (tokTrap cTOKUND t) s
      else .done (s.subToken s.g.die t).advance) s

/-! ## RETIRE, CHAIN (R320, R321) -/

/-- MSTATE: an instruction that a handler must not issue, or that only a handler may (R418, R419). -/
def mstate (fn : Nat) : FRec := { cause := cMSTATE, detail := BitVec.ofNat 8 fn }

/-- The wait, fault delivery and release of R320, then the rest. -/
def State.retiring (s : State) (k : State → Out) : Out :=
  if s.storesOut s.g.uid then .wait s.hold else s.ordering fun s => s.releasing k

/-- RETIRE (R320). -/
def execRetire (f : Fields) (s : State) : Res :=
  issue .c false (dab f) f (fun s =>
    if s.g.handler.isSome then .trap (mstate 3) s else s.retiring fun s => .done s.endGroup) s

/-- The record of a CHAIN successor: its type and argument, the predecessor's PRIO and TILE (R321). -/
def chainRecord (pred : Nat) (type arg : Nat) : BitVec 256 :=
  BitVec.ofNat 256 (arg + bits pred 111 64 * 2 ^ 64 + type * 2 ^ 112 + recPrio pred * 2 ^ 120 + 15 * 2 ^ 124)

/-- CHAIN (R108, R321). Its own checks are made before the wait and the delivery of a pending record, an order that R321 and R329 leave open (log
entry 66). -/
def execChain (f : Fields) (s : State) : Res :=
  issue .c false (dab f) f (fun s =>
    let start := (s.vb f).toNat % 2 ^ 32
    let len := (s.vb f).toNat / 2 ^ 32
    if s.g.handler.isSome then .trap (mstate 4) s
    else
      match s.typeEntry s.g.die (f.immN % 256) with
      | none => .trap { cause := cTREC } s
      | some t =>
        if !t.valid || t.gangs ≠ 1 || t.groups ≠ 1 then .trap { cause := cTREC } s
        else if len ≠ 0 && (s.g.alloc < start + len || 1024 * t.regs < start + len) then
          .trap { cause := cREGBOUND, detail := 2, info := BitVec.ofNat 32 start } s
        else s.retiring fun s =>
          let pred := ((s.task? s.g.task).map fun t => t.record.toNat).getD 0
          let (tid, s) := (s.typeTouch s.g.die (f.immN % 256)).addTask s.g.launch s.g.job s.g.die (chainRecord pred (f.immN % 256) (s.va f).toNat) t .placed
          let c : Chain := { task := tid, pred := s.g.uid, start := start, bytes := bytesAt s.g.regs start len }
          .done (s.modCore s.g.die s.g.core fun k => { k with chains := k.chains ++ [c] }).endGroup) s

/-- A successor is placed if its demand can be granted, its predecessor's resources counted as free (R321). -/
def State.placeChain (s : State) (die core : Nat) (c : Chain) : Option State :=
  let cs := (s.core die core).chains.filter fun x => decide (x ≠ c)
  match s.task? c.task with
  | none => some (s.modCore die core fun k => { k with chains := cs })
  | some t =>
    let s' := (s.modGroup c.pred fun g => { g with handed := true }).modCore die core fun k => { k with chains := [] }
    if 1 ≤ s'.fit die core t.ttype && s'.admitted die t.ttype.ecls 1 0 then
      some ((s'.placeGang c.task t [(core, 1)] c.start c.bytes).modCore die core fun k => { k with chains := cs })
    else none
/-- CHAIN_SUCCESSOR_PLACEMENT: of a core's successors the earliest issued whose demand can be granted, where R321 gives no order among them (log
entry 66). -/
def execChainSuccessorPlacement (die core : Nat) (s : State) : Res :=
  match (if core < 40 then (s.core die core).chains else []).findSome? (s.placeChain die core) with
  | some s => .next s
  | none => .next s

end Sys2Proof.Machine
end

