-- ==== Sys2Proof/Machine/Beam.lean ====
section
/-! DEFINITION. Beam records, the pool and the beam instructions: opcodes 0xA0 to 0xA2 but for the graph's (spec/26
R365-R372, R387-R399). -/

namespace Sys2Proof.Machine

/-! ## FP32 values (R367) -/

/-- FP32 bits that are finite. -/
def fin32 (b : Nat) : Bool := match fp32.decode b with | .zero _ | .fin _ => true | _ => false
/-- The exact value of FP32 bits; of an infinite coefficient a free value (log entry 6). -/
def f32q (b : Nat) : Q := (fp32.decode (if fin32 b then b else (Config.infiniteCoefficient (BitVec.ofNat 32 b)).toNat)).toQ
/-- An exact value rounded once to FP32 under RNE: beyond the range an infinity (R134, R367). -/
def rnd32 (q : Q) : Nat := fp32.rne (FV.ofQ false q)
/-- An implementation's value where it lies within a bound of the true value, else the rounded true value. -/
def within (c : Nat) (bound true_ : Q) : Nat :=
  if fin32 c && ((f32q c).sub true_).abs.le bound then c else fp32.rne (FV.ofQ false true_)

/-- Point and plane of FP32 words. -/
def vecOf (ws : List Nat) : V3 := ⟨f32q (ws.getD 0 0), f32q (ws.getD 1 0), f32q (ws.getD 2 0)⟩
def planeOf (ws : List Nat) : Plane := ⟨vecOf ws, f32q (ws.getD 3 0)⟩
def roundVec (v : V3) : List Nat := [rnd32 v.x, rnd32 v.y, rnd32 v.z]
def roundPlane (p : Plane) : List Nat := roundVec p.n ++ [rnd32 p.d]
/-- The negation of a coefficient as stored: an infinite one is infinite, a zero +0 (R367). -/
def negWord (w : Nat) : Nat := if w % 2 ^ 31 = 0 then 0 else w ^^^ 0x80000000

/-! ## Records (R366) -/

/-- A beam: its planes and points as the FP32 words the record holds. -/
structure Beam where
  planes : List (List Nat)
  o : List Nat
  u : List Nat := [0, 0, 0]
  v : List Nat := [0, 0, 0]
  w : Nat := 0
  om : Nat := 0
  tag : Nat := 0
  hit : Nat := 0
  depth : Nat := 0
  mirr : Bool := false
  rcv : Bool := false
  mdep : Bool := false
  pay : Nat := 0
  deriving DecidableEq, Repr

/-- Word i of a record. -/
def recWord (r : Nat) (i : Nat) : Nat := bits r (32 * i + 31) (32 * i)
def recWords (r a n : Nat) : List Nat := (List.range n).map fun i => recWord r (a + i)
/-- A number from 32-bit words, lowest first. -/
def ofWords (ws : List Nat) : Nat := ws.foldr (fun w n => w + 2 ^ 32 * n) 0
/-- CTRL of a record, and its STATE. -/
def recCtrl (r : Nat) : Nat := recWord r 61
def recState (r : Nat) : Nat := bits (recCtrl r) 11 10
def stLive : Nat := 0
def stWork : Nat := 1
def stDone : Nat := 2
def stTaken : Nat := 3
/-- A record with another STATE. -/
def setState (r : BitVec 2048) (st : Nat) : BitVec 2048 := BitVec.ofNat 2048 (putBits r.toNat 1963 1962 st)
/-- The beam of a record. -/
def Beam.ofRecord (r : Nat) : Beam := {
  planes := (List.range (recCtrl r % 16)).map fun i => recWords r (4 * i) 4
  o := recWords r 48 3, u := recWords r 51 3, v := recWords r 54 3, w := recWord r 57, om := recWord r 58, tag := recWord r 59
  hit := recWord r 60, depth := bits (recCtrl r) 6 4, mirr := bit (recCtrl r) 7, rcv := bit (recCtrl r) 8, mdep := bit (recCtrl r) 9
  pay := bits r 2047 1984 }
/-- The record of a beam; unused planes are zero. -/
def Beam.record (b : Beam) (st : Nat) : BitVec 2048 :=
  let ctrl := b.planes.length + b.depth * 16 + (if b.mirr then 128 else 0) + (if b.rcv then 256 else 0) + (if b.mdep then 512 else 0) + st * 1024
  BitVec.ofNat 2048 (ofWords (b.planes.flatMap id ++ List.replicate (48 - 4 * b.planes.length) 0 ++ b.o ++ b.u ++ b.v
    ++ [b.w, b.om, b.tag, b.hit, ctrl, b.pay % 2 ^ 32, b.pay / 2 ^ 32]))

/-- The beam's planes, exact. -/
def Beam.exact (b : Beam) : List Plane := b.planes.map planeOf
/-- F and the measure (R365). -/
def Beam.far (b : Beam) : List V3 := sectionOf b.exact 1
def Beam.measure (b : Beam) : Q := solidAngleOf (vecOf b.o) b.far
/-- The beam with the OMEGA the engine computes for its planes and origin (R367). -/
def Beam.withOmega (b : Beam) : Beam :=
  let q := b.measure
  let shape : Beam := { planes := b.planes, o := b.o }
  { b with om := within (Config.solidAngle (shape.record 0)).toNat (q.mul (Q.pow2 (-22))) q }

/-- A raw record must raise BREC (R366, R389). -/
def rawBad (r : Nat) : Bool :=
  let p := recCtrl r % 16
  p < 5 || 12 < p || recCtrl r / 2 ^ 10 ≠ 0 || (recWords r (4 * p) (48 - 4 * p)).any (fun w => w ≠ 0)
    || !((recWords r 0 (4 * p)).all fin32) || !((recWords r 48 11).all fin32) || (f32q (recWord r 57)).num < 0

/-- The record BMAKE builds for an origin and a target; none for a degenerate lane (R389). -/
def makeBeam (verts : List (List Nat)) (near : Nat) (o : List Nat) (tag pay : Nat) : Option Beam :=
  if !(verts.all fun v => v.all fin32) || !(o.all fin32) then none
  else
    let vs := verts.map vecOf
    let p := vecOf o
    let c := meanOf vs
    let n := c.sub p
    let v (i : Nat) := vs.getD i p
    let far := roundPlane (planeThrough (v 0) (v 1) (v 2) p)
    let fo := (planeOf far).side p
    let fn := (planeOf far).n.dot n
    let nr := f32q near
    let d0 := ((n.dot p).neg).sub (nr.mul ((n.dot n).sqrt 1300))
    let side (k : Nat) := roundPlane (planeThrough p (v (k - 1)) (v (k % vs.length)) c)
    let b : Beam := {
      planes := [roundPlane ((⟨n, d0⟩ : Plane).orient c), far] ++ (List.range vs.length).map fun k => side (k + 1)
      o := o, w := 0x3F800000, tag := tag, hit := 0xFFFFFFFF, pay := pay }
    if fo.num ≤ 0 || 0 ≤ fn.num || ((n.dot n).mul ((fo.div fn).mul (fo.div fn))).le (nr.mul nr) then none
    else if !(roundTrip (⟨n, d0⟩ : Plane) && roundTrip (planeThrough (v 0) (v 1) (v 2) p) && (List.range vs.length).all fun k => roundTrip (planeThrough p (v k) (v ((k + 1) % vs.length)) c))
      then none
    else some b.withOmega
where
  /-- Every coefficient of a plane rounds to a finite value. -/
  roundTrip (p : Plane) : Bool := [p.n.x, p.n.y, p.n.z, p.d].all fun q => fin32 (fp32.rne (FV.ofQ false q))

/-! ## The pool (R368) -/

/-- The lowest free slot. -/
def Team.lowestSlot (t : Team) : Option Nat := (List.range t.quota).find? fun k => (kget t.pool k).isNone
/-- Free slots. -/
def Team.freeSlots (t : Team) : Nat := t.quota - t.pool.length
/-- A slot's STATE; none where it is free. -/
def Team.slotState (t : Team) (k : Nat) : Option Nat := (kget t.pool k).map fun r => recState r.toNat
/-- A slot is freed. -/
def Team.drop (t : Team) (k : Nat) : Team := { t with pool := kdel t.pool k, doneOrder := t.doneOrder.filter fun j => decide (j ≠ k) }
/-- A beam takes the lowest free slot. -/
def Team.add (t : Team) (b : Beam) (st : Nat) : Option (Nat × Team) :=
  t.lowestSlot.map fun k => (k, { t with pool := kset t.pool k (b.record st) })
/-- The record of a slot as BCOV and BFOOT read it: of a WORK slot, as it stood when the traversal took it (R398). -/
def Team.shown (t : Team) (k : Nat) : Option (BitVec 2048) :=
  match t.trav.bind fun v => kget v.taken k with
  | some r => some r
  | none => kget t.pool k

/-- The issuing team's unreserved entries. -/
def State.poolRoom (s : State) : Nat := s.unreserved s.g.die s.g.core (teamKey s.g.gang s.g.team)

/-- BPOOL with the team's quota (R382). -/
def State.bpool (s : State) : FRec := { cause := cBPOOL, info := BitVec.ofNat 32 s.myTeam.quota }
/-- BREC: a raw record's lane stands in INFO and in LANE (R327, R382, R389). -/
def brec (lane : Nat) : FRec := { cause := cBREC, info := BitVec.ofNat 32 lane, lane := BitVec.ofNat 6 lane }

/-- BQUOTA (R388). -/
def execBquota (f : Fields) (s : State) : Res :=
  issue .c false (dab f) f (fun s =>
    let q := (s.va f).toNat
    let t := s.myTeam
    if 1024 < q then .trap s.bpool s
    else if t.trav.isSome then .wait s.hold
    else if t.pool.any fun p => q ≤ p.1 then .trap s.bpool s
    else if t.quota < q && s.poolRoom < q then .wait s.hold
    else .done (s.modMyTeam fun t => { t with quota := q }).advance) s

/-! ## BMAKE (R389) -/

/-- The slots of the made beams in lane order; degenerate lanes take none. -/
def makeSlots (beams : List (Nat × Option Beam)) (t : Team) : List (Nat × Nat) × Team :=
  beams.foldl (fun (r : List (Nat × Nat) × Team) e =>
    match e.2.bind fun b => r.2.add b stLive with
    | some (k, t) => (r.1 ++ [(e.1, k)], t)
    | none => (r.1 ++ [(e.1, 0xFFFFFFFF)], r.2)) ([], t)
/-- The beams enter the pool and D takes their slots. -/
def finishMake (f : Fields) (beams : List (Nat × Option Beam)) (s : State) : State :=
  let (slots, t) := makeSlots beams s.myTeam
  let s := s.modMyTeam fun _ => t
  (s.setG (s.g.setLanes f.d 32 (beams.map (·.1)) fun l => (kget slots l).getD 0)).advance
/-- The hold and the trap that both forms share. -/
def withSlots (f : Fields) (k : List Nat → State → Out) (s : State) : Out :=
  let lanes := laneSet f s.g
  if s.myTeam.quota < lanes.length then .trap s.bpool s
  else if s.myTeam.freeSlots < lanes.length then .wait s.hold
  else k lanes s

/-- BMAKE (R389). -/
def execBmake (f : Fields) (s : State) : Res :=
  issue .m false (fun _ => [⟨0, f.d, 256⟩, ⟨1, f.a, 768⟩, ⟨2, f.b, 8⟩]) f (withSlots f fun lanes s =>
    s.plainRead (s.vb f).toNat fun d s' =>
      let near := recWord d 13
      let bad := bits d 511 449 ≠ 0 || !fin32 near || (f32q near).num ≤ 0
      let verts := (List.range (if bit d 448 then 4 else 3)).map fun i => recWords d (3 * i) 3
      if bad then .trap (brec 0) s
      else
        let g := s.g
        let beams := lanes.map fun l =>
          let o := (List.range 3).map fun j => rdBits g.regs (g.base f.a + 256 * j) (32 * l) 32
          (l, makeBeam verts near o ((recWord d 12 + l) % 2 ^ 32) (g.ident l).toNat)
        .done (finishMake f beams s')) s

/-- The raw records of the lanes; the first that must raise BREC. A record that reads 0 for its measure is one (R389). -/
def rawBeams : List (Nat × Nat) → Except FRec (List (Nat × Option Beam))
  | [] => .ok []
  | (l, r) :: rest =>
    if rawBad r then .error (brec l)
    else
      let b := (Beam.ofRecord r).withOmega
      if (f32q b.om).isZero then .error (brec l)
      else (match rawBeams rest with | .error e => .error e | .ok bs => .ok ((l, some b) :: bs))
/-- BMAKE with RAW = 1 (R389). -/
def execBmakeRaw (f : Fields) (s : State) : Res :=
  issue .m false (fun _ => [⟨0, f.d, 256⟩, ⟨2, f.b, 8⟩]) f (withSlots f fun lanes s =>
    match s.checkLanes .r clsNormal 256 (fun l => (s.vb f).toNat + 256 * l) lanes with
    | .error r => .trap r s
    | .ok xs =>
      match s.firstPoison .r 256 xs with
      | some r => .trap r s
      | none =>
        if xs.any (s.loadHeld 256) then .wait s.hold
        else
          let (vs, s') := s.loadLanes ownHint 256 xs
          match rawBeams vs with
          | .error r => .trap r s
          | .ok beams => .done (finishMake f beams s')) s

/-! ## Traversals (R371, R372, R390, R391, R396) -/

/-- Fields of a traversal descriptor (R371). -/
def dscBase (d : Nat) : Nat := bits d 63 0
def dscNn (d : Nat) : Nat := bits d 95 64
def dscMfar (d : Nat) : Nat := bits d 127 96
def dscCovb (d : Nat) : Nat := bits d 191 128
def dscRpb (d : Nat) : Nat := bits d 255 192
def dscRpc (d : Nat) : Nat := bits d 287 256
def dscNear (d : Nat) : Nat := bits d 319 288
def dscRhead (d : Nat) : Nat := bits d 383 320
/-- A descriptor raises BREC (R390). -/
def dscBad (d : Nat) : Bool :=
  bits d 511 384 ≠ 0 || dscBase d % 64 ≠ 0 || dscCovb d % 8 ≠ 0 || dscRpb d % 64 ≠ 0 || dscRhead d % 8 ≠ 0
    || !fin32 (dscMfar d) || (f32q (dscMfar d)).num ≤ 0
/-- The descriptor, read as a plain load and checked, then the rest. -/
def withDesc (va : Nat) (k : Nat → State → Out) (s : State) : Out :=
  if va % 64 ≠ 0 then .trap (brec 0) s
  else s.plainRead va fun d s' => if dscBad d then .trap (brec 0) s else k d s'

/-- A traversal of the issuing group. -/
def State.newTrav (s : State) (f : Fields) (id d : Nat) : Trav := {
  id := id, desc := BitVec.ofNat 512 d, owner := s.g.uid, launch := s.g.launch, task := s.g.task, info := s.g.fill { cause := 0 }
  ck := BitVec.ofNat 2 (f.immN / 16), bar := f.immN % 16, tag := BitVec.ofNat 8 (f.immN / 256), work := [], mem0 := s.mem }

/-- A world change of the group's beam engine cluster is pending: it starts no traversal (R457). -/
def State.beamPending (s : State) : Bool := s.worldPending (42 + 10 * s.g.die + s.g.core / 4)

/-- BTRAV (R372, R390). -/
def execBtrav (f : Fields) (s : State) : Res :=
  issue .c false (dab f) f (fun s =>
    if s.myTeam.trav.isSome || s.beamPending || !s.evqRoom (f.immN / 16 % 4) then .wait s.hold
    else s.releasing fun s => withDesc (s.va f).toNat (fun d s =>
      let (id, s) := s.take
      let live := (s.myTeam.pool.filter fun p => recState p.2.toNat = stLive).map (·.1)
      let t := { s.newTrav f id d with work := live }
      .done (s.modMyTeam fun m => { m with
        trav := some t
        pool := m.pool.map fun (p : Nat × BitVec 2048) => if live.contains p.1 then (p.1, setState p.2 stWork) else p }).advance) s) s
/-- RAYTRAV (R390, R396). -/
def execRaytrav (f : Fields) (s : State) : Res :=
  issue .c false (dab f) f (fun s =>
    if s.myTeam.rtrav.isSome || s.beamPending || !s.evqRoom (f.immN / 16 % 4) then .wait s.hold
    else s.releasing fun s => withDesc (s.va f).toNat (fun d s =>
      let lo := (s.vb f).toNat % 2 ^ 32
      let n := (s.vb f).toNat / 2 ^ 32
      if dscRpc d < lo + n then .trap { cause := cRPFULL, info := BitVec.ofNat 32 n } s
      else
        let (id, s) := s.take
        let t := { s.newTrav f id d with ray := lo, rayEnd := lo + n }
        .done (s.modMyTeam fun m => { m with rtrav := some t }).advance) s) s

/-- BPOP (R391). -/
def execBpop (f : Fields) (s : State) : Res :=
  issue .c false (dab f) f (fun s =>
    let t := s.myTeam
    match t.doneOrder with
    | k :: ks =>
      let s := s.modMyTeam fun m => { m with
        doneOrder := ks, pool := match kget m.pool k with | some r => kset m.pool k (setState r stTaken) | none => m.pool }
      .done (s.putD f (BitVec.ofNat 64 k)).advance
    | [] =>
      if t.trav.isSome then .wait (s.block .bpop 0 0 s.now)
      else .done (s.putD f (BitVec.allOnes 64)).acquireG.advance) s

/-- BFREE (R392). -/
def execBfree (f : Fields) (s : State) : Res :=
  issue .c false (dab f) f (fun s =>
    let k := (s.va f).toNat
    match s.myTeam.slotState k with
    | none => .trap s.bpool s
    | some st =>
      if st = stWork || s.myTeam.quota ≤ k then .trap s.bpool s
      else .done (s.modMyTeam fun t => t.drop k).advance) s
/-- BFREE.all (R392). -/
def execBfreeAll (f : Fields) (s : State) : Res :=
  issue .c false (dab f) f (fun s =>
    .done (s.modMyTeam fun t => { t with pool := t.pool.filter fun p => recState p.2.toNat = stWork, doneOrder := [] }).advance) s

/-! ## Rays (R377, R395) -/

/-- A ray record from its words: O, DIR, then the others (R377). -/
def rayRecord (o dir : List Nat) (tmax w tag hit ctrl thit prim pay : Nat) : List Byte :=
  leBytes (ofWords (o ++ dir ++ [tmax, w, tag, hit, ctrl, thit, prim, 0, pay % 2 ^ 32, pay / 2 ^ 32])) 64

/-- The pending ray of a lane: views A to A + 7 (R395). It names no blocking primitive (R377); no rule gives a pending record's THIT: a
free value, numbered by the lane's place (log entry 53). -/
def laneRay (f : Fields) (g : Group) (free : Nat) (l : Nat) : List Byte :=
  let v (j : Nat) := rdBits g.regs (g.base f.a + 256 * j) (32 * l) 32
  rayRecord [v 0, v 1, v 2] [v 3, v 4, v 5] (v 6) (v 7) ((f.immN + l) % 2 ^ 32) 0xFFFFFFFF 0
    ((Config.freeValue (free + l)).toNat % 2 ^ 32) 0xFFFFFFFF (g.ident l).toNat
/-- Memory class code that admits local and peer pages, and no others (R184, R380). -/
def clsNear : Nat := 1

/-- RAYMK's claim and stores: nothing is written before every check has passed. -/
def rayMake (f : Fields) (d : Nat) (lanes : List Nat) (s : State) : Out :=
  let n := lanes.length
  match s.checkElem .rw clsNear 8 0 (dscRhead d) with
  | .error r => .trap r s
  | .ok x =>
    let a : LaneAcc := ⟨lanes.headD 0, dscRhead d, x⟩
    match s.poisonOf .rw 8 a with
    | some r => .trap r s
    | none =>
      if s.homeLeased .rw 8 a || s.peerBusy 8 a then .wait s.hold
      else if s.leaseBusy 8 a then s.waitLines 8 [a]
      else
        let refused := x.tgt = 2 && (match s.peerHome s.g.die x.handle x.ofs .rw s.gSecure with | .ok _ => false | .error _ => true)
        let (old, s1) := s.rmw ownHint 8 false a fun _ => none
        if refused then .done (s1.setG (s1.g.setLanes f.d 32 lanes fun _ => 0)).advance
        else if dscRpc d < old + n then .trap { cause := cRPFULL, info := BitVec.ofNat 32 n } s
        else
          let addr (l : Nat) : Int := dscRpb d + 64 * (old + placeIn lanes l : Nat)
          match s.checkLanes .w clsNear 64 addr lanes with
          | .error r => .trap r s
          | .ok xs => s.whenFree 64 xs fun s =>
              let g := s.g
              let (_, s) := s.rmw ownHint 8 false a fun v => some ((v + n) % 2 ^ 64)
              let s := { s.storeLanes ownHint (laneRay f g s.free) xs with free := s.free + 64 }
              .done (s.setG (s.g.setLanes f.d 32 lanes fun l => (old + placeIn lanes l) % 2 ^ 32)).advance
where
  /-- Place of a lane in the lane set. -/
  placeIn (lanes : List Nat) (l : Nat) : Nat := (lanes.filter fun k => decide (k < l)).length
/-- RAYMK (R395). -/
def execRaymk (f : Fields) (s : State) : Res :=
  issue .m false (fun _ => [⟨0, f.d, 256⟩, ⟨1, f.a, 2048⟩, ⟨2, f.b, 8⟩]) f (fun s =>
    withDesc (s.vb f).toNat (fun d s =>
      let lanes := laneSet f s.g
      if lanes.isEmpty then .done s.advance else rayMake f d lanes s) s) s

/-! ## NODEWR, BCOV, BFOOT (R397-R399) -/

/-- A node is written whole: no traversal finds it torn (R379). -/
def State.nodeWritten (s : State) (k : Nat) (bs : List Byte) : State :=
  let put (o : Option Trav) : Option Trav := o.map fun t => { t with mem0 := bsetMany t.mem0 k bs }
  if s.teams.all fun e => e.2.trav.isNone && e.2.rtrav.isNone then s
  else { s with teams := s.teams.map fun (e : Nat × Team) => (e.1, { e.2 with trav := put e.2.trav, rtrav := put e.2.rtrav }) }
/-- NODEWR: 64 bytes written at the home L2 slice in one step (R397). -/
def execNodewr (f : Fields) (s : State) : Res :=
  issue .c false (fun _ => [⟨1, f.a, 8⟩, ⟨2, f.b, 64⟩]) f (fun s =>
    let va : Int := (s.va f).toNat
    match s.checkElem .w clsNormal 64 0 va with
    | .error r => .trap r s
    | .ok x =>
      let a : LaneAcc := ⟨0, va, x⟩
      s.whenFree 64 [a] fun s =>
        let k := memKey s.g.die x.ofs
        let s := ((s.fillTlb s.g.die s.g.core va.toNat x.leaf).noteLine k (ownHint a)).dropLine s.g.die s.g.core (lineOf k)
        let bs := s.g.viewBytes f.b 64
        .done ((s.homeWrite k bs).nodeWritten k bs).advance) s

/-- BCOV of pool records (R398). -/
def execBcov (f : Fields) (s : State) : Res :=
  issue .m false (vrefs f 32 8 32) f (fun s =>
    let lanes := laneSet f s.g
    let slot (l : Nat) := s.g.elem f.imm f.b 32 l
    let t := s.myTeam
    match lanes.find? fun l => t.quota ≤ slot l with
    | some l => .trap { s.bpool with lane := BitVec.ofNat 6 l } s
    | none =>
      .done (s.setG (s.g.setLanes f.d 32 lanes fun l => ((t.shown (slot l)).map fun r => recWord r.toNat (f.immN % 64)).getD 0)).advance) s
/-- BCOV of coverage cells (R398). -/
def execBcovCell (f : Fields) (s : State) : Res :=
  issue .m false (vrefs f 32 8 32) f (fun s =>
    let lanes := laneSet f s.g
    let addr (l : Nat) : Int := (s.va f).toNat + 8 * (s.g.elem f.imm f.b 32 l : Nat)
    match s.checkLanes .r clsNear 8 addr lanes with
    | .error r => .trap r s
    | .ok xs =>
      match s.firstPoison .r 8 xs with
      | some r => .trap r s
      | none =>
        if xs.any fun a => s.peerBusy 8 a || s.loadHeld 8 a then .wait s.hold
        else
          let (vs, s) := s.loadLanes ownHint 8 xs
          .done (s.setG (s.g.setLanes f.d 32 lanes fun l => fp32.rne (FV.ofQ false ⟨(kget vs l).getD 0, 2 ^ 48⟩))).advance) s

/-- π to 160 bits. -/
def piQ : Q := ⟨angPi, ang1⟩
/-- The footprint's true value (R399). -/
def footTrue (b : Beam) (t : Q) : Q :=
  let root (q : Q) : Q := if q.isZero then .zero else q.sqrt 220
  let first := ((Q.ofInt 2).mul t).mul (root ((f32q b.om).abs.div piQ))
  first.add ((Q.ofInt 2).mul (root (((Q.ofInt 4).mul ((vecOf b.u).cross (vecOf b.v)).len).div piQ)))
/-- BFOOT's element for a slot's record and a distance. -/
def footValue (r : Option (BitVec 2048)) (t : Nat) : Nat :=
  match r, fp32.decode t with
  | none, _ | _, .nan => 0x7FC00000
  | some r, .inf s => if s then 0x7FC00000 else if (f32q (Beam.ofRecord r.toNat).om).isZero then 0x7FC00000 else 0x7F800000
  | some r, v =>
    if v.toQ.num < 0 then 0x7FC00000
    else
      let q := footTrue (Beam.ofRecord r.toNat) v.toQ
      within (Config.footprint r (BitVec.ofNat 32 t)).toNat ((Q.ofInt 4).mul (ulp32 q)) q
/-- BFOOT (R399). -/
def execBfoot (f : Fields) (s : State) : Res :=
  issue .m false (vrefs f 32 32 32) f (fun s =>
    let t := s.myTeam
    let slot (l : Nat) := s.g.elem f.imm f.a 32 l
    .done (s.setG (s.g.setLanes f.d 32 (laneSet f s.g) fun l =>
      footValue (if slot l < t.quota then t.shown (slot l) else none) (s.g.elem f.imm f.b 32 l))).advance) s

end Sys2Proof.Machine
end

