-- ==== Sys2Proof/Machine/Measure.lean ====
section
/-! DEFINITION. SHAKE128 and SHAKE256, and the measurement slots (spec/34 R459, R460). -/

namespace Sys2Proof.Machine

/-- Keccak-f[1600]: rotation offsets by 5 y + x, and round constants (FIPS 202, cited by R460's SHAKE256). -/
def kecRot : List Nat := [0, 1, 62, 28, 27, 36, 44, 6, 55, 20, 3, 10, 43, 25, 39, 41, 45, 15, 21, 8, 18, 2, 61, 56, 14]
def kecRc : List (BitVec 64) := [
  0x1, 0x8082, 0x800000000000808A, 0x8000000080008000, 0x808B, 0x80000001, 0x8000000080008081, 0x8000000000008009,
  0x8A, 0x88, 0x80008009, 0x8000000A, 0x8000808B, 0x800000000000008B, 0x8000000000008089, 0x8000000000008003,
  0x8000000000008002, 0x8000000000000080, 0x800A, 0x800000008000000A, 0x8000000080008081, 0x8000000000008080,
  0x80000001, 0x8000000080008008]
/-- Lane 5 y + x of a state of 25 lanes. -/
def kecLane (a : List (BitVec 64)) (x y : Nat) : BitVec 64 := a.getD (5 * (y % 5) + x % 5) 0
/-- One round. -/
def kecRound (a : List (BitVec 64)) (rc : BitVec 64) : List (BitVec 64) :=
  let c := (List.range 5).map fun x => kecLane a x 0 ^^^ kecLane a x 1 ^^^ kecLane a x 2 ^^^ kecLane a x 3 ^^^ kecLane a x 4
  let d := (List.range 5).map fun x => c.getD ((x + 4) % 5) 0 ^^^ (c.getD ((x + 1) % 5) 0).rotateLeft 1
  let a := (List.range 25).map fun i => a.getD i 0 ^^^ d.getD (i % 5) 0
  let b := (List.range 25).map fun i =>
    let x := i % 5
    let y := i / 5
    let sx := (x + 3 * y) % 5
    (kecLane a sx x).rotateLeft (kecRot.getD (5 * x + sx) 0)
  let a := (List.range 25).map fun i => kecLane b (i % 5) (i / 5) ^^^ (~~~(kecLane b (i % 5 + 1) (i / 5)) &&& kecLane b (i % 5 + 2) (i / 5))
  match a with
  | l :: ls => (l ^^^ rc) :: ls
  | [] => []
/-- A permutation of the state. -/
def keccakF (a : List (BitVec 64)) : List (BitVec 64) := kecRc.foldl kecRound a
/-- One block joins the state. -/
def kecAbsorb (a : List (BitVec 64)) (block : List Byte) : List (BitVec 64) :=
  keccakF ((List.range 25).map fun i => a.getD i 0 ^^^ BitVec.ofNat 64 (leVal ((block.drop (8 * i)).take 8)))
/-- The state once a message has been taken in, rate bytes at a time. -/
def shakeIn (rate : Nat) (m : List Byte) : List (BitVec 64) :=
  let n := m.length / rate + 1
  let p := m ++ [0x1F] ++ List.replicate (rate * n - 1 - m.length) 0
  let p := p.set (rate * n - 1) (p.getD (rate * n - 1) 0 ||| 0x80)
  (List.range n).foldl (fun a i => kecAbsorb a ((p.drop (rate * i)).take rate)) (List.replicate 25 0)
/-- n blocks of rate bytes out of a state. -/
def shakeOut (rate : Nat) : Nat → List (BitVec 64) → List Byte
  | 0, _ => []
  | n + 1, a => ((a.take (rate / 8)).flatMap fun l => leBytes l.toNat 8) ++ shakeOut rate n (keccakF a)
/-- SHAKE256 and SHAKE128, n bytes out: 136 and 168 bytes at a time. -/
def shake256Of (n : Nat) (m : List Byte) : List Byte := (shakeOut 136 ((n + 135) / 136) (shakeIn 136 m)).take n
def shake128Of (n : Nat) (m : List Byte) : List Byte := (shakeOut 168 ((n + 167) / 168) (shakeIn 168 m)).take n
/-- SHAKE256, 512 bits out. -/
def shake256 (m : List Byte) : List Byte := shake256Of 64 m
/-- A slot is extended with an object: M := SHAKE256(M, SHAKE256(object)); its eight words change at once, and MEASSEQ counts (R460). -/
def State.measureObject (s : State) (slot : Nat) (object : List Byte) : State :=
  let m := (List.range 8).flatMap fun i => leBytes (s.mrN (offMEAS slot i)) 8
  let h := shake256 (m ++ shake256 object)
  let s := (List.range 8).foldl (fun s i => s.setMr (offMEAS slot i) (BitVec.ofNat 64 (leVal ((h.drop (8 * i)).take 8)))) s
  s.setMr offMEASSEQ (s.mr offMEASSEQ + 1)

end Sys2Proof.Machine
end

