-- ==== Sys2Proof/Machine/Routine.lean ====
section
/-! DEFINITION. The RV32IMV core of a Dill copy engine: the integer part of the RISC-V unprivileged base RV32I with the M and V extensions and
VLEN 256 (spec/24 R350, which names the RISC-V manuals for them). What the core does where those manuals leave a choice, and that its
data memory is the stream buffer, stands in log entry 28. -/

namespace Sys2Proof.Machine

/-! ## The base and M -/

/-- Register n; x0 reads 0. -/
def Rv.reg (r : Rv) (n : Nat) : Nat := if n % 32 = 0 then 0 else (r.x.get (BitVec.ofNat 5 n).toFin).toNat
/-- Writes register n; a write of x0 is discarded. -/
def Rv.setReg (r : Rv) (n v : Nat) : Rv :=
  if n % 32 = 0 then r else { r with x := r.x.set (BitVec.ofNat 5 n).toFin (BitVec.ofNat 32 v) (BitVec.ofNat 5 n).toFin.isLt }
/-- Control goes to an address. -/
def Rv.goto (r : Rv) (a : Int) : Rv := { r with pc := BitVec.ofInt 32 a }
/-- The next instruction in order. -/
def Rv.next (r : Rv) : Rv := { r with pc := r.pc + 4 }

/-- Size of the stream buffer, which is all the memory the core's loads and stores reach (R350). -/
def streamSize : Nat := 2 ^ 18
/-- A byte the core reads. -/
def coreByte (m : Bytes) (a : Nat) : Byte := if a % 2 ^ 32 < streamSize then bget m (a % 2 ^ 32) else Config.absentByte (a % 2 ^ 32)
/-- n bytes it reads, as a number. -/
def coreRead (m : Bytes) (a n : Nat) : Nat := leVal ((List.range n).map fun i => coreByte m (a + i))
/-- n bytes it writes; nothing is written outside the stream buffer. -/
def coreWrite (m : Bytes) (a n v : Nat) : Bytes :=
  ((leBytes v n).zipIdx).foldl (fun m b => if (a + b.2) % 2 ^ 32 < streamSize then bset m ((a + b.2) % 2 ^ 32) b.1 else m) m

/-- Immediates of the base's formats. -/
def rvImmI (w : Nat) : Int := sgn (bits w 31 20) 12
def rvImmS (w : Nat) : Int := sgn (bits w 31 25 * 32 + bits w 11 7) 12
def rvImmB (w : Nat) : Int := sgn (bits w 31 31 * 4096 + bits w 7 7 * 2048 + bits w 30 25 * 32 + bits w 11 8 * 2) 13
def rvImmJ (w : Nat) : Int := sgn (bits w 31 31 * 2 ^ 20 + bits w 19 12 * 4096 + bits w 20 20 * 2048 + bits w 30 21 * 2) 21

/-- An operation of OP and OP-IMM; alt: SUB and SRA. -/
def rvAlu (f3 : Nat) (alt : Bool) (a b : Nat) : Nat :=
  match f3 with
  | 0 => if alt then wrap (a - b) 32 else (a + b) % 2 ^ 32
  | 1 => a * 2 ^ (b % 32) % 2 ^ 32
  | 2 => if sgn a 32 < sgn b 32 then 1 else 0
  | 3 => if a < b then 1 else 0
  | 4 => a ^^^ b
  | 5 => if alt then wrap (sgn a 32 / (2 ^ (b % 32) : Nat)) 32 else a / 2 ^ (b % 32)
  | 6 => a ||| b
  | _ => a &&& b
/-- MUL, MULH, MULHSU, MULHU, DIV, DIVU, REM, REMU on w bits: a division by zero gives all ones and leaves the dividend. -/
def rvMulDiv (w f3 a b : Nat) : Nat :=
  match f3 with
  | 0 => a * b % 2 ^ w
  | 1 => wrap (sgn a w * sgn b w / (2 ^ w : Nat)) w
  | 2 => wrap (sgn a w * b / (2 ^ w : Nat)) w
  | 3 => a * b / 2 ^ w
  | 4 => if b = 0 then 2 ^ w - 1 else wrap ((sgn a w).tdiv (sgn b w)) w
  | 5 => if b = 0 then 2 ^ w - 1 else a / b
  | 6 => if b = 0 then a else wrap ((sgn a w).tmod (sgn b w)) w
  | _ => if b = 0 then a else a % b
/-- A branch is taken; none for no branch. -/
def rvTaken (f3 a b : Nat) : Option Bool :=
  match f3 with
  | 0 => some (a = b) | 1 => some (a ≠ b) | 4 => some (sgn a 32 < sgn b 32) | 5 => some (sgn b 32 ≤ sgn a 32)
  | 6 => some (a < b) | 7 => some (b ≤ a) | _ => none

/-- A control and status register of the floating-point and vector extensions: its value, and whether it can be written. -/
def Rv.csr (r : Rv) (n : Nat) : Option (Nat × Bool) :=
  match n with
  | 0x001 => some (r.fcsr % 32, true) | 0x002 => some (r.fcsr / 32, true) | 0x003 => some (r.fcsr, true)
  | 0x008 => some (r.vstart, true) | 0x009 => some (r.vcsr % 2, true) | 0x00A => some (r.vcsr / 2, true) | 0x00F => some (r.vcsr, true)
  | 0xC20 => some (r.vl, false) | 0xC21 => some (r.vtype, false) | 0xC22 => some (32, false)
  | _ => none
def Rv.setCsr (r : Rv) (n v : Nat) : Rv :=
  match n with
  | 0x001 => { r with fcsr := r.fcsr / 32 * 32 + v % 32 }
  | 0x002 => { r with fcsr := v % 8 * 32 + r.fcsr % 32 }
  | 0x003 => { r with fcsr := v % 256 }
  | 0x008 => { r with vstart := v % 256 }
  | 0x009 => { r with vcsr := r.vcsr / 2 * 2 + v % 2 }
  | 0x00A => { r with vcsr := v % 4 * 2 + r.vcsr % 2 }
  | _ => { r with vcsr := v % 8 }
/-- CSRRW, CSRRS, CSRRC and their immediate forms. -/
def rvCsr (r : Rv) (w : Nat) : Option Rv :=
  let f3 := bits w 14 12
  let rs := bits w 19 15
  let x := if 4 < f3 then rs else r.reg rs
  match r.csr (bits w 31 20) with
  | none => none
  | some (old, rw) =>
    let writes := f3 % 4 = 1 || rs ≠ 0
    if f3 % 4 = 0 || (writes && !rw) then none
    else
      let new := if f3 % 4 = 1 then x else if f3 % 4 = 2 then old ||| x else old &&& (2 ^ 32 - 1 - x)
      some ((if writes then r.setCsr (bits w 31 20) new else r).setReg (bits w 11 7) old).next

/-! ## The vector extension: registers, types, masks -/

/-- The element width of vtype, and eight times its register group multiplier. -/
def Rv.sew (r : Rv) : Nat := 8 * 2 ^ bits r.vtype 5 3
def lmulOf (t : Nat) : Nat := match t % 8 with | 0 => 8 | 1 => 16 | 2 => 32 | 3 => 64 | 5 => 1 | 6 => 2 | 7 => 4 | _ => 0
def Rv.lmul (r : Rv) : Nat := lmulOf r.vtype
/-- Elements a group of a type holds. -/
def vlmaxOf (t : Nat) : Nat := 32 * lmulOf t / (8 * 2 ^ bits t 5 3)
/-- A type that the core has: no reserved bit, element width up to 64, and with a fraction of a register a width that it holds. -/
def vtypeOk (t : Nat) : Bool := t < 256 && bits t 5 3 < 4 && lmulOf t ≠ 0 && 8 * 2 ^ bits t 5 3 ≤ 8 * lmulOf t
/-- Element i of width w of the group at register n. -/
def Rv.elem (r : Rv) (n w i : Nat) : Nat :=
  (r.v.get (BitVec.ofNat 5 (n + i * w / 256)).toFin).toNat / 2 ^ (i * w % 256) % 2 ^ w
def Rv.setElem (r : Rv) (n w i x : Nat) : Rv :=
  let k := (BitVec.ofNat 5 (n + i * w / 256)).toFin
  let lo := i * w % 256
  { r with v := r.v.set k (BitVec.ofNat 256 (putBits (r.v.get k).toNat (lo + w - 1) lo x)) k.isLt }
/-- Element i takes part: the instruction is unmasked, or its bit of v0 is 1. -/
def Rv.active (r : Rv) (vm : Bool) (i : Nat) : Bool := vm || r.elem 0 1 i = 1
/-- Element i of the destination holds what an agnostic element may: what it held, or ones. -/
def Rv.agnostic (r : Rv) (n w i : Nat) : Rv := if Config.agnosticOnes r.pc.toNat i then r.setElem n w i (2 ^ w - 1) else r
/-- A destination group of width w takes its elements from vstart up to a length: active ones a value, the others what vma says, and the
tail what vta says; nothing changes where no element is left. tail: agnostic whatever vta says. -/
def Rv.write (r : Rv) (n w len total : Nat) (vm tail : Bool) (val : Nat → Nat) : Rv :=
  if len ≤ r.vstart then r
  else (List.range total).foldl (fun s i =>
    if i < r.vstart then s
    else if i < len then (if r.active vm i then s.setElem n w i (val i) else if bit r.vtype 7 then s.agnostic n w i else s)
    else if tail || bit r.vtype 6 then s.agnostic n w i else s) r
/-- The end of a vector instruction. -/
def Rv.done (r : Rv) : Rv := { r with vstart := 0 }.next
/-- The same for a group of width w under vtype and vl. -/
def Rv.group (r : Rv) (n w : Nat) (vm : Bool) (val : Nat → Nat) : Rv :=
  r.write n w r.vl (Nat.max (vlmaxOf r.vtype) (256 / w)) vm false val
/-- A mask register as the destination. -/
def Rv.maskTo (r : Rv) (n : Nat) (vm : Bool) (val : Nat → Bool) : Rv := r.write n 1 r.vl 256 vm true fun i => if val i then 1 else 0

/-- Eight times the multiplier of a group of width w; 0 where there is none. -/
def Rv.emul (r : Rv) (w : Nat) : Nat :=
  let e := w * r.lmul
  if e % r.sew ≠ 0 || e / r.sew = 0 || 64 < e / r.sew then 0 else e / r.sew
/-- Registers of a group. -/
def regsOf (emul : Nat) : Nat := Nat.max 1 (emul / 8)
/-- A register number that a group may start at. -/
def alignedAt (n emul : Nat) : Bool := emul ≠ 0 && n % regsOf emul = 0
/-- A destination group may stand where a source group stands: apart, with the same width, in its lowest part for a narrower one, in its
highest part for a wider one. -/
def mayOverlap (d dw de s sw se : Nat) : Bool :=
  decide (d + regsOf de ≤ s) || decide (s + regsOf se ≤ d) || decide (dw = sw) || (decide (dw < sw) && decide (d = s))
    || (decide (sw < dw) && decide (8 ≤ se) && decide (s + regsOf se = d + regsOf de))
/-- Two groups share no register. -/
def apart (d de s se : Nat) : Bool := decide (d + regsOf de ≤ s) || decide (s + regsOf se ≤ d)

/-! ## Arithmetic on elements -/

/-- Rounding of a value shifted right by d, by vxrm. -/
def roundOff (xrm d : Nat) (v : Int) : Int :=
  let p : Int := (2 ^ d : Nat)
  let q := v / p
  let low := 2 * (v % p)
  if d = 0 then v
  else
    let up : Bool := match xrm with
      | 0 => p ≤ low | 1 => p < low || (low = p && q % 2 = 1) | 2 => false | _ => q % 2 = 0 && low ≠ 0
    if up then q + 1 else q
/-- A value clamped to w unsigned or signed bits, and whether it was. -/
def satU (w : Nat) (v : Int) : Nat × Bool := if v < 0 then (0, true) else if (2 ^ w : Nat) ≤ v then (2 ^ w - 1, true) else (v.toNat, false)
def satS (w : Nat) (v : Int) : Nat × Bool :=
  if v < -(2 ^ (w - 1) : Nat) then (2 ^ (w - 1), true) else if (2 ^ (w - 1) : Nat) ≤ v then (2 ^ (w - 1) - 1, true) else (wrap v w, false)

/-- OPIVV, OPIVX, OPIVI element by element: a of vs2, b of vs1, a register or an immediate, c of v0; with whether it saturated. -/
def opiElem (f6 w xrm : Nat) (vm : Bool) (a b c : Nat) : Option (Nat × Bool) :=
  let sa := sgn a w
  let sb := sgn b w
  let x (v : Int) : Option (Nat × Bool) := some (wrap v w, false)
  let t (p : Bool) : Option (Nat × Bool) := some (if p then 1 else 0, false)
  let ci := if vm then 0 else c
  match f6 with
  | 0x00 => x (a + b) | 0x02 => x (a - b) | 0x03 => x (b - a)
  | 0x04 => x (Nat.min a b) | 0x05 => x (if sa ≤ sb then a else b) | 0x06 => x (Nat.max a b) | 0x07 => x (if sa ≤ sb then b else a)
  | 0x09 => x (a &&& b : Nat) | 0x0A => x (a ||| b : Nat) | 0x0B => x (a ^^^ b : Nat)
  | 0x10 => x (a + b + c) | 0x11 => t (2 ^ w ≤ a + b + ci) | 0x12 => x (a - b - c) | 0x13 => t (a < b + ci)
  | 0x17 => x (if vm || c = 1 then b else a)
  | 0x18 => t (a = b) | 0x19 => t (a ≠ b) | 0x1A => t (a < b) | 0x1B => t (sa < sb) | 0x1C => t (a ≤ b) | 0x1D => t (sa ≤ sb)
  | 0x1E => t (b < a) | 0x1F => t (sb < sa)
  | 0x20 => some (satU w (a + b)) | 0x21 => some (satS w (sa + sb)) | 0x22 => some (satU w (a - b)) | 0x23 => some (satS w (sa - sb))
  | 0x25 => x (a * 2 ^ (b % w) : Nat) | 0x27 => some (satS w (roundOff xrm (w - 1) (sa * sb)))
  | 0x28 => x (a / 2 ^ (b % w) : Nat) | 0x29 => x (sa / (2 ^ (b % w) : Nat))
  | 0x2A => x (roundOff xrm (b % w) a) | 0x2B => x (roundOff xrm (b % w) sa)
  | 0x2C => x (a / 2 ^ (b % (2 * w)) : Nat) | 0x2D => x (sgn a (2 * w) / (2 ^ (b % (2 * w)) : Nat))
  | 0x2E => some (satU w (roundOff xrm (b % (2 * w)) a)) | 0x2F => some (satS w (roundOff xrm (b % (2 * w)) (sgn a (2 * w))))
  | _ => none
/-- OPMVV and OPMVX element by element, d the old element of vd; the widening forms give 2w bits. -/
def opmElem (f6 w xrm a b d : Nat) : Option Nat :=
  let sa := sgn a w
  let sb := sgn b w
  let x (v : Int) : Option Nat := some (wrap v w)
  let y (v : Int) : Option Nat := some (wrap v (2 * w))
  match f6 with
  | 0x08 => x (roundOff xrm 1 (a + b)) | 0x09 => x (roundOff xrm 1 (sa + sb)) | 0x0A => x (roundOff xrm 1 (a - b)) | 0x0B => x (roundOff xrm 1 (sa - sb))
  | 0x20 => x (rvMulDiv w 5 a b) | 0x21 => x (rvMulDiv w 4 a b) | 0x22 => x (rvMulDiv w 7 a b) | 0x23 => x (rvMulDiv w 6 a b)
  | 0x24 => x (rvMulDiv w 3 a b) | 0x25 => x (rvMulDiv w 0 a b) | 0x26 => x (rvMulDiv w 2 a b) | 0x27 => x (rvMulDiv w 1 a b)
  | 0x29 => x (d * b + a) | 0x2B => x (a - d * b) | 0x2D => x (d + a * b) | 0x2F => x (d - a * b)
  | 0x30 => y (a + b) | 0x31 => y (sa + sb) | 0x32 => y (a - b) | 0x33 => y (sa - sb)
  | 0x34 => y (a + b) | 0x35 => y (a + sb) | 0x36 => y (a - b) | 0x37 => y (a - sb)
  | 0x38 => y (a * b) | 0x3A => y (sa * b) | 0x3B => y (sa * sb)
  | 0x3C => y (d + a * b) | 0x3D => y (d + sa * sb) | 0x3E => y (d + sa * b) | 0x3F => y (d + a * sb)
  | _ => none

/-! ## Vector instructions -/

/-- Fields of a vector instruction, and its second operand: vs1, a scalar register or an immediate (f3). -/
def vFunct6 (w : Nat) : Nat := bits w 31 26
/-- An OPI instruction takes an operand of this kind. -/
def opiForm (f3 f6 : Nat) : Bool :=
  match f3 with
  | 0 => !([0x03, 0x0E, 0x0F, 0x1E, 0x1F] : List Nat).contains f6
  | 3 => ([0x00, 0x03, 0x09, 0x0A, 0x0B, 0x10, 0x11, 0x17, 0x18, 0x19, 0x1C, 0x1D, 0x1E, 0x1F, 0x20, 0x21, 0x25, 0x28, 0x29, 0x2A, 0x2B,
      0x2C, 0x2D, 0x2E, 0x2F] : List Nat).contains f6
  | _ => true
/-- The second operand of element i, as w bits. imm: an unsigned immediate. -/
def Rv.second (r : Rv) (word w i : Nat) (imm : Bool) : Nat :=
  let n := bits word 19 15
  match bits word 14 12 with
  | 0 | 2 => r.elem n w i
  | 3 => if imm then n else wrap (sgn n 5) w
  | _ => wrap (sgn (r.reg n) 32) w

/-- OPI instructions that work element by element. -/
def rvOpi (r : Rv) (word : Nat) : Option Rv :=
  let f6 := vFunct6 word
  let f3 := bits word 14 12
  let vm := bit word 25
  let vd := bits word 11 7
  let vs2 := bits word 24 20
  let vs1 := bits word 19 15
  let w := r.sew
  let narrow := decide (0x2C ≤ f6)
  let toMask := f6 = 0x11 || f6 = 0x13 || (0x18 ≤ f6 && f6 ≤ 0x1F)
  let carry := f6 = 0x10 || f6 = 0x12 || f6 = 0x11 || f6 = 0x13 || f6 = 0x17
  let unsigned := f6 = 0x25 || (0x28 ≤ f6 && f6 ≤ 0x2F)
  let w2 := if narrow then 2 * w else w
  let dw := if toMask then 1 else w
  let de := if toMask then 8 else r.lmul
  if !opiForm f3 f6 || 64 < w2 || !alignedAt vs2 (r.emul w2) || (f3 = 0 && !alignedAt vs1 r.lmul) || (!toMask && !alignedAt vd r.lmul)
      || ((f6 = 0x10 || f6 = 0x12) && vm) || (f6 = 0x17 && vm && vs2 ≠ 0) || (!toMask && !vm && vd = 0)
      || !mayOverlap vd dw de vs2 w2 (r.emul w2) || (f3 = 0 && !mayOverlap vd dw de vs1 w r.lmul) then none
  else
    let e (i : Nat) := opiElem f6 w (r.vcsr / 2) vm (r.elem vs2 w2 i) (r.second word w i unsigned) (r.elem 0 1 i)
    if (e 0).isNone then none
    else
      let all := vm || carry
      let sat := (List.range r.vl).any fun i => decide (r.vstart ≤ i) && r.active all i && ((e i).map (·.2)).getD false
      let s := if toMask then r.maskTo vd all fun i => (e i).map (·.1) = some 1 else r.group vd w all fun i => ((e i).map (·.1)).getD 0
      some { s with vcsr := if sat then s.vcsr ||| 1 else s.vcsr }.done
/-- OPM instructions that work element by element. -/
def rvOpm (r : Rv) (word : Nat) : Option Rv :=
  let f6 := vFunct6 word
  let f3 := bits word 14 12
  let vm := bit word 25
  let vd := bits word 11 7
  let vs2 := bits word 24 20
  let vs1 := bits word 19 15
  let w := r.sew
  let dw := if 0x30 ≤ f6 then 2 * w else w
  let w2 := if 0x34 ≤ f6 && f6 ≤ 0x37 then 2 * w else w
  if 64 < dw || (f6 = 0x3E && f3 = 2) || !alignedAt vd (r.emul dw) || !alignedAt vs2 (r.emul w2) || (f3 = 2 && !alignedAt vs1 r.lmul)
      || (!vm && vd = 0) || !mayOverlap vd dw (r.emul dw) vs2 w2 (r.emul w2)
      || (f3 = 2 && !mayOverlap vd dw (r.emul dw) vs1 w r.lmul) then none
  else
    let e (i : Nat) := opmElem f6 w (r.vcsr / 2) (r.elem vs2 w2 i) (r.second word w i false) (r.elem vd dw i)
    if (e 0).isNone then none else some (r.group vd dw vm fun i => (e i).getD 0).done

/-- Reductions: vs1[0] with the active elements of vs2, into vd[0]. -/
def rvReduce (r : Rv) (word dw : Nat) (vs2At : Nat → Nat) (f : Nat → Nat → Nat) : Option Rv :=
  let vd := bits word 11 7
  if 64 < dw || r.vstart ≠ 0 || !alignedAt (bits word 24 20) r.lmul then none
  else
    let xs := (List.range r.vl).filter (r.active (bit word 25))
    let v := xs.foldl (fun a i => f a (vs2At i)) (r.elem (bits word 19 15) dw 0)
    some (r.write vd dw (if r.vl = 0 then 0 else 1) (256 / dw) true false fun _ => v).done
/-- vredsum to vredmax by funct6, on w bits. -/
def redOp (f6 w a b : Nat) : Nat :=
  match f6 with
  | 0 => (a + b) % 2 ^ w | 1 => a &&& b | 2 => a ||| b | 3 => a ^^^ b | 4 => Nat.min a b | 5 => if sgn a w ≤ sgn b w then a else b
  | 6 => Nat.max a b | _ => if sgn a w ≤ sgn b w then b else a

/-- vrgather and the slides, by the place each element comes from; none keeps the element. -/
def rvPermute (r : Rv) (word : Nat) (bare : Bool) (idx : Option Nat) (src : Nat → Option (Nat ⊕ Nat)) : Option Rv :=
  let vd := bits word 11 7
  let vs2 := bits word 24 20
  let vs1 := bits word 19 15
  let w := r.sew
  let vm := bit word 25
  let ie := (idx.map r.emul).getD 8
  if !alignedAt vd r.lmul || !alignedAt vs2 r.lmul || (bare && !apart vd r.lmul vs2 r.lmul) || (!vm && vd = 0)
      || (idx.isSome && (!alignedAt vs1 ie || !apart vd r.lmul vs1 ie)) then none
  else some (r.group vd w vm fun i => match src i with
    | some (.inl j) => r.elem vs2 w j
    | some (.inr x) => x
    | none => r.elem vd w i).done
/-- The permutations of OPI: vrgather, vrgatherei16, vslideup, vslidedown, vmvNr. -/
def rvMove (r : Rv) (word : Nat) : Option Rv :=
  let f6 := vFunct6 word
  let f3 := bits word 14 12
  let x := if f3 = 3 then bits word 19 15 else r.reg (bits word 19 15)
  let top := vlmaxOf r.vtype
  let pick (j : Nat) : Option (Nat ⊕ Nat) := if j < top then some (.inl j) else some (.inr 0)
  if f6 = 0x0C then
    (if f3 = 0 then rvPermute r word true (some r.sew) fun i => pick (r.elem (bits word 19 15) r.sew i) else rvPermute r word true none fun _ => pick x)
  else if f6 = 0x0E then
    (if f3 = 0 then rvPermute r word true (some 16) fun i => pick (r.elem (bits word 19 15) 16 i)
     else rvPermute r word true none fun i => if i < x then none else some (.inl (i - x)))
  else if f6 = 0x0F && f3 ≠ 0 then rvPermute r word false none fun i => pick (i + x)
  else if f6 = 0x27 && f3 = 3 && bit word 25 then
    let n := bits word 19 15 + 1
    let vd := bits word 11 7
    let vs2 := bits word 24 20
    if !([1, 2, 4, 8].contains n) || vd % n ≠ 0 || vs2 % n ≠ 0 then none
    else some ((List.range (256 * n / r.sew)).foldl (fun s i => if i < r.vstart then s else s.setElem vd r.sew i (r.elem vs2 r.sew i)) r).done
  else none

/-- Set-before-first and its kin: bit i from whether a mask bit stands before it and at it. -/
def Rv.firstMask (r : Rv) (word : Nat) (f : Bool → Bool → Bool) : Option Rv :=
  let vd := bits word 11 7
  let vs2 := bits word 24 20
  let vm := bit word 25
  let one (i : Nat) : Bool := r.active vm i && r.elem vs2 1 i = 1
  if r.vstart ≠ 0 || vd = vs2 || (!vm && vd = 0) then none
  else some (r.maskTo vd vm fun i => f ((List.range i).any one) (one i)).done
/-- Mask and move instructions of OPM. -/
def rvMask (r : Rv) (word : Nat) : Option Rv :=
  let f6 := vFunct6 word
  let f3 := bits word 14 12
  let vd := bits word 11 7
  let vs2 := bits word 24 20
  let vs1 := bits word 19 15
  let vm := bit word 25
  let w := r.sew
  let one (i : Nat) : Bool := r.active vm i && r.elem vs2 1 i = 1
  let bits2 (f : Bool → Bool → Bool) : Option Rv :=
    if !vm then none else some (r.maskTo vd true fun i => f (r.elem vs2 1 i = 1) (r.elem vs1 1 i = 1)).done
  if f6 = 0x0E && f3 = 6 then rvPermute r word true none fun i => if i = 0 then some (.inr (wrap (sgn (r.reg vs1) 32) w)) else some (.inl (i - 1))
  else if f6 = 0x0F && f3 = 6 then
    rvPermute r word false none fun i => if i + 1 = r.vl then some (.inr (wrap (sgn (r.reg vs1) 32) w)) else some (.inl (i + 1))
  else if f6 = 0x10 && f3 = 6 then
    (if !vm || vs2 ≠ 0 then none else some (r.write vd w (if r.vstart < r.vl then 1 else 0) (256 / w) true false fun _ => wrap (sgn (r.reg vs1) 32) w).done)
  else if f6 = 0x10 then
    match vs1 with
    | 0x00 => if !vm then none else some (r.setReg vd (wrap (sgn (r.elem vs2 w 0) w) 32)).done
    | 0x10 => if r.vstart ≠ 0 then none else some (r.setReg vd ((List.range r.vl).filter one).length).done
    | 0x11 => if r.vstart ≠ 0 then none else some (r.setReg vd (((List.range r.vl).find? one).getD (2 ^ 32 - 1))).done
    | _ => none
  else if f6 = 0x12 && f3 = 2 then
    let k := match vs1 / 2 with | 1 => 8 | 2 => 4 | 3 => 2 | _ => 0
    let sw := if k = 0 then 0 else w / k
    if sw < 8 || !alignedAt vd r.lmul || !alignedAt vs2 (r.emul sw) || (!vm && vd = 0) || !mayOverlap vd w r.lmul vs2 sw (r.emul sw) then none
    else some (r.group vd w vm fun i => if vs1 % 2 = 1 then wrap (sgn (r.elem vs2 sw i) sw) w else r.elem vs2 sw i).done
  else if f6 = 0x14 && f3 = 2 then
    match vs1 with
    | 0x01 => r.firstMask word fun b a => !b && !a
    | 0x02 => r.firstMask word fun b a => !b && a
    | 0x03 => r.firstMask word fun b _ => !b
    | 0x10 =>
      if r.vstart ≠ 0 || !alignedAt vd r.lmul || !apart vd r.lmul vs2 8 || (!vm && vd = 0) then none
      else some (r.group vd w vm fun i => ((List.range i).filter one).length % 2 ^ w).done
    | 0x11 => if vs2 ≠ 0 || !alignedAt vd r.lmul || (!vm && vd = 0) then none else some (r.group vd w vm fun i => i % 2 ^ w).done
    | _ => none
  else if f6 = 0x17 && f3 = 2 then
    let js := (List.range r.vl).filter fun i => r.elem vs1 1 i = 1
    if r.vstart ≠ 0 || !vm || !alignedAt vd r.lmul || !alignedAt vs2 r.lmul || !apart vd r.lmul vs2 r.lmul || !apart vd r.lmul vs1 8 then none
    else if r.vl = 0 then some r.done
    else some (({ r with vl := js.length }.write vd w (Nat.max 1 js.length) (Nat.max (vlmaxOf r.vtype) (256 / w)) true false
      fun i => match js[i]? with | some j => r.elem vs2 w j | none => r.elem vd w i)).done |>.map fun s => { s with vl := r.vl }
  else if f3 ≠ 2 then none
  else
    match f6 with
    | 0x18 => bits2 fun a b => a && !b | 0x19 => bits2 fun a b => a && b | 0x1A => bits2 fun a b => a || b | 0x1B => bits2 fun a b => a != b
    | 0x1C => bits2 fun a b => a || !b | 0x1D => bits2 fun a b => !(a && b) | 0x1E => bits2 fun a b => !(a || b) | 0x1F => bits2 fun a b => a == b
    | _ => none

/-- vsetvli, vsetivli and vsetvl: the new type and length; an unsupported type sets vill. -/
def rvSetvl (r : Rv) (word : Nat) : Option Rv :=
  let rd := bits word 11 7
  let rs1 := bits word 19 15
  let imm := bits word 31 30 = 3
  let form := !bit word 31 || imm || bits word 31 25 = 0x40
  if !form then none
  else
    let t := if imm then bits word 29 20 else if bit word 31 then r.reg (bits word 24 20) else bits word 30 20
    let top := vlmaxOf t
    let avl := if imm then rs1 else if rs1 ≠ 0 then r.reg rs1 else if rd ≠ 0 then top else r.vl
    let s : Rv := if vtypeOk t then { r with vtype := t, vl := Nat.min avl top, vstart := 0 } else { r with vtype := 0x80000000, vl := 0, vstart := 0 }
    some (s.setReg rd s.vl).next

/-! ## Vector loads and stores -/

/-- Element width of a load or store; the other codes are those of floating-point registers. -/
def vWidth (word : Nat) : Option Nat := match bits word 14 12 with | 0 => some 8 | 5 => some 16 | 6 => some 32 | 7 => some 64 | _ => none
/-- An access of fields of width ew, at an address for each element, between the groups from vd on and the stream buffer. -/
def rvAccess (r : Rv) (m : Bytes) (store vm : Bool) (vd nf ew emul len : Nat) (addr : Nat → Nat) : Option (Rv × Bytes) :=
  let k := regsOf emul
  if !alignedAt vd emul || 8 < nf * k || 32 < vd + nf * k || (!store && !vm && vd = 0) then none
  else if store then
    let m := (List.range len).foldl (fun m i =>
      if i < r.vstart || !r.active vm i then m
      else (List.range nf).foldl (fun m j => coreWrite m (addr i + j * (ew / 8)) (ew / 8) (r.elem (vd + j * k) ew i)) m) m
    some (r.done, m)
  else
    let s := (List.range nf).foldl (fun s j => { r with v := s.v }.write (vd + j * k) ew len (Nat.max (32 * emul / ew) (256 / ew)) vm false
      fun i => coreRead m (addr i + j * (ew / 8)) (ew / 8)) r
    some (s.done, m)
/-- Major opcodes 0x07 and 0x27: unit-stride, strided and indexed accesses with their fields, whole registers, masks. -/
def rvVecMem (r : Rv) (m : Bytes) (store : Bool) (word : Nat) : Option (Rv × Bytes) :=
  let base := r.reg (bits word 19 15)
  let rs2 := bits word 24 20
  let vd := bits word 11 7
  let vm := bit word 25
  let nf := bits word 31 29 + 1
  let mop := bits word 27 26
  match vWidth word with
  | none => none
  | some ew =>
    if bit word 28 then none
    else if mop = 0 && rs2 = 8 then
      (if !vm || !([1, 2, 4, 8].contains nf) || vd % nf ≠ 0 || (store && ew ≠ 8) then none
       else
         let n := 256 * nf / ew
         if store then
           some (r.done, (List.range n).foldl (fun m i => if i < r.vstart then m else coreWrite m (base + i * (ew / 8)) (ew / 8) (r.elem vd ew i)) m)
         else some (((List.range n).foldl (fun s i => if i < r.vstart then s else s.setElem vd ew i (coreRead m (base + i * (ew / 8)) (ew / 8))) r).done, m))
    else if bit r.vtype 31 then none
    else if mop = 0 && rs2 = 11 then
      (if !vm || nf ≠ 1 || ew ≠ 8 then none
       else
         let n := (r.vl + 7) / 8
         if store then some (r.done, (List.range n).foldl (fun m i => if i < r.vstart then m else coreWrite m (base + i) 1 (r.elem vd 8 i)) m)
         else some ((r.write vd 8 n 32 true true fun i => coreRead m (base + i) 1).done, m))
    else if mop = 0 then
      (if rs2 ≠ 0 && !(rs2 = 16 && !store) then none
       else rvAccess r m store vm vd nf ew (r.emul ew) r.vl fun i => base + i * (nf * (ew / 8)))
    else if mop = 2 then rvAccess r m store vm vd nf ew (r.emul ew) r.vl fun i => wrap (base + (i : Int) * sgn (r.reg rs2) 32) 32
    else if !alignedAt rs2 (r.emul ew) || (!store && !mayOverlap vd r.sew r.lmul rs2 ew (r.emul ew)) || (!store && nf ≠ 1 &&
        !apart vd (8 * nf * regsOf r.lmul) rs2 (r.emul ew)) then none
    else rvAccess r m store vm vd nf r.sew r.lmul r.vl fun i => base + r.elem rs2 ew i

end Sys2Proof.Machine
end

