-- ==== Sys2Proof/Machine/RoutineFloat.lean ====
section
/-! DEFINITION. Floating-point of the RV32IMV core of a Dill copy engine: the F and D extensions, which V needs, and V's instructions on
elements of 32 and 64 bits (spec/24 R350; the RISC-V manuals, log entry 28). Exact values are rounded once. -/

namespace Sys2Proof.Machine

/-! ## Values, rounding, flags -/

/-- The binary formats of 32 and 64 bits. -/
def rvFmt (w : Nat) : Fmt := if w = 32 then fp32 else ⟨64, 52, 1023, 2046, 2 ^ 52 - 1, true, true, 0x7FF8000000000000⟩
/-- A result with the exception flags it raises: 16 NV, 8 DZ, 4 OF, 2 UF, 1 NX. -/
abbrev FRes := Nat × Nat
def rvVal (w x : Nat) : FV := (rvFmt w).decode x
def rvNan (w x : Nat) : Bool := (rvVal w x).isNan
/-- A signalling NaN: the top bit of its fraction is 0. -/
def rvSnan (w x : Nat) : Bool := rvNan w x && !bit x ((rvFmt w).mb - 1)
/-- NV where some operand is a signalling NaN. -/
def nvOf (w : Nat) (xs : List Nat) : Nat := if xs.any (rvSnan w) then 16 else 0

/-- Rounds a nonnegative rational to an integer: mode 0 RNE, 1 RTZ, 2 RDN, 3 RUP, 4 RMM, 8 to odd. -/
def rvRoundNat (rm : Nat) (s : Bool) (a b : Nat) : Nat :=
  match rm with
  | 4 => if b ≤ 2 * (a % b) then a / b + 1 else a / b
  | 8 => if a % b = 0 then a / b else a / b ||| 1
  | _ => roundNat (match rm with | 0 => .rne | 1 => .rtz | 2 => .rdn | _ => .rup) s a b
/-- A nonzero real rounded to a format, with its flags; a result is tiny when it is so after rounding. -/
def rvRound (w rm : Nat) (q : Q) : FRes :=
  let f := rvFmt w
  let s := decide (q.num < 0)
  let kmin : Int := 1 - (f.bias : Int) - f.mb
  let k0 : Int := q.abs.log2 - f.mb
  let at_ (k : Int) : Nat × Bool := let t := q.abs.div (Q.pow2 k); (rvRoundNat rm s t.num.natAbs t.den, decide (t.num.natAbs % t.den ≠ 0))
  let k := if k0 < kmin then kmin else k0
  let r := at_ k
  let tiny := decide (k0 < kmin) && !(decide (k0 + 1 = kmin) && decide ((at_ k0).1 = 2 ^ (f.mb + 1)))
  let (n, k) := if r.1 = 2 ^ (f.mb + 1) then (r.1 / 2, k + 1) else (r.1, k)
  let e := (k + f.mb + f.bias).toNat
  if 2 ^ f.mb ≤ n && f.maxE < e then
    (if rm = 1 || rm = 8 || (rm = 2 && !s) || (rm = 3 && s) then f.largest s else f.infinity s, 5)
  else
    (f.withSign s (if n < 2 ^ f.mb then n else e * 2 ^ f.mb + (n - 2 ^ f.mb)), if r.2 then (if tiny then 3 else 1) else 0)
/-- A value as the result of an operation on some operands: NaN is the canonical one, and invalid unless an operand is a quiet NaN. -/
def rvOut (w rm : Nat) (ins : List Nat) (x : FV) : FRes :=
  match x with
  | .nan => ((rvFmt w).canon, if ins.any (rvNan w) then nvOf w ins else 16)
  | .inf s => ((rvFmt w).infinity s, 0)
  | .zero s => ((rvFmt w).withSign s 0, 0)
  | .fin q => rvRound w rm q

/-! ## Operations -/

/-- The mode that decides the sign of an exact zero sum. -/
def zeroMode (rm : Nat) : RM := if rm = 2 then .rdn else .rne
def rvAdd (w rm a b : Nat) : FRes := rvOut w rm [a, b] (FV.add (zeroMode rm) (rvVal w a) (rvVal w b))
def rvSub (w rm a b : Nat) : FRes := rvOut w rm [a, b] (FV.add (zeroMode rm) (rvVal w a) (rvVal w b).neg)
def rvMul (w rm a b : Nat) : FRes := rvOut w rm [a, b] (FV.mul (rvVal w a) (rvVal w b))
def rvDiv (w rm a b : Nat) : FRes :=
  let r := rvOut w rm [a, b] (FV.div (rvVal w a) (rvVal w b))
  match rvVal w a, rvVal w b with | .fin _, .zero _ => (r.1, 8) | _, _ => r
def rvSqrt (w rm a : Nat) : FRes :=
  rvOut w rm [a] (match rvVal w a with | .fin q => if q.num < 0 then .nan else .fin (q.sqrt (70 + Nat.log2 q.den)) | x => x.sqrt)
/-- a x b + c with one rounding, the product and c negated as asked; infinity times zero is invalid whatever c is. -/
def rvFma (w rm : Nat) (negP negC : Bool) (a b c : Nat) : FRes :=
  let p := FV.mul (rvVal w a) (rvVal w b)
  let v := rvVal w c
  let r := rvOut w rm [a, b, c] (FV.add (zeroMode rm) (if negP then p.neg else p) (if negC then v.neg else v))
  (r.1, if p.isNan && !rvNan w a && !rvNan w b then r.2 ||| 16 else r.2)
/-- minimumNumber and maximumNumber. -/
def rvMinMax (w : Nat) (max : Bool) (a b : Nat) : FRes := ((rvOut w 0 [a, b] (FV.minMax max (rvVal w a) (rvVal w b))).1, nvOf w [a, b])
/-- Comparison 0: at most, 1: below, 2: equal; the first two are invalid on any NaN. -/
def rvCmp (w op a b : Nat) : Bool × Nat :=
  if rvNan w a || rvNan w b then (false, if op = 2 then nvOf w [a, b] else 16)
  else
    let c := (rvVal w a).cmp (rvVal w b)
    (match op with | 0 => decide (c ≤ 0) | 1 => decide (c < 0) | _ => decide (c = 0), 0)
/-- The magnitude of a with the sign of b, its opposite, or the two signs' exclusive or. -/
def rvSgnj (w kind a b : Nat) : Nat :=
  let sb := bit b (w - 1)
  (rvFmt w).withSign (match kind with | 0 => sb | 1 => !sb | _ => sb != bit a (w - 1)) (a % 2 ^ (w - 1))
/-- The class of a value, one bit of ten. -/
def rvClass (w a : Nat) : Nat :=
  let s := bit a (w - 1)
  2 ^ (match rvVal w a with
    | .nan => if rvSnan w a then 8 else 9
    | .inf _ => if s then 0 else 7
    | .zero _ => if s then 3 else 4
    | .fin _ => if (rvFmt w).subnormal a then (if s then 2 else 5) else (if s then 1 else 6))
/-- To an integer of n bits, clamped to its range. -/
def rvToInt (w rm n : Nat) (signed : Bool) (a : Nat) : FRes :=
  let lo : Int := if signed then -(2 ^ (n - 1) : Nat) else 0
  let hi : Int := if signed then (2 ^ (n - 1) : Nat) - 1 else (2 ^ n : Nat) - 1
  match rvVal w a with
  | .nan => (wrap hi n, 16)
  | .inf s => (wrap (if s then lo else hi) n, 16)
  | .zero _ => (0, 0)
  | .fin q =>
    let s := decide (q.num < 0)
    let m : Int := rvRoundNat rm s q.num.natAbs q.den
    let v := if s then -m else m
    if v < lo then (wrap lo n, 16) else if hi < v then (wrap hi n, 16)
    else (wrap v n, if q.num.natAbs % q.den = 0 then 0 else 1)
/-- From an integer. -/
def rvFromInt (w rm : Nat) (v : Int) : FRes := if v = 0 then (0, 0) else rvRound w rm (Q.ofInt v)
/-- From one format to another. -/
def rvCvt (from_ to_ rm a : Nat) : FRes :=
  match rvVal from_ a with
  | .nan => ((rvFmt to_).canon, nvOf from_ [a])
  | x => rvOut to_ rm [] x
/-- An operand of a widening operation in the wider format; a signalling NaN stays one. -/
def rvUp (w a : Nat) : Nat := if rvSnan w a then 0x7FF0000000000001 else (rvCvt w (2 * w) 0 a).1

/-- Exponent and fraction of a nonzero finite value with its leading one taken off; a subnormal's exponent goes below 0 or 1. -/
def rvNormal (w a : Nat) : Int × Nat :=
  let f := rvFmt w
  let e := bits a (w - 2) f.mb
  let m := a % 2 ^ f.mb
  if e = 0 then
    let z := f.mb - 1 - Nat.log2 m
    (-(z : Int), m * 2 ^ (z + 1) % 2 ^ f.mb)
  else (e, m)
/-- Entry of the table of reciprocals to 7 bits: the nearest for the middle of the interval. -/
def rec7Entry (i : Nat) : Nat := (131072 + 2 * i + 257) / (2 * (2 * i + 257)) - 128
/-- Entry of the table of reciprocal square roots to 7 bits; the lower half is that of the even biased exponents. -/
def rsqrt7Entry (i : Nat) : Nat := (Nat.sqrt (if i < 64 then 2 ^ 24 / (2 * i + 129) else 2 ^ 25 / (2 * (i - 64) + 129)) + 1) / 2 - 128
/-- vfrec7. -/
def rvRec7 (w rm a : Nat) : FRes :=
  let f := rvFmt w
  let s := bit a (w - 1)
  match rvVal w a with
  | .nan => (f.canon, nvOf w [a])
  | .inf s => (f.withSign s 0, 0)
  | .zero s => (f.infinity s, 8)
  | .fin _ =>
    let (e, m) := rvNormal w a
    if e < -1 then (if rm = 1 || (rm = 2 && !s) || (rm = 3 && s) then f.largest s else f.infinity s, 5)
    else
      let oe : Int := 2 * (f.bias : Int) - 1 - e
      let sig := rec7Entry (m / 2 ^ (f.mb - 7)) * 2 ^ (f.mb - 7)
      (f.withSign s (if oe ≤ 0 then (2 ^ f.mb + sig) / 2 ^ (1 - oe).toNat else oe.toNat * 2 ^ f.mb + sig), 0)
/-- vfrsqrt7. -/
def rvRsqrt7 (w a : Nat) : FRes :=
  let f := rvFmt w
  match rvVal w a with
  | .nan => (f.canon, nvOf w [a])
  | .inf s => if s then (f.canon, 16) else (0, 0)
  | .zero s => (f.infinity s, 8)
  | .fin _ =>
    if bit a (w - 1) then (f.canon, 16)
    else
      let (e, m) := rvNormal w a
      let i := (e % 2).toNat * 64 + m / 2 ^ (f.mb - 6)
      (((3 * (f.bias : Int) - 1 - e) / 2).toNat * 2 ^ f.mb + rsqrt7Entry i * 2 ^ (f.mb - 7), 0)

/-! ## Scalar instructions -/

/-- Floating-point register n as an operand of 32 or 64 bits; a narrow one that is not NaN-boxed is the canonical NaN. -/
def Rv.fget (r : Rv) (w n : Nat) : Nat :=
  let v := (r.f.get (BitVec.ofNat 5 n).toFin).toNat
  if w = 64 then v else if v / 2 ^ 32 = 2 ^ 32 - 1 then v % 2 ^ 32 else (rvFmt 32).canon
/-- Writes it; a narrow value is NaN-boxed. -/
def Rv.fput (r : Rv) (w n v : Nat) : Rv :=
  let k := (BitVec.ofNat 5 n).toFin
  { r with f := r.f.set k (BitVec.ofNat 64 (if w = 64 then v else (2 ^ 32 - 1) * 2 ^ 32 + v % 2 ^ 32)) k.isLt }
/-- Exception flags are raised. -/
def Rv.flag (r : Rv) (fl : Nat) : Rv := { r with fcsr := r.fcsr ||| fl }
/-- The dynamic rounding mode. -/
def Rv.frm (r : Rv) : Nat := r.fcsr / 32
/-- The rounding mode of an instruction; none for a reserved one. -/
def Rv.rmOf (r : Rv) (code : Nat) : Option Nat :=
  let m := if code = 7 then r.frm else code
  if m < 5 then some m else none
/-- A result goes to a floating-point register, or to an integer one. -/
def Rv.fres (r : Rv) (w rd : Nat) (x : FRes) : Rv := ((r.fput w rd x.1).flag x.2).next
def Rv.xres (r : Rv) (rd : Nat) (x : FRes) : Rv := ((r.setReg rd x.1).flag x.2).next

/-- FLW and FLD. -/
def rvFload (r : Rv) (m : Bytes) (word : Nat) : Rv × Bytes :=
  let n := 2 ^ bits word 14 12
  ((r.fput (8 * n) (bits word 11 7) (coreRead m (wrap (r.reg (bits word 19 15) + rvImmI word) 32) n)).next, m)
/-- FSW and FSD. -/
def rvFstore (r : Rv) (m : Bytes) (word : Nat) : Bytes :=
  coreWrite m (wrap (r.reg (bits word 19 15) + rvImmS word) 32) (2 ^ bits word 14 12) (r.fget 64 (bits word 24 20))
/-- FMADD, FMSUB, FNMSUB, FNMADD. -/
def rvMulAdd (r : Rv) (word : Nat) : Option Rv :=
  let w := 32 * (bits word 26 25 + 1)
  let kind := bits word 3 2
  if 1 < bits word 26 25 then none
  else (r.rmOf (bits word 14 12)).map fun rm =>
    r.fres w (bits word 11 7) (rvFma w rm (decide (2 ≤ kind)) (kind = 1 || kind = 3)
      (r.fget w (bits word 19 15)) (r.fget w (bits word 24 20)) (r.fget w (bits word 31 27)))
/-- OP-FP. -/
def rvOpFp (r : Rv) (word : Nat) : Option Rv :=
  let w := 32 * (bits word 26 25 + 1)
  let rd := bits word 11 7
  let f3 := bits word 14 12
  let rs1 := bits word 19 15
  let rs2 := bits word 24 20
  let a := r.fget w rs1
  let b := r.fget w rs2
  let put (g : Nat → FRes) : Option Rv := (r.rmOf f3).map fun rm => r.fres w rd (g rm)
  if 1 < bits word 26 25 then none
  else
    match bits word 31 27 with
    | 0x00 => put fun rm => rvAdd w rm a b
    | 0x01 => put fun rm => rvSub w rm a b
    | 0x02 => put fun rm => rvMul w rm a b
    | 0x03 => put fun rm => rvDiv w rm a b
    | 0x0B => if rs2 = 0 then put fun rm => rvSqrt w rm a else none
    | 0x04 => if f3 < 3 then some (r.fres w rd (rvSgnj w f3 a b, 0)) else none
    | 0x05 => if f3 < 2 then some (r.fres w rd (rvMinMax w (f3 = 1) a b)) else none
    | 0x08 => if (w = 32 && rs2 = 1) || (w = 64 && rs2 = 0) then put fun rm => rvCvt (96 - w) w rm (r.fget (96 - w) rs1) else none
    | 0x14 => if f3 < 3 then (let c := rvCmp w f3 a b; some (r.xres rd (if c.1 then 1 else 0, c.2))) else none
    | 0x18 => if rs2 < 2 then (r.rmOf f3).map fun rm => r.xres rd (rvToInt w rm 32 (rs2 = 0) a) else none
    | 0x1A => if rs2 < 2 then put fun rm => rvFromInt w rm (if rs2 = 0 then sgn (r.reg rs1) 32 else r.reg rs1) else none
    | 0x1C =>
      if rs2 = 0 && f3 = 1 then some (r.xres rd (rvClass w a, 0))
      else if rs2 = 0 && f3 = 0 && w = 32 then some (r.xres rd (r.fget 64 rs1 % 2 ^ 32, 0))
      else none
    | 0x1E => if rs2 = 0 && f3 = 0 && w = 32 then some (r.fres 32 rd (r.reg rs1, 0)) else none
    | _ => none

/-! ## Vector instructions: OPFVV and OPFVF -/

/-- Second operand of element i: of vs1, or a scalar. -/
def Rv.fsecond (r : Rv) (word w i : Nat) : Nat := if bits word 14 12 = 1 then r.elem (bits word 19 15) w i else r.fget w (bits word 19 15)
/-- Instructions that work element by element: a of vs2, b the second operand, d the old element of vd; the widening forms, from 0x30 on, on
operands of twice the width. -/
def opfElem (f6 w rm a b d : Nat) : Option FRes :=
  match f6 with
  | 0x00 | 0x30 | 0x34 => some (rvAdd w rm a b) | 0x02 | 0x32 | 0x36 => some (rvSub w rm a b) | 0x27 => some (rvSub w rm b a)
  | 0x04 => some (rvMinMax w false a b) | 0x06 => some (rvMinMax w true a b)
  | 0x08 => some (rvSgnj w 0 a b, 0) | 0x09 => some (rvSgnj w 1 a b, 0) | 0x0A => some (rvSgnj w 2 a b, 0)
  | 0x20 => some (rvDiv w rm a b) | 0x21 => some (rvDiv w rm b a) | 0x24 | 0x38 => some (rvMul w rm a b)
  | 0x28 => some (rvFma w rm false false b d a) | 0x29 => some (rvFma w rm true true b d a)
  | 0x2A => some (rvFma w rm false true b d a) | 0x2B => some (rvFma w rm true false b d a)
  | 0x2C | 0x3C => some (rvFma w rm false false b a d) | 0x2D | 0x3D => some (rvFma w rm true true b a d)
  | 0x2E | 0x3E => some (rvFma w rm false true b a d) | 0x2F | 0x3F => some (rvFma w rm true false b a d)
  | _ => none
/-- Comparisons into a mask. -/
def opfCmp (f6 w a b : Nat) : Option (Bool × Nat) :=
  match f6 with
  | 0x18 => some (rvCmp w 2 a b) | 0x19 => some (rvCmp w 0 a b) | 0x1B => some (rvCmp w 1 a b)
  | 0x1C => let c := rvCmp w 2 a b; some (!c.1, c.2)
  | 0x1D => some (rvCmp w 1 b a) | 0x1F => some (rvCmp w 0 b a)
  | _ => none
/-- The flags of the elements that take part. -/
def Rv.flagsOf (r : Rv) (vm : Bool) (fl : Nat → Nat) : Nat :=
  (List.range r.vl).foldl (fun m i => if decide (r.vstart ≤ i) && r.active vm i then m ||| fl i else m) 0
/-- Element by element, or none. -/
def rvOpf (r : Rv) (word : Nat) : Option Rv :=
  let f6 := vFunct6 word
  let vv := decide (bits word 14 12 = 1)
  let vm := bit word 25
  let vd := bits word 11 7
  let vs2 := bits word 24 20
  let vs1 := bits word 19 15
  let w := r.sew
  let wide := decide (0x30 ≤ f6)
  let dw := if wide then 2 * w else w
  let w2 := if f6 = 0x34 || f6 = 0x36 then 2 * w else w
  let toMask := 0x18 ≤ f6 && f6 ≤ 0x1F
  if 64 < dw || (vv && ([0x1D, 0x1F, 0x21, 0x27] : List Nat).contains f6) || !alignedAt vs2 (r.emul w2) || (vv && !alignedAt vs1 r.lmul)
      || (!toMask && (!alignedAt vd (r.emul dw) || (!vm && vd = 0)))
      || !mayOverlap vd (if toMask then 1 else dw) (if toMask then 8 else r.emul dw) vs2 w2 (r.emul w2)
      || (vv && !mayOverlap vd (if toMask then 1 else dw) (if toMask then 8 else r.emul dw) vs1 w r.lmul) then none
  else if toMask then
    let e (i : Nat) := opfCmp f6 w (r.elem vs2 w i) (r.fsecond word w i)
    if (e 0).isNone then none
    else some ((r.maskTo vd vm fun i => ((e i).map (·.1)).getD false).flag (r.flagsOf vm fun i => ((e i).map (·.2)).getD 0)).done
  else
    let a (i : Nat) := if wide && w2 = w then rvUp w (r.elem vs2 w i) else r.elem vs2 w2 i
    let b (i : Nat) := if wide then rvUp w (r.fsecond word w i) else r.fsecond word w i
    let e (i : Nat) := opfElem f6 dw r.frm (a i) (b i) (r.elem vd dw i)
    if (e 0).isNone then none
    else some ((r.group vd dw vm fun i => ((e i).map (·.1)).getD 0).flag (r.flagsOf vm fun i => ((e i).map (·.2)).getD 0)).done

/-- An unordered sum: any tree over the operands (log entry 28). -/
def sumTree (add : Nat → Nat → FRes) : Nat → List Nat → FRes
  | 0, xs => (xs.headD 0, 0)
  | k + 1, xs =>
    if xs.length ≤ 1 then (xs.headD 0, 0)
    else
      let n := 1 + Config.sumSplit xs % (xs.length - 1)
      let a := sumTree add k (xs.take n)
      let b := sumTree add k (xs.drop n)
      let c := add a.1 b.1
      (c.1, a.2 ||| b.2 ||| c.2)
/-- Reductions: vs1[0] with the active elements of vs2, into vd[0]. -/
def rvFreduce (r : Rv) (word : Nat) : Option Rv :=
  let f6 := vFunct6 word
  let w := r.sew
  let dw := if 0x30 ≤ f6 then 2 * w else w
  let vd := bits word 11 7
  if 64 < dw || r.vstart ≠ 0 || !alignedAt (bits word 24 20) r.lmul then none
  else
    let is := (List.range r.vl).filter (r.active (bit word 25))
    let x (i : Nat) := let v := r.elem (bits word 24 20) w i; if dw = w then v else rvUp w v
    let first := r.elem (bits word 19 15) dw 0
    let fold (g : Nat → Nat → FRes) : FRes := is.foldl (fun a i => let c := g a.1 (x i); (c.1, a.2 ||| c.2)) (first, 0)
    let v : FRes := match f6 % 16 with
      | 1 => sumTree (rvAdd dw r.frm) is.length (first :: is.map x)
      | 3 => fold (rvAdd dw r.frm)
      | 5 => fold (rvMinMax dw false)
      | _ => fold (rvMinMax dw true)
    some ((r.write vd dw (if r.vl = 0 then 0 else 1) (256 / dw) true false fun _ => v.1).flag (if r.vl = 0 then 0 else v.2)).done
/-- Conversions: of one width, widening, narrowing. -/
def rvFconvert (r : Rv) (word : Nat) : Option Rv :=
  let c := bits word 19 15
  let t := c % 8
  let vm := bit word 25
  let vd := bits word 11 7
  let vs2 := bits word 24 20
  let w := r.sew
  let sw := if c / 8 = 2 then 2 * w else w
  let dw := if c / 8 = 1 then 2 * w else w
  let isF (n : Nat) : Bool := n = 32 || n = 64
  let toInt := t < 2 || 5 < t
  if 2 < c / 8 || (t = 4 && c / 8 = 0) || (t = 5 && c / 8 ≠ 2) || 64 < sw || 64 < dw || (!(t = 2 || t = 3) && !isF sw) || (!toInt && !isF dw)
      || !alignedAt vd (r.emul dw) || !alignedAt vs2 (r.emul sw) || (!vm && vd = 0) || !mayOverlap vd dw (r.emul dw) vs2 sw (r.emul sw) then none
  else
    let e (i : Nat) : FRes :=
      let x := r.elem vs2 sw i
      if toInt then rvToInt sw (if 5 < t then 1 else r.frm) dw (t % 2 = 1) x
      else if t = 2 then rvFromInt dw r.frm x
      else if t = 3 then rvFromInt dw r.frm (sgn x sw)
      else rvCvt sw dw (if t = 5 then 8 else r.frm) x
    some ((r.group vd dw vm fun i => (e i).1).flag (r.flagsOf vm fun i => (e i).2)).done
/-- vfsqrt, vfrsqrt7, vfrec7, vfclass. -/
def rvFunary (r : Rv) (word : Nat) : Option Rv :=
  let vm := bit word 25
  let vd := bits word 11 7
  let vs2 := bits word 24 20
  let w := r.sew
  let g : Option (Nat → FRes) := match bits word 19 15 with
    | 0x00 => some (rvSqrt w r.frm) | 0x04 => some (rvRsqrt7 w) | 0x05 => some (rvRec7 w r.frm) | 0x10 => some fun x => (rvClass w x, 0)
    | _ => none
  if !alignedAt vd r.lmul || !alignedAt vs2 r.lmul || (!vm && vd = 0) then none
  else g.map fun g => ((r.group vd w vm fun i => (g (r.elem vs2 w i)).1).flag (r.flagsOf vm fun i => (g (r.elem vs2 w i)).2)).done
/-- Moves, merges and slides. -/
def rvFmove (r : Rv) (word : Nat) : Option Rv :=
  let f6 := vFunct6 word
  let vv := decide (bits word 14 12 = 1)
  let vm := bit word 25
  let vd := bits word 11 7
  let vs2 := bits word 24 20
  let w := r.sew
  let x := r.fget w (bits word 19 15)
  match f6, vv with
  | 0x0E, false => rvPermute r word true none fun i => if i = 0 then some (.inr x) else some (.inl (i - 1))
  | 0x0F, false => rvPermute r word false none fun i => if i + 1 = r.vl then some (.inr x) else some (.inl (i + 1))
  | 0x10, true => if vm && bits word 19 15 = 0 then some (r.fput w vd (r.elem vs2 w 0)).done else none
  | 0x10, false => if vm && vs2 = 0 then some (r.write vd w (if r.vstart < r.vl then 1 else 0) (256 / w) true false fun _ => x).done else none
  | 0x17, false =>
    if !alignedAt vd r.lmul || (vm && vs2 ≠ 0) || (!vm && (!alignedAt vs2 r.lmul || vd = 0)) then none
    else some (r.group vd w true fun i => if vm || r.elem 0 1 i = 1 then x else r.elem vs2 w i).done
  | _, _ => none
/-- Floating-point arithmetic on vectors; reserved while frm holds no rounding mode, and for elements that are not floating-point numbers. -/
def rvVecFp (r : Rv) (word : Nat) : Option Rv :=
  let f6 := vFunct6 word
  let vv := decide (bits word 14 12 = 1)
  if 4 < r.frm then none
  else if f6 = 0x12 && vv then rvFconvert r word
  else if r.sew ≠ 32 && r.sew ≠ 64 then none
  else if f6 = 0x13 && vv then rvFunary r word
  else if f6 = 0x0E || f6 = 0x0F || f6 = 0x10 || f6 = 0x17 then rvFmove r word
  else if ([1, 3, 5, 7, 0x31, 0x33] : List Nat).contains f6 then (if vv then rvFreduce r word else none)
  else rvOpf r word

end Sys2Proof.Machine
end

