-- ==== Sys2Proof/Machine/RoutineCore.lean ====
section
/-! DEFINITION. One instruction of the RV32IMV core of a Dill copy engine (spec/24 R350, R351). -/

namespace Sys2Proof.Machine

/-- Vector arithmetic and configuration: major opcode 0x57. -/
def rvVector (r : Rv) (word : Nat) : Option Rv :=
  let f6 := vFunct6 word
  let f3 := bits word 14 12
  let w := r.sew
  if f3 = 7 then rvSetvl r word
  else if bit r.vtype 31 then none
  else if f3 % 4 = 1 then rvVecFp r word
  else if f3 % 4 = 2 then
    (if f6 < 8 then (if f3 = 2 then rvReduce r word w (r.elem (bits word 24 20) w) (redOp f6 w) else none)
     else if f6 < 0x0C || 0x20 ≤ f6 then rvOpm r word else rvMask r word)
  else if f6 = 0x30 || f6 = 0x31 then
    (if f3 ≠ 0 then none
     else rvReduce r word (2 * w) (fun i => let a := r.elem (bits word 24 20) w i; if f6 = 0x31 then wrap (sgn a w) (2 * w) else a) (redOp 0 (2 * w)))
  else if f6 = 0x0C || f6 = 0x0E || f6 = 0x0F || (f6 = 0x27 && f3 = 3) then rvMove r word
  else rvOpi r word

/-! ## One instruction -/

/-- One instruction of the core on its registers and the stream buffer; none for a word that is no instruction of RV32IMV or of the F and D
extensions that V needs, and for ECALL and EBREAK (R351). A jump or taken branch to an address that is no multiple of 4 is none either: no such instruction can be fetched. -/
def rvExec (r : Rv) (m : Bytes) (w : Nat) : Option (Rv × Bytes) :=
  let rd := bits w 11 7
  let f3 := bits w 14 12
  let f7 := bits w 31 25
  let a := r.reg (bits w 19 15)
  let b := r.reg (bits w 24 20)
  let pc : Int := r.pc.toNat
  let reg (v : Nat) : Option (Rv × Bytes) := some ((r.setReg rd v).next, m)
  let jump (t : Int) : Option (Rv × Bytes) := if t % 4 = 0 then some ((r.setReg rd (wrap (pc + 4) 32)).goto t, m) else none
  let load (n : Nat) (signed : Bool) : Option (Rv × Bytes) :=
    let v := coreRead m (wrap (a + rvImmI w) 32) n
    reg (if signed then wrap (sgn v (8 * n)) 32 else v)
  match w % 128 with
  | 0x37 => reg (bits w 31 12 * 4096)
  | 0x17 => reg (wrap (pc + bits w 31 12 * 4096) 32)
  | 0x6F => jump (pc + rvImmJ w)
  | 0x67 => if f3 = 0 then jump ((a + rvImmI w) / 2 * 2) else none
  | 0x63 => (rvTaken f3 a b).bind fun t =>
      if t then (if (pc + rvImmB w) % 4 = 0 then some (r.goto (pc + rvImmB w), m) else none) else some (r.next, m)
  | 0x03 => match f3 with | 0 => load 1 true | 1 => load 2 true | 2 => load 4 false | 4 => load 1 false | 5 => load 2 false | _ => none
  | 0x23 => if 2 < f3 then none else some (r.next, coreWrite m (wrap (a + rvImmS w) 32) (2 ^ f3) b)
  | 0x13 =>
    if f3 = 1 then (if f7 = 0 then reg (rvAlu 1 false a (bits w 24 20)) else none)
    else if f3 = 5 then (if f7 = 0 || f7 = 0x20 then reg (rvAlu 5 (f7 = 0x20) a (bits w 24 20)) else none)
    else reg (rvAlu f3 false a (wrap (rvImmI w) 32))
  | 0x33 =>
    if f7 = 1 then reg (rvMulDiv 32 f3 a b)
    else if f7 = 0 || (f7 = 0x20 && (f3 = 0 || f3 = 5)) then reg (rvAlu f3 (f7 = 0x20) a b)
    else none
  | 0x0F => if f3 = 0 then some (r.next, m) else none
  | 0x73 => if f3 % 4 = 0 then none else (rvCsr r w).map fun r => (r, m)
  | 0x57 => (rvVector r w).map fun r => (r, m)
  | 0x07 => if f3 = 2 || f3 = 3 then some (rvFload r m w) else rvVecMem r m false w
  | 0x27 => if f3 = 2 || f3 = 3 then some (r.next, rvFstore r m w) else rvVecMem r m true w
  | 0x43 | 0x47 | 0x4B | 0x4F => (rvMulAdd r w).map fun r => (r, m)
  | 0x53 => (rvOpFp r w).map fun r => (r, m)
  | _ => none

end Sys2Proof.Machine
end

