-- ==== Sys2Proof/Machine/Dill.lean ====
section
/-! DEFINITION. The Dill copy engines: opcode 0x98, BRS-1, CRC sidecars, the running of jobs (spec/24 R350-R363,
spec/33 R447). -/

namespace Sys2Proof.Machine

/-! ## CRC-64/XZ and BRS-1 (R353-R355) -/

/-- One bit of the reflected CRC (R355). -/
def crcBit (c : BitVec 64) : BitVec 64 := if c.getLsbD 0 then (c >>> 1) ^^^ 0xC96C5795D7870F42#64 else c >>> 1
/-- One byte of the CRC. -/
def crcByte (c : BitVec 64) (b : Byte) : BitVec 64 :=
  crcBit (crcBit (crcBit (crcBit (crcBit (crcBit (crcBit (crcBit (c ^^^ b.setWidth 64))))))))
/-- The CRC of a run of bytes (R355). -/
def crc64 (bs : List Byte) : BitVec 64 := ~~~(bs.foldl crcByte (BitVec.allOnes 64))

/-- What an expansion gives: the bytes of the tokens before the failing one, whether it failed, and whether the failure is
that the input ends (R353). -/
structure Expanded where
  out : List Byte
  bad : Bool := false
  short : Bool := false
  deriving DecidableEq, Repr

/-- n bytes copied from o before the end, one at a time (R353). -/
def brsMatch (o : Nat) : Nat → List Byte → List Byte
  | 0, out => out
  | n + 1, out => brsMatch o n (out ++ [out.getD (out.length - o) 0])

/-- Tokens of a BRS-1 stream until p reaches ULEN; the fuel is at least the input's length (R353). -/
def brsTokens (ulen : Nat) : Nat → List Byte → List Byte → Expanded
  | 0, ins, out => { out := out, bad := out.length ≠ ulen || !ins.isEmpty, short := out.length ≠ ulen }
  | k + 1, ins, out =>
    if out.length = ulen then { out := out, bad := !ins.isEmpty }
    else
      match ins with
      | [] => { out := out, bad := true, short := true }
      | t :: rest =>
        if t.toNat < 128 then
          let n := t.toNat + 1
          if ulen < out.length + n then { out := out, bad := true }
          else if rest.length < n then { out := out, bad := true, short := true }
          else brsTokens ulen k (rest.drop n) (out ++ rest.take n)
        else
          match rest with
          | a :: b :: rest' =>
            let n := t.toNat % 128 + 3
            let o := a.toNat + 256 * b.toNat
            if o = 0 || out.length < o || ulen < out.length + n then { out := out, bad := true }
            else brsTokens ulen k rest' (brsMatch o n out)
          | _ => { out := out, bad := true, short := true }

/-- Magic bytes of a stream (R353). -/
def brsMagic : List Byte := [0x42, 0x53, 0x01, 0x00]
/-- ULEN of a stream that holds its header. -/
def brsUlen (ins : List Byte) : Nat := leVal ((ins.drop 4).take 4)
/-- A header byte given is other than those of R353. -/
def brsBadHeader (ins : List Byte) : Bool := ins.take 4 ≠ brsMagic.take (ins.take 4).length
/-- Expansion after the header. -/
def brsExpand (ins : List Byte) : Expanded :=
  if brsBadHeader ins then { out := [], bad := true }
  else if ins.length < 8 then { out := [], bad := true, short := true }
  else brsTokens (brsUlen ins) (ins.length + 1) (ins.drop 8) []

/-- A stream of literals only: 8 + SLEN + ceil(SLEN / 128) bytes (R354). -/
def brsLiterals : Nat → List Byte → List Byte
  | 0, _ => []
  | k + 1, bs => if bs.isEmpty then [] else
      let n := Nat.min 128 bs.length
      BitVec.ofNat 8 (n - 1) :: bs.take n ++ brsLiterals k (bs.drop n)
/-- The longest stream COMPRESS may write for n bytes (R354). -/
def brsBound (n : Nat) : Nat := 8 + n + (n + 127) / 128
/-- Header of a stream for n bytes. -/
def brsHeader (n : Nat) : List Byte := brsMagic ++ leBytes n 4
/-- COMPRESS's stream: the firmware's where that is valid, otherwise literals (R354; log entry 28). -/
def brsCompress (src : List Byte) : List Byte :=
  let c := Config.compressed src
  let e := brsExpand c
  if !e.bad && e.out = src && c.length ≤ brsBound src.length then c else brsHeader src.length ++ brsLiterals src.length src
/-- What COMPRESS has written of a source of n bytes whose first bytes it has seen: a beginning of a stream for them, the firmware's where it is
one, otherwise literals (R354; log entry 28). -/
def brsBegun (n : Nat) (seen : List Byte) : List Byte :=
  let c := Config.begun n seen
  let e := brsExpand c
  if e.short && e.out = seen.take e.out.length && c.take 8 = (brsHeader n).take c.length && c.length ≤ brsBound n then c
  else (brsHeader n ++ brsLiterals seen.length seen).take (Config.begunLength n seen)

/-! ## Cards and routine tables (R351, R357, R358) -/

/-- Fields of a card. -/
def cardRout (c : Nat) : Nat := c % 256
def cardSrc (c : Nat) : Nat := bits c 191 128
def cardDst (c : Nat) : Nat := bits c 255 192
def cardSlen (c : Nat) : Nat := bits c 287 256
def cardDcap (c : Nat) : Nat := bits c 319 288
def cardSide (c : Nat) : Nat := bits c 383 320
/-- DXRT of an engine has a valid entry for a routine (R351). -/
def State.routValid (s : State) (k rout : Nat) : Bool := rout < 64 && (s.mr (offDXRT k rout)).getLsbD 63
/-- A card is invalid for a set of engines: none has the routine, or another breach of R358. -/
def State.cardBad (s : State) (engines : List Nat) (c : Nat) : Bool :=
  let chk := bit c 8
  let gen := bit c 9
  let rout := cardRout c
  bits c 127 10 ≠ 0 || bits c 415 400 ≠ 0 || engines.all (fun k => !s.routValid k rout) || (chk && gen)
    || ((chk || gen || rout = 3) && (cardSide c = 0 || cardSide c % 16 ≠ 0))
    || ((chk || rout = 3) && cardSrc c % 4096 ≠ 0) || (gen && cardDst c % 4096 ≠ 0) || (rout < 4 && bits c 511 448 ≠ 0)

/-- An engine takes new jobs: ready, no world change pending, fewer than 64 queued (R360, R456, R457). -/
def State.dillOpen (s : State) (k : Nat) : Bool :=
  s.dillReady k && !s.worldPending (dillBlock k) && (s.dill k).queue.length < 64
/-- The open engine with the fewest queued jobs, the lowest number first (R360). -/
def State.leastDill (s : State) (ks : List Nat) : Option Nat :=
  (ks.filter s.dillOpen).foldl (fun b k => match b with
    | none => some k
    | some j => if (s.dill k).queue.length < (s.dill j).queue.length then some k else b) none

/-! ## XCOPY, XWAIT, XSTAT, CRCV (R360, R361, R363) -/

/-- The engines an XCOPY names. -/
def State.xcopyEngines (s : State) (f : Fields) : List Nat :=
  let e := f.modN % 8
  if e < 4 then [4 * s.g.die + e] else (List.range 4).map fun i => 4 * s.g.die + i

/-- The group has 8 incomplete XCOPYs, or the job of ticket LAST - 7 is incomplete (R360). -/
def Group.ticketsFull (g : Group) : Bool :=
  decide (8 ≤ (g.tickets.filter fun t => !t.done).length) || g.tickets.any fun t => t.num = g.last - 7 && !t.done

/-- XCOPY (R360). -/
def execXcopy (f : Fields) (s : State) : Res :=
  issue .c false (dab f) f (fun s =>
    let ks := s.xcopyEngines f
    if s.g.ticketsFull || (f.modN % 8 < 4 && !ks.any s.dillOpen) then .wait s.hold
    else s.releasing fun s => s.plainRead (s.va f).toNat fun c s' =>
      if s.cardBad ks c then .trap { cause := cXJOB } s
      else
        match s.leastDill (ks.filter fun k => s.routValid k (cardRout c)) with
        | none => .wait s.hold
        | some k =>
          let n : BitVec 32 := if s.g.last = BitVec.allOnes 32 then 1 else s.g.last + 1
          let j : DillJob := {
            dev := s.g.die, owner := s.g.uid, task := s.g.task, launch := s.g.launch, job := s.g.job
            core := BitVec.ofNat 6 s.g.core, slot := BitVec.ofNat 5 s.g.slot, iaddr := s.g.pc
            card := BitVec.ofNat 512 c, cardAddr := s.va f, ticket := n }
          let ts := s'.g.tickets ++ [{ num := n }]
          let s := s'.setG { s'.g with last := n, tickets := ts.drop (ts.length - 8) }
          let s := s.modDill k fun d => { d with queue := d.queue ++ [j] }
          .done (s.putD f (n.setWidth 64)).advance) s

/-- XTICK of R361: t is 0 or not among the tickets given. -/
def Group.badTicket (g : Group) (t : BitVec 32) : Bool := t = 0 || 2 ^ 31 ≤ (g.last - t).toNat
/-- The job of a ticket is complete. -/
def Group.ticketDone (g : Group) (t : BitVec 32) : Bool :=
  8 ≤ (g.last - t).toNat || (match g.tickets.find? fun k => decide (k.num = t) with | some k => k.done | none => true)
/-- The word of R361. The statuses of a ticket that has not been given are free values. -/
def State.ticketWord (s : State) (t : BitVec 32) : Word × State :=
  if 8 ≤ (s.g.last - t).toNat then (BitVec.ofNat 64 (2 ^ 17 + 2 ^ 16), s)
  else
    match s.g.tickets.find? fun k => decide (k.num = t) with
    | some k => (if k.done then k.outlen ++ 0#15 ++ 1#1 ++ k.ecode ++ 0#8 else 0, s)
    | none =>
      let (v, s) := s.draw
      (v.extractLsb' 32 32 ++ 0#15 ++ 1#1 ++ v.extractLsb' 8 8 ++ 0#8, s)

/-- XWAIT (R361). -/
def execXwait (f : Fields) (s : State) : Res :=
  issue .c false (dab f) f (fun s =>
    let t := (s.va f).setWidth 32
    if s.g.badTicket t then .trap { cause := cXTICK } s
    else if s.g.ticketDone t then
      let (w, s) := s.ticketWord t
      .done (s.putD f w).acquireG.advance
    else .wait (s.block .xwait 0 (t.setWidth 64) s.now)) s
/-- XSTAT (R361). -/
def execXstat (f : Fields) (s : State) : Res :=
  issue .c false (dab f) f (fun s =>
    let t := (s.va f).setWidth 32
    if s.g.badTicket t then .trap { cause := cXTICK } s
    else
      let done := s.g.ticketDone t
      let (w, s) := s.ticketWord t
      .done ((s.putD f w).acqIf done).advance) s

/-- A sidecar entry's bytes (R355). -/
def sideEntry (crc : BitVec 64) (n : Nat) : List Byte := leBytes crc.toNat 8 ++ leBytes n 4 ++ leBytes 0 4
/-- CRCV (R363); its reads wait as plain loads do (R405). -/
def execCrcv (f : Fields) (s : State) : Res :=
  issue .c false (fun _ => [⟨0, f.d, 8⟩, ⟨1, f.a, 8⟩, ⟨2, f.b, 8⟩, ⟨3, f.c, 8⟩]) f (fun s =>
    let a := (s.va f).toNat
    let b := (s.vb f).toNat
    let upd := f.mod.getLsbD 0
    if a % 4096 ≠ 0 then .trap (fltAt cALIGN 0 a) s
    else if b % 16 ≠ 0 then .trap (fltAt cALIGN 0 b) s
    else
      match s.checkElem .r clsNormal 1 0 a, s.checkElem (if upd then .rw else .r) clsNormal 1 0 b with
      | .error r, _ | .ok _, .error r => .trap r s
      | .ok xa, .ok xb =>
        let aa : LaneAcc := ⟨0, a, xa⟩
        let ab : LaneAcc := ⟨0, b, xb⟩
        match s.poisonOf .r 16 ab with
        | some r => .trap r s
        | none =>
          if s.loadHeld 16 ab then .wait s.hold else
          let eb := s.laneBytes 16 ab
          let s1 := s.loadTouch ownHint 16 ab
          let len := leVal ((eb.drop 8).take 4)
          let ok := 1 ≤ len && len ≤ 4096
          let n := if ok then len else 4096
          match s.poisonOf .r n aa with
          | some r => .trap r s
          | none =>
            if s.loadHeld n aa then .wait s.hold else
            s1.whenFree 16 (if upd then [ab] else []) fun s1 =>
              let crc := crc64 (s.laneBytes n aa)
              let s2 := s1.loadTouch ownHint n aa
              let s3 := if upd then s2.storeLane ownHint ab (sideEntry crc n) else s2
              let c : Word := if upd || (ok && decide (leVal (eb.take 8) = crc.toNat)) then 1 else 0
              .done (((s3.setG (s3.g.put f.c c)).putD f crc).advance)) s

/-! ## Running a job (R350, R352-R356) -/

/-- Where n bytes of one line lie: raw host addresses on the host side of a transfer, otherwise through the page table
and world of the job's logical device (R350, R447). -/
def State.jobPlace (s : State) (j : DillJob) (out raw : Bool) (va n : Nat) : Place :=
  if raw then (if !out && !s.linkUp then .fault cLINKDN else .host va)
  else
    match s.translateAny j.dev (s.secure j.dev) (if out then .w else .r) va with
    | .ok x => s.placeOf j.dev (s.secure j.dev) out n (x.tgt, x.ofs, x.handle)
    | .error r => .fault r.cause

/-- The TLBs that access fills (R181). -/
def State.jobFill (s : State) (j : DillJob) (out raw : Bool) (va : Nat) : State :=
  if raw then s
  else match s.translateAny j.dev (s.secure j.dev) (if out then .w else .r) va with
    | .ok x => s.fillXl j.dev none (s.secure j.dev) va x
    | .error _ => s
/-- Why a job ended early. -/
inductive JEnd where
  | at (p : Place) (va : Nat)
  | crc (b : Nat)
  | code (c : BitVec 8)
  deriving DecidableEq, Repr

/-- A place is a fault. -/
def Place.bad : Place → Bool | .fault _ | .refused .. => true | _ => false

/-- Reads upward line by line, up to the first fault. -/
def State.jobRead (s : State) (j : DillJob) (raw : Bool) : Nat → Nat → Nat → List Byte × Option JEnd × State
  | 0, _, _ => ([], none, s)
  | k + 1, va, n =>
    if n = 0 then ([], none, s)
    else
      let m := Nat.min n (128 - va % 128)
      let p := s.jobPlace j false raw va m
      if p.bad then ([], some (.at p va), s)
      else
        let (bs, s) := (s.jobFill j false raw va).agentRead j.dev j.owner j.launch p m { evp := 3 }
        let (cs, e, s) := s.jobRead j raw k (va + m) (n - m)
        (bs ++ cs, e, s)

/-- Writes upward line by line, up to the first fault; the number of bytes written. -/
def State.jobWrite (s : State) (j : DillJob) (raw : Bool) : Nat → Nat → List Byte → Nat × Option JEnd × State
  | 0, _, _ => (0, none, s)
  | k + 1, va, bs =>
    if bs.isEmpty then (0, none, s)
    else
      let m := Nat.min bs.length (128 - va % 128)
      let p := s.jobPlace j true raw va m
      if p.bad then (0, some (.at p va), s)
      else
        let s := (s.jobFill j true raw va).agentWrite j.dev j.job j.owner j.launch p (bs.take m) { evp := 3 }
        let (n, e, s) := s.jobWrite j raw k (va + m) (bs.drop m)
        (m + n, e, s)
/-- Lines a run of n bytes touches, at most. -/
def lineFuel (n : Nat) : Nat := n / 128 + 2

/-- Source block b of n bytes; with CHK it is checked against its entry before the routine sees any byte of it (R356). -/
def State.jobBlock (s : State) (j : DillJob) (raw : Bool) (c b n : Nat) : List Byte × Option JEnd × State :=
  let (bs, e, s) := s.jobRead j raw (lineFuel n) (cardSrc c + 4096 * b) n
  if !bit c 8 then (bs, e, s)
  else
    match e with
    | some e => ([], some e, s)
    | none =>
      let (eb, e, s) := s.jobRead j false 3 (cardSide c + 16 * b) 16
      match e with
      | some e => ([], some e, s)
      | none =>
        if leVal ((eb.drop 8).take 4) ≠ n || leVal (eb.take 8) ≠ (crc64 bs).toNat then ([], some (.crc b), s) else (bs, none, s)
/-- A job's next source bytes from a number on: with CHK the whole block they begin (R350, R356). -/
def State.jobNext (s : State) (j : DillJob) (got n : Nat) : List Byte × Option JEnd × State :=
  let c := j.card.toNat
  let left := cardSlen c - got
  let raw := j.transfer = some false
  if left = 0 then ([], none, s)
  else if bit c 8 then s.jobBlock j raw c (got / 4096) (Nat.min 4096 left)
  else let m := Nat.min n left; s.jobRead j raw (lineFuel m) (cardSrc c + got) m
/-- Source bytes that a firmware routine has brought pass through the stream buffer. -/
def State.jobSeen (s : State) (engine : Nat) (bs : List Byte) : State :=
  s.modDill engine fun d => { d with
    got := d.got + bs.length, seen := d.seen ++ bs
    stream := bs.zipIdx.foldl (fun m b => bset m ((d.got + b.2) % streamSize) b.1) d.stream }
/-- A firmware routine reads its next source bytes. -/
def State.jobTake (s : State) (engine : Nat) (j : DillJob) (n : Nat) : Option JEnd × State :=
  let (bs, e, s) := s.jobNext j (s.dill engine).got n
  (e, s.jobSeen engine bs)
/-- It reads the rest of them, up to a fault or a failed check. -/
def State.jobTakes (s : State) (engine : Nat) (j : DillJob) : Nat → Option JEnd × State
  | 0 => (none, s)
  | k + 1 =>
    if cardSlen j.card.toNat ≤ (s.dill engine).got then (none, s)
    else
      match s.jobTake engine j (cardSlen j.card.toNat) with
      | (some e, s) => (some e, s)
      | (none, s) => s.jobTakes engine j k

/-- CRCGEN's next block: it is read, checked first with CHK, and its entry written (R352, R356). -/
def State.crcBlock (s : State) (engine : Nat) (j : DillJob) : Option JEnd × State :=
  let c := j.card.toNat
  let got := (s.dill engine).got
  let b := got / 4096
  let n := Nat.min 4096 (cardSlen c - got)
  if n = 0 then (none, s)
  else
    let (bs, e, s) := s.jobBlock j false c b n
    match e with
    | some e => (some e, s)
    | none =>
      let (_, e, s) := s.jobWrite j false 3 (cardSide c + 16 * b) (sideEntry (crc64 bs) n)
      (e, if e.isSome then s else s.modDill engine fun d => { d with got := d.got + n, wrote := d.wrote + 1 })
/-- The rest of its blocks. -/
def State.crcBlocks (s : State) (engine : Nat) (j : DillJob) : Nat → Option JEnd × State
  | 0 => (none, s)
  | k + 1 =>
    if cardSlen j.card.toNat ≤ (s.dill engine).got then (none, s)
    else
      match s.crcBlock engine j with
      | (some e, s) => (some e, s)
      | (none, s) => s.crcBlocks engine j k

/-- What the source shows of a firmware routine while bytes are still to come, at a fault, or as a whole. -/
inductive Shown where
  | part | fault | whole
  deriving DecidableEq, Repr
/-- What a firmware routine makes of the source bytes it has seen: output so far, and its own end (R352-R354). Where a stream's header is
wrong and its ULEN is above DCAP, it is malformed (log entry 66). -/
def routine (c : Nat) (src : List Byte) (shown : Shown) : List Byte × Option JEnd :=
  if cardRout c = 0 then (if cardDcap c < cardSlen c then ([], some (.code cXCAP)) else (src, none))
  else if cardRout c = 1 then
    let e := brsExpand src
    if brsBadHeader src || (src.length < 8 && shown = .whole) then ([], some (.code cXFMT))
    else if 8 ≤ src.length && cardDcap c < brsUlen src then ([], some (.code cXCAP))
    else if e.bad && (shown = .whole || !e.short) then (e.out, some (.code cXFMT))
    else (e.out, none)
  else
    match shown with
    | .part => ([], none)
    | .fault => ((brsBegun (cardSlen c) src).take (cardDcap c), none)
    | .whole => if cardDcap c < (brsCompress src).length then ([], some (.code cXCAP)) else (brsCompress src, none)

/-- The next destination bytes, within one block where GEN is set: the block's entry follows its last byte (R350, R356). -/
def State.jobPut (s : State) (engine : Nat) (j : DillJob) (bs : List Byte) : Option JEnd × State :=
  let c := j.card.toNat
  let at_ := (s.dill engine).wrote
  let blk := (s.dill engine).block ++ bs
  let (n, e, s) := s.jobWrite j (j.transfer = some true) (lineFuel bs.length) (cardDst c + at_) bs
  let full := bit c 9 && decide (blk.length = 4096)
  let s := s.modDill engine fun d => { d with wrote := d.wrote + n, block := if bit c 9 && !full then blk else [] }
  if e.isSome || !full then (e, s)
  else let (_, e, s) := s.jobWrite j false 3 (cardSide c + 16 * (at_ / 4096)) (sideEntry (crc64 blk) blk.length); (e, s)
/-- Many of them, a block at a time, up to the first fault. -/
def State.jobPuts (s : State) (engine : Nat) (j : DillJob) : Nat → List Byte → Option JEnd × State
  | 0, _ => (none, s)
  | k + 1, bs =>
    if bs.isEmpty then (none, s)
    else
      let m := 4096 - (s.dill engine).wrote % 4096
      match s.jobPut engine j (bs.take m) with
      | (some e, s) => (some e, s)
      | (none, s) => s.jobPuts engine j k (bs.drop m)
/-- The entry of a last block that is not whole (R356). -/
def State.jobLast (s : State) (engine : Nat) (j : DillJob) : Option JEnd × State :=
  let c := j.card.toNat
  let blk := (s.dill engine).block
  if blk.isEmpty then (none, s)
  else
    let (_, e, s) := s.jobWrite j false 3 (cardSide c + 16 * ((s.dill engine).wrote / 4096)) (sideEntry (crc64 blk) blk.length)
    (e, s)

/-- The program counter stands behind the last of the LEN words of a loaded routine, from OFS on: the routine is over (R351; log entry 28). -/
def State.routineOver (s : State) (engine rout : Nat) : Bool :=
  let e := s.mrN (offDXRT engine rout)
  decide ((s.dill engine).rv.pc.toNat = 4 * (bits e 13 0 + bits e 31 16))
/-- The word at the core's program counter, within those words; none where there is none. -/
def State.routineWord (s : State) (engine rout : Nat) : Option Nat :=
  let e := s.mrN (offDXRT engine rout)
  let pc := (s.dill engine).rv.pc.toNat
  if pc % 4 = 0 && decide (4 * bits e 13 0 ≤ pc) && decide (pc < 4 * (bits e 13 0 + bits e 31 16)) && decide (pc < 2 ^ 16) then
    some (rdLE (s.dill engine).imem pc 4)
  else none
/-- The core's next instruction, on its registers and the stream buffer; none where it ends the job with XROUT (R351). -/
def State.routineNext (s : State) (engine rout : Nat) : Option (Rv × Bytes) :=
  (s.routineWord engine rout).bind fun w => rvExec (s.dill engine).rv (s.dill engine).stream w

/-- Runs the rest of a job whose routine goes to its end: how it ended. A loaded one has only its last sidecar entry left (R351, R356). -/
def State.jobRun (s : State) (engine : Nat) (j : DillJob) : Option JEnd × State :=
  let c := j.card.toNat
  let blocks := cardSlen c / 4096 + 2
  if 4 ≤ cardRout c then s.jobLast engine j
  else if cardRout c = 3 then s.crcBlocks engine j blocks
  else if cardRout c = 0 && cardDcap c < cardSlen c then (some (.code cXCAP), s)
  else
    let (e, s) := s.jobTakes engine j blocks
    let (out, own) := routine c (s.dill engine).seen (if e.isSome then .fault else .whole)
    let fin := match own with | some o => some o | none => e
    let (out, s) := if cardRout c = 2 && own = some (.code cXCAP) then s.freeBytes (cardDcap c) else (out, s)
    let (e2, s) := s.jobPuts engine j (out.length / 4096 + 2) (out.drop (s.dill engine).wrote)
    if e2.isSome then (e2, s) else if fin.isSome then (fin, s) else s.jobLast engine j

/-! ## The end of a job (R358, R362) -/

/-- A record with a job's source (R331, R362). -/
def State.jobRec (s : State) (j : DillJob) (r : FRec) : FRec :=
  s.launchRec j.launch { r with
    iaddr := j.iaddr, core := j.core, slot := j.slot, sdie := if j.owner = 0 then 8 else BitVec.ofNat 4 j.dev }
/-- ECODE of an end. -/
def JEnd.ecode : JEnd → BitVec 8
  | .at (.fault c) _ => c
  | .at _ _ => cRPERM
  | .crc _ => cCRCMIS
  | .code c => c
/-- The log entry of an end; a refusal stands in the exporter's log too (R222, R362, R403). -/
def State.logEnd (s : State) (j : DillJob) (e : JEnd) : State :=
  match e with
  | .at p va =>
    let s := match p with
      | .refused h r => s.log (s.exporterOf j.dev h) (s.jobRec j { r with addr := BitVec.ofNat 64 va, imp := true })
      | _ => s
    s.logFail j.dev j.launch (s.jobRec j
      { cause := cCPYFLT, detail := e.ecode, info := j.ticket &&& 0xFF, addr := BitVec.ofNat 64 va })
  | .crc b => s.logFail j.dev j.launch (s.jobRec j { cause := cCRCMIS, info := BitVec.ofNat 32 b })
  | .code c => s.logFail j.dev j.launch (s.jobRec j { cause := c, info := j.ticket })

/-- The result fields of the card: DONE, ECODE, zeros, OUTLEN (R357). -/
def cardResult (ec : BitVec 8) (outlen : Nat) : List Byte := [1, ec, 0, 0] ++ leBytes outlen 4
/-- The engine writes the result fields through the page table and world of the job's logical device, or logs that it cannot (R358). The card
of a transfer entry is looked for at its address in the ring, taken for a virtual address (log entry 63). -/
def State.writeCard (s : State) (j : DillJob) (ec : BitVec 8) (outlen : Nat) : State :=
  let va := j.cardAddr.toNat + 48
  match s.jobWrite j false 3 va (cardResult ec outlen) with
  | (_, some (.at p v), s') =>
    let s' := match p with
      | .refused h r => s'.log (s'.exporterOf j.dev h) (s'.jobRec j { r with addr := BitVec.ofNat 64 v, imp := true })
      | _ => s'
    s'.logFail j.dev j.launch (s'.jobRec j
      { cause := cCPYFLT, detail := (JEnd.at p v).ecode, info := j.ticket &&& 0xFF, addr := BitVec.ofNat 64 v })
  | (_, _, s') => s'

/-- What MEAS3 is extended with for a write to a routine-table entry: the engine, the entry, the value (R460; log entry 59). -/
def dxrtObject (k entry : Nat) (v : Word) : List Byte := leBytes k 4 ++ leBytes entry 4 ++ leBytes v.toNat 8
/-- A write to instruction memory or to a routine-table entry takes effect; the latter is measured (R351, R460). -/
def State.applyDill (s : State) (k : Nat) (w : Bool × Nat × Word) : State :=
  if w.1 then s.modDill k fun d => { d with imem := wrLE d.imem (4 * (w.2.1 % 16384)) 4 (w.2.2.toNat % 2 ^ 32) }
  else if 4 ≤ w.2.1 && w.2.1 < 64 then
    (s.setMr (offDXRT k w.2.1) (w.2.2 &&& 0x8000FFFFFFFF3FFF#64)).measureObject 3 (dxrtObject k w.2.1 w.2.2)
  else s
/-- The head job leaves its engine; held writes take effect (R351). -/
def State.popDill (s : State) (k : Nat) : State :=
  let hs := (s.dill k).held
  let s := s.modDill k fun d => { d with queue := d.queue.drop 1, running := false, held := [] }
  hs.foldl (fun s w => s.applyDill k w) s

/-- A job ends with a length and an end: the card, the log, its ticket (R358, R361, R362). -/
def State.endJob (s : State) (k : Nat) (j : DillJob) (outlen : Nat) (e : Option JEnd) : State :=
  let ec := match e with | some x => x.ecode | none => 0
  let s := match e with | some x => s.logEnd j x | none => s
  let s := s.writeCard j ec outlen
  let s := s.modGroup j.owner fun g => { g with tickets := g.tickets.map fun t =>
    if t.num = j.ticket then { t with done := true, ecode := ec, outlen := BitVec.ofNat 32 outlen } else t }
  s.popDill k

/-- Some access of a run waits: a write of a line that is taken or a read of one that is held (R212, R213, R405), or an access out of a dead
die by an engine of it, which is given up and never answered (R406). -/
def State.runHeld (s : State) (engine : Nat) (j : DillJob) (out : Bool) (va n : Nat) : Bool :=
  let dead := decide (engine < 32) && (s.die j.dev).dead
  (s.cores.any (fun e => !e.2.leases.isEmpty || !e.2.leaseReq.isEmpty) || !s.cache.dir.isEmpty || dead) &&
    (List.range (if n = 0 then 0 else lineFuel n)).any fun i =>
      match s.jobPlace j out false (Nat.min (va + 128 * i) (va + n - 1)) 1 with
      | .home k => (if out then s.lineTaken (lineOf k) else s.readHeld j.dev (lineOf k)) || (dead && decide (dieOfKey k ≠ j.dev))
      | .host _ => dead
      | _ => false
/-- A read of n source bytes from a number on waits, or one of their sidecar entries. -/
def State.inHeld (s : State) (engine : Nat) (j : DillJob) (got n : Nat) : Bool :=
  let c := j.card.toNat
  (j.transfer ≠ some false && s.runHeld engine j false (cardSrc c + got) n)
    || ((bit c 8 || cardRout c = 3) && s.runHeld engine j false (cardSide c + 16 * (got / 4096)) (16 * (n / 4096 + 1)))
/-- A write of n destination bytes from a number on waits, or one of their sidecar entries. -/
def State.outHeld (s : State) (engine : Nat) (j : DillJob) (wrote n : Nat) : Bool :=
  let c := j.card.toNat
  (cardRout c ≠ 3 && j.transfer ≠ some true && s.runHeld engine j true (cardDst c + wrote) n)
    || ((cardRout c = 3 || bit c 9) && s.runHeld engine j true (cardSide c + 16 * (wrote / 4096)) (16 * (n / 4096 + 1)))
/-- A job's end waits for one of the accesses left to it. -/
def State.jobHeld (s : State) (engine : Nat) (j : DillJob) : Bool :=
  let c := j.card.toNat
  let d := s.dill engine
  let at_ := if cardRout c = 3 then d.got else d.wrote
  s.inHeld engine j d.got (cardSlen c - d.got) || s.outHeld engine j at_ ((if cardRout c = 3 then cardSlen c else cardDcap c) - at_)
    || s.runHeld engine j true j.cardAddr.toNat 64

/-- DILL_JOB_START: the oldest job of a ready engine starts, a loaded routine at its entry point (R351, R360, R456). -/
def execDillJobStart (engine : Nat) (s : State) : Res :=
  let d := s.dill engine
  if d.running || d.queue.isEmpty || !s.dillReady engine then .next s
  else
    let entry := match d.queue with | j :: _ => bits (s.mrN (offDXRT engine (cardRout j.card.toNat))) 13 0 | [] => 0
    .next (s.modDill engine fun d => { d with
      running := true, got := 0, wrote := 0, seen := [], block := [], rv := { d.rv with pc := BitVec.ofNat 32 (4 * entry) } })
/-- The running job of an engine. -/
def State.runningJob (s : State) (engine : Nat) : Option DillJob := if (s.dill engine).running then (s.dill engine).queue.head? else none
/-- It ends with what it has written: bytes, or CRCGEN's entries. -/
def State.finish (s : State) (engine : Nat) (j : DillJob) (e : Option JEnd) : State := s.endJob engine j (s.dill engine).wrote e

/-- DILL_JOB_COMPLETE: the running job's routine runs to its end; a loaded one has come to it (R352-R358). -/
def execDillJobComplete (engine : Nat) (_choice : List Byte) (_ecode : BitVec 8) (s : State) : Res :=
  match s.runningJob engine with
  | none => .next s
  | some j =>
    let r := cardRout j.card.toNat
    if s.jobHeld engine j || (decide (4 ≤ r) && !s.routineOver engine r) then .next s
    else
      let (e, s) := s.jobRun engine j
      .next (s.finish engine j e)

/-- ROUTINE_TIME_LIMIT: a loaded routine runs past LIMIT (R351). -/
def execRoutineTimeLimit (engine : Nat) (_written : List Byte) (s : State) : Res :=
  match s.runningJob engine with
  | none => .next s
  | some j =>
    let r := cardRout j.card.toNat
    if r < 4 || bits (s.mrN (offDXRT engine r)) 47 32 = 0 || s.jobHeld engine j then .next s
    else .next (s.finish engine j (some (.code cXROUT)))

/-! ## A job on its way (R350, R351) -/

/-- A step of the running job goes on, or ends it. -/
def State.jobStep (engine : Nat) (j : DillJob) (r : Option JEnd × State) : State :=
  match r with | (some e, s) => s.finish engine j (some e) | (none, s) => s
/-- A firmware routine reads its next source bytes before its end; a fault or a failed check waits for that. -/
def State.jobReads (s : State) (engine n : Nat) : State :=
  match s.runningJob engine with
  | none => s
  | some j =>
    let c := j.card.toNat
    let d := s.dill engine
    let n := if bit c 8 || cardRout c = 3 then 4096 else n
    if 4 ≤ cardRout c || s.inHeld engine j d.got n || (cardRout c = 3 && s.outHeld engine j d.got n) then s
    else
      match if cardRout c = 3 then s.crcBlock engine j else s.jobTake engine j n with
      | (some _, _) => s
      | (none, t) => t
/-- A firmware routine writes its next destination bytes, of those that the source seen gives, before its end; a fault waits for that. -/
def State.jobWrites (s : State) (engine n : Nat) : State :=
  match s.runningJob engine with
  | none => s
  | some j =>
    let c := j.card.toNat
    let d := s.dill engine
    if 3 ≤ cardRout c || s.outHeld engine j d.wrote n then s
    else
      let shown := if d.got = cardSlen c then Shown.whole else .part
      match s.jobPuts engine j (n / 4096 + 2) (((routine c d.seen shown).1.drop d.wrote).take n) with
      | (some _, _) => s
      | (none, t) => t

/-- The running job of an engine, where its routine is a loaded one. -/
def State.loadedJob (s : State) (engine : Nat) : Option DillJob :=
  (s.runningJob engine).bind fun j => if cardRout j.card.toNat < 4 then none else some j
/-- The core executes its next instruction; one that is none ends the job with XROUT, and a routine that is over stands still. -/
def State.routineStep (s : State) (engine : Nat) : State :=
  match s.loadedJob engine with
  | none => s
  | some j =>
    let r := cardRout j.card.toNat
    match s.routineNext engine r with
    | some (r, m) => s.modDill engine fun d => { d with rv := r, stream := m }
    | none => if s.routineOver engine r || s.jobHeld engine j then s else s.finish engine j (some (.code cXROUT))
/-- A stream-buffer transfer of the next source bytes to a place of the buffer; a fault or a failed check ends the job. -/
def State.routineIn (s : State) (engine place n : Nat) : State :=
  match s.loadedJob engine with
  | none => s
  | some j =>
    let (bs, e, t) := s.jobNext j (s.dill engine).got n
    if s.inHeld engine j (s.dill engine).got (Nat.max n 4096) || streamSize < place + bs.length then s
    else State.jobStep engine j (e, t.modDill engine fun d => { d with
      got := d.got + bs.length, stream := if e.isSome then d.stream else bsetMany d.stream place bs })
/-- A transfer of bytes from a place of the buffer to the destination, as far as its capacity goes. -/
def State.routineOut (s : State) (engine place n : Nat) : State :=
  match s.loadedJob engine with
  | none => s
  | some j =>
    let d := s.dill engine
    if s.outHeld engine j d.wrote n || streamSize < place + n || cardDcap j.card.toNat < d.wrote + n then s
    else State.jobStep engine j (s.jobPuts engine j (n / 4096 + 2) (bytesAt d.stream place n))

/-- DXRT_WRITE: privileged software writes instruction memory or the routine table; held while a job runs (R351). -/
def execDxrtWrite (engine : Nat) (imem : Bool) (index : Nat) (v : Word) (s : State) : Res :=
  if (s.dill engine).running then .next (s.modDill engine fun d => { d with held := d.held ++ [(imem, index, v)] })
  else .next (s.applyDill engine (imem, index, v))

end Sys2Proof.Machine
end

