-- ==== Sys2Proof/Machine/Graph.lean ====
section
/-! DEFINITION. The render work graph: node entries, BEMIT and BRECV, regrouping, rasteriser, Chervil binner, blender
(spec/26 R383-R386, R393, R394, spec/02 R39-R41). -/

namespace Sys2Proof.Machine

/-! ## Nodes (R383) -/

/-- A graph node entry. -/
structure GNode where
  kind : Nat
  rsz : Nat
  next : Nat
  type : Nat
  arg : Word
  deriving DecidableEq, Repr

/-- Bytes of a node's record. -/
def GNode.size (n : GNode) : Nat := 16 * (n.rsz + 1)
/-- A valid entry of a logical device's graph table. An entry that breaks one of its two obligations, bits [105:64] zero and RSZ 3 for a
fixed-function node, is no invalid one: the bits have no effect, and RSZ is asRecord's (R2, R383; log entry 65). -/
def State.graphNode (s : State) (dev node : Nat) : Option GNode :=
  let r := s.mrN (offWGBR dev)
  if !bit r 0 then none
  else
    match s.hubRead dev (s.secure dev) (bits r 56 12 * 4096 + 16 * node : Nat) 16 with
    | none => none
    | some bs =>
      let e := leVal bs
      let n : GNode := { kind := bits e 126 124, rsz := bits e 123 122, next := bits e 121 114, type := bits e 113 106, arg := BitVec.ofNat 64 e }
      if bit e 127 && n.kind ≤ 4 then some n else none
/-- The read of an entry. -/
def State.nodeTouch (s : State) (dev node : Nat) : State := s.entryTouch dev (offWGBR dev) (s.secure dev) (16 * node)
/-- A record as a node takes it: a fixed-function node reads 64 bytes, and those that a smaller RSZ leaves out are free values (R2, R4, R383;
log entry 65). -/
def State.asRecord (s : State) (n : GNode) (data : BitVec 512) : BitVec 512 × State :=
  if n.kind = 0 || n.rsz = 3 then (data, s)
  else
    let (bs, s) := s.freeBytes (64 - n.size)
    (BitVec.ofNat 512 (leVal (leBytes data.toNat n.size ++ bs)), s)

/-! ## Triangles and tiles (R385, R386) -/

/-- Words of a triangle record: vertex i's x, y, z; STATE; PRIM. -/
def triVert (d i : Nat) : List Nat := recWords d (3 * i) 3
def triState (d : Nat) : Nat := recWord d 10
def triPrim (d : Nat) : Nat := recWord d 9
def triSeq (d : Nat) : Nat := bits d 415 352
/-- The vertices; none where a coordinate is not finite. -/
def triangle (d : Nat) : Option (V3 × V3 × V3) :=
  if (recWords d 0 9).all fin32 then some (vecOf (triVert d 0), vecOf (triVert d 1), vecOf (triVert d 2)) else none
/-- Floor of a rational. -/
def Q.floor (q : Q) : Int := q.num / (q.den : Int)
def Q.min3 (a b c : Q) : Q := (a.min b).min c
def Q.max3 (a b c : Q) : Q := (a.max b).max c
/-- First and last index of the cells of a size that the bounding box overlaps: x, then y. -/
def boxCells (t : V3 × V3 × V3) (n : Nat) : (Int × Int) × (Int × Int) :=
  let c (q : Q) : Int := (q.div (Q.ofInt n)).floor
  ((c (Q.min3 t.1.x t.2.1.x t.2.2.x), c (Q.max3 t.1.x t.2.1.x t.2.2.x)),
   (c (Q.min3 t.1.y t.2.1.y t.2.2.y), c (Q.max3 t.1.y t.2.1.y t.2.2.y)))
/-- Residue r modulo m lies in a range of indices. -/
def hasResidue (lo hi : Int) (m : Nat) (r : Nat) : Bool := lo + (((r : Int) - lo) % (m : Int)) ≤ hi
/-- A die owns a tile that the bounding box overlaps. -/
def binsOn (d die : Nat) : Bool :=
  match triangle d with
  | none => false
  | some t =>
    let b := boxCells t 32
    hasResidue b.1.1 b.1.2 4 (die % 4) && hasResidue b.2.1 b.2.2 2 (die / 4)
/-- The dies a record for a binner node travels to. -/
def binDies (d : Nat) : List Nat := (List.range 8).filter (binsOn d)

/-! ## Emission (R384, R386, R393) -/

/-- A record enters the graph of a die, with the job it carries (R409). -/
def State.putGraph (s : State) (launch job fromDie die node : Nat) (data : BitVec 512) (flush : Nat) : State :=
  let (id, s) := s.take
  let far := fromDie ≠ die
  let s := if far then (s.count fromDie job .inj).wakePair fromDie die else s.touchAt fromDie job
  if far && ((s.die fromDie).dead || (s.die die).dead) then s.count 8 job .lost
  else
    let r : GraphRec := { id := id, node := node, die := die, fromDie := fromDie, data := data, launch := launch, job := job, remote := far, flush := flush }
    { s with fab := { s.fab with graph := s.fab.graph ++ [r] } }
/-- A record goes to a node: to the binners of the dies it concerns, as far as the device reaches them, or to the die's own. -/
def State.routeGraph (s : State) (launch job fromDie node : Nat) (n : GNode) (data : BitVec 512) (flush : Nat) : State :=
  let s := s.nodeTouch fromDie node
  if n.kind = 2 then
    ((binDies data.toNat).filter fun d => d = fromDie || s.holdsHandle fromDie d).foldl
      (fun s d => s.putGraph launch job fromDie d node data flush) s
  else s.putGraph launch job fromDie fromDie node data flush
/-- A node's record is sent on. Where no valid node stands, nothing is sent. -/
def State.sendGraph (s : State) (launch job fromDie node : Nat) (data : BitVec 512) (flush : Nat) : State :=
  match s.graphNode fromDie node with
  | none => s
  | some n => let (data, s) := s.asRecord n data; s.routeGraph launch job fromDie node n data flush

/-- GNODE for a record of a valid node: a die that R386 requires is not reachable (R393). -/
def State.gnodeBad (s : State) (n : GNode) (data : Nat) : Bool :=
  n.kind = 2 && (binDies data).any fun d => d ≠ s.g.die && !s.holdsHandle s.g.die d
/-- A die's record store is full of its own records; a record from another die is not in it until it is accepted (R312, R393). -/
def State.recordsFull (s : State) (die : Nat) : Bool :=
  let n := (s.fab.graph.filter fun r => r.die = die && !r.remote).length
  n ≠ 0 && decide (Config.recordStore.toNat ≤ n)
/-- The flush of a record that a shader makes of one of its batch: the same triangle, the same primitive of one block, or a block of the
triangle (R385, R386; log entry 53); none where it is no such record. -/
def passedOn (e : Nat × BitVec 512) (data : Nat) : Option Nat :=
  let d := e.2.toNat
  if e.1 = 0 then none
  else if e.1 % 2 = 1 then (if bits d 127 0 = bits data 127 0 then some e.1 else none)
  else if bits d 415 288 = bits data 415 288 then some e.1
  else if bits d 415 352 = bits data 127 64 && bits d 319 288 = bits data 63 32 then some (e.1 + 1)
  else none
/-- The flush of the batch record that the group passes on; 0 for none. -/
def Group.flushOf (g : Group) (data : Nat) : Nat := (g.batch.bind fun b => b.2.findSome? fun e => passedOn e data).getD 0
/-- Bytes of the record that a node takes; of 16 where no valid node stands. -/
def State.emitBytes (s : State) (f : Fields) : Nat := ((s.graphNode s.g.die (f.immN % 256)).map GNode.size).getD 16
/-- BEMIT (R393). The record's range is checked before the release, and again where the release has changed the node's entry (R65). -/
def execBemit (f : Fields) (s : State) : Res :=
  issue .c false (fun _ => [⟨1, f.a, s.emitBytes f⟩]) f (fun s => s.releasing fun s =>
    let node := f.immN % 256
    match s.g.regbound [⟨1, f.a, s.emitBytes f⟩] with
    | some r => .trap r s
    | none =>
      let gnode : Out := .trap { cause := cGNODE, info := BitVec.ofNat 32 node } s
      match s.graphNode s.g.die node with
      | none => gnode
      | some n =>
        let (data, t) := s.asRecord n (BitVec.ofNat 512 (leVal (s.g.viewBytes f.a n.size)))
        if s.gnodeBad n data.toNat then gnode
        else if s.recordsFull s.g.die then .wait s.hold
        else .done (t.routeGraph s.g.launch s.g.job s.g.die node n data (s.g.flushOf data.toNat)).advance) s

/-- BRECV (R394). -/
def execBrecv (f : Fields) (s : State) : Res :=
  issue .c false (fun _ => [⟨0, f.d, 256⟩]) f (fun s =>
    match s.g.batch with
    | none => .trap (brec 0) s
    | some (size, recs) =>
      let w := f.immN % 16
      .done (s.setG (s.g.setLanes f.d 32 (laneList (s.g.mask 0)) fun l =>
        if 4 * w < size then recWord (recs.getD l (0, 0)).2.toNat w else 0)).advance) s

/-! ## Regrouping (R39-R41) -/

/-- Records that stand at a node of a die, in arrival order. -/
def State.atNode (s : State) (die node : Nat) : List GraphRec := s.fab.graph.filter fun r => r.die = die && r.node = node
/-- Records leave the graph. -/
def State.dropGraph (s : State) (ids : List Nat) : State :=
  { s with fab := { s.fab with graph := s.fab.graph.filter fun r => !ids.contains r.id } }
/-- Records are taken from a node of the graph, whose entry is read; those of other dies are consumed at the die's record point (R411). -/
def State.acceptGraph (s : State) (rs : List GraphRec) : State :=
  rs.foldl (fun s r => if r.remote then (s.count r.die r.job .cons).cross r.fromDie r.die else s)
    (((rs.head?).elim s fun r => s.nodeTouch r.die r.node).dropGraph (rs.map (·.id)))
/-- The task type of a regrouped task: one gang of one group. -/
def TType.single (t : TType) : TType := { t with groups := 1, gangs := 1, team := 1, rl := 0, rs := 0, lteam := 0, steam := 0 }

/-- REGROUPING: the first count records of a shader node, all of one launch, become one task's batch. -/
def execRegrouping (die node count : Nat) (s : State) : Res :=
  let recs := (s.atNode die node).take count
  match s.graphNode die node, recs with
  | some n, r0 :: _ =>
    if n.kind ≠ 0 || count = 0 || 64 < count || recs.length ≠ count || recs.any (fun r => r.launch ≠ r0.launch)
        || !s.dieReady die || s.lovageFull die then .next s
    else
      let s := s.acceptGraph recs
      let rcd := BitVec.ofNat 256 (n.arg.toNat + n.type * 2 ^ 112 + 15 * 2 ^ 124)
      (match s.typeEntry die n.type with
       | none => .next (s.rejectRec die r0.launch cTTYPE n.type)
       | some t =>
         if !t.valid then .next (s.rejectRec die r0.launch cTTYPE n.type)
         else
           let (tid, s) := (s.typeTouch die n.type).addTask r0.launch r0.job die rcd t.single .ready
           .next (s.modTask tid fun k => { k with batch := some (n.size, recs.map fun r => (r.flush, r.data)) }))
  | _, _ => .next s

/-! ## Fixed-function nodes (R384-R386) -/

/-- A record that is the oldest at its node, with the node's entry when its kind is the given one. -/
def State.nodeRec (s : State) (id kind : Nat) : Option (GraphRec × GNode) :=
  match s.fab.graph.find? fun r => decide (r.id = id) with
  | none => none
  | some r =>
    match s.graphNode r.die r.node with
    | some n => if n.kind = kind && ((s.atNode r.die r.node).head?.map (·.id)) = some id then some (r, n) else none
    | none => none

/-- Edge function of a, b at a point, and its slope in x and y, times a sign. -/
def edgeAt (sg : Int) (a b : V3) (x y : Q) : Q :=
  (Q.ofInt sg).mul ((((b.x.sub a.x).mul (y.sub a.y)).sub ((b.y.sub a.y).mul (x.sub a.x))))
/-- The point is inside the edge, or on it where it is a left edge or a horizontal top edge (R384). -/
def edgeCovers (sg : Int) (a b : V3) (x y : Q) : Bool :=
  let e := edgeAt sg a b x y
  let dx := (Q.ofInt sg).mul (a.y.sub b.y)
  let dy := (Q.ofInt sg).mul (b.x.sub a.x)
  0 < e.num || (e.isZero && (0 < dx.num || (dx.isZero && 0 < dy.num)))
/-- Twice the signed area. -/
def triArea (t : V3 × V3 × V3) : Q :=
  ((t.2.1.x.sub t.1.x).mul (t.2.2.y.sub t.1.y)).sub ((t.2.2.x.sub t.1.x).mul (t.2.1.y.sub t.1.y))
/-- A pixel's centre is covered. -/
def covers (t : V3 × V3 × V3) (px py : Int) : Bool :=
  let sg := (triArea t).sgn
  let x : Q := ⟨2 * px + 1, 2⟩
  let y : Q := ⟨2 * py + 1, 2⟩
  sg ≠ 0 && edgeCovers sg t.1 t.2.1 x y && edgeCovers sg t.2.1 t.2.2 x y && edgeCovers sg t.2.2 t.1 x y
/-- MASK of a block. -/
def blockMask (t : V3 × V3 × V3) (bx byy : Int) : Nat :=
  ((List.range 64).map fun i => if covers t (8 * bx + (i % 8 : Nat)) (8 * byy + (i / 8 : Nat)) then 2 ^ i else 0).sum
/-- Depth at a block's pixel (0, 0), and the depth's slopes. -/
def depthOf (t : V3 × V3 × V3) (bx byy : Int) : Q × Q × Q :=
  let a := triArea t
  let dz1 := t.2.1.z.sub t.1.z
  let dz2 := t.2.2.z.sub t.1.z
  let zx := ((dz1.mul (t.2.2.y.sub t.1.y)).sub (dz2.mul (t.2.1.y.sub t.1.y))).div a
  let zy := ((dz2.mul (t.2.1.x.sub t.1.x)).sub (dz1.mul (t.2.2.x.sub t.1.x))).div a
  let z := (t.1.z.add (zx.mul ((⟨16 * bx + 1, 2⟩ : Q).sub t.1.x))).add (zy.mul ((⟨16 * byy + 1, 2⟩ : Q).sub t.1.y))
  (z, zx, zy)
/-- Integers from lo to hi. -/
def span (lo hi : Int) : List Int := (List.range (hi + 1 - lo).toNat).map fun (i : Nat) => lo + (i : Int)
/-- The block records of a triangle record, by ascending y and then x; blocks that BXY cannot name are off the screen. -/
def blocksOf (d : Nat) : List (BitVec 512) :=
  match triangle d with
  | none => []
  | some t =>
    let b := boxCells t 8
    let clip (x : Int) : Int := if x < 0 then 0 else if 65535 < x then 65535 else x
    (span (clip b.2.1) (clip b.2.2)).flatMap fun y => (span (clip b.1.1) (clip b.1.2)).filterMap fun x =>
      let m := blockMask t x y
      if m = 0 then none
      else
        let z := depthOf t x y
        some (BitVec.ofNat 512 (ofWords [x.toNat + 2 ^ 16 * y.toNat, triPrim d, triSeq d % 2 ^ 32, triSeq d / 2 ^ 32, m % 2 ^ 32, m / 2 ^ 32,
          rnd32 z.1, rnd32 z.2.1, rnd32 z.2.2, 0, 0, 0, 0, 0, 0, 0]))
/-- RASTERISER. -/
def execRasteriser (rec : Nat) (s : State) : Res :=
  match s.nodeRec rec 1 with
  | none => .next s
  | some (r, n) =>
    .next ((blocksOf r.data.toNat).foldl (fun s b => s.sendGraph r.launch r.job r.die n.next b (r.flush ||| Nat.min r.flush 1)) (s.acceptGraph [r]))

/-- A tile of a die that a triangle's bounding box overlaps. -/
def overTile (d : Nat) (tx ty : Int) : Bool :=
  match triangle d with
  | none => false
  | some t => let b := boxCells t 32; b.1.1 ≤ tx && tx ≤ b.1.2 && b.2.1 ≤ ty && ty ≤ b.2.2
/-- The die's tiles under a window, in ascending ty and then tx. -/
def tilesOn (die : Nat) (ds : List Nat) : List (Int × Int) :=
  let bs := ds.filterMap fun d => (triangle d).map fun t => boxCells t 32
  match bs with
  | [] => []
  | b :: _ =>
    let x0 := bs.foldl (fun m c => if c.1.1 < m then c.1.1 else m) b.1.1
    let x1 := bs.foldl (fun m c => if m < c.1.2 then c.1.2 else m) b.1.2
    let y0 := bs.foldl (fun m c => if c.2.1 < m then c.2.1 else m) b.2.1
    let y1 := bs.foldl (fun m c => if m < c.2.2 then c.2.2 else m) b.2.2
    (span y0 y1).flatMap fun (y : Int) => (span x0 x1).filterMap fun (x : Int) =>
      if x % 4 = ((die % 4 : Nat) : Int) && y % 2 = ((die / 4 : Nat) : Int) then some (x, y) else none
/-- The binner's window is replayed and emptied, as one flush (R386). -/
def State.flushBinner (s : State) (die : Nat) : State :=
  let w := (s.die die).binner
  let (flush, s) := (s.modDie die fun d => { d with binner := [] }).take
  (tilesOn die (w.map fun e => e.2.1.toNat)).foldl (fun s t =>
    (w.filter fun e => overTile e.2.1.toNat t.1 t.2).foldl (fun s e =>
      match s.graphNode die e.2.2.1 with
      | some n => s.sendGraph e.1 e.2.2.2 die n.next e.2.1 (2 * flush)
      | none => s) s) s
/-- BINNER_RECORD: a triangle, or a flush record, reaches the die's binner (R386). -/
def execBinnerRecord (rec : Nat) (s : State) : Res :=
  match s.nodeRec rec 2 with
  | none => .next s
  | some (r, _) =>
    let s := s.acceptGraph [r]
    let d := r.data.toNat
    if triPrim d = 0xFFFFFFFF then .next (s.flushBinner r.die)
    else
      let s := match (s.die r.die).binner.getLast? with
        | some e => if triState e.2.1.toNat = triState d then s else s.flushBinner r.die
        | none => s
      let s := s.modDie r.die fun k => { k with binner := k.binner ++ [(r.launch, r.data, r.node, r.job)] }
      .next (if 4096 ≤ (s.die r.die).binner.length then s.flushBinner r.die else s)

/-! ## Blender (R384, R385) -/

/-- Fields of a block record. -/
def blkBxy (d : Nat) : Nat := recWord d 0
def blkSeq (d : Nat) : Nat := bits d 127 64
def blkMask (d : Nat) : Nat := bits d 191 128
def blkOp (d : Nat) : Nat := recWord d 10
def blkPitch (d : Nat) : Nat := recWord d 11
def blkBase (d : Nat) : Nat := bits d 447 384
/-- One operation of FP32 values, rounded with RNE. -/
def add32 (a b : Nat) : Nat := fp32.rne ((fp32.decode a).add .rne (fp32.decode b))
def mul32 (a b : Nat) : Nat := fp32.rne ((fp32.decode a).mul (fp32.decode b))
/-- The blended words of a pixel. -/
def blend (op : Nat) (data dst : List Nat) : List Nat :=
  (List.range 4).map fun i =>
    let x := data.getD i 0
    let y := dst.getD i 0
    if op = 0 then x else if op = 1 then add32 y x
    else add32 x (mul32 y (add32 0x3F800000 ((data.getD 3 0) ^^^ 0x80000000)))
/-- Where a pixel's 16 bytes lie, byte by byte, checked for reading and writing. -/
def State.pixelBytes (s : State) (die va : Nat) : Nat → Except (BitVec 8) (List Nat)
  | 0 => .ok []
  | n + 1 =>
    match s.pixelBytes die va n, s.translate die none (s.secure die) .rw clsNormal (va + n : Nat) with
    | .error c, _ => .error c
    | .ok _, .error r => .error r.cause
    | .ok ks, .ok x => if s.anyBad (memKey die x.ofs) 1 then .error cPOISON else .ok (ks ++ [memKey die x.ofs])
def State.pixelPlace (s : State) (die va : Nat) : Except (BitVec 8) (List Nat) := s.pixelBytes die va 16
/-- The TLBs and caches that the access of a pixel fills (R181, R185). -/
def State.pixelFill (s : State) (die va : Nat) (ks : List Nat) : State :=
  let s := [va, va + 15].foldl (fun s a => match s.translate die none (s.secure die) .rw clsNormal a with
    | .ok x => s.fillXl die none (s.secure die) a x
    | .error _ => s) s
  ((ks.map lineOf).eraseDups).foldl (fun s l => s.noteLine (128 * l) { evp := 3 }) s
/-- The pixels of a block record, in bit order; the first fault is kept. -/
def State.blendPixels (s : State) (die d : Nat) : List Nat → Option (BitVec 8 × Nat) → State × Option (BitVec 8 × Nat)
  | [], e => (s, e)
  | i :: is, e =>
    let x := 8 * (blkBxy d % 2 ^ 16) + i % 8
    let y := 8 * (blkBxy d / 2 ^ 16) + i / 8
    let va := blkBase d + y * blkPitch d + 16 * x
    match s.pixelPlace die va with
    | .error c => s.blendPixels die d is (some (e.getD (c, va)))
    | .ok ks =>
      let s := ks.foldl (fun s k => s.revoke (lineOf k) (BitVec.allOnes 32) none) (s.pixelFill die va ks)
      let dst := recWords (leVal (ks.map (bget s.mem))) 0 4
      let bs := (blend (blkOp d) (recWords d 6 4) dst).flatMap fun w => leBytes w 4
      let s := (ks.zip bs).foldl (fun s e => s.homeWriteByte e.1 e.2) s
      s.blendPixels die d is e
/-- A line that the blender would write is taken: it waits at its home slice (R212, R213). -/
def State.blendLeased (s : State) (die d : Nat) : Bool :=
  (List.range 64).any fun i => bit (blkMask d) i &&
    (match s.pixelPlace die (blkBase d + (8 * (blkBxy d / 2 ^ 16) + i / 8) * blkPitch d + 16 * (8 * (blkBxy d % 2 ^ 16) + i % 8)) with
     | .ok ks => ks.any fun k => s.lineTaken (lineOf k)
     | .error _ => false)
/-- Two records came of one flush. -/
def sameFlush (a b : Nat) : Bool := a / 2 = b / 2
/-- A record of a flush can still bring a block record for a block with a lower SEQ: a block record of it, a triangle that a rasteriser will
cut into one, or one that a shader may make anything of. -/
def bringsLower (flush : Nat) (rastered : Bool) (x d : Nat) : Bool :=
  if flush % 2 = 1 then blkBxy x = blkBxy d && decide (blkSeq x < blkSeq d)
  else decide (triSeq x < blkSeq d) && (!rastered || (blocksOf x).any fun b => blkBxy b.toNat = blkBxy d)
/-- Some record of the flush that stands at another node, or in a batch whose group has not ended, can bring one: the blender waits for it, also
where a full record store holds that group (R386, R393; log entry 53). -/
def State.blendAhead (s : State) (r : GraphRec) : Bool :=
  let d := r.data.toNat
  let inBatch (b : Option (Nat × List (Nat × BitVec 512))) : Bool :=
    match b with | some b => b.2.any fun e => sameFlush e.1 r.flush && bringsLower e.1 false e.2.toNat d | none => false
  (s.fab.graph.any fun q => q.die = r.die && sameFlush q.flush r.flush && decide (q.node ≠ r.node) &&
      bringsLower q.flush ((s.graphNode q.die q.node).map (·.kind) = some 1) q.data.toNat d) ||
    s.tasks.any (fun t => t.2.die = r.die && decide (t.2.life ≠ .retired) && decide (t.2.gangsPlaced = 0) && inBatch t.2.batch) ||
    s.groups.any fun g => g.die = r.die && decide (g.life ≠ .ended) && decide (g.life ≠ .absent) && inBatch g.batch
/-- A block record's turn at the blender: arrival order, or ascending SEQ among the records of one flush for one block (R386). -/
def State.blendTurn (s : State) (r : GraphRec) : Bool :=
  ((s.atNode r.die r.node).all fun q =>
    if r.flush = 0 then q.flush ≠ 0 || decide (r.id ≤ q.id)
    else
      !sameFlush q.flush r.flush || blkBxy q.data.toNat ≠ blkBxy r.data.toNat
        || decide (blkSeq r.data.toNat < blkSeq q.data.toNat) || (blkSeq r.data.toNat = blkSeq q.data.toNat && decide (r.id ≤ q.id)))
    && (r.flush = 0 || !s.blendAhead r)
/-- BLENDER. -/
def execBlender (rec : Nat) (s : State) : Res :=
  match s.fab.graph.find? fun r => decide (r.id = rec) with
  | none => .next s
  | some r =>
    let d := r.data.toNat
    if ((s.graphNode r.die r.node).map (·.kind)) ≠ some 4 || !s.blendTurn r || s.blendLeased r.die d then .next s
    else
      let s := s.acceptGraph [r]
      if 2 < blkOp d || blkBase d = 0 then .next s
      else
        let (s, e) := s.blendPixels r.die d ((List.range 64).filter fun i => bit (blkMask d) i) none
        match e with
        | none => .next s
        | some (c, va) => .next (s.logFail r.die r.launch (s.launchRec r.launch
            { cause := cCPYFLT, detail := c, addr := BitVec.ofNat 64 va, sdie := BitVec.ofNat 4 r.die }))

end Sys2Proof.Machine
end

