-- ==== Sys2Proof/Machine/Image.lean ====
section
/-! DEFINITION. Context images, eviction and restore (spec/21 R333-R338, spec/18 R290, spec/34 R462). The places of a team
section's parts that R337 leaves open are those of log entry 20. -/

namespace Sys2Proof.Machine

/-! ## A group section (R336) -/

/-- GSTAT (R326). -/
def Group.gstat (g : Group) : Word :=
  BitVec.ofNat 64 ((if g.priv then 1 else 0) + (if g.pnote then 2 else 0) + g.pend.length * 16 + (if g.povf then 128 else 0))
/-- Codes of the wait kinds. -/
def Block.code : Block → Nat
  | .qrecv => 1 | .bwait => 2 | .nwait => 3 | .waitq => 4 | .qlock => 5 | .msync => 6 | .xwait => 7 | .evwait => 8 | .cwait => 9
  | .bpop => 10
/-- Place of a group in a list. -/
def placeIn (us : List Nat) (u : Nat) : Nat := (us.takeWhile fun v => decide (v ≠ u)).length
/-- Place of a blocked group in the order it waits in. -/
def State.waitPlace (s : State) (g : Group) : Nat :=
  match g.wait with
  | .blocked .qrecv _ _ _ => (((s.teamsOf g.gang).flatMap fun t => t.2.queues).find? fun q => q.receivers.contains g.uid).elim 0
      fun q => placeIn q.receivers g.uid
  | .blocked .qlock _ a _ => ((kget (s.die (dieOfKey a.toNat)).locks a.toNat).map fun l => placeIn l.waiters g.uid).getD 0
  | _ => 0
/-- CWCAP in cycles (R428). -/
def State.cwcap (s : State) : Nat := bits (s.mrN offTMCFG) 31 16
/-- The wait word. -/
def State.waitWord (s : State) (g : Group) : Nat :=
  let w := match g.wait with
    | .blocked k n a since =>
      let hi := match k with
        | .bwait | .nwait | .xwait => a.toNat % 2 ^ 32
        | .cwait => s.cwcap - (s.now - since)
        | _ => 0
      k.code + n % 256 * 2 ^ 8 + s.waitPlace g % 256 * 2 ^ 16 + hi * 2 ^ 32
    | _ => 0
  w + (match g.handler with | some j => 2 ^ 24 + j * 2 ^ 25 | none => 0)

/-- Writes a list of numbers as n bytes each from an offset upward. -/
def wrMany (m : Bytes) (a n : Nat) (vs : List Nat) : Bytes :=
  (vs.zipIdx).foldl (fun m v => wrLE m (a + n * v.2) n v.1) m

/-- The 512-byte header of a group section. -/
def State.groupHeader (s : State) (g : Group) : List Byte :=
  let m := wrLE [] 0 8 g.pc.toNat
  let m := wrMany m 8 1 [g.conds.toNat, g.gstat.toNat]
  let m := wrMany m 16 8 (g.masks.toList.map (·.toNat))
  let m := wrMany m 80 4 (g.xs.toList.map (·.toNat))
  let m := wrMany m 96 8 ([g.vb, g.tb, g.tsh, g.epc, g.ecause, g.eaddr, g.eiaddr, g.ewordl, g.ewordh, g.escr0, g.escr1].map (·.toNat))
  let m := wrLE m 184 8 (s.waitWord g)
  let m := wrMany m 192 32 (g.pend.map fun r => (r.pack 0).toNat)
  let m := wrMany m 320 8 (g.evq.map (·.toNat))
  let m := wrLE (wrLE m 448 1 g.evq.length) 449 2 (g.alloc / 1024)
  let m := match g.wait with
    | .blocked .cwait _ a _ => wrMany m 456 8 [a.toNat, (s.lOf g.die).toNat]
    | _ => m
  bytesAt m 0 512
/-- A group section. -/
def State.groupSection (s : State) (g : Group) : List Byte := s.groupHeader g ++ bytesAt g.regs 0 g.alloc

/-- A pending record from its 32 bytes (R331). -/
def FRec.unpack (v : Nat) : FRec := {
  addr := BitVec.ofNat 64 (bits v 255 192), iaddr := BitVec.ofNat 64 (bits v 191 128), info := BitVec.ofNat 32 (bits v 127 96)
  lseq := BitVec.ofNat 32 (bits v 95 64), job := BitVec.ofNat 6 (bits v 63 58), lane := BitVec.ofNat 6 (bits v 57 52)
  sdie := BitVec.ofNat 4 (bits v 51 48), core := BitVec.ofNat 6 (bits v 47 42), slot := BitVec.ofNat 5 (bits v 41 37)
  cause := BitVec.ofNat 8 (bits v 36 29), detail := BitVec.ofNat 8 (bits v 28 21), imp := true }
/-- A word of an image. -/
def imgWord (m : Bytes) (a : Nat) : Word := BitVec.ofNat 64 (rdLE m a 8)
/-- The wait a group section holds (R336): of the saved kind and number, with the argument the section gives; of another kind with an
argument, that wait; of any other kind the group issues the instruction at PC again (log entry 20). A wait that ended while the group was
saved completes the instruction that the section's PC names, whatever the section says of the wait (R38, R215). pc: the saved group's;
cap: CWCAP, the clock and the die's L. -/
def waitOf (w : Wait) (pc : Word) (cwcap now l : Nat) (m : Bytes) (a : Nat) : Wait :=
  let v := rdLE m (a + 184) 8
  let hi := v / 2 ^ 32
  let n := bits v 15 8
  let since := now - (cwcap - hi) - ((l - rdLE m (a + 464) 8) * 17 / 10)
  let same : Bool := match w with | .blocked k j .. => k.code = v % 256 && j % 256 = n | _ => v % 256 = 0
  if (match w with | .ready _ => decide (imgWord m a = pc) | _ => false) then w
  else if v % 256 = 2 then .blocked .bwait n (BitVec.ofNat 64 hi) now
  else if v % 256 = 3 then .blocked .nwait n (BitVec.ofNat 64 hi) now
  else if v % 256 = 7 then .blocked .xwait n (BitVec.ofNat 64 hi) now
  else if v % 256 = 9 then .blocked .cwait n (imgWord m (a + 456)) since
  else if same then w else .run
/-- An instruction address made of a free value: the program counter holds no other (R57). -/
def freePc (v : Word) : Word := BitVec.ofNat 64 (v.toNat % 2 ^ 57 / 12 * 12)
/-- The program counter that a group section gives: its PC, or a free instruction address where that is none, which CTXLOAD does not check
(R57, R348; log entry 20). -/
def State.sectionPc (s : State) (m : Bytes) (a : Nat) : Word × State :=
  if validTarget (imgWord m a).toNat then (imgWord m a, s) else let (v, s) := s.draw; (freePc v, s)
/-- A group as its section at an offset of an image gives it, with its program counter. Records that have come to be pending since it was
saved follow the image's (R227, R329). -/
def Group.ofSection (g : Group) (m : Bytes) (a : Nat) (pc : Word) : Group :=
  let st := rdLE m (a + 9) 1
  let pend := (List.range (Nat.min 4 (bits st 6 4))).map fun i => FRec.unpack (rdLE m (a + 192 + 32 * i) 32)
  let w := rdLE m (a + 184) 8
  { g with
    handler := if bit w 24 then some (bits w 30 25) else none
    pc := pc, conds := BitVec.ofNat 8 (rdLE m (a + 8) 1) ||| 1
    priv := bit st 0, pnote := bit st 1, povf := bit st 7 || g.povf
    masks := Vector.ofFn fun i => imgWord m (a + 16 + 8 * i.val)
    xs := Vector.ofFn fun i => BitVec.ofNat 32 (rdLE m (a + 80 + 4 * i.val) 4)
    vb := imgWord m (a + 96), tb := imgWord m (a + 104), tsh := imgWord m (a + 112)
    epc := imgWord m (a + 120), ecause := imgWord m (a + 128), eaddr := imgWord m (a + 136), eiaddr := imgWord m (a + 144)
    ewordl := imgWord m (a + 152), ewordh := imgWord m (a + 160), escr0 := imgWord m (a + 168), escr1 := imgWord m (a + 176)
    pend := (pend ++ g.pend.drop pend.length).take 4
    issued := if pc = g.pc then g.issued else none
    evq := (List.range (Nat.min 16 (rdLE m (a + 448) 1))).map fun i => imgWord m (a + 320 + 8 * i)
    regs := slice m (a + 512) g.alloc }

/-! ## A team section (R337) -/

/-- Bands in use, in band order. -/
def Engine.bandList (e : Engine) : List Nat := (List.range 16).filter fun b => e.bands.getLsbD b
/-- Bytes of the engine holder's parts. -/
def Engine.size (e : Engine) : Nat := 1024 + 4096 + 16384 * e.bandList.length
/-- Bytes of a traversal's part: its descriptor, binding and counts, and its work list. -/
def Trav.size (t : Trav) : Nat := 128 + 2 * t.work.length
/-- Bytes before the scratchpad window, and of the whole section. -/
def Team.headSize (t : Team) (e : Option Engine) : Nat :=
  768 + (e.map Engine.size).getD 0 + 272 * t.pool.length + (t.trav.map Trav.size).getD 0 + (t.rtrav.map Trav.size).getD 0
def roundUp (n k : Nat) : Nat := (n + k - 1) / k * k
def Team.sectionSize (t : Team) (e : Option Engine) : Nat := roundUp (t.headSize e + t.window) 256

/-- What a team has in the engine: held, or saved with it. -/
def State.teamEngine (s : State) (gang team : Nat) (t : Team) : Option Engine :=
  let c := s.core t.die t.core
  if c.engine = some (gang, team) then some { acc := c.acc, bands := c.bands, slices := c.slices, mops := c.mops } else t.saved

/-- The 16 bytes of a barrier. -/
def barBytes (b : Bar) : List Byte :=
  leBytes b.members.toNat 4 ++ leBytes b.pend.toNat 4 ++ leBytes b.ph.toNat 4 ++ leBytes (if b.flt then 1 else 0) 1
    ++ leBytes b.fhist.toNat 1 ++ leBytes (if b.sflt then 1 else 0) 1 ++ leBytes 0 1
/-- The 16 bytes of a queue: the QDEPTH word with WS and WR zero. -/
def queueBytes (q : Queue) : List Byte := leBytes ({ q with senders := [], receivers := [] } : Queue).depth.toNat 8 ++ leBytes 0 8
/-- Opcode and FN of a kind of operation (R285). -/
def MKind.opFn : MKind → Nat × Nat
  | .mtile => (0x80, 0) | .mloop => (0x80, 1) | .mbatch => (0x80, 2) | .wload => (0x81, 0) | .acld => (0x82, 2) | .acst => (0x82, 3)
/-- The word an entry holds: a product's own, of another operation its opcode, FN, MOD and IMM. -/
def MOp.entryWord (m : MOp) : Nat :=
  if m.kind.product then m.word.toNat
  else m.kind.opFn.1 * 2 ^ 88 + m.kind.opFn.2 * 2 ^ 82 + m.mod.toNat * 2 ^ 32 + m.imm.toNat
/-- A sequencer entry of 64 bytes: what R337 gives it, then the tile shape, address, shape word and instruction address that the operation
took at its issue (log entry 20). -/
def mopBytes (rank : Nat) (m : MOp) : List Byte :=
  leBytes m.entryWord 12 ++ leBytes rank 1 ++ leBytes ((if m.fault then 1 else 0) + (if m.done then 2 else 0)) 1 ++ leBytes m.kpos 2
    ++ leBytes m.tile 4 ++ leBytes m.scale 4 ++ leBytes m.rows 2 ++ leBytes m.rlen 2 ++ leBytes m.addr.toNat 8 ++ leBytes m.shape.toNat 8
    ++ leBytes m.iaddr.toNat 8 ++ leBytes m.n 4 ++ leBytes 0 8
/-- A weight descriptor of 16 bytes. -/
def sliceBytes : Option Slice → List Byte
  | some w => leBytes w.src.toNat 8 ++ leBytes w.cls.toNat 1 ++ leBytes w.fmt.toNat 1 ++ leBytes w.nc 2 ++ leBytes w.mcls.toNat 1
      ++ leBytes 0 2 ++ leBytes 1 1
  | none => leBytes 0 16
/-- A band, row by row. -/
def bandBytes (acc : Table (BitVec 32)) (b : Nat) : List Byte :=
  (List.range 4096).flatMap fun i => leBytes ((kget acc (4096 * b + i)).getD 0).toNat 4
/-- The engine holder's parts. -/
def State.engineBytes (s : State) (e : Engine) : List Byte :=
  let rank (m : MOp) := ((s.group? m.owner).map (·.rank)).getD 0
  ((List.range 16).flatMap fun i => match e.mops[i]? with | some m => mopBytes (rank m) m | none => leBytes 0 64)
    ++ ((List.range 256).flatMap fun u => sliceBytes (kget e.slices u)) ++ (e.bandList.flatMap (bandBytes e.acc))
/-- A traversal's part. -/
def State.travBytes (s : State) (t : Trav) : List Byte :=
  leBytes t.desc.toNat 64 ++ leBytes (((s.group? t.owner).map (·.rank)).getD 0) 1 ++ leBytes t.ck.toNat 1 ++ leBytes t.bar 1
    ++ leBytes t.tag.toNat 1 ++ leBytes t.lost 4 ++ leBytes t.ray 4 ++ leBytes t.rayEnd 4 ++ leBytes t.work.length 4
    ++ leBytes (if t.bnode then 1 else 0) 4
    ++ leBytes t.info.iaddr.toNat 8 ++ leBytes 0 32 ++ (t.work.flatMap fun w => leBytes w 2)
/-- A team section. -/
def State.teamSection (s : State) (gang team : Nat) (t : Team) : List Byte :=
  let e := s.teamEngine gang team t
  let n := e.elim 0 fun e => e.mops.length
  let d := e.elim 0 fun e => e.slices.length
  let b := e.elim 0 fun e => e.bands.toNat
  let h := wrMany [] 0 1 [t.core, t.core % 4]
  let h := wrLE h 4 4 t.window
  let h := wrLE h 8 1 (if e.isSome then 1 else 0)
  let h := wrMany h 10 2 [b, n, d, t.pool.length, t.quota, t.doneOrder.length, if t.trav.isSome then 1 else 0, if t.rtrav.isSome then 1 else 0]
  let bs := bytesAt h 0 256 ++ t.queues.flatMap queueBytes ++ t.bars.flatMap barBytes ++ (e.map s.engineBytes).getD []
    ++ (t.pool.flatMap fun p => leBytes p.1 2 ++ leBytes t.quota 2 ++ leBytes t.pool.length 2
      ++ leBytes (if t.doneOrder.contains p.1 then placeIn t.doneOrder p.1 + 1 else 0) 2 ++ leBytes 0 8 ++ leBytes p.2.toNat 256)
    ++ (t.trav.map s.travBytes).getD [] ++ (t.rtrav.map s.travBytes).getD []
    ++ bytesAt t.spad 0 t.window
  bs ++ List.replicate (t.sectionSize e - bs.length) 0

/-- A queue from the word of an image; the groups that wait on it stay. -/
def Queue.ofWord (q : Queue) (w : Nat) : Queue := { q with
  base := BitVec.ofNat 15 (bits w 14 0), init := bit w 26, refill := bit w 27, slots := bits w 34 28, count := bits w 41 35
  head := bits w 47 42, alw := bits w 63 48 }
/-- A barrier from an image. -/
def Bar.ofBytes (m : Bytes) (a : Nat) : Bar := {
  members := BitVec.ofNat 20 (rdLE m a 4), pend := BitVec.ofNat 20 (rdLE m (a + 4) 4), ph := BitVec.ofNat 32 (rdLE m (a + 8) 4)
  flt := bit (rdLE m (a + 12) 1) 0, fhist := BitVec.ofNat 8 (rdLE m (a + 13) 1), sflt := bit (rdLE m (a + 14) 1) 0 }
/-- Where the parts of a team section at an offset of an image lie, by the counts its header gives: pool records, traversals, the
scratchpad window, and the section's end. -/
structure TeamParts where
  pool : Nat
  trav : Nat
  rtrav : Nat
  spad : Nat
  stop : Nat
  deriving DecidableEq, Repr
/-- Bands that a section's header marks in use. -/
def imgBands (m : Bytes) (a : Nat) : List Nat := (List.range 16).filter fun b => bit (rdLE m (a + 10) 2) b
def teamParts (m : Bytes) (a : Nat) : TeamParts :=
  let trav (flag p : Nat) : Nat := if rdLE m (a + flag) 2 = 0 then p else p + 128 + 2 * rdLE m (p + 80) 4
  let pool := a + 768 + (if rdLE m (a + 8) 1 = 0 then 0 else 5120 + 16384 * (imgBands m a).length)
  let t1 := pool + 272 * rdLE m (a + 16) 2
  let t2 := trav 22 t1
  let spad := trav 24 t2
  { pool := pool, trav := t1, rtrav := t2, spad := spad, stop := a + roundUp (spad + rdLE m (a + 4) 4 - a) 256 }

/-- The groups of a team by rank, for what an image holds of them. -/
def State.ranked (s : State) (gid rank : Nat) : Group := ((s.groupsOf gid).find? fun g => g.rank = rank).getD {}
/-- A matrix operation from its entry; none where the word is no operation's. regs: the register allocation of a rank. -/
def MOp.ofBytes (s : State) (gid id : Nat) (m : Bytes) (a : Nat) : Option MOp :=
  let w := rdLE m a 12
  let g := s.ranked gid (rdLE m (a + 12) 1)
  let flags := rdLE m (a + 13) 1
  (([.mtile, .mloop, .mbatch, .wload, .acld, .acst] : List MKind).find? fun k => k.opFn = (bits w 95 88, bits w 87 82)).map fun k => {
    id := id, owner := g.uid, iaddr := imgWord m (a + 44), kind := k, word := if k.product then BitVec.ofNat 96 w else 0
    mod := BitVec.ofNat 10 (bits w 41 32), imm := BitVec.ofNat 32 w, regs := if k.product then g.regs else []
    kpos := rdLE m (a + 14) 2, tile := rdLE m (a + 16) 4, scale := rdLE m (a + 20) 4, rows := rdLE m (a + 24) 2, rlen := rdLE m (a + 26) 2
    addr := imgWord m (a + 28), shape := imgWord m (a + 36), n := rdLE m (a + 52) 4, fault := bit flags 0, done := bit flags 1 }
/-- A weight descriptor, whose slice is to be refilled; none for one not in use. -/
def descriptorOf (m : Bytes) (a : Nat) : Option Slice :=
  if rdLE m (a + 15) 1 = 0 then none
  else some {
    cls := BitVec.ofNat 2 (rdLE m (a + 8) 1), fmt := BitVec.ofNat 5 (rdLE m (a + 9) 1), nc := rdLE m (a + 10) 2, src := imgWord m a
    mcls := BitVec.ofNat 3 (rdLE m (a + 12) 1), full := false, data := [], scales := [] }
/-- The engine holder's parts of a section. -/
def Engine.ofBytes (s : State) (gid id : Nat) (m : Bytes) (a : Nat) : Engine := {
  bands := BitVec.ofNat 16 (rdLE m (a + 10) 2)
  mops := (List.range (Nat.min 16 (rdLE m (a + 12) 2))).filterMap fun i => MOp.ofBytes s gid (id + i) m (a + 768 + 64 * i)
  slices := (List.range 256).filterMap fun u => (descriptorOf m (a + 1792 + 16 * u)).map fun d => (u, d)
  acc := ((imgBands m a).zipIdx).foldl (fun t b => (slice m (a + 5888 + 16384 * b.2) 16384).foldl (fun t e =>
    kset t (4096 * b.1 + e.1 / 4) (BitVec.ofNat 32 (rdLE m (a + 5888 + 16384 * b.2 + e.1 / 4 * 4) 4))) t) [] }
/-- A traversal from its part: what the image does not hold of it stays as it was saved. -/
def Trav.ofBytes (s : State) (gid id : Nat) (old : Option Trav) (m : Bytes) (p : Nat) : Trav :=
  let g := s.ranked gid (rdLE m (p + 64) 1)
  let base : Trav := old.getD {
    id := id, desc := 0, owner := g.uid, launch := g.launch, task := g.task, info := g.fill { cause := 0 }, ck := 0, bar := 0, tag := 0, work := []
    mem0 := s.mem }
  { base with
    desc := BitVec.ofNat 512 (rdLE m p 64), owner := g.uid, ck := BitVec.ofNat 2 (rdLE m (p + 65) 1), bar := rdLE m (p + 66) 1
    tag := BitVec.ofNat 8 (rdLE m (p + 67) 1), lost := rdLE m (p + 68) 4, ray := rdLE m (p + 72) 4, rayEnd := rdLE m (p + 76) 4
    bnode := rdLE m (p + 84) 4 ≠ 0, info := { base.info with iaddr := imgWord m (p + 88) }
    work := (List.range (rdLE m (p + 80) 4)).map fun i => rdLE m (p + 128 + 2 * i) 2 }
/-- A team as its section at an offset of an image gives it. id: the first of 32 numbers for operations and traversals. -/
def Team.ofSection (t : Team) (s : State) (gid id : Nat) (m : Bytes) (a : Nat) : Team :=
  let p := teamParts m a
  let recs := (List.range (rdLE m (a + 16) 2)).map fun i => p.pool + 272 * i
  let done := (recs.map fun r => (rdLE m (r + 6) 2, rdLE m r 2)).filter fun d => decide (d.1 ≠ 0)
  { t with
    queues := (t.queues.zipIdx).map fun q => q.1.ofWord (rdLE m (a + 256 + 16 * q.2) 8)
    bars := (List.range 16).map fun i => Bar.ofBytes m (a + 512 + 16 * i)
    saved := if rdLE m (a + 8) 1 = 0 then none else some (Engine.ofBytes s gid id m a)
    quota := rdLE m (a + 18) 2
    pool := recs.foldl (fun q r => kset q (rdLE m r 2) (BitVec.ofNat 2048 (rdLE m (r + 16) 256))) []
    doneOrder := (sortBy (fun a b => decide (a.1 ≤ b.1)) done).map (·.2)
    trav := if rdLE m (a + 22) 2 = 0 then none else some (Trav.ofBytes s gid (id + 16) t.trav m p.trav)
    rtrav := if rdLE m (a + 24) 2 = 0 then none else some (Trav.ofBytes s gid (id + 17) t.rtrav m p.rtrav)
    spad := slice m p.spad t.window }

/-! ## The image (R335) -/

/-- Bytes of a gang's image. -/
def State.imageSize (s : State) (gid : Nat) : Nat :=
  1280 + ((s.teamsOf gid).map fun e => e.2.sectionSize (s.teamEngine gid e.1 e.2)).sum + ((s.groupsOf gid).map fun g => 512 + g.alloc).sum

/-- The gang header. -/
def State.gangHeader (s : State) (gid : Nat) (k : Gang) : List Byte :=
  let t := s.task? k.task
  let l := t.bind fun t => s.launch? t.launch
  let h := wrMany [] 0 1 [1, k.die, (s.teamsOf gid).length]
  let h := wrLE h 4 4 (s.imageSize gid)
  let h := wrLE h 8 16 k.ttype.raw.toNat
  let h := wrLE h 24 32 k.record.toNat
  let h := wrMany h 56 8 [((l.map fun l => l.seq.toNat).getD 0) % 2 ^ 63, (l.map fun l => l.layout.toNat).getD 0]
  let h := wrLE (wrLE h 72 4 k.handle.toNat) 76 2 k.prio
  bytesAt (wrLE h 78 1 ((t.map (·.job)).getD 0)) 0 256
/-- The network barriers. -/
def netBytes (k : Gang) : List Byte :=
  k.nets.flatMap fun b => leBytes b.memb.toNat 16 ++ leBytes b.next.toNat 16 ++ leBytes b.arr.toNat 16 ++ leBytes b.gen.toNat 4 ++ leBytes 0 12
/-- The whole image, section by section. -/
def State.imageBytes (s : State) (gid : Nat) (k : Gang) : List Byte :=
  s.gangHeader gid k ++ netBytes k ++ ((s.teamsOf gid).flatMap fun e => s.teamSection gid e.1 e.2) ++ ((s.groupsOf gid).flatMap s.groupSection)

/-- Writes bytes at virtual addresses of a logical device, a line at a time; lines that fail a check are left out. -/
def State.vaWrite (s : State) (dev job launch : Nat) : Nat → Nat → List Byte → State
  | 0, _, _ => s
  | n + 1, va, bs =>
    if bs.isEmpty then s
    else
      let m := Nat.min bs.length (128 - va % 128)
      let s := match s.translateAny dev (s.secure dev) .w va with
        | .ok x => (s.fillXl dev none (s.secure dev) va x).agentWrite dev job 0 launch (s.placeOf dev (s.secure dev) true m (x.tgt, x.ofs, x.handle)) (bs.take m) { evp := 3 }
        | .error _ => s
      s.vaWrite dev job launch n (va + m) (bs.drop m)
/-- Bytes at virtual addresses of a logical device, from 0 upward; bytes that cannot be read give 0. -/
def State.vaBytes (s : State) (dev va n : Nat) : Bytes :=
  bsetMany [] 0 ((List.range (n / 128 + 2)).flatMap fun i =>
    let a := if i = 0 then va else (va / 128 + i) * 128
    let m := Nat.min ((va / 128 + i + 1) * 128) (va + n) - a
    (s.hubRead dev (s.secure dev) a m).getD (List.replicate m 0))

/-- What the reads of such bytes leave (R181, R185). -/
def State.vaTouch (s : State) (dev va n : Nat) : State :=
  (List.range (if n = 0 then 0 else n / 128 + 2)).foldl (fun s i => s.hubTouch dev (s.secure dev) (Nat.min (va + 128 * i) (va + n - 1) : Nat)) s

/-- Some access of a write (out) or a read of n bytes at virtual addresses waits: its line is taken or held (R212, R213, R405), or it would
leave a dead die. -/
def State.vaBusy (s : State) (dev : Nat) (out : Bool) (va n : Nat) : Bool :=
  (List.range (if n = 0 then 0 else n / 128 + 2)).any fun i =>
    match s.translateAny dev (s.secure dev) (if out then .w else .r) (Nat.min (va + 128 * i) (va + n - 1) : Nat) with
    | .ok x => s.placeHeld dev out 1 (s.placeOf dev (s.secure dev) out 1 (x.tgt, x.ofs, x.handle))
    | .error _ => false
/-- Every byte of a range can be read. -/
def State.vaReadable (s : State) (dev va n : Nat) : Bool :=
  (List.range (if n = 0 then 0 else n / 128 + 2)).all fun i => (s.hubRead dev (s.secure dev) (Nat.min (va + 128 * i) (va + n - 1) : Nat) 1).isSome

/-- Offsets of an image's team sections from one on, and where they end. -/
def imgTeams (m : Bytes) : Nat → Nat → List Nat × Nat
  | 0, a => ([], a)
  | n + 1, a => let (l, e) := imgTeams m n (teamParts m a).stop; (a :: l, e)
/-- Offsets of an image's group sections. -/
def imgGroups (m : Bytes) : Nat → Nat → List Nat
  | 0, _ => []
  | n + 1, a => a :: imgGroups m n (a + 512 + 1024 * rdLE m (a + 449) 2)
/-- The offsets at which an image holds a saved gang's teams and groups. -/
def State.teamOffsets (s : State) (gid : Nat) (m : Bytes) : List Nat := (imgTeams m (s.teamsOf gid).length 1280).1
def State.groupOffsets (s : State) (gid : Nat) (m : Bytes) : List Nat :=
  imgGroups m (s.groupsOf gid).length (imgTeams m (s.teamsOf gid).length 1280).2
/-- Check 6 of CTXLOAD: allocation and window sizes agree with the entry (R348). -/
def State.sizesAgree (s : State) (gid : Nat) (t : TType) (m : Bytes) : Bool :=
  (((s.teamsOf gid).zip (s.teamOffsets gid m)).all fun e => rdLE m (e.2 + 4) 4 = 1024 * t.spad * e.1.2.groups)
    && ((s.groupOffsets gid m).all fun a => rdLE m (a + 449) 2 = t.regs)
/-- One group of a saved gang takes what its section holds; a wait other than the saved one leaves the orders it stood in. -/
def State.loadGroup (s : State) (m : Bytes) (g : Group) (a : Nat) : State :=
  if g.life = .ended then s
  else
    let w := waitOf g.wait g.pc s.cwcap s.now (s.lOf g.die).toNat m a
    let (pc, s) := s.sectionPc m a
    let s := if (match g.wait, w with | .blocked .., .run => true | .blocked k .., .blocked j .. => decide (k ≠ j) | _, _ => false)
      then s.leaveOrders g true else s
    s.modGroup g.uid fun g => { g.ofSection m a pc with wait := w, layout := imgWord m 64 }
/-! ## The busy bits of R413 -/

/-- Job of a message. -/
def Msg.job (m : Msg) : Nat := Machine.bits m.bits.toNat 55 50
/-- A group is idle: blocked in WAITQ outside a handler (R413). -/
def Group.idle (g : Group) : Bool := g.handler.isNone && (match g.wait with | .blocked .waitq _ _ _ => true | _ => false)
/-- The owner of an operation is a group of a job. -/
def State.ownerJob (s : State) (uid job : Nat) : Bool := match s.group? uid with | some g => g.job = job | none => false
/-- A die's busy bit for a job (R413). -/
def State.busy (s : State) (die job : Nat) : Bool :=
  s.groups.any (fun g => g.die = die && g.job = job && !g.idle &&
    (decide (g.life = .active) || decide (g.life = .waiting) || decide (g.life = .saved)))
  || s.tasks.any (fun t => t.2.die = die && (decide (t.2.life = .waiting) || decide (t.2.life = .ready)) && t.2.job = job)
  || s.fab.recs.any (fun r => r.fromDie = die && r.toDie = die && r.job = job)
  || s.fab.graph.any (fun r => r.die = die && !r.remote && r.job = job)
  || (s.die die).binner.any (fun b => b.2.2.2 = job)
  || s.fab.msgs.any (fun m => m.arrived && m.die = die && m.job = job)
  || s.teams.any (fun t => t.2.die = die &&
      ((match t.2.trav with | some x => x.info.job.toNat = job | none => false)
        || (match t.2.rtrav with | some x => x.info.job.toNat = job | none => false)
        || (match t.2.saved with | some e => e.mops.any fun m => s.ownerJob m.owner job | none => false)))
  || s.dills.any (fun e => e.2.queue.any fun j => j.dev = die && j.owner ≠ 0 && j.job = job)
  || s.cores.any (fun c => c.1 / 64 = die &&
      (c.2.copies.any (fun x => s.ownerJob x.owner job) || c.2.mops.any (fun m => s.ownerJob m.owner job)
        || c.2.chains.any fun x => (s.task? x.task).any fun t => t.job = job))
/-- Jobs of a die that have become busy since a state have its activity bits set (R413). -/
def State.touchRises (s t : State) (die : Nat) : State :=
  (List.range 64).foldl (fun u j => if t.busy die j && !s.busy die j then u.touchAt die j else u) t

/-- A saved gang takes what an image holds: header, network barriers, groups, teams (R335-R337, R381); a group that the image makes busy sets
its die's activity bit (R413). -/
def State.loadImage (s₀ : State) (gid : Nat) (m : Bytes) : State :=
  let s := s₀.modGang gid fun k => { k with
    record := BitVec.ofNat 256 (rdLE m 24 32), prio := rdLE m 76 2
    nets := (k.nets.zipIdx).map fun b => { b.1 with
      memb := BitVec.ofNat 128 (rdLE m (256 + 64 * b.2) 16), next := BitVec.ofNat 128 (rdLE m (272 + 64 * b.2) 16)
      arr := BitVec.ofNat 128 (rdLE m (288 + 64 * b.2) 16), gen := BitVec.ofNat 32 (rdLE m (304 + 64 * b.2) 4) } }
  let s := ((s.groupsOf gid).zip (s.groupOffsets gid m)).foldl (fun s e => s.loadGroup m e.1 e.2) s
  s₀.touchRises (((s.teamsOf gid).zip (s.teamOffsets gid m)).foldl (fun s e =>
    { s.modTeam gid e.1.1 fun t => t.ofSection s gid s.fresh m e.2 with fresh := s.fresh + 32 }) s) ((s.gang? gid).elim 0 (·.die))

/-! ## The save area (R462) -/

/-- Spaces of the save area that hold images: offset and size. An image that was saved before SAVEBASE came to lie above it is counted as far
as it reaches into the area. -/
def State.savedSpaces (s : State) (dev : Nat) : List (Nat × Nat) :=
  s.gangs.filterMap fun k =>
    match k.2.image with
    | some (a, true) => if k.2.die = dev && (decide (k.2.life = .saved) || decide (k.2.life = .restoring)) then
        let base := s.mrN (offSAVEBASE dev)
        let stop := a.toNat + s.imageSize k.1
        if stop ≤ base then none else some (a.toNat - base, stop - base - (a.toNat - base))
      else none
    | _ => none
/-- The lowest free 256-byte-aligned space of a size. -/
def State.saveSpace (s : State) (dev n : Nat) : Option Nat :=
  let used := s.savedSpaces dev
  let fits (a : Nat) : Bool := a + n ≤ s.mrN (offSAVELEN dev) && used.all fun u => a + n ≤ u.1 || u.1 + u.2 ≤ a
  (sortBy (fun a b => decide (a ≤ b)) ((0 :: used.map fun u => u.1 + u.2).filter fits)).head?

/-! ## Eviction (R333, R334) -/

/-- An eviction is requested: PRENOTE to every group where PN is set (R333). image: CTXSAVE's address; saver: its group and cycle of issue. -/
def State.requestEviction (s : State) (gid : Nat) (image : Option (Word × Bool)) (saver : Option (Nat × Nat) := none) : State :=
  match s.gang? gid with
  | none => s
  | some k =>
    let pn := (s.mr (offTVEC k.die)).getLsbD 62
    let s := s.modGang gid fun k => { k with life := .evicting, evictAt := some s.now, noted := pn, image := image, saver := saver }
    if pn then s.modGroups fun g =>
      if g.gang = gid && (decide (g.life = .active) || decide (g.life = .waiting)) then { g with preq := true, packed := false } else g
    else s
/-- EVICTION_REQUEST by the host or firmware; refused where the image would not fit (R462). -/
def execEvictionRequest (gang : Nat) (s : State) : Res :=
  match s.gang? gang with
  | some k =>
    if k.life = .live && (s.saveSpace k.die (s.imageSize gang)).isSome then .next (s.requestEviction gang none) else .next s
  | none => .next s
/-- PRENOTE_TIMEOUT: 65,536 cycles after the request the eviction waits no longer (R333). -/
def execPrenoteTimeout (gang : Nat) (s : State) : Res :=
  match s.gang? gang with
  | some k =>
    .next (if k.life = .evicting && k.noted && 65536 ≤ s.now - k.evictAt.getD 0 then s.modGang gang fun k => { k with noted := false } else s)
  | none => .next s

/-- Step 1: held instructions have not executed; blocked groups keep their wait. -/
def State.stopGroups (s : State) (gid : Nat) : State :=
  (s.groupsOf gid).foldl (fun s g => match g.wait with
    | .held .. | .sending .. => (s.leaveOrders g false).modGroup g.uid fun g => { g with wait := .run }
    | _ => s) s
/-- Steps 3 and 5 for the sequencer's current ACLD or ACST: it completes; none while a lease holds it. -/
def State.finishAcc (s : State) (die core : Nat) : Option State :=
  match (s.core die core).current with
  | some m => if m.kind.product then some s else if s.accLeased die m then none else some (s.runMop die core m)
  | none => some s
/-- Descriptors of the slices an abandoned WLOAD had to load (R290). -/
def MOp.descriptors (m : MOp) : Table Slice :=
  (List.range m.ns).map fun i =>
    let d : Slice := {
      cls := BitVec.ofNat 2 m.bcl, fmt := BitVec.ofNat 5 (m.mod.toNat / 32), nc := m.nc, src := m.addr + BitVec.ofNat 64 (i * m.stride)
      mcls := BitVec.ofNat 3 (bits m.mod.toNat 4 2), full := false, data := [], scales := [] }
    (m.wboff + i * bclUnits m.bcl, d)
/-- What the engine keeps for an evicted team: descriptors without data, WLOADs in flight as descriptors, the rest at its K-step. A WLOAD
that R287 still holds has not begun: it stays an operation (log entry 25). -/
def Engine.park (e : Engine) (runs : MOp → Bool) : Engine :=
  let old := e.slices.map fun (w : Nat × Slice) => (w.1, { w.2 with full := false, data := [], scales := [] })
  { e with
    slices := (e.mops.filter fun m => decide (m.kind = .wload) && runs m).foldl (fun t m =>
      m.descriptors.foldl (fun t d => kset t d.1 d.2) (clearUnits t m.units)) old
    mops := e.mops.filter fun m => decide (m.kind ≠ .wload) || !runs m }
/-- The team's engine state leaves the core with it. -/
def State.parkTeam (s : State) (gang team : Nat) (t : Team) : State :=
  let s := s.modCore t.die t.core fun c => { c with engineWait := c.engineWait.filter fun x => decide (x ≠ (gang, team)) }
  if (s.core t.die t.core).engine = some (gang, team) then
    let e := s.teamEngine gang team t
    (s.modTeam gang team fun t => { t with saved := e.map fun e => e.park (s.core t.die t.core).canRun }).freeEngine t.die t.core
  else s
/-- Copies of the gang on a core. -/
def State.copiesOf (s : State) (gid die core : Nat) : List Copy :=
  (s.core die core).copies.filter fun c => match s.group? c.owner with | some g => g.gang = gid | none => false
/-- Step 5: every copy of the gang completes. -/
def State.drainCopies (s : State) (gid die core : Nat) : State :=
  (s.copiesOf gid die core).foldl (fun s c => s.copyRun die core c.id (segLines c.segs + 1)) s
/-- Step 6: leases that no other group of the core asked for end (R213). -/
def State.dropLeases (s : State) (uids : List Nat) : State :=
  let drop (l : Lease) : Lease := { l with owners := l.owners.filter fun u => !uids.contains u }
  let s := { s with cores := s.cores.map fun (c : Nat × Core) => (c.1, { c.2 with leases := c.2.leases.map drop }) }
  s.cores.foldl (fun t c => t.endLeases (c.1 / 64) (c.1 % 64) fun l => l.owners.isEmpty) s

/-- A core of the gang is under a debug halt: the gang is not evicted before it resumes (R334). -/
def State.gangHalted (s : State) (gid : Nat) : Bool := (s.teamsOf gid).any fun e => (s.core e.2.die e.2.core).halted
/-- The eviction of a gang has begun: no group has still to acknowledge PRENOTE (R333), and no core of it is halted (R334). -/
def State.inEviction (s : State) (gid : Nat) (k : Gang) : Bool :=
  decide (k.life = .evicting) && !(k.noted && (s.groupsOf gid).any fun g => !g.packed && decide (g.life ≠ .ended)) && !s.gangHalted gid
/-- A group may not stop: it has sent a stamped store that is not settled (R437), it ends and waits for its peer stores (R320, R328), or its
core is halted (R334). -/
def State.cannotStop (s : State) (gid : Nat) : Bool :=
  s.gangHalted gid
    || (s.groupsOf gid).any fun g => g.isEnding || s.fab.stamped.any fun w => w.owner = g.uid
/-- Steps 1 to 6; none while something of the gang cannot be finished yet. -/
def State.quiesceGang (s : State) (gid : Nat) : Option State :=
  let teams := s.teamsOf gid
  let s := s.stopGroups gid
  let s := teams.foldl (fun (o : Option State) e => o.bind fun s =>
    if (s.core e.2.die e.2.core).engine = some (gid, e.1) then s.finishAcc e.2.die e.2.core else some s) (some s)
  s.bind fun s =>
    let s := teams.foldl (fun s e => s.parkTeam gid e.1 (s.team gid e.1)) s
    let s := teams.foldl (fun s e => s.drainCopies gid e.2.die e.2.core) s
    if teams.any fun e => !(s.copiesOf gid e.2.die e.2.core).isEmpty then none
    else
      let s := teams.foldl (fun s e => s.flushCore e.2.die e.2.core) s
      some (s.dropLeases ((s.groupsOf gid).map (·.uid)))
/-- The eviction is given up and the gang runs on. -/
def State.cancelEviction (s : State) (gid : Nat) : State :=
  s.modGang gid fun k => { k with life := .live, evictAt := none, noted := false, image := none, saver := none }
/-- Step 7: the image is written at an address, the CTXSAVE that asked for it has its size, and then the gang's resources are free (R334,
R348). -/
def State.saveGang (s : State) (gid : Nat) (k : Gang) (image : Word × Bool) : State :=
  let t := s.task? k.task
  let bs := s.imageBytes gid k
  let size := BitVec.ofNat 64 (s.imageSize gid)
  let s := s.vaWrite k.die ((t.map (·.job)).getD 0) ((t.map (·.launch)).getD 0) (bs.length / 128 + 2) image.1.toNat bs
  let s : State := match k.saver with
    | some (u, since) => s.modGroup u fun g =>
        if g.wait = .held 1 since then { g with wait := .ready size } else g
    | none => s
  let s := s.modGroups fun g =>
    if g.gang ≠ gid then g
    else if g.life = .ended then { g with handed := true }
    else if g.life = .absent then g
    else { g with life := .saved, preq := false, packed := false }
  s.modGang gid fun k => { k with life := .saved, noted := false, image := some image, saver := none }

/-- The image of a gang that has stopped is written at an address, once its lines are free (R212). -/
def State.saveAt (s q : State) (gang : Nat) (k : Gang) (image : Word × Bool) : State :=
  if q.vaBusy k.die true image.1.toNat (q.imageSize gang) then s else q.saveGang gang ((q.gang? gang).getD k) image
/-- EVICTION (R333-R335, R462). A gang all of whose groups have ended by then has nothing to save: its eviction is given up (log entry 25). -/
def execEviction (gang : Nat) (s : State) : Res :=
  match s.gang? gang with
  | none => .next s
  | some k =>
    if !s.inEviction gang k || s.cannotStop gang then .next s
    else if (s.groupsOf gang).all fun g => decide (g.life = .ended) then .next (s.cancelEviction gang)
    else
      match s.quiesceGang gang with
      | none => .next s
      | some q =>
        match k.image with
        | some im => .next (s.saveAt q gang k im)
        | none =>
          match q.saveSpace k.die (q.imageSize gang) with
          | some a => .next (s.saveAt q gang k (q.mr (offSAVEBASE k.die) + BitVec.ofNat 64 a, true))
          | none => .next (s.cancelEviction gang)

/-! ## Restore (R338) -/

/-- A saved gang joins Lovage's offers. -/
def State.queueRestore (s : State) (gid : Nat) : State :=
  s.modGang gid fun k => { k with life := .restoring, restoreAt := some s.now }
/-- One group returns to a core. -/
def State.restoreGroup (s : State) (uid core : Nat) : State :=
  match s.group? uid with
  | none => s
  | some g =>
    let slot := s.freeSlot g.die core
    let s := s.modGroup uid fun g => { g with
      core := core, slot := slot, handed := false, waitSince := s.now, life := if g.life = .ended then .ended else .waiting }
    s.acquire g.die core
/-- A team's saved engine state goes to its new core's engine, or waits for it (R281); that of a team which has ended and has no operation
left needs none. -/
def State.reclaimEngine (s : State) (gang team : Nat) : State :=
  let t := s.team gang team
  if t.saved.isNone || (s.teamEnded gang team && !t.hasSavedOps) then s
  else if (s.core t.die t.core).engine.isNone then s.takeEngine t.die t.core (gang, team)
  else s.modCore t.die t.core fun c => { c with engineWait := c.engineWait ++ [(gang, team)] }
/-- The gang is placed by a plan; its space in the save area is free. -/
def State.placeSaved (s : State) (gid : Nat) (k : Gang) (plan : List (Nat × Nat)) : State :=
  let s := ((s.teamsOf gid).zip plan).foldl (fun s e => s.modTeam gid e.1.1 fun t => { t with core := e.2.1 }) s
  let s := (s.groupsOf gid).foldl (fun s g => s.restoreGroup g.uid (s.team gid g.team).core) s
  let s := (s.teamsOf gid).foldl (fun s e => s.reclaimEngine gid e.1) s
  let s := s.modGang gid fun k => { k with life := .live, evictAt := none, restoreAt := none, image := none }
  s.modDie k.die fun d => { d with reserved := if d.reserved = some gid then none else d.reserved }
/-- A gang that hardware saved takes what its image in the save area holds; where some byte of it cannot be read, the gang is restored as
it was saved (log entry 34). -/
def State.readSaved (s : State) (gid : Nat) (k : Gang) (a : Word) : State :=
  let n := s.imageSize gid
  if s.vaReadable k.die a.toNat n then (s.vaTouch k.die a.toNat n).loadImage gid (s.vaBytes k.die a.toNat n) else s
/-- RESTORE: a gang that hardware saved is queued, once the lines of its image can be read; a queued gang is placed when Lovage would place it next. -/
def execRestore (gang : Nat) (s : State) : Res :=
  match s.gang? gang with
  | none => .next s
  | some k =>
    match k.life, k.image with
    | .saved, some (a, true) =>
      .next (if s.vaBusy k.die false a.toNat (s.imageSize gang) then s else (s.readSaved gang k a).queueRestore gang)
    | .restoring, _ =>
      (match s.nextOffer k.die [] with
       | some (o, p) => .next (if o.restore && o.id = gang then s.placeSaved gang k p else s)
       | none => .next s)
    | _, _ => .next s

end Sys2Proof.Machine
end

