-- ==== Sys2Proof/Machine/System.lean ====
section
/-! DEFINITION. Traps by instruction, system registers, the fault log's readout, debug halts, TLBINV, illegal words and
fetch faults: opcodes 0xC0 to 0xC2 but for the context instructions (spec/21 R322-R349, spec/04 R58, R77). -/

namespace Sys2Proof.Machine

/-! ## Opcode 0xC0 -/

/-- TRAP (R341). -/
def execTrap (f : Fields) (s : State) : Res :=
  issue .c false (dab f) f (fun s => .trap { cause := cSWTRAP, info := BitVec.ofNat 32 (f.immN % 65536) } s) s
/-- BRK (R341). -/
def execBrk (f : Fields) (s : State) : Res :=
  issue .c false (dab f) f (fun s => .trap { cause := cBRK, info := BitVec.ofNat 32 (f.immN % 65536) } s) s
/-- ERET (R342). -/
def execEret (f : Fields) (s : State) : Res :=
  issue .c true (dab f) f (fun s => xferTo s.g.epc.toNat s fun s => s.returnTrap s.g.epc) s

/-- FLHEAD of the issuing group's logical device. -/
def State.flhead (s : State) : BitVec 32 := (s.dev s.g.die).flhead
/-- The cycles a held instruction has waited. -/
def State.heldFor (s : State) : Nat := match s.g.wait with | .held _ since => s.now - since | _ => 0
/-- WAITI (R345). The hold's argument is 2 more than the limit, 0 without one. -/
def execWaiti (f : Fields) (s : State) : Res :=
  issue .c true (dab f) f (fun s =>
    let n := (s.vb f).toNat
    let beyond := n ≠ 0 && (decide (n ≤ s.heldFor) || (match s.g.wait with | .ready _ => true | _ => false))
    if s.flhead ≠ (s.va f).setWidth 32 || beyond then .done (s.putD f (s.flhead.setWidth 64)).advance
    else .wait (s.hold (if n = 0 then 0 else n + 2))) s
/-- WAITI_TIMEOUT: the limit of a group held in WAITI has passed (R345). -/
def execWaitiTimeout (group : Nat) (s : State) : Res :=
  match s.group? group with
  | some g =>
    (match g.wait with
     | .held arg since => .next (if 2 < arg && arg - 2 ≤ s.now - since then s.wake group 0 else s)
     | _ => .next s)
  | none => .next s

/-- A gang that has a team on a core is in eviction: one that is only requested, or waits for a halted core, has not begun (R333, R334). -/
def State.coreEvicting (s : State) (die core : Nat) : Bool :=
  s.gangs.any fun k => s.inEviction k.1 k.2 && (s.teamsOf k.1).any fun t => decide (t.2.die = die) && decide (t.2.core = core)
/-- Incomplete traversals of a core's teams. -/
def State.travCount (s : State) (die core : Nat) : Nat :=
  (s.teams.map fun t => if t.2.die = die && t.2.core = core && s.standing (t.1 / 32) then
    (if t.2.trav.isSome then 1 else 0) + (if t.2.rtrav.isSome then 1 else 0) else 0).sum
/-- The counts of R347. -/
def State.haltWord (s : State) (die core : Nat) : Word :=
  BitVec.ofNat 64 ((s.core die core).copies.length + (s.core die core).mops.length * 2 ^ 16 + s.travCount die core * 2 ^ 24)
/-- SYSARG with the FN of the instruction (R323). -/
def sysarg (fn : Nat) : FRec := { cause := cSYSARG, detail := BitVec.ofNat 8 fn }
/-- The shared part of HALTD: the action on the core's halt state, then the counts (R347). -/
def haltd (f : Fields) (halt : Bool) (act : Core → Core) (s : State) : Out :=
  let n := (s.va f).toNat
  if 39 < n || (halt && n = s.g.core) then .trap (sysarg 4) s
  else if s.coreEvicting s.g.die n then .wait s.hold
  else
    let s := s.modCore s.g.die n act
    .done (s.putD f (s.haltWord s.g.die n)).advance
/-- HALTD OP 0, and OP 3, which raises SYSARG (R347). -/
def execHaltdHalt (f : Fields) (s : State) : Res :=
  issue .c true (dab f) f (fun s =>
    if f.immN % 4 = 3 then .trap (sysarg 4) s else haltd f true (fun c => { c with halted := true }) s) s
/-- HALTD OP 1 (R347). -/
def execHaltdQuery (f : Fields) (s : State) : Res := issue .c true (dab f) f (haltd f false id) s
/-- HALTD OP 2 (R347): issue goes on, and so does what the halt held up in the core's queues. -/
def execHaltdResume (f : Fields) (s : State) : Res :=
  issue .c true (dab f) f (fun s =>
    match haltd f false (fun c => { c with halted := false }) s with
    | .done t => .done (t.settleCore s.g.die (s.va f).toNat)
    | o => o) s

/-! ## Opcode 0xC1 -/

/-- GID (R326). -/
def State.gid (s : State) : Word :=
  let h := ((s.gang? s.g.gang).map (·.handle)).getD 0
  0#16 ++ BitVec.ofNat 4 s.g.die ++ BitVec.ofNat 6 s.g.core ++ BitVec.ofNat 5 s.g.slot ++ 0#1 ++ h
/-- A system register's value; none for an index not listed (R326). -/
def State.sysReg (s : State) (i : Nat) : Option Word :=
  match i with
  | 0x000 => some s.g.gstat | 0x001 => some s.g.epc | 0x002 => some s.g.ecause | 0x003 => some s.g.eaddr
  | 0x004 => some s.g.eiaddr | 0x005 => some s.g.ewordl | 0x006 => some s.g.ewordh | 0x007 => some s.g.escr0
  | 0x008 => some s.g.escr1 | 0x010 => some s.gid | 0x011 => some (BitVec.ofNat 64 (s.now - (s.die s.g.die).resetAt))
  | 0x012 => some (s.flhead.setWidth 64) | 0x013 => some s.vec
  | _ => none
/-- Registers that only a privileged group reads (R326). -/
def sysPriv (i : Nat) : Bool := (1 ≤ i && i ≤ 8) || i = 0x12 || i = 0x13
/-- RDSR (R343). -/
def execRdsr (f : Fields) (s : State) : Res :=
  issue .c (sysPriv (f.immN % 4096)) (dab f) f (fun s =>
    match s.sysReg (f.immN % 4096) with
    | some v => .done (s.putD f v).advance
    | none => .trap (sysarg 0) s) s
/-- WRSR (R343). -/
def execWrsr (f : Fields) (s : State) : Res :=
  issue .c true (dab f) f (fun s =>
    let v := s.va f
    match f.immN % 4096 with
    | 0x001 => .done (s.setG { s.g with epc := v }).advance
    | 0x007 => .done (s.setG { s.g with escr0 := v }).advance
    | 0x008 => .done (s.setG { s.g with escr1 := v }).advance
    | _ => .trap (sysarg 1) s) s
/-- FLTRD (R344). -/
def execFltrd (f : Fields) (s : State) : Res :=
  issue .c true (dab f) f (fun s =>
    let e := (kget (s.dev s.g.die).log ((s.va f).toNat % 256)).getD 0
    .done (s.putD f (e.extractLsb' (64 * (f.immN % 4)) 64)).advance) s
/-- PREACK (R346). -/
def execPreack (f : Fields) (s : State) : Res :=
  issue .c true (dab f) f (fun s =>
    let pending : Bool := match s.gang? s.g.gang with | some k => decide (k.life = .evicting) | none => false
    .done (if pending then s.setG { s.g with packed := true, pnote := false } else s).advance) s

/-! ## TLBINV (R349) -/

/-- An entry of a logical device that an invalidation names; a length of 0 names none. -/
def invHit (dev : Nat) (all : Bool) (a n : Nat) (e : TlbEntry) : Bool :=
  decide (e.dev = dev) && (all || (decide (n ≠ 0) && decide (e.base < a + n) && decide (a < e.base + e.size)))
/-- Drops entries from the die's TLB and every L1 TLB of the die. -/
def State.tlbInv (s : State) (die : Nat) (all : Bool) (a n : Nat) : State :=
  let s := s.modDie die fun d => { d with tlb := d.tlb.filter fun e => !invHit die all a n e }
  { s with cores := s.cores.map fun c =>
      if c.1 / 64 = die then (c.1, { c.2 with tlb := c.2.tlb.filter fun e => !invHit die all a n e }) else c }
/-- TLBINV (R349). -/
def execTlbinv (f : Fields) (s : State) : Res :=
  issue .c true (dab f) f (fun s => s.releasing fun s =>
    .done (s.tlbInv s.g.die (f.imm.getLsbD 0) (s.va f).toNat ((s.vb f).toNat % 2 ^ 32)).advance) s

/-! ## Context instructions (R348) -/

/-- The gang of the issuing logical device that has a handle and is resident. -/
def State.liveGang (s : State) (h : BitVec 32) : Option (Nat × Gang) :=
  s.gangs.find? fun k => k.2.die = s.g.die && k.2.handle = h && (decide (k.2.life = .live) || decide (k.2.life = .evicting))
/-- The first page of a range that fails the check of a need, as a trap (R178, R348). -/
def State.rangeFault (s : State) (need : Need) (a n : Nat) : Option FRec :=
  (List.range ((a % 4096 + n + 4095) / 4096)).findSome? fun i =>
    match s.translateAny s.g.die s.gSecure need (if i = 0 then a else (a / 4096 + i) * 4096 : Nat) with
    | .ok _ => none
    | .error r => some r
/-- The poison, or the host link that is down, which a read of a range that passed its checks finds first, as a trap (R193, R451, R456). -/
def State.rangePoison (s : State) (a n : Nat) : Option FRec :=
  (List.range ((a % 128 + n + 127) / 128)).findSome? fun i =>
    let va : Nat := if i = 0 then a else (a / 128 + i) * 128
    match s.translateAny s.g.die s.gSecure .r va with
    | .ok x => s.poisonOf .r 1 ⟨0, va, x⟩
    | .error _ => none
/-- CTXSAVE: the first attempt requests the eviction, and the instruction is held until the image is written, which gives it the size. The gang it
waits for may have retired first. Of a gang that is in eviction already the spec says nothing: the model holds the instruction, and once that gang
is saved its handle is no live gang's (log entry 24). -/
def execCtxsave (f : Fields) (s : State) : Res :=
  issue .c true (dab f) f (fun s =>
    let h := (s.vb f).setWidth 32
    let a := s.va f
    match s.g.wait, s.gangs.find? fun k => k.2.die = s.g.die && k.2.handle = h with
    | .ready v, _ => .done (s.putD f v).advance
    | .held 1 _, some (_, k) => if k.life = .evicting then .wait s else .trap (sysarg 0) s
    | .held 1 _, none => .trap (sysarg 0) s
    | _, _ =>
      match s.liveGang h with
      | none => .trap (sysarg 0) s
      | some (gid, k) =>
        let size := s.imageSize gid
        if gid = s.g.gang then .trap (sysarg 0) s
        else if f.a = .zero then .done (s.putD f (BitVec.ofNat 64 size)).advance
        else if a.toNat % 256 ≠ 0 then .trap (fltAt cALIGN 0 a.toNat) s
        else
          match s.rangeFault .w a.toNat size with
          | some r => .trap r s
          | none =>
            if k.life = .evicting then .wait s.hold
            else .wait ((s.requestEviction gid (some (a, false)) (some (s.g.uid, s.now))).setG { s.g with wait := .held 1 s.now })) s

/-- CTXLOAD: the checks of R348, then the gang is queued for restore with what its image holds; a poisoned byte that it reads of the image is
POISON (R193), and it waits for the lines it reads. An image whose handle names no saved gang
fails check 4, as a second load does (log entry 24). -/
def execCtxload (f : Fields) (s : State) : Res :=
  issue .c true (dab f) f (fun s =>
    let a := (s.va f).toNat
    match (s.rangeFault .r a 256).orElse fun _ => s.rangePoison a 256 with
    | some r => .trap r s
    | none =>
    if s.vaBusy s.g.die false a 256 then .wait s.hold
    else
      let m := s.vaBytes s.g.die a 256
      let bad (n : Nat) : Out := .trap { cause := cCTXBAD, detail := BitVec.ofNat 8 n } s
      let size := rdLE m 4 4
      let h := BitVec.ofNat 32 (rdLE m 72 4)
      let saved := s.gangs.find? fun k => k.2.die = s.g.die && k.2.handle = h && decide (k.2.life = .saved)
      if rdLE m 0 1 ≠ 1 then bad 1
      else if rdLE m 1 1 ≠ s.g.die then bad 2
      else if size % 256 ≠ 0 || size < 1280 || (match saved with | some k => size ≠ s.imageSize k.1 | none => false) then bad 3
      else
        match saved with
        | none => bad 4
        | some (gid, k) =>
          if (s.gangs.any fun k => k.2.die = s.g.die && k.2.handle = h && !decide (k.2.life = .saved)) then bad 4
          else
            match (s.rangeFault .r a size).orElse fun _ => s.rangePoison a size with
            | some r => .trap r s
            | none =>
            if s.vaBusy s.g.die false a size then .wait s.hold
            else
              let raw := BitVec.ofNat 128 (rdLE m 8 16)
              let t := if raw = k.ttype.raw then k.ttype else TType.ofEntry raw.toNat
              if !t.valid then bad 5
              else
                let img := s.vaBytes s.g.die a size
                if !s.sizesAgree gid t img then bad 6
                else .done (((s.vaTouch s.g.die a size).loadImage gid img).queueRestore gid).advance) s

/-! ## Words that do not decode, and failed fetches -/

/-- ILLEGAL_INSTRUCTION: the word of EWORDL and EWORDH and its detail code (R77). A restored group whose image names such a word leaves the
wait it was loaded with. -/
def execIllegalInstruction (word : IWord) (detail : BitVec 8) (s : State) : Res :=
  if s.g.life ≠ .active then .fault .noGroup
  else .next (s.leaveWait.takeTrap { cause := cILLEGAL, detail := detail, word := word })
/-- FETCH_FAULT (R58). -/
def execFetchFault (cause detail : BitVec 8) (addr : Word) (s : State) : Res :=
  if s.g.life ≠ .active then .fault .noGroup
  else .next (s.leaveWait.takeTrap { cause := cause, detail := detail, addr := addr, fetch := true })

end Sys2Proof.Machine
end

