-- ==== Sys2Proof/Machine/Fabric.lean ====
section
/-! DEFINITION. Import handles, fabric messages, counting points, the Sorrel wave, fabric links and dead dies (spec/29
R401-R425). -/

namespace Sys2Proof.Machine

/-! ## MSEND (R407, R409, R417) -/

/-- Fields of a target word. -/
def mtHnd (w : Nat) : Nat := bits w 51 44
def mtDie (w : Nat) : Nat := bits w 43 40
def mtRank (w : Nat) : Nat := bits w 38 32
def mtGang (w : Nat) : Nat := bits w 31 0
/-- MTGT with its detail. -/
def mtgt (d : Nat) : FRec := { cause := cMTGT, detail := BitVec.ofNat 8 d }
/-- The issuing group's gang handle. -/
def State.myHandle (s : State) : BitVec 32 := ((s.gang? s.g.gang).map (·.handle)).getD 0
/-- The job of what the issuing group sends (R409). -/
def State.sendJob (s : State) : Nat := s.g.handler.getD s.g.job
/-- Bits 127:0 of the message a group sends, handler index and job given (R407). -/
def State.msgHead (s : State) (hnd job : Nat) : Nat :=
  s.myHandle.toNat + s.g.rank % 128 * 2 ^ 32 + s.g.die * 2 ^ 40 + s.g.core * 2 ^ 44 + job * 2 ^ 50 + hnd * 2 ^ 56
/-- The check of a target word. -/
def State.mtBad (s : State) (w : Nat) : Option Nat :=
  let other := mtDie w ≠ 15 && mtDie w ≠ s.g.die
  if bits w 63 52 ≠ 0 || bit w 39 then some 1
  else if 8 ≤ mtDie w && mtDie w ≤ 14 then some 2
  else if other && !s.holdsHandle s.g.die (mtDie w) then some 3
  else if mtGang w = 0 && other then some 4
  else none
/-- A message is injected; one to or from a dead die is given up (R406). -/
def State.sendMsg (s : State) (w : Nat) (pay : List Byte) : State :=
  let die := if mtDie w = 15 then s.g.die else mtDie w
  let job := s.sendJob
  let (id, s) := s.take
  let s := s.count s.g.die job .inj
  if die ≠ s.g.die && ((s.die s.g.die).dead || (s.die die).dead) then s.count 8 job .lost
  else
    let m : Msg := {
      id := id, bits := BitVec.ofNat 512 (s.msgHead (mtHnd w) job + leVal pay * 2 ^ 128), die := die
      gang := if mtGang w = 0 then s.myHandle else BitVec.ofNat 32 (mtGang w), rank := mtRank w, sender := s.g.uid
      sdev := s.g.die, launch := s.g.launch, ljob := BitVec.ofNat 6 s.g.job, lseq := BitVec.ofNat 32 s.g.srcs.launch, slot := s.g.slot, iaddr := s.g.pc }
    ({ s with fab := { s.fab with msgs := s.fab.msgs ++ [m] } } : State).wakePair s.g.die die
/-- Messages of a core that still await injection at its fabric interface (R417). -/
def State.awaiting (s : State) (die core : Nat) : Nat :=
  (s.fab.msgs.filter fun m => m.sdev = die && bits m.bits.toNat 49 44 = core && !m.injected && !m.arrived).length
/-- MSEND (R417). -/
def execMsend (f : Fields) (s : State) : Res :=
  issue .c false (fun _ => [⟨1, f.a, 8⟩, ⟨2, f.b, 48⟩]) f (fun s =>
    let w := (s.va f).toNat
    match s.mtBad w with
    | some d => .trap (mtgt d) s
    | none => s.releasing fun s =>
      if 16 ≤ s.awaiting s.g.die s.g.core then .wait s.hold else .done (s.sendMsg w (s.g.viewBytes f.b 48)).advance) s

/-! ## Message store and delivery (R408, R410, R418) -/

/-- Handler index of a message. -/
def Msg.hnd (m : Msg) : Nat := Machine.bits m.bits.toNat 63 56
/-- Pending messages of a die's store. -/
def State.stored (s : State) (die : Nat) : List Msg := s.fab.msgs.filter fun m => m.arrived && m.die = die
/-- An earlier message of the same sender to the same target that has not been delivered (R410). -/
def State.msgBehind (s : State) (m : Msg) (arrivedToo : Bool) : Bool :=
  s.fab.msgs.any fun x => x.id < m.id && x.sender = m.sender && x.die = m.die && x.gang = m.gang && x.rank = m.rank
    && (arrivedToo || !x.arrived)
/-- The group a message names, when it has not ended (R410). -/
def State.msgTarget (s : State) (m : Msg) : Option Group :=
  s.groups.find? fun g => decide (g.life ≠ .absent) && decide (g.life ≠ .ended) && s.msgFor m g
/-- A message changes where it stands in the fabric. -/
def State.modMsg (s : State) (msg : Nat) (h : Msg → Msg) : State :=
  { s with fab := { s.fab with msgs := s.fab.msgs.map fun (x : Msg) => if x.id = msg then h x else x } }
/-- A message leaves its core's fabric interface (R417). -/
def State.inject (s : State) (msg : Nat) : State := s.modMsg msg fun m => { m with injected := true }
/-- MESSAGE_ARRIVAL (R410). One that finds the store full, or an earlier message of its sender, stays in the fabric, injected. -/
def execMessageArrival (msg : Nat) (s : State) : Res :=
  match s.fab.msgs.find? fun m => decide (m.id = msg) with
  | none => .next s
  | some m =>
    if m.arrived then .next s
    else if s.msgBehind m false || 4096 ≤ (s.stored m.die).length then .next (s.modMsg msg fun x => { x with injected := true })
    else
      let s := s.cross m.sdev m.die
      if (s.msgTarget m).isNone then .next (s.dropMsg m 1)
      else .next ((s.modMsg msg fun x => { x with injected := true, arrived := true }).touchAt m.die m.job)

/-- The handler entry of an index, read at the delivery; none where it is not valid (R408). -/
def State.handlerEntry (s : State) (dev hnd : Nat) : Option Word :=
  let r := s.mrN (offMHTB dev)
  if !bit r 0 then none
  else
    match s.hubRead dev (s.secure dev) (bits r 56 12 * 4096 + 8 * hnd : Nat) 8 with
    | none => none
    | some bs => if leVal bs ≠ 0 && validTarget (leVal bs) then some (BitVec.ofNat 64 (leVal bs)) else none
/-- A pending message is delivered to a group whose WAITQ stands at its program counter with its view at an allocation
offset; one without a valid handler entry is discarded and the WAITQ stays as it is (R410, R418). The group goes on: it is idle no more (R413). -/
def State.deliver (s : State) (g : Group) (view : Nat) (m : Msg) : Bool × State :=
  match s.handlerEntry g.die m.hnd with
  | none => (false, s.dropMsg m 2)
  | some h =>
    let s := { (s.entryTouch g.die (offMHTB g.die) (s.secure g.die) (8 * m.hnd)) with
      fab := { s.fab with msgs := s.fab.msgs.filter fun x => decide (x.id ≠ m.id) } }
    let s := s.modGroup g.uid fun g =>
      { ((g.setBytes view (leBytes m.bits.toNat 64)).setSreg 63 g.pc).jump h with handler := some m.job }
    let s := (s.acquire g.die g.core).touchAt g.die m.job
    (true, if g.idle then s.touchAt g.die g.job else s)
/-- The pending messages of a group in the order of the store. -/
def State.msgsOf (s : State) (g : Group) : List Msg := s.fab.msgs.filter fun m => m.arrived && s.msgFor m g
/-- Deliveries are tried in order until one succeeds. -/
def State.deliverFirst (s : State) (g : Group) (view : Nat) : List Msg → Bool × State
  | [] => (false, s)
  | m :: ms => match s.deliver g view m with
    | (true, s) => (true, s)
    | (false, s) => s.deliverFirst g view ms
/-- Nothing holds a delivery into a group's registers: its core is not halted (R339), and no product has still to read the view or s63
(R288). -/
def State.canDeliver (s : State) (g : Group) (view : Nat) : Bool :=
  !(s.core g.die g.core).halted && (s.unread g).all fun r =>
    !(decide (r.1 < view + 64) && decide (view < r.1 + r.2)) && !(decide (r.1 < 512) && decide (504 < r.1 + r.2))
/-- MESSAGE_DELIVERY: a resident group blocked in WAITQ (R418). -/
def execMessageDelivery (msg : Nat) (s : State) : Res :=
  match s.fab.msgs.find? fun m => decide (m.id = msg) with
  | none => .next s
  | some m =>
    match s.msgTarget m with
    | none => .next s
    | some g =>
      match g.wait with
      | .blocked .waitq _ view _ =>
        .next (if m.arrived && !s.msgBehind m true && (decide (g.life = .active) || decide (g.life = .waiting)) && s.canDeliver g view.toNat then
          (s.deliver g view.toNat m).2 else s)
      | _ => .next s

/-! ## WAITQ, QUIETST, MRET (R418-R421) -/

/-- A wave is requested (R412). -/
def State.requestWave (s : State) : State := { s with hub := { s.hub with waveReq := s.hub.waveReq + 1 } }
/-- The status word of a job (R421). -/
def statusWord (lost : BitVec 48) (dead quiet : Bool) : Word :=
  lost ++ BitVec.ofNat 16 ((if dead then 8 else 0) + (if lost ≠ 0 then 4 else 0) + (if quiet then 1 else 0))
/-- Losses of the wave that declared a job quiet, when it began no earlier than a given wave. -/
def State.quietSince (s : State) (job since : Nat) : Option (BitVec 48) :=
  (kget s.hub.quiet job).bind fun q => if since ≤ q.1 then some q.2 else none
/-- WAITQ (R418). Its block holds the view's allocation offset and the number of the first wave that counts. -/
def execWaitq (f : Fields) (s : State) : Res :=
  issue .c false (fun _ => [⟨0, f.d, 8⟩, ⟨1, f.a, 64⟩]) f (fun s =>
    if s.g.handler.isSome then .trap (mstate 2) s
    else
      let view := s.g.base f.a
      let finish (s : State) (since : Nat) : Out :=
        match s.deliverFirst s.g view (s.msgsOf s.g) with
        | (true, s) => .done s
        | (false, s) =>
          match s.quietSince s.g.job since with
          | some lost =>
            .done (((s.putD f (statusWord lost (s.hub.deadFlag.getLsbD s.g.job) true)).advance).acquireG.touchAt s.g.die s.g.job)
          | none => .wait (s.block .waitq 0 (BitVec.ofNat 64 view) since)
      match s.g.wait with
      | .blocked .waitq _ _ since => finish s since
      | _ =>
        if s.storesOut s.g.uid then .wait s.hold
        else s.ordering fun s => s.releasing fun s => finish s.requestWave s.hub.waveNum) s
/-- QUIETST (R420). -/
def execQuietst (f : Fields) (s : State) : Res :=
  issue .c false (dab f) f (fun s =>
    let w := (kget s.hub.status s.g.job).getD 0
    let run := s.hub.waves.any fun x => s.hub.waveDone ≤ x.num
    let s := (s.putD f (if run then w ||| 2 else w)).advance
    .done (if w.getLsbD 0 then s.acquireG else s)) s
/-- MRET (R419). A bad target is reported before its own MSTATE, in the order of R78, where R419's statement tests the handler first (log
entry 64). -/
def execMret (f : Fields) (s : State) : Res :=
  issue .c false (dab f) f (fun s =>
    let t := s.g.sreg 63
    if !validTarget t.toNat then .trap { cause := cXFER } s
    else
      match s.g.handler with
      | none => .trap (mstate 1) s
      | some j => s.releasing fun s => .done ((s.setG { s.g.jump t with handler := none }).count s.g.die j .cons)) s

/-! ## HIMPORT, HREVOKE (R401, R402, R422, R423) -/

/-- An export entry that can be read and is valid, read in a world (R401, R422). -/
def State.exportEntry (s : State) (die exp : Nat) (secure : Bool) : Option Nat :=
  let r := s.mrN (offEXBR die)
  if !bit r 0 || (s.die die).dead then none
  else
    match s.hubRead die secure (bits r 56 12 * 4096 + 32 * exp : Nat) 32 with
    | none => none
    | some bs =>
      let e := leVal bs
      let len := bits e 127 64
      if bit e 255 && bits e 254 250 = 0 && bits e 223 128 = 0 && len % 4096 = 0 && 4096 ≤ len && len ≤ 2 ^ 47
          && bits e 63 0 % 4096 = 0 then some e else none
/-- A valid handle of a logical device. -/
def State.handleValid (s : State) (dev h : Nat) : Bool := ((kget (s.dev dev).handles h).map (·.valid)).getD false
/-- HIMPORT (R422). What a dead die's group sends to the exporter is given up and never answered (R406). -/
def execHimport (f : Fields) (s : State) : Res :=
  issue .c false (dab f) f (fun s => s.releasing fun s =>
    let w := (s.va f).toNat
    let exp := bits w 27 20
    let die := bits w 19 16
    let h := bits w 11 0
    let no (d : Nat) : Out := .trap { cause := cHIMP, detail := BitVec.ofNat 8 d, info := BitVec.ofNat 32 exp } s
    if bits w 63 50 ≠ 0 || bits w 31 28 ≠ 0 || bits w 15 12 ≠ 0 || 8 ≤ die || die = s.g.die then no 1
    else if (s.die s.g.die).dead then .wait s.hold
    else
      match s.exportEntry die exp s.gSecure with
      | none => no 2
      | some e =>
        if !bit e (240 + s.g.die) || bits e 239 224 ≠ bits w 47 32 then no 3
        else if (!bit w 48 && !bit w 49) || (bit w 48 && !bit e 248) || (bit w 49 && !bit e 249) then no 4
        else if h = 0 || s.handleValid s.g.die h then no 5
        else
          let x : Handle := { exporter := die, index := exp, base := BitVec.ofNat 64 (bits e 63 0), len := BitVec.ofNat 64 (bits e 127 64),
                              r := bit w 48, w := bit w 49 }
          let s := s.entryTouch die (offEXBR die) s.gSecure (32 * exp)
          .done ((s.modDev s.g.die fun d => { d with handles := kset d.handles h x }).putD f x.len).advance) s

/-- A die gives up every line of another die's memory that its caches hold. -/
def State.dropFar (s : State) (die home : Nat) : State :=
  ((s.cache.l2.filter fun e => e.1 / 2 ^ 32 = die && dieOfKey (128 * (e.1 % 2 ^ 32)) = home).map fun e => e.1 % 2 ^ 32).foldl
    (fun s l => s.evictFrom die l) s
/-- An importing die forgets a handle: TLB entries of its peer pages, and its lines of the exporter's memory (R423). -/
def State.forgetHandle (s : State) (dev h exporter : Nat) : State :=
  let keep (e : TlbEntry) : Bool := !(decide (e.dev = dev) && bits e.leaf.toNat 60 59 = 2 && bits e.leaf.toNat 58 47 = h)
  let s := s.modDie dev fun d => { d with tlb := d.tlb.filter keep }
  ((List.range 40).foldl (fun s c =>
    if (kget s.cores (64 * dev + c)).isNone then s else s.modCore dev c fun k => { k with tlb := k.tlb.filter keep }) s).dropFar dev exporter
/-- What is under way through a handle is so through one that a group revokes: stores in the fabric, copies translated at their issue; an STSC
that waits to send its store is made anew. -/
def State.orphan (s : State) (dev h uid exporter : Nat) : State :=
  let by_ := some (uid, exporter)
  let seg (g : Seg) : Seg := match g.xl with
    | some (2, ofs, k) => if k = h then { g with xl := some (4, ofs, k) } else g
    | _ => g
  let s := { s with fab := { s.fab with
    stores := s.fab.stores.map fun (p : PeerStore) => if p.dev = dev && p.handle = h && p.gone.isNone then { p with gone := by_ } else p
    stamped := s.fab.stamped.map fun (w : Stamped) => if w.die = dev && w.handle = h && w.isOpen && w.gone.isNone then { w with gone := by_ } else w } }
  let s := { s with cores := s.cores.map fun (c : Nat × Core) =>
    if c.1 / 64 = dev then (c.1, { c.2 with copies := c.2.copies.map fun (x : Copy) => { x with segs := x.segs.map seg } }) else c }
  s.modGroups fun g => match g.wait with
    | .sending 2 _ k _ => if g.die = dev && k = h then { g with wait := .run } else g
    | _ => g
/-- A handle becomes invalid. -/
def State.revokeHandle (s : State) (dev h : Nat) : State :=
  match kget (s.dev dev).handles h with
  | none => s
  | some x =>
    if !x.valid then s
    else ((s.orphan dev h s.g.uid x.exporter).modDev dev fun d => { d with handles := kset d.handles h { x with valid := false } }).forgetHandle dev h x.exporter
/-- An access sent under a handle that a group has revoked is not yet performed or refused (R423). -/
def State.goneOut (s : State) (uid : Nat) : Bool :=
  let mine (e : Option (Nat × Nat)) : Bool := match e with | some e => decide (e.1 = uid) | none => false
  s.fab.stores.any (fun p => mine p.gone) || s.fab.stamped.any fun w => w.isOpen && mine w.gone
/-- Handles are revoked at the first attempt; the instruction is held until no access sent under them is out (R423). What a dead die's group sends
to other dies is given up and never answered (R406). -/
def revoke (hs : State → List (Nat × Nat)) (s : State) : Out :=
  match s.g.wait with
  | .held 1 _ => if s.goneOut s.g.uid then .wait s else .done s.advance
  | _ => s.releasing fun s =>
    if (s.die s.g.die).dead && (hs s).any fun e => decide (e.1 ≠ s.g.die) then .wait s.hold
    else
      let s := (hs s).foldl (fun s e => s.revokeHandle e.1 e.2) s
      if s.goneOut s.g.uid then .wait (s.setG { s.g with wait := .held 1 s.now }) else .done s.advance
/-- HREVOKE (R423). -/
def execHrevoke (f : Fields) (s : State) : Res :=
  issue .c false (dab f) f (revoke fun s => [(s.g.die, (s.va f).toNat % 4096)]) s
/-- HREVOKE.exp (R423). -/
def execHrevokeExp (f : Fields) (s : State) : Res :=
  issue .c false (dab f) f (revoke fun s => (List.range 8).flatMap fun dev =>
    ((s.dev dev).handles.filter fun h => h.2.exporter = s.g.die && h.2.index = (s.va f).toNat % 256).map fun h => (dev, h.1)) s

/-! ## The Sorrel wave (R412-R415) -/

/-- The counting points a pass reads: the fabric's, and those of the dies that are not dead (R406, R413). -/
def State.livePoints (s : State) : List Nat := (List.range 9).filter fun d => !(s.die d).dead
/-- What a pass collects for a job (R413). -/
def State.passSum (s : State) (act : List Nat) (job : Nat) : PassSum :=
  let cs := s.livePoints.map fun d => (kget s.hub.counts (64 * d + job)).getD {}
  { i := cs.foldl (fun a c => a + c.inj) 0, c := cs.foldl (fun a c => a + c.cons) 0, l := cs.foldl (fun a c => a + c.lost) 0
    busy := (s.livePoints.filter (· < 8)).any fun d => s.busy d job, act := act.contains job }
/-- A pass over every job. -/
def State.pass (s : State) (act : List Nat) : List PassSum := (List.range 64).map (s.passSum act)
/-- The wave's verdict from its two passes (R414). -/
def quietFrom (dead : Bool) (p q : PassSum) : Bool :=
  (dead || p.i = p.c + p.l) && q.i = p.i && q.c = p.c && q.l = p.l && !p.busy && !q.busy && !q.act
/-- A wave starts; a request, if any waits, is met (R412). -/
def State.startWave (s : State) : State :=
  { s with hub := { s.hub with
      waves := s.hub.waves ++ [{ num := s.hub.waveNum }], waveNum := s.hub.waveNum + 1, waveReq := s.hub.waveReq - 1 } }
/-- WAVE_START: the period's, or a request's (R412). -/
def execWaveStart (s : State) : Res := .next (if s.hub.waves.length < 4 then s.startWave else s)
/-- New losses of a job: MLOST to the log of every logical device with a launch of it, and those launches fail (R415). -/
def State.reportLosses (s : State) (job : Nat) (lost : BitVec 48) : State :=
  let new := lost - (kget s.hub.seenLost job).getD 0
  if new = 0 then s
  else
    let s := { s with hub := { s.hub with seenLost := kset s.hub.seenLost job lost } }
    let ls := s.launches.filter fun l => l.2.job = job
    let s := (List.range 8).foldl (fun s dev =>
      match ls.find? fun l => l.2.dev = dev with
      | some l => s.log dev (({ cause := cMLOST, info := new.setWidth 32 } : FRec).ofLaunch l.2)
      | none => s) s
    ls.foldl (fun s l => s.failLaunch l.1) s
/-- A wave ends for a job: losses, the status word, and the verdict with what waits for it (R47, R414, R415, R420). -/
def State.endWaveFor (s : State) (num job : Nat) (p q : PassSum) : State :=
  let s := s.reportLosses job q.l
  let dead := s.hub.deadFlag.getLsbD job
  let quiet := quietFrom dead p q
  let s := { s with hub := { s.hub with status := kset s.hub.status job (statusWord q.l dead quiet) } }
  if !quiet then s
  else
    let newer : Bool := match kget s.hub.quiet job with | some e => e.1 < num | none => true
    let s := if newer then { s with hub := { s.hub with quiet := kset s.hub.quiet job (num, q.l) } } else s
    { s with launches := s.launches.map fun (l : Nat × Launch) =>
        let met := match l.2.zeroWave with | some z => decide (z ≤ num) | none => false
        (l.1, if l.2.job = job && met then { l.2 with quiet := true } else l.2) }
/-- WAVE_PASS: a wave's first pass, or its second, which ends it (R413, R414). A pass crosses every link (R404). -/
def execWavePass (wave : Nat) (s : State) : Res :=
  match s.hub.waves.find? fun w => decide (w.num = wave) with
  | none => .next s
  | some w =>
    let s := (List.range 8).foldl (fun s d => if (s.die d).dead then s else s.wakeLink d) s
    match w.pass1 with
    | none =>
      let p := s.pass []
      .next { s with hub := { s.hub with waves := s.hub.waves.map fun x =>
          if x.num = wave then { x with pass1 := some p, act := [] } else x } }
    | some p =>
      let q := s.pass w.act
      let s := { s with hub := { s.hub with
          waves := s.hub.waves.filter fun x => decide (x.num ≠ wave), waveDone := wave + 1 } }
      .next (((List.range 64).zip (p.zip q)).foldl (fun s e => s.endWaveFor wave e.1 e.2.1 e.2.2) s)

/-! ## Lost packets, links, dead dies (R404-R406, R415) -/

/-- A packet in flight between dies, by the number of the message or record it carries: the job in its header. -/
def State.packetJob (s : State) (id : Nat) : Option Nat :=
  match s.fab.msgs.find? fun m => m.id = id && !m.arrived && m.sdev ≠ m.die with
  | some m => some m.job
  | none =>
    match s.fab.recs.find? fun r => r.id = id && r.fromDie ≠ r.toDie with
    | some r => some r.job
    | none => (s.fab.graph.find? fun r => r.id = id && r.remote).map (·.job)
/-- A packet is given up and counted lost at a switch (R415). -/
def State.losePacket (s : State) (id : Nat) : State :=
  match s.packetJob id with
  | none => s
  | some job =>
    ({ s with fab := { s.fab with
        msgs := s.fab.msgs.filter fun m => m.arrived || decide (m.id ≠ id)
        recs := s.fab.recs.filter fun r => decide (r.id ≠ id)
        graph := s.fab.graph.filter fun r => decide (r.id ≠ id) } } : State).count 8 job .lost
/-- PACKET_LOSS (R415). -/
def execPacketLoss (msg : Nat) (s : State) : Res := .next (s.losePacket msg)
/-- LINK_SLEEP: a link sleeps after IDLE µs of silence, and never where IDLE is 0 (R404). -/
def execLinkSleep (die : Nat) (s : State) : Res :=
  let idle := bits (s.mrN offFABCFG) 31 16
  .next (if die < 8 && idle ≠ 0 && (s.die die).lastPacket + usCycles idle ≤ s.now then s.modDie die fun d => { d with asleep := true } else s)
/-- LINK_WAKE (R405). -/
def execLinkWake (die : Nat) (s : State) : Res := .next (s.wakeLink die)

/-- Every directory drops the die: a line it had in M, O or E returns to its home poisoned (R406). -/
def State.dropRemoteLines (s : State) (die : Nat) : State :=
  s.cache.dir.foldl (fun s e =>
    let s := if e.2.owner = some die then { s with poison := kset s.poison e.1 (BitVec.allOnes 128) } else s
    { s with cache := { s.cache with dir := dirLeave s.cache.dir die e.1, l2 := kdel s.cache.l2 (cacheKey die e.1) } }) s
/-- A die has answered no packet for DEADT, counted from the first it has not answered (R404, R405). -/
def State.silent (s : State) (die : Nat) : Bool :=
  match (s.die die).asked with
  | some t => decide (t + 1700 * bits (s.mrN offFABCFG) 47 32 ≤ s.now)
  | none => false
/-- The packets to or from a die that are in the fabric. -/
def State.packetsOf (s : State) (die : Nat) : List Nat :=
  (s.fab.msgs.filter fun m => !m.arrived && m.sdev ≠ m.die && (m.sdev = die || m.die = die)).map (·.id)
    ++ (s.fab.recs.filter fun r => r.fromDie ≠ r.toDie && (r.fromDie = die || r.toDie = die)).map (·.id)
    ++ (s.fab.graph.filter fun r => r.remote && (r.fromDie = die || r.die = die)).map (·.id)
/-- The launches of a logical device fail; their tasks count as retired (R406). -/
def State.failDevice (s : State) (dev : Nat) : State :=
  (s.launches.filter fun l => l.2.dev = dev).foldl (fun s l =>
    let s := s.modLaunch l.1 fun x => { x with failed := true, dead := true, outstanding := 0 }
    if l.2.zeroWave.isSome then s else s.countZero l.1) s
/-- A change of readiness bits of a die, which stay clear while it is dead (R456): the new registers, and one MSI-X 63. -/
def State.clearReady (s : State) (die : Nat) : State :=
  let st := s.mr offRDYSTAT &&& ~~~((1#64 <<< (2 + die)) ||| (0xF#64 <<< (12 + 4 * die)))
  let mm := s.mr offRDYMEM &&& ~~~(0xFF#64 <<< (8 * die))
  if st = s.mr offRDYSTAT && mm = s.mr offRDYMEM then s
  else ((s.setMr offRDYSTAT st).setMr offRDYMEM mm).postMsix 8 64 0 63
/-- DEAD_DIE, of a die that has been silent: the effects of R406 in their order, the readiness bits (R456) and the dead flag of every job (R414, R415). -/
def execDeadDie (die : Nat) (s : State) : Res :=
  if 8 ≤ die || (s.die die).dead || !s.silent die then .next s
  else
    let s := (List.range 8).foldl (fun s n => s.log n { cause := cDEADDIE, detail := BitVec.ofNat 8 die }) s
    let s := s.dropRemoteLines die
    let s := s.modDie die fun d => { d with dead := true }
    let s := (s.packetsOf die).foldl (fun s id => s.losePacket id) s
    let s := (s.failDevice die).clearReady die
    .next { s with hub := { s.hub with deadFlag := BitVec.allOnes 64 } }

end Sys2Proof.Machine
end

