-- ==== Sys2Proof/Machine/Time.lean ====
section
/-! DEFINITION. Thyme intervals, the horizon, stamped cells; opcode 0xB8 (spec/30 R426-R440). -/

namespace Sys2Proof.Machine

/-! ## Intervals and joining (R427-R429) -/

/-- TMAXW in ns (R428). -/
def State.tmaxw (s : State) : Nat := s.mrN offTMCFG % 2 ^ 16
/-- A die is joined (R429): its width is at most TMAXW, it is not dead, and it was joined or its E exceeds H. -/
def State.joinedNow (s : State) (die : Nat) : Bool :=
  s.width die ≤ s.tmaxw && !(s.die die).dead && ((s.die die).joined || s.hub.h.toNat < (s.eOf die).toNat)
/-- Records which dies are joined, before something changes a width or H. -/
def State.refreshJoined (s : State) : State :=
  (List.range 8).foldl (fun s d =>
    if s.joinedNow d = (s.die d).joined then s
    else let j := s.joinedNow d; s.modDie d fun x => { x with joined := j }) s
/-- SYNC_EXCHANGE: a die refreshes its interval; no read falls below what was read before (R427). -/
def execSyncExchange (die : Nat) (e l : Word) (s : State) : Res :=
  if 8 ≤ die || s.thyme.toNat < e.toNat || l.toNat < s.thyme.toNat || e.toNat + 24 < l.toNat then .next s
  else
    let s := s.refreshJoined
    let e0 := s.eOf die
    let l0 := s.lOf die
    let first := (s.die die).l = BitVec.allOnes 64
    let s := s.modDie die fun d => { d with e := e, l := l, syncAt := s.now, eMin := e0, lMin := if first then 0 else l0 }
    .next s.refreshJoined

/-- WIDTH of R436. -/
def State.widthWord (s : State) (die : Nat) : Nat := Nat.min (s.width die) (2 ^ 32 - 1)
/-- TIME (R436): D, then B, of one instant. -/
def execTime (f : Fields) (s : State) : Res :=
  issue .c false (dab f) f (fun s =>
    let e := s.eOf s.g.die
    let l := s.lOf s.g.die
    .done (s.setG ((s.g.put f.d e).put f.b l)).advance) s
/-- TWIDTH (R436). -/
def execTwidth (f : Fields) (s : State) : Res :=
  issue .c false (dab f) f (fun s =>
    .done (s.putD f (BitVec.ofNat 64 (s.widthWord s.g.die + if s.joinedNow s.g.die then 0 else 2 ^ 63))).advance) s

/-! ## The horizon (R430, R432, R439) -/

/-- The greatest value that R430 allows, when a die is joined. -/
def State.horizon (s : State) : Option Nat :=
  let es := ((List.range 8).filter s.joinedNow).map fun d => (s.eOf d).toNat
  let ts := (s.fab.stamped.filter fun w => !w.arrived && w.outcome = 0).map fun w => w.stamp.toNat
  match es with
  | [] => none
  | e :: rest => some ((rest ++ ts).foldl Nat.min e - 1)
/-- HORIZON_ADVANCE. H never decreases. -/
def execHorizonAdvance (s : State) : Res :=
  let s := s.refreshJoined
  match s.horizon with
  | some v => .next (if s.hub.h.toNat < v then { s with hub := { s.hub with h := BitVec.ofNat 64 v } } else s)
  | none => .next s

/-- Updates a stamped store. -/
def State.modStamped (s : State) (id : Nat) (h : Stamped → Stamped) : State :=
  { s with fab := { s.fab with stamped := s.fab.stamped.map fun w => if w.id = id then h w else w } }
/-- The words of a cell within its line. -/
def cellWords (cell : Nat) : BitVec 32 := 0xFF#32 <<< (cell % 128 / 4)
/-- A stamped store has come to its outcome; nobody waits for one whose group went with its die's reset. -/
def State.endStamped (s : State) (w : Stamped) (outcome : Nat) : State :=
  if w.owner = 0 then { s with fab := { s.fab with stamped := s.fab.stamped.filter fun x => decide (x.id ≠ w.id) } }
  else s.modStamped w.id fun x => { x with outcome := outcome }
/-- An installation at the home slice, indivisible (R432), is an access to its line there (R185). -/
def State.install (s : State) (w : Stamped) : State :=
  let s := (s.noteLine w.cell { evp := 3 }).revoke (lineOf w.cell) (cellWords w.cell) none
  let old := bytesAt s.mem w.cell 16
  let s := s.homeWrite w.cell (leBytes w.stamp.toNat 8 ++ leBytes w.val.toNat 8 ++ old)
  s.endStamped w 1
/-- Order of installation: stamp, issuing die, arrival. -/
def Stamped.before (a b : Stamped) : Bool :=
  decide (a.stamp.toNat < b.stamp.toNat) ||
    (a.stamp = b.stamp && (decide (a.die < b.die) || (a.die = b.die && decide (a.order ≤ b.order))))
/-- A stamped store can still install: it has no outcome and its cap has not passed (R432). -/
def State.canInstall (s : State) (w : Stamped) : Bool := w.outcome = 0 && decide (s.now < w.since + s.cwcap)
/-- A pending store that its home installs now: the delivered horizon has reached its stamp, and its cap has not passed (R432). -/
def State.isDue (s : State) (home : Nat) (w : Stamped) : Bool :=
  w.arrived && s.canInstall w && dieOfKey w.cell = home && decide (w.stamp.toNat ≤ (s.die home).h.toNat)
/-- Pending stores of a home die are installed in order; a lease, a request that stands at the home slice or a held snoop on a cell's line
holds the rest back (R212, R405, R432). -/
def State.installAll (s : State) : List Stamped → State
  | [] => s
  | w :: ws => if s.lineTaken (lineOf w.cell) then s else (s.install w).installAll ws
def State.installDue (s : State) (home : Nat) : State :=
  s.installAll (sortBy Stamped.before (s.fab.stamped.filter (s.isDue home)))

/-- No stamp at or below t installs any more: the horizon has come to every live die, and no such store can still install (R258, R439). -/
def State.passed (s : State) (t : Nat) : Bool :=
  ((List.range 8).all fun d => (s.die d).dead || decide (t ≤ (s.die d).h.toNat))
    && !s.fab.stamped.any fun w => s.canInstall w && decide (w.stamp.toNat ≤ t)
/-- A CWAIT that was issued at a cycle ends: the horizon has passed its stamp, or its cap has (R439). -/
def State.cwaitEnds (s : State) (t : Word) (since : Nat) : Bool := s.passed t.toNat || decide (s.cwcap ≤ s.now - since)
/-- sD of a CWAIT that ends now: bit 63 is clear where the horizon passed the stamp before the cap (R439). -/
def State.cwaitWord (s : State) (t : Word) (since : Nat) : Word :=
  BitVec.ofNat 64 (Nat.min (s.now - since) (2 ^ 32 - 1) + if s.passed t.toNat && s.now - since ≤ s.cwcap then 0 else 2 ^ 63)
/-- The CWAITs whose wait is over take their result (R439). -/
def State.wakeCwaits (s : State) : State :=
  s.modGroups fun g => match g.wait with
    | .blocked .cwait _ t since => if s.cwaitEnds t since then { g with wait := .ready (s.cwaitWord t since) } else g
    | _ => g
/-- HORIZON_DELIVERY: the value reaches the die's slices and the die (R430). -/
def execHorizonDelivery (die : Nat) (s : State) : Res :=
  if 8 ≤ die then .next s
  else
    let s := s.modDie die fun d => { d with h := if d.h.toNat < s.hub.h.toNat then s.hub.h else d.h }
    .next (s.installDue die).wakeCwaits

/-! ## STSC and LDAS (R437, R438) -/

/-- The store a group has sent. -/
def State.myStamped (s : State) (uid : Nat) : Option Stamped := s.fab.stamped.find? fun w => w.owner = uid
/-- The measurement registers of a die after an STSC that waited from a cycle (R434). -/
def State.measure (s : State) (die since : Nat) (installed abandoned : Bool) : State :=
  let n := s.now - since
  let v := s.mrN (offTCWSTAT die)
  let c := s.mrN (offTCWCNT die)
  let s := s.setMr (offTCWSTAT die)
    (BitVec.ofNat 64 (Nat.min 65535 (Nat.max n (bits v 63 48)) * 2 ^ 48 + (bits v 47 0 + n) % 2 ^ 48))
  s.setMr (offTCWCNT die) (BitVec.ofNat 64
    (Nat.min 65535 (bits c 63 48 + if abandoned then 1 else 0) * 2 ^ 48 + (bits c 47 0 + if installed then 1 else 0) % 2 ^ 48))
/-- The store is sent with the die's L as its stamp, and the group is held. -/
def State.sendStamped (s : State) (a : LaneAcc) (val : Word) (since : Nat) : State :=
  let (id, s) := s.take
  let w : Stamped := {
    id := id, owner := s.g.uid, launch := s.g.launch, job := s.g.job, die := s.g.die, core := s.g.core, slot := s.g.slot
    secure := s.gSecure, addr := BitVec.ofInt 64 a.va, iaddr := s.g.pc, handle := if a.x.tgt = 2 then a.x.handle else 0
    ofs := a.x.ofs, stamp := s.lOf s.g.die, val := val, since := since }
  let home := s.exporterOf s.g.die a.x.handle
  let s := if a.x.tgt = 2 then (s.touchLink s.g.launch home).wakePair s.g.die home else s
  { s with fab := { s.fab with stamped := s.fab.stamped ++ [w] }, g := { s.g with wait := .held 1 since } }
/-- A held STSC ends when its store has an outcome. -/
def finishStsc (f : Fields) (w : Stamped) (s : State) : Out :=
  if w.isOpen then .wait s
  else
    let s := { s with fab := { s.fab with stamped := s.fab.stamped.filter fun x => decide (x.id ≠ w.id) } }
    let s := s.measure w.die w.since (w.outcome = 1) (w.outcome = 3)
    if w.outcome = 3 then .trap { cause := cTCAP, info := w.stamp.setWidth 32 } s
    else .done (s.putD f w.stamp).advance
/-- An STSC whose checks have passed waits for its release(), then sends its store (R437). -/
def stscSend (f : Fields) (x : Xl) (since : Nat) (s : State) : Out :=
  .wait (if s.storesOut s.g.uid then s.setG { s.g with wait := .sending x.tgt x.ofs x.handle since }
    else (s.flushCore s.g.die s.g.core).sendStamped ⟨0, (s.va f).toNat, x⟩ (s.vb f) since)
/-- STSC (R437): the checks are made once, before its release(). -/
def execStsc (f : Fields) (s : State) : Res :=
  issue .c false (dab f) f (fun s =>
    match s.myStamped s.g.uid, s.g.wait with
    | some w, _ => finishStsc f w s
    | none, .sending tgt ofs handle since => stscSend f ⟨tgt, ofs, handle, 0⟩ since s
    | none, _ =>
      match s.checkElem .rw 1 32 0 (s.va f).toNat with
      | .error r => .trap r s
      | .ok x =>
        if !s.joinedNow s.g.die then .trap { cause := cTWIDE, info := BitVec.ofNat 32 (s.widthWord s.g.die) } s
        else stscSend f x s.now (s.fillLane ⟨0, (s.va f).toNat, x⟩)) s
/-- STAMPED_STORE_ARRIVAL: the store waits at its home slice, or is refused, or an abandoned one is discarded (R403, R406, R432). -/
def execStampedStoreArrival (store : Nat) (s : State) : Res :=
  match s.fab.stamped.find? fun w => decide (w.id = store) with
  | none => .next s
  | some w =>
    if w.arrived || w.outcome ≠ 0 || (w.handle ≠ 0 && (s.die w.die).dead) then .next s
    else
      let home := s.exporterThen w.die w.handle w.gone
      let s := if w.handle = 0 then s else (s.fillHome w.die w.handle w.ofs w.secure).cross w.die home
      let place : Except FRec Nat :=
        if w.handle = 0 then .ok (memKey w.die w.ofs)
        else
          match s.storeHome w.die w.handle w.ofs .rw w.secure w.gone with
          | .ok (some k) => .ok k
          | .ok none => .error { cause := cRPERM, detail := cDEADDIE, info := BitVec.ofNat 32 w.handle }
          | .error r => .error r
      match place with
      | .ok k =>
        let (n, s) := s.take
        .next ((s.modStamped store fun x => { x with arrived := true, cell := k, order := n }).installDue (dieOfKey k)).wakeCwaits
      | .error r =>
        let r := s.launchRec w.launch { r with
          addr := w.addr, iaddr := w.iaddr, sdie := BitVec.ofNat 4 w.die, core := BitVec.ofNat 6 w.core
          slot := BitVec.ofNat 5 w.slot, imp := true }
        let s := (s.modStamped store fun x => { x with arrived := true }).endStamped w 2
        .next (s.refuse w.owner w.die w.launch home r).wakeCwaits
/-- COMMIT_WAIT_CAP: a store not installed CWCAP cycles after its STSC issued is abandoned (R432). -/
def execCommitWaitCap (store : Nat) (s : State) : Res :=
  match s.fab.stamped.find? fun w => decide (w.id = store) with
  | none => .next s
  | some w => .next (if w.isOpen && w.since + s.cwcap ≤ s.now then (s.endStamped w 3).wakeCwaits else s)

/-- The cell's four words, as installed at its home (R431). -/
def State.readCell (s : State) (k : Nat) : List Nat × State :=
  let s := (s.noteLine k { evp := 3 }).revoke (lineOf k) (cellWords k) none
  ((List.range 4).map fun i => rdLE s.mem (k + 8 * i) 8, s)
/-- What LDAS answers from a cell: sD and c[C]. -/
def asOf (cell : List Nat) (t : Nat) : Nat × Bool :=
  let cs := cell.getD 0 0
  let ps := cell.getD 2 0
  if cs ≤ t then (cell.getD 1 0, true) else if ps ≤ t then (cell.getD 3 0, true) else (Nat.min ps cs, false)
/-- D and C of LDAS. -/
def State.putDC (s : State) (f : Fields) (v : Nat) (c : Bool) : State :=
  s.setG ((s.g.put f.d (BitVec.ofNat 64 v)).put f.c (if c then 1 else 0))
/-- LDAS (R438). Its read waits at the home as a load's does (R405). -/
def execLdas (f : Fields) (s : State) : Res :=
  issue .c false (dab f) f (fun s =>
    let va : Int := (s.va f).toNat
    let t := (s.vb f).toNat
    match s.checkElem .r 2 32 0 va with
    | .error r => .trap r s
    | .ok x =>
      let a : LaneAcc := ⟨0, va, x⟩
      match s.poisonOf .r 32 a with
      | some r => .trap r s
      | none =>
        let answer (s : State) (k : Nat) : Out :=
          let (cell, s) := (s.fillLane a).readCell k
          let v := asOf cell t
          .done ((s.putDC f v.1 v.2).acqIf v.2).advance
        let home := memKey s.g.die x.ofs
        if x.tgt ≠ 2 then (if s.readHeld s.g.die (lineOf home) then .wait s.hold else answer s home)
        else if s.peerBusy 32 a || s.loadHeld 32 a then .wait s.hold
        else
          let s := s.touchPeer s.g.die s.g.launch (s.exporterOf s.g.die x.handle)
          match s.peerHome s.g.die x.handle x.ofs .r s.gSecure with
          | .ok (some k) => answer s k
          | .ok none => .done (s.putDC f 0 false).advance
          | .error r => .done (((s.fillLane a).refuseG a r).putDC f 0 false).advance) s

/-! ## CWAIT (R439) -/

/-- CWAIT: blocked with its stamp, from its issue cycle on. -/
def execCwait (f : Fields) (s : State) : Res :=
  issue .c false (dab f) f (fun s =>
    match s.g.wait with
    | .ready v => .done (s.putD f v).advance
    | w =>
      let since := match w with | .blocked .cwait _ _ c => c | _ => s.now
      let t := s.va f
      if s.cwaitEnds t since then .done (s.putD f (s.cwaitWord t since)).advance
      else .wait (s.block .cwait 0 t since)) s
/-- CWAIT_CAP. -/
def execCwaitCap (group : Nat) (s : State) : Res :=
  match s.group? group with
  | some g =>
    (match g.wait with
     | .blocked .cwait _ t since => .next (if s.cwcap ≤ s.now - since then s.wake group (s.cwaitWord t since) else s)
     | _ => .next s)
  | none => .next s

end Sys2Proof.Machine
end

