-- ==== Sys2Proof/Machine/Host.lean ====
section
/-! DEFINITION. Host queues, launches, completion, the host link, PTM (spec/33 R444-R452, spec/02 R27-R29, R46-R52, R464). -/

namespace Sys2Proof.Machine

/-! ## Queue registers (R444, R445) -/

/-- Fields of HQCTL. -/
def State.hqLog (s : State) (dev q : Nat) : Nat := bits (s.mrN (offHQ dev q 0x08)) 4 1
def State.hqVec (s : State) (dev q : Nat) : Nat := bits (s.mrN (offHQ dev q 0x08)) 15 10
def State.hqEn (s : State) (dev q : Nat) : Bool := bit (s.mrN (offHQ dev q 0x08)) 0
/-- HQTAIL_DOORBELL: an index outside the ring is ignored; the host reaches the register over the link. -/
def execHqtailDoorbell (dev queue : Nat) (v : Word) (s : State) : Res :=
  .next (if s.linkUp && dev < 8 && queue < 16 && v.toNat < 2 ^ s.hqLog dev queue then s.setMr (offHQ dev queue 0x10) v else s)
/-- HQCTL_WRITE. -/
def execHqctlWrite (dev queue : Nat) (v : Word) (s : State) : Res :=
  .next (if s.linkUp && dev < 8 && queue < 16 then s.setMr (offHQ dev queue 0x08) (v &&& 0xFC1F) else s)

/-! ## Launch headers (R27, R29, R46, R446, R464) -/

/-- Level of a source code (R28). -/
def srcLevel (c : Nat) : Nat :=
  if c = 1 then 0 else if c = 2 then 1 else if c ≤ 4 then 2 else if c = 5 then 3 else if c ≤ 9 then 4 else 5
/-- The fields of a layout word from one upward are well-formed, after one of a level; gap: a field of width 0 lies below. -/
def layoutFrom : List (Nat × Nat) → List Nat → Nat → Bool → Bool
  | [], _, _, _ => true
  | (w, c) :: fs, seen, lvl, gap =>
    w ≤ 32 && decide (w = 0 ↔ c = 0) && c ≤ 10 &&
      (if w = 0 then layoutFrom fs seen lvl true
       else !gap && !seen.contains c && lvl ≤ srcLevel c && layoutFrom fs (c :: seen) (srcLevel c) false)
/-- A layout word is valid (R29). -/
def layoutValid (v : Nat) : Bool :=
  let fs := (List.range 6).map fun k => (bits v (10 * k + 9) (10 * k + 4), bits v (10 * k + 3) (10 * k))
  bits v 63 60 = 0 && (fs.map (·.1)).sum ≤ 64 && layoutFrom fs [] 0 false

/-- Fields of a queue entry. -/
def entKind (e : Nat) : Nat := bits e 457 456
def entBody (e : Nat) : Nat := bits e 1023 512
/-- A record in an entry has a bit set that R308 has zero: above its fields, and in a task record those of a gang launch record. -/
def recReserved (kind r : Nat) : Bool := bits r 255 212 ≠ 0 || (kind = 0 && bits r 211 200 ≠ 0)
/-- An entry fails its own checks (R308, R446). A record with PRIO 12 to 15 does not: R446 lists no failure for it; it counts as level 11 (R21;
log entry 64). -/
def qEntryBad (dev e : Nat) : Bool :=
  bits e 191 0 ≠ 0 || bits e 511 460 ≠ 0 || entKind e = 3 ||
    (entKind e < 2 && (bits e 1023 768 ≠ 0 || recReserved (entKind e) (bits e 767 512)
      || (recDie (entBody e) ≠ 15 && recDie (entBody e) ≠ dev)))
/-- The class that admits exactly a reach's targets (R46, R184). -/
def reachCls (reach : Nat) : Nat := if reach = 0 then clsNormal else if reach = 1 then 1 else clsHuc
/-- The completion-word address passes its own checks; a fault of its translation at acceptance is no header error (R46). -/
def State.wordOk (s : State) (dev e : Nat) : Bool :=
  let a := bits e 383 320
  let reach := bits e 449 448
  reach ≠ 3 && a % 8 = 0 &&
    (match s.translate dev none (s.secure dev) .any (reachCls reach) a with
     | .error r => r.cause ≠ cCLASS
     | .ok _ => true)
/-- The header fails (R46). -/
def headerBad (wordOk : Bool) (e : Nat) : Bool := bit e 319 || !wordOk || bits e 447 384 % 65536 ≠ 0
/-- The launch of an entry. -/
def State.launchOf (s : State) (dev q e : Nat) (wordOk : Bool) : Launch := {
  dev := dev, queue := q, job := bits e 455 450, seq := BitVec.ofNat 64 (bits e 318 256), cwaddr := BitVec.ofNat 64 (bits e 383 320)
  reach := BitVec.ofNat 2 (bits e 449 448), stats := BitVec.ofNat 64 (bits e 447 384), layout := BitVec.ofNat 64 (bits e 255 192)
  irq := bit e 458, vec := s.hqVec dev q, noWord := !wordOk }

/-! ## Taking an entry (R411, R445-R447) -/

/-- Counters and dead flag of a job are zeroed at every point, when no launch of it is outstanding (R411). -/
def State.zeroJob (s : State) (job : Nat) : State :=
  if s.launches.any fun l => l.2.job = job then s
  else { s with hub := { s.hub with
    counts := s.hub.counts.filter fun c => decide (c.1 % 64 ≠ job)
    seenLost := kdel s.hub.seenLost job
    deadFlag := s.hub.deadFlag &&& ~~~(1#64 <<< job) } }
/-- A launch that is not started: one log entry, and its count of tasks is zero from the start (R44, R46, R464). -/
def State.refuseLaunch (s : State) (id : Nat) (l : Launch) (cause : BitVec 8) : State :=
  (s.logFail l.dev id (({ cause := cause } : FRec).ofLaunch l)).countZero id
/-- The card of a transfer breaks R358 or R447. -/
def State.transferBad (s : State) (card : Nat) : Bool := 2 < cardRout card || s.cardBad [32, 33] card
/-- A transfer's job on a host-facing engine (R447). -/
def transferJob (id : Nat) (l : Launch) (e : Nat) (at_ : Nat) : DillJob := {
  dev := l.dev, owner := 0, task := 0, launch := id, job := l.job, iaddr := 0, card := BitVec.ofNat 512 (entBody e)
  cardAddr := BitVec.ofNat 64 (at_ + 64), ticket := 0, transfer := some (bit e 459) }
/-- An accepted entry starts its launch, or is refused. engine: the one its transfer goes to. -/
def State.takeEntry (s : State) (dev q e at_ : Nat) (engine : Option Nat) : State :=
  let ok := s.wordOk dev e
  let l := s.launchOf dev q e ok
  let (id, s) := s.take
  let bad := qEntryBad dev e || !layoutValid (bits e 255 192)
  let s := if bad || headerBad ok e then s else s.zeroJob l.job
  let s := { s with launches := kset s.launches id l }
  if bad then s.refuseLaunch id l cLAYOUT
  else if headerBad ok e then s.refuseLaunch id l cCTARGET
  else if entKind e < 2 then s.sendRec 0 id l.job dev dev (BitVec.ofNat 256 (bits e 767 512)) (entKind e = 1)
  else
    match engine with
    | none => s.refuseLaunch id l cXJOB
    | some k =>
      ((s.modDill k fun d => { d with queue := d.queue ++ [transferJob id l e at_] }).countZero id).touch l.job
/-- QUEUE_ENTRY_FETCH: the next entry of a queue (R445); a transfer waits while neither host-facing engine takes jobs. -/
def execQueueEntryFetch (dev queue : Nat) (s : State) : Res :=
  let head := s.mrN (offHQ dev queue 0x18)
  if 8 ≤ dev || 16 ≤ queue || !s.hqEn dev queue || s.hqLog dev queue = 0 || head = s.mrN (offHQ dev queue 0x10)
      || !s.linkUp || !s.dieReady dev then .next s
  else
    let s := s.flushPosted
    let a := s.mrN (offHQ dev queue 0x00) + 128 * head
    let e := rdLE s.mem (hostKey a) 128
    let ks := [32, 33].filter fun k => s.routValid k (cardRout (entBody e))
    let engine := if s.transferBad (entBody e) then none else s.leastDill ks
    if entKind e = 2 && !s.transferBad (entBody e) && engine.isNone then .next s
    else
      let s := s.takeEntry dev queue e a engine
      .next (s.setMr (offHQ dev queue 0x18) (BitVec.ofNat 64 ((head + 1) % 2 ^ s.hqLog dev queue)))

/-! ## Completion (R47-R52) -/

/-- Steps 1 and 2 of R47 are met. -/
def Launch.settled (l : Launch) : Bool := l.outstanding = 0 && l.zeroWave.isSome && l.quiet
/-- Steps 3 and 4: no engine operation of the launch is incomplete, and its peer stores are acknowledged. -/
def State.opsDone (s : State) (launch : Nat) : Bool :=
  let mine (uid : Nat) : Bool := match s.group? uid with | some g => g.launch = launch | none => false
  !s.dills.any (fun e => e.2.queue.any fun j => j.launch = launch)
  && !s.cores.any (fun c => c.2.copies.any (fun x => mine x.owner) || c.2.mops.any fun m => mine m.owner)
  && !s.teams.any (fun t =>
      (match t.2.trav with | some x => x.launch = launch | none => false)
        || (match t.2.rtrav with | some x => x.launch = launch | none => false)
        || (match t.2.saved with | some e => e.mops.any fun m => mine m.owner | none => false))
  && !s.fab.stores.any (fun p => p.launch = launch) && !s.fab.graph.any (fun r => r.launch = launch)
/-- FLUSH_READ_COMPLETE: after steps 1 to 4, the flush read on a touched link completes: its posted writes are closed. Link 8
is the host's; while it is down its flush read counts as completed (R451). -/
def execFlushReadComplete (launch link : Nat) (s : State) : Res :=
  match s.launch? launch with
  | none => .next s
  | some l =>
    if !l.settled || !s.opsDone launch || !l.links.contains link then .next s
    else
      let s := if link = 8 then s.flushPosted else s
      .next (s.modLaunch launch fun l => { l with links := l.links.filter fun k => decide (k ≠ link) })

/-- CTARGET of a store that the hub die could not make (R49, R323). Of a store refused at its peer home DETAIL holds the home die's own cause, where
the spec says only the underlying cause (log entry 66). -/
def State.targetFault (s : State) (launch : Nat) (l : Launch) (cause : BitVec 8) (info : Nat) : State :=
  s.logFail l.dev launch (({ cause := cCTARGET, detail := cause, info := BitVec.ofNat 32 info } : FRec).ofLaunch l)
/-- A store of the hub die to a place; nothing is written at a dead launch's own die (R406). -/
def State.hubStore (s : State) (launch : Nat) (l : Launch) (p : Place) (info : Nat) (bs : List Byte) : State :=
  match p with
  | .fault c => s.targetFault launch l c info
  | .refused h r => (s.log (s.exporterOf l.dev h) (r.ofLaunch l)).targetFault launch l r.detail info
  | .home k => if l.dead && dieOfKey k = l.dev then s else s.homeWrite k bs
  | .host a => s.postHost { dev := l.dev, job := l.job, addr := a, bytes := bs, launch := launch }
/-- A store of the hub die to a place waits at the home slice: a lease, an earlier request or a held snoop stands on its line (R236). -/
def State.hubHeld (s : State) (p : Place) (n : Nat) : Bool := match p with | .home k => (linesOf k n).any s.lineTaken | _ => false
/-- A translated store's place. -/
def State.hubPlace (s : State) (l : Launch) (n : Nat) (x : Except FRec Xl) : Place :=
  match x with
  | .ok x => s.placeOf l.dev (s.secure l.dev) true n (x.tgt, x.ofs, x.handle)
  | .error r => .fault r.cause
/-- The 16 bytes of a statistics record, each count clamped (R144). -/
def statRecord (c : Stat) : List Byte :=
  let m (n : Nat) : Nat := Nat.min n (2 ^ 32 - 1)
  leBytes (m c.sat) 4 ++ leBytes (m c.flush) 4 ++ leBytes (m c.nan) 4 ++ leBytes 0 4
/-- Where the statistics record of an identifier goes (R144). -/
def State.statPlace (s : State) (l : Launch) (tid : Nat) : Place :=
  s.hubPlace l 16 (s.translateAny l.dev (s.secure l.dev) .w (l.stats.toNat + 16 * tid : Nat))
/-- The TLBs that such a store fills (R181). -/
def State.hubFill (s : State) (l : Launch) (va : Nat) (x : Except FRec Xl) : State :=
  match x with | .ok x => s.fillXl l.dev none (s.secure l.dev) va x | .error _ => s
/-- Step 6: the statistics records (R144, R49). -/
def State.writeStats (s : State) (launch : Nat) (l : Launch) : State :=
  if l.stats = 0 then s else l.stat.foldl (fun s e =>
    (s.hubFill l (l.stats.toNat + 16 * e.1) (s.translateAny l.dev (s.secure l.dev) .w (l.stats.toNat + 16 * e.1 : Nat))).hubStore launch l
      (s.statPlace l e.1) 1 (statRecord e.2)) s
/-- The completion value (R48). -/
def Launch.value (l : Launch) : Nat := l.seq.toNat % 2 ^ 63 + if l.failed then 2 ^ 63 else 0
/-- Where the completion word goes, its address translated afresh (R46, R49). -/
def State.wordPlace (s : State) (l : Launch) : Place :=
  s.hubPlace l 8 (s.translate l.dev none (s.secure l.dev) .w (reachCls l.reach.toNat) l.cwaddr.toNat)
/-- No completion word is written (R46, R52). -/
def Launch.wordless (l : Launch) : Bool := l.noWord || (l.reach = 2 && l.cut)
/-- The completion store (R46, R49, R52). -/
def State.writeWord (s : State) (launch : Nat) (l : Launch) : State :=
  if l.wordless then s
  else
    (s.hubFill l l.cwaddr.toNat (s.translate l.dev none (s.secure l.dev) .w (reachCls l.reach.toNat) l.cwaddr.toNat)).hubStore launch l
      (s.wordPlace l) 0 (leBytes l.value 8)
/-- A store of the completion waits behind a lease or a request at its home slice (R236). -/
def State.completionHeld (s : State) (l : Launch) : Bool :=
  (l.stats ≠ 0 && l.stat.any fun e => s.hubHeld (s.statPlace l e.1) 16) || (!l.wordless && s.hubHeld (s.wordPlace l) 8)
/-- LAUNCH_COMPLETE: the six steps hold; statistics, the completion word, then MSI-X (R47, R448, R451). -/
def execLaunchComplete (launch : Nat) (s : State) : Res :=
  match s.launch? launch with
  | none => .next s
  | some l =>
    if !l.settled || (!l.dead && (!s.opsDone launch || !l.links.isEmpty)) || s.completionHeld l then .next s
    else
      let s := s.writeStats launch l
      let l := (s.launch? launch).getD l
      let s := s.writeWord launch l
      let s := if l.irq && !l.cut then s.postMsix l.dev l.job launch l.vec else s
      .next { s with launches := kdel s.launches launch }

/-! ## The link and time (R449-R452) -/

/-- A change of a readiness register sends MSI-X vector 63 (R456). -/
def State.setReady (s : State) (off i : Nat) (b : Bool) : State :=
  if (s.mr off).getLsbD i = b then s else (s.mrBit off i b).postMsix 8 64 0 63
/-- LINK_DOWN: what is not yet sent is discarded, queues are disabled, flush reads count as completed (R450, R451). -/
def execLinkDown (s : State) : Res :=
  if !s.linkUp then .next s
  else
    let v := s.mrN offHLSTAT
    let s := s.setMr offHLSTAT (BitVec.ofNat 64 ((v / 2 ^ 32 + 1) % 2 ^ 32 * 2 ^ 32))
    let s := s.setReady offRDYSTAT 0 false
    let lost := s.fab.posted
    let s := { s with fab := { s.fab with posted := [] } }
    let s := lost.foldl (fun s p => if p.bytes.isEmpty then s else s.discardPosted p.dev p.job p.launch) s
    let s := (List.range 128).foldl (fun s i =>
      if s.hqEn (i / 16) (i % 16) then s.mrBit (offHQ (i / 16) (i % 16) 0x08) 0 false else s) s
    .next { s with launches := s.launches.map fun (l : Nat × Launch) =>
      (l.1, { l.2 with cut := true, links := l.2.links.filter fun k => decide (k ≠ 8) }) }
/-- LINK_UP: the link trains at a width, log2 of its lanes; queues stay disabled (R442, R450, R452). -/
def execLinkUp (width : BitVec 4) (s : State) : Res :=
  if 4 < width.toNat then .next s
  else
    let v := s.mrN offHLSTAT
    let s := s.setMr offHLSTAT (BitVec.ofNat 64 (v / 2 ^ 32 * 2 ^ 32 + width.toNat * 16 + 1))
    .next (s.setReady offRDYSTAT 0 true)
/-- PTM_EXCHANGE: the counter is never stepped; its rate turns towards the host's time by at most 100 ppm (R426, R449). -/
def execPtmExchange (ns : Nat) (s : State) : Res :=
  if !s.linkUp then .next s
  else
    let t := s.thyme
    let d : Int := (ns : Int) - t.toNat
    let rate : Int := if d < -100 then -100 else if 100 < d then 100 else d
    .next { s with hub := { s.hub with thyme := t, thymeAt := s.now, rate := rate } }

end Sys2Proof.Machine
end

