-- ==== Sys2Proof/Machine/Signature.lean ====
section
/-! DEFINITION. Verification of ML-DSA-65 signatures, as FIPS 204 has it (spec/34 R459, which names that standard for it): ring arithmetic,
decoding of keys and signatures, expansion of the matrix and of the challenge, and the verification itself. -/

namespace Sys2Proof.Machine

/-! ## Numbers modulo q and polynomials of 256 coefficients -/

/-- The modulus. -/
def dsaQ : Nat := 8380417
/-- A power of the root of unity 1753, whose order is 512. -/
def dsaRoot (e : Nat) : Nat := 1753 ^ (e % 512) % dsaQ
/-- The bits of a byte in reverse order. -/
def bitRev8 (m : Nat) : Nat := (List.range 8).foldl (fun a i => 2 * a + m / 2 ^ i % 2) 0
/-- Coefficient by coefficient. -/
def polyAdd (a b : List Nat) : List Nat := (a.zip b).map fun x => (x.1 + x.2) % dsaQ
def polySub (a b : List Nat) : List Nat := (a.zip b).map fun x => (x.1 + dsaQ - x.2) % dsaQ
def polyMul (a b : List Nat) : List Nat := (a.zip b).map fun x => x.1 * x.2 % dsaQ
def polyScale (z : Nat) (a : List Nat) : List Nat := a.map fun x => z * x % dsaQ
/-- The number-theoretic transform below node m of its tree, for the given depth. -/
def nttFrom : Nat → Nat → List Nat → List Nat
  | 0, _, a => a
  | d + 1, m, a =>
    let lo := a.take (2 ^ d)
    let t := polyScale (dsaRoot (bitRev8 m)) (a.drop (2 ^ d))
    nttFrom d (2 * m) (polyAdd lo t) ++ nttFrom d (2 * m + 1) (polySub lo t)
def ntt (a : List Nat) : List Nat := nttFrom 8 1 a
/-- Its inverse below a node, without the factor 256. -/
def nttBack : Nat → Nat → List Nat → List Nat
  | 0, _, a => a
  | d + 1, m, a =>
    let lo := nttBack d (2 * m) (a.take (2 ^ d))
    let hi := nttBack d (2 * m + 1) (a.drop (2 ^ d))
    polyAdd lo hi ++ polyScale (dsaRoot (512 - bitRev8 m)) (polySub lo hi)
def nttInv (a : List Nat) : List Nat := polyScale 8347681 (nttBack 8 1 a)

/-! ## Decoding and expansion -/

/-- n numbers of w bits from bytes, the least significant bit first. -/
def unpackBits (w n : Nat) (bs : List Byte) : List Nat :=
  let v := leVal bs
  (List.range n).map fun i => v / 2 ^ (w * i) % 2 ^ w
/-- A public key: its seed and its six polynomials of high parts. -/
def dsaKey (key : List Byte) : List Byte × List (List Nat) :=
  (key.take 32, (List.range 6).map fun i => unpackBits 10 256 ((key.drop (32 + 320 * i)).take 320))
/-- Hints of row i: places from one index up to another, rising. -/
def hintRow (y : List Nat) (first stop : Nat) : Option (List Nat) :=
  let ps := (y.take stop).drop first
  if ps.length = stop - first && (ps.zip (ps.drop 1)).all fun p => decide (p.1 < p.2) then some ps else none
/-- The hints of the rows, up to 55 places in all; none for an encoding that is not the one of any hints. -/
def hintRows (y : List Nat) : Nat → Nat → Option (List (List Nat))
  | 0, first => if ((y.take 55).drop first).all (· = 0) then some [] else none
  | n + 1, first =>
    let stop := y.getD (55 + (5 - n)) 0
    if stop < first || 55 < stop then none
    else (hintRow y first stop).bind fun r => (hintRows y n stop).map fun rs => r :: rs
/-- A signature: the challenge's hash, five polynomials of responses, the hints. -/
def dsaSignature (sig : List Byte) : Option (List Byte × List (List Int) × List (List Nat)) :=
  let z := (List.range 5).map fun i => (unpackBits 20 256 ((sig.drop (48 + 640 * i)).take 640)).map fun (v : Nat) => (524288 : Int) - (v : Int)
  (hintRows (((sig.drop 3248).take 61).map (·.toNat)) 6 0).map fun h => (sig.take 48, z, h)

/-- Coefficients below q from three bytes each, 23 bits of them. -/
def rejectQ : List Byte → List Nat
  | a :: b :: c :: bs =>
    let v := a.toNat + 256 * b.toNat + 65536 * (c.toNat % 128)
    if v < dsaQ then v :: rejectQ bs else rejectQ bs
  | _ => []
/-- A polynomial of the matrix, in the transform's domain; 1,344 bytes hold 256 coefficients but with a chance that no seed is known for. -/
def dsaMatrix (seed : List Byte) (row col : Nat) : List Nat :=
  (rejectQ (shake128Of 1344 (seed ++ [BitVec.ofNat 8 col, BitVec.ofNat 8 row]))).take 256
/-- The 49 swaps that make the challenge: i the place, from the bytes the first that is no higher than it. -/
def ballSwaps (signs : Nat) : Nat → List Byte → List Int → List Int
  | 0, _, c => c
  | n + 1, bs, c =>
    let i := 256 - (n + 1)
    match bs.dropWhile fun b => decide (i < b.toNat) with
    | b :: rest =>
      let c := c.set i (c.getD b.toNat 0)
      ballSwaps signs n rest (c.set b.toNat (if bit signs (49 - (n + 1)) then -1 else 1))
    | [] => c
/-- The challenge of a hash: 49 coefficients 1 or -1. -/
def sampleInBall (seed : List Byte) : List Int :=
  let bs := shake256Of 544 seed
  ballSwaps (leVal (bs.take 8)) 49 (bs.drop 8) (List.replicate 256 0)

/-! ## Verification -/

/-- The high part of a coefficient, corrected by its hint. -/
def useHint (h : Bool) (r : Nat) : Nat :=
  let r0 : Int := let m : Int := r % 523776; if 261888 < m then m - 523776 else m
  let wrapTop := (r : Int) - r0 = dsaQ - 1
  let r1 : Nat := if wrapTop then 0 else (((r : Int) - r0) / 523776).toNat
  let r0 := if wrapTop then r0 - 1 else r0
  if !h then r1 else if 0 < r0 then (r1 + 1) % 16 else (r1 + 15) % 16
/-- A coefficient modulo q. -/
def modQ (x : Int) : Nat := (x % dsaQ).toNat
/-- FIPS 204's verification of an ML-DSA-65 signature of a message under a key, with an empty context (log entry 59). -/
def mlDsa65 (key message signature : List Byte) : Bool :=
  if key.length ≠ 1952 || signature.length ≠ 3309 then false
  else
    let (seed, t1) := dsaKey key
    match dsaSignature signature with
    | none => false
    | some (hash, z, hints) =>
      let mu := shake256Of 64 (shake256Of 64 key ++ [0, 0] ++ message)
      let c := ntt ((sampleInBall hash).map modQ)
      let zs := z.map fun p => ntt (p.map modQ)
      let w := (List.range 6).map fun i =>
        let az := ((List.range 5).map fun j => polyMul (dsaMatrix seed i j) (zs.getD j [])).foldl polyAdd (List.replicate 256 0)
        let ct := polyMul c (ntt ((t1.getD i []).map fun x => x * 8192 % dsaQ))
        let h := hints.getD i []
        ((nttInv (polySub az ct)).zipIdx).map fun r => useHint (h.contains r.2) r.1
      let packed := w.flatMap fun p => leBytes ((p.zipIdx).foldl (fun v x => v + x.1 * 16 ^ x.2) 0) 128
      (z.all fun p => p.all fun x => decide (x.natAbs < 524288 - 196)) && shake256Of 48 (mu ++ packed) = hash

end Sys2Proof.Machine
end

