-- ==== Sys2Proof/Machine/Platform.lean ====
section
/-! DEFINITION. The management register space, readiness, worlds, firmware, measurement, power (spec/34 R454-R463, spec/01 R12,
spec/09 R139, R142, spec/12 R188, R189, spec/13 R214, spec/20 R316, spec/24 R351, spec/29 R404, spec/30 R428). -/

namespace Sys2Proof.Machine

/-! ## Windows and ranges -/

/-- First and last page of a range register. -/
def rngBase (v : Word) : Nat := bits v.toNat 22 0
def rngLimit (v : Word) : Nat := bits v.toNat 45 23
/-- A line lies in the pages of a range register of a die. -/
def lineIn (die : Nat) (v : Word) (line : Nat) : Bool :=
  dieOfKey (128 * line) = die && rngBase v ≤ 128 * line % 2 ^ 35 / 4096 && 128 * line % 2 ^ 35 / 4096 ≤ rngLimit v
/-- Bits of the range registers, of FWCTL and of RRCTL that software writes. -/
def rngMask : Word := 0x3FFFFFFFFFFF
def fwctlMask : Word := 0xFFFFFFF3F
def rrctlMask : Word := 0xFFFF01
/-- Bytes of the scale region of a window (R131, R140). -/
def scaleBytes (fmt pages : Nat) : Nat := 4 * (((4096 * pages + blockBytes fmt - 1) / blockBytes fmt + 2) / 3)
/-- A write that sets EN of a window takes effect (R139). -/
def windowOk (rng ctl : Word) : Bool :=
  let fmt := bits ctl.toNat 5 1
  let sb := bits ctl.toNat 35 8 * 128
  let lo := 4096 * rngBase rng
  let hi := 4096 * (rngLimit rng + 1)
  11 ≤ fmt && fmt ≤ 15 && rngBase rng ≤ rngLimit rng &&
    (hi ≤ sb || sb + scaleBytes fmt (rngLimit rng + 1 - rngBase rng) ≤ lo)
/-- Lines of a die's range that its caches hold, its L1s among them, or that carry a sidecar. -/
def State.rangeLines (s : State) (die : Nat) (v : Word) : List Nat :=
  let here (t : Table CLine) : List Nat := (t.filter fun e => decide (e.1 / 2 ^ 32 = die)).map fun e => e.1 % 2 ^ 32
  let near := (s.cores.filter fun c => decide (c.1 / 64 = die)).flatMap fun c => c.2.l1.map (·.1)
  ((here s.cache.l2 ++ here s.cache.llc ++ near ++ s.side.map (·.1)).filter (lineIn die v)).eraseDups
/-- Lines of a die's range are written back, with what cores own of them, and leave the stacked cache and the L2, with their sidecars
(R142). -/
def State.dropRange (s : State) (die : Nat) (v : Word) : State := (s.rangeLines die v).foldl (fun s l => s.evictFrom die l) s
/-- A cached line of a range is taken at its home slice, so that it cannot leave yet (R212). -/
def State.rangeTaken (s : State) (die : Nat) (v : Word) : Bool := (s.rangeLines die v).any s.lineTaken
/-- FORMAT_WINDOW_WRITE: the lines of the old and the new range are invalidated, then the write takes effect (R139, R142). While such a line
is leased the write waits: it has not happened yet (R212; log entry 14). Of a write that sets EN and fails a condition R139 says only that EN
reads 0: the model stores its FMT and SBASE (log entry 66). -/
def execFormatWindowWrite (die window : Nat) (ctl : Bool) (v : Word) (s : State) : Res :=
  if 8 ≤ die || 16 ≤ window then .next s
  else
    let old := s.mr (offFWRNG die window)
    if s.rangeTaken die old || (!ctl && s.rangeTaken die (v &&& rngMask)) then .next s
    else if ctl then
      let v := v &&& fwctlMask
      let v := if v.getLsbD 0 && !windowOk old v then v &&& ~~~1#64 else v
      .next ((s.dropRange die old).setMr (offFWCTL die window) v)
    else
      let v := v &&& rngMask
      .next (((s.dropRange die old).dropRange die v).setMr (offFWRNG die window) v)

/-- Ways that enabled ranges of a die reserve, one range given its own value (R189). -/
def State.waysOf (s : State) (die range : Nat) (v : Word) (hi lo : Nat) : Nat :=
  ((List.range 8).map fun r =>
    let c := if r = range then v else s.mr (offRRCTL die r)
    if c.getLsbD 0 then bits c.toNat hi lo else 0).sum
/-- Lines of a die that stand in reserved ways leave them where a test says so, and fall to level 6 if they stand above it (R189, R260). -/
def State.lowerWays (s : State) (die : Nat) (p : Level → Nat → Nat → Bool) : State :=
  let low (v : Level) (t : Table CLine) : Table CLine := t.map fun e =>
    match e.2.way with
    | some r => if e.1 / 2 ^ 32 = die && p v r (128 * (e.1 % 2 ^ 32)) then (e.1, { e.2 with level := Nat.min 6 e.2.level, way := none }) else e
    | none => e
  { s with cache := { s.cache with l2 := low .l2 s.cache.l2, llc := low .llc s.cache.llc } }
/-- The lines of a range release its ways (R189). -/
def State.lowerRange (s : State) (die range : Nat) : State := s.lowerWays die fun _ r _ => r = range
/-- After a write, lines that another range governs now, or none, leave the ways they stand in, and of the lines outside every range those leave
the caches that no open way holds any more (R189). -/
def State.settleWays (s : State) (die : Nat) : State :=
  ((s.lowerWays die fun v r k => s.wayOf v k ≠ some r).trimLevel .l2 die).trimLevel .llc die
/-- RESIDENCY_RANGE_WRITE: the lines of the range release its ways first; an enabled range takes its ways from the lines that stand in them
(R189). -/
def execResidencyRangeWrite (die range : Nat) (ctl : Bool) (v : Word) (s : State) : Res :=
  if 8 ≤ die || 8 ≤ range then .next s
  else
    let s := s.lowerRange die range
    if ctl then
      let v := v &&& rrctlMask
      let r := s.mr (offRRNG die range)
      let ok := rngBase r ≤ rngLimit r && s.waysOf die range v 15 12 ≤ 8 && s.waysOf die range v 11 8 ≤ 8
      .next ((s.setMr (offRRCTL die range) (if v.getLsbD 0 && !ok then v &&& ~~~1#64 else v)).settleWays die)
    else .next ((s.setMr (offRRNG die range) (v &&& rngMask)).settleWays die)

/-- CMPCFG_WRITE: ignored while the die is ready (R463). -/
def execCmpcfgWrite (die : Nat) (v : Word) (s : State) : Res :=
  .next (if 8 ≤ die || s.dieReady die then s else s.setMr (offCMPCFG die) (v &&& 0xFFF800001))

/-! ## Worlds (R457) -/

/-- WORLD_REGISTER_WRITE: only the Bilbotum complex's takes effect; it reads back at once. -/
def execWorldRegisterWrite (reg : Nat) (v : Word) (host : Bool) (s : State) : Res :=
  .next (if host || 2 < reg then s
    else s.setMr (offWLD reg) (if reg = 0 then v &&& 0x3FFFFFFFFFF else if reg = 2 then v &&& 0xFFFF else v))
/-- The Dill engine of a block. -/
def engineOf (block : Nat) : Nat := if block < 10 then 32 + block - 8 else block - 10
/-- A core belongs to the beam engine cluster of a block. -/
def inCluster (block die core : Nat) : Bool := decide (die = (block - 42) / 10) && decide (core / 4 = (block - 42) % 10)
/-- A block is idle. -/
def State.blockIdle (s : State) (block : Nat) : Bool :=
  if block < 8 then !s.gangs.any fun k => k.2.die = block
  else if block < 42 then (s.dill (engineOf block)).queue.isEmpty
  else !s.teams.any fun t => inCluster block t.2.die t.2.core && (t.2.trav.isSome || t.2.rtrav.isSome)
/-- A gang holds its place: it is neither saved nor queued for restore, so that its pools are its cluster's and not its image's. -/
def State.holdsPlace (s : State) (gang : Nat) : Bool :=
  match s.gang? gang with | some k => decide (k.life ≠ .saved) && decide (k.life ≠ .restoring) | none => true
/-- The state of a block that a change of its world zeroes: accumulators of a die (no group, window or pool of an idle die stands), stream
buffers and registers of an engine, beam pools of a cluster (R457). -/
def State.zeroBlock (s : State) (block : Nat) : State :=
  if block < 8 then
    { s with cores := s.cores.map fun (c : Nat × Core) =>
        if c.1 / 64 = block then (c.1, { c.2 with acc := [], bands := 0, slices := [] }) else c }
  else if block < 42 then s.modDill (engineOf block) fun d => { d with stream := [], rv := {} }
  else { s with teams := s.teams.map fun (t : Nat × Team) =>
      if inCluster block t.2.die t.2.core && s.holdsPlace (t.1 / 32) then (t.1, { t.2 with pool := [], doneOrder := [] }) else t }
/-- A bit of a vector becomes b. -/
def setBitTo {w : Nat} (v : BitVec w) (i : Nat) (b : Bool) : BitVec w := if b then v ||| ((1 : BitVec w) <<< i) else v &&& ~~~((1 : BitVec w) <<< i)
/-- A block belongs to a world. -/
def State.putWorld (s : State) (block : Nat) (b : Bool) : State :=
  if block < 8 then s.modDie block fun d => { d with world := setBitTo d.world 0 b }
  else if block < 10 then { s with hub := { s.hub with world := setBitTo s.hub.world (block - 8) b } }
  else if block < 42 then s.modDie ((block - 10) / 4) fun d => { d with world := setBitTo d.world (1 + (block - 10) % 4) b }
  else s.modDie ((block - 42) / 10) fun d => { d with world := setBitTo d.world (5 + (block - 42) % 10) b }
/-- WORLD_CHANGE_EFFECT: an idle block with a change pending is zeroed, and its new world governs. -/
def execWorldChangeEffect (block : Nat) (s : State) : Res :=
  .next (if block < 122 && s.worldPending block && s.blockIdle block then
    (s.zeroBlock block).putWorld block (s.worldWritten block) else s)

/-! ## Register accesses (R454) -/

/-- The registers of the space, by the way a write acts. -/
inductive RegKind where
  | none | ro
  | plain (mask : Word)
  | world (reg : Nat)
  | region
  | fabcfg | tmcfg | lscfg | lvbud
  | window (die w : Nat) (ctl : Bool)
  | range (die r : Nat) (ctl : Bool)
  | cmpcfg (die : Nat)
  | dxrt (engine entry : Nat)
  | hqbase | hqctl (dev q : Nat) | hqtail (dev q : Nat)
  deriving DecidableEq, Repr

/-- Layout of the table registers: BASE [56:12] and EN. -/
def tableMask : Word := 0x01FFFFFFFFFFF001
/-- A hub register. -/
def hubKind (o : Nat) : RegKind :=
  if o = 0x000 || o = 0x008 || o = 0x028 || o = 0x040 || o = 0x050 || (0x100 ≤ o && o < 0x200) then .ro
  else if 0x010 ≤ o && o ≤ 0x020 then .world ((o - 0x010) / 8)
  else if o = 0x030 then .fabcfg else if o = 0x038 then .tmcfg
  else if o = 0x048 then .plain 0xFFFF
  else if 0x800 ≤ o && o < 0xC00 then .dxrt (32 + (o - 0x800) / 0x200) (o % 0x200 / 8)
  else .none
/-- A register of a logical device. A SAVEBASE written with low address bits set holds them as zero (R462; DESIGN CHOICE, log entry 50). -/
def devKind (o : Nat) : RegKind :=
  if o = 0x000 then .plain 0x7FFFFF001 else if o = 0x008 then .plain 0xE1FFFFFFFFFFFFFF
  else if o = 0x010 || o = 0x018 || o = 0x020 || o = 0x028 then .plain tableMask
  else if o = 0x030 then .plain 0xFFFFFFFFFFFFFF00 else if o = 0x038 then .plain (BitVec.allOnes 64)
  else if 0x100 ≤ o && o < 0x300 then .region
  else if 0x400 ≤ o && o < 0x600 then .ro
  else .none
/-- A register of a compute die. -/
def dieKind (d o : Nat) : RegKind :=
  if o < 0x100 then .window d (o / 0x10) (o % 0x10 = 8)
  else if o < 0x180 then .range d ((o - 0x100) / 0x10) (o % 0x10 = 8)
  else if o = 0x180 then .lscfg else if o = 0x188 then .plain 0xF else if o = 0x190 then .lvbud
  else if o = 0x198 then .plain 0xFFFFFFFFFFFF0000
  else if o = 0x1A0 || o = 0x1A8 || o = 0x1B0 then .plain (BitVec.allOnes 64)
  else if o = 0x1B8 || o = 0x1C0 || o = 0x1C8 then .ro
  else if o = 0x1D0 then .cmpcfg d
  else if 0x800 ≤ o && o < 0x1000 then .dxrt (4 * d + (o - 0x800) / 0x200) (o % 0x200 / 8)
  else .none
/-- A host-queue register. -/
def hqKind (dev q o : Nat) : RegKind :=
  if o = 0x00 then .hqbase else if o = 0x08 then .hqctl dev q else if o = 0x10 then .hqtail dev q
  else if o = 0x18 then .ro else .none
/-- The register at an offset of BAR0 (R443, R444, R454). -/
def regKind (off : Nat) : RegKind :=
  if off % 8 ≠ 0 then .none
  else if off < 0x1000 then hubKind off
  else if 0x10000 ≤ off && off < 0x18000 then devKind (off % 0x1000)
  else if 0x100000 ≤ off && off < 0x180000 then dieKind ((off - 0x100000) / 0x10000) (off % 0x10000)
  else if 0x1000000 ≤ off && off < 0x1080000 then hqKind ((off - 0x1000000) / 0x10000) (off % 0x10000 / 0x1000) (off % 0x1000)
  else .none
/-- A read of the space: an offset that holds no register reads zero; CHG is what stands now (R316, R454). -/
def State.mgmtRead (s : State) (off : Nat) : Word :=
  match regKind off with
  | .none => 0
  | .lvbud => BitVec.ofNat 64 (s.charges ((off - 0x100000) / 0x10000) % 2 ^ 32 * 2 ^ 32 + s.mrN off % 2 ^ 32)
  | _ => s.mr off
/-- FABCFG and TMCFG as stored (R404, R428). -/
def fabcfgOf (v : Nat) : Nat := Nat.max 10 (bits v 47 32) * 2 ^ 32 + bits v 31 16 * 2 ^ 16 + Nat.max 500 (bits v 15 0)
def tmcfgOf (v : Nat) : Nat := Nat.max 1024 (bits v 31 16) * 2 ^ 16 + Nat.max 50 (bits v 15 0)
/-- LSCFG as stored (R214). -/
def lscfgOf (v : Nat) : Nat := if v % 2 ^ 13 = 0 || 4096 < v % 2 ^ 13 then 4096 else v % 2 ^ 13
/-- REGISTER_WRITE: a write of 8 bytes at an offset of BAR0, by the host across the link or by the Bilbotum complex. An HQBASE written with
low address bits set holds them as zero (R444; DESIGN CHOICE, log entry 50). -/
def execRegisterWrite (off : Nat) (v : Word) (host : Bool) (s : State) : Res :=
  if host && !s.linkUp then .next s
  else
    match regKind off with
    | .none | .ro => .next s
    | .plain m => .next (s.setMr off (v &&& m))
    | .world r => execWorldRegisterWrite r v host s
    | .region => .next (if host then s else s.setMr off (v &&& 0xC0003FFFFFFFFFFF))
    | .fabcfg => .next (s.setMr off (BitVec.ofNat 64 (fabcfgOf v.toNat)))
    | .tmcfg => .next ((s.refreshJoined.setMr off (BitVec.ofNat 64 (tmcfgOf v.toNat))).refreshJoined)
    | .lscfg => .next (s.setMr off (BitVec.ofNat 64 (lscfgOf v.toNat)))
    | .lvbud => .next (s.setMr off (v &&& 0xFFFFFFFF))
    | .window d w ctl => execFormatWindowWrite d w ctl v s
    | .range d r ctl => execResidencyRangeWrite d r ctl v s
    | .cmpcfg d => execCmpcfgWrite d v s
    | .dxrt k e => execDxrtWrite k false e v s
    | .hqbase => .next (if host then s.setMr off (v &&& ~~~0x7F#64) else s)
    | .hqctl d q => if host then execHqctlWrite d q v s else .next s
    | .hqtail d q => if host then execHqtailDoorbell d q v s else .next s

/-! ## Readiness and reset (R12, R455, R456) -/

/-- The compute die that a readiness bit belongs to. -/
def readyDie (mem : Bool) (i : Nat) : Option Nat :=
  if mem then some (i / 8) else if 2 ≤ i && i < 10 then some (i - 2) else if 12 ≤ i && i < 44 then some ((i - 12) / 4) else none
/-- The Dill engine that a bit of RDYSTAT belongs to. -/
def readyEngine (mem : Bool) (i : Nat) : Option Nat :=
  if mem then none else if 10 ≤ i && i < 12 then some (32 + (i - 10)) else if 12 ≤ i && i < 44 then some (i - 12) else none
/-- At bring-up firmware sets entries 0 to 3 of an engine's routine table: V, OFS and LEN (R351; log entry 28). -/
def State.firmwareEntries (s : State) (k : Nat) : State :=
  (List.range 4).foldl (fun s i => s.setMr (offDXRT k i) (0x8000000000000000#64 ||| (Config.firmwareRoutine k i &&& 0xFFFF3FFF#64))) s
/-- FUNCTION_READY: a bit of RDYMEM, or of RDYSTAT's DIE, HDILL and DILL, changes; those of a dead die stay clear. An engine that becomes
ready has its firmware routines (R351, R455). -/
def execFunctionReady (mem : Bool) (bit : Nat) (up : Bool) (s : State) : Res :=
  let known := if mem then bit < 64 else 2 ≤ bit && bit < 44
  let dead := match readyDie mem bit with | some d => (s.die d).dead | none => false
  let s' := match readyEngine mem bit with | some k => if up then s.firmwareEntries k else s | none => s
  .next (if known && !(up && dead) then s'.setReady (if mem then offRDYMEM else offRDYSTAT) bit up else s)

/-- What a die's reset leaves of the traffic: the die's stores and queues are gone, with the messages that await injection at its cores. A
stamped store that has left the die stands where it is; one that waited at the die's slices is lost (R12, R432). -/
def State.resetTraffic (s : State) (die : Nat) : State :=
  let dead := (s.die die).dead
  { s with fab := { s.fab with
      recs := s.fab.recs.filter fun r => !(r.fromDie = die && r.toDie = die && r.owner ≠ 0)
      graph := s.fab.graph.filter fun r => !(r.die = die && !r.remote)
      msgs := s.fab.msgs.filter fun m => !(m.die = die && (m.arrived || m.sdev = die)) && !(m.sdev = die && !m.injected && !m.arrived)
      stores := s.fab.stores.filter fun p => !(p.dev = die && dead)
      stamped := (s.fab.stamped.filter fun w =>
          decide (w.die ≠ die) || (w.arrived && w.outcome = 0 && decide (dieOfKey w.cell ≠ die)) || (!w.arrived && w.handle ≠ 0 && !dead)).map fun w =>
        let w := if w.die = die then { w with owner := 0 } else w
        if w.arrived && w.outcome = 0 && dieOfKey w.cell = die then { w with outcome := 4 } else w } }
/-- The die's caches are empty, and no other die's cache or directory names its memory or its copies. -/
def State.resetCaches (s : State) (die : Nat) : State :=
  let far (line : Nat) : Bool := decide (dieOfKey (128 * line) ≠ die)
  let keep (t : Table CLine) : Table CLine := t.filter fun e => decide (e.1 / 2 ^ 32 ≠ die) && far (e.1 % 2 ^ 32)
  { s with cache := { s.cache with
      l2 := keep s.cache.l2
      llc := keep s.cache.llc
      dir := ((s.cache.dir.filter fun e => far e.1).map fun e => (e.1, e.2.leave die)).filter fun e => decide (e.2.sharers ≠ 0)
      codes := s.cache.codes.filter fun e => far e.1
      leaseEnds := s.cache.leaseEnds.filter fun e => far e.1 } }
/-- COMPUTE_DIE_RESET: the die keeps nothing; its memory holds undefined contents, given; its worlds and configuration are
loaded again; a dead die is alive, and handles of its objects are invalid (R12, R406, R427, R434, R456). -/
def execComputeDieReset (die : Nat) (contents : List (Nat × Byte)) (s : State) : Res :=
  if 8 ≤ die then .next s
  else
    let s := s.refreshJoined
    let dead := (s.die die).dead
    let s := (s.resetTraffic die).resetCaches die
    let mine (k : Nat) : Bool := dieOfKey k = die
    let gone (gang : Nat) : Bool := match s.gang? gang with | some k => k.die = die | none => false
    let world : BitVec 15 := (List.range 15).foldl (fun w i =>
      setBitTo w i (s.worldWritten (if i = 0 then die else if i < 5 then 10 + 4 * die + (i - 1) else 42 + 10 * die + (i - 5)))) 0
    let s := { s with
      g := if s.g.die = die then {} else s.g
      rest := s.rest.filter fun g => decide (g.die ≠ die)
      teams := s.teams.filter fun t => decide (t.2.die ≠ die)
      gangs := s.gangs.filter fun k => !gone k.1
      tasks := s.tasks.filter fun t => decide (t.2.die ≠ die)
      cores := s.cores.filter fun c => decide (c.1 / 64 ≠ die)
      dills := s.dills.filter fun e => decide (e.1 / 4 ≠ die)
      dies := kset s.dies die { resetAt := s.now, world := world }
      poison := s.poison.filter fun e => !mine (128 * e.1)
      side := s.side.filter fun e => !mine (128 * e.1)
      hub := { s.hub with counts := s.hub.counts.filter fun c => decide (c.1 / 64 ≠ die) }
      mem := contents.foldl (fun (m : Bytes) (c : Nat × Byte) => if c.1 < 2 ^ 35 then bset m (memKey die c.1) c.2 else m)
        (s.mem.filter fun c => !mine c.1) }
    let s := if dead then { s with devs := s.devs.map fun (e : Nat × Dev) => (e.1, { e.2 with
        handles := e.2.handles.map fun (h : Nat × Handle) => if h.2.exporter = die then (h.1, { h.2 with valid := false }) else h }) } else s
    let s := ((s.setMr (offTCWSTAT die) 0).setMr (offTCWCNT die) 0).setMr (offPWRSTAT die) 0
    .next (s.clearReady die)

/-! ## Firmware, measurement, power (R459-R461) -/

/-- The ROM's check of an image's signature: the key is the one whose digest is fused, and FIPS 204 verifies the signature (R459; log
entry 59). -/
def signatureOk (image key signature : List Byte) : Bool :=
  decide (BitVec.ofNat 512 (leVal (shake256 key)) = Config.fusedDigest) && mlDsa65 key image signature
/-- FIRMWARE_BOOT: the ROM checks an image, its key and signature and its version, measures it and runs it, which sets the reference
counter once; otherwise FWSTAT holds the cause (R426, R459, R460). -/
def execFirmwareBoot (image : List Byte) (signed : List Byte × List Byte) (ns : Word) (s : State) : Res :=
  if (s.mr offRDYSTAT).getLsbD 1 then .next s
  else if !signatureOk image signed.1 signed.2 then .next (s.setMr offFWSTAT 1)
  else if Config.imageVersion image < Config.fusedVersion then .next (s.setMr offFWSTAT 2)
  else
    let s := { s with hub := { s.hub with thyme := ns, thymeAt := s.now } }
    .next (((s.measureObject 0 image).setMr offFWSTAT 0).setReady offRDYSTAT 1 true)

/-- MEASUREMENT_EXTEND: firmware extends slot 1 with its configuration, or slot 2 with the routines 0 to 3 of the Dill engines; FIRMWARE_BOOT
extends slot 0 and DXRT_WRITE slot 3 (R460; log entry 59). -/
def execMeasurementExtend (slot : Nat) (object : List Byte) (s : State) : Res :=
  .next (if slot = 1 || slot = 2 then s.measureObject slot object else s)

/-- BUDGET_CONTROL: the die's measured power and temperature, and the budget the controller chose; 0 from 110 °C on (R461). -/
def execBudgetControl (die : Nat) (pwr : BitVec 32) (temp : BitVec 16) (budget : BitVec 32) (s : State) : Res :=
  if 8 ≤ die then .next s
  else
    let s := s.setMr (offPWRSTAT die) (temp ++ 0#16 ++ pwr)
    .next (s.setMr (offLVBUD die) (if 880 ≤ temp.toInt then 0 else budget.setWidth 64))

end Sys2Proof.Machine
end

