-- ==== Sys2Proof/Machine/Traverse.lean ====
section
/-! DEFINITION. The beam engine at work: walks, splits, ends of beams, overflow to rays, ray traces, completion and faults of
traversals, and beam-engine graph nodes (spec/26 R369-R381, R384, R396). Gang 0, team d names the graph's traversal on die d. -/

namespace Sys2Proof.Machine

/-! ## The engine's accesses (R380) -/

/-- Where an access of the engine of a core lies, in the world of its beam engine cluster. -/
def State.beamPlace (s : State) (die core : Nat) (need : Need) (va : Int) (n : Nat) : Place :=
  let sec := s.worldInForce (42 + 10 * die + core / 4)
  match s.translate die none sec need clsNear va with
  | .error r => .fault r.cause
  | .ok x =>
    let at_ (k : Nat) : Place := if need.reads && s.anyBad k n then .fault cPOISON else .home k
    if x.tgt = 0 then at_ (memKey die x.ofs)
    else
      match s.peerHome die x.handle x.ofs need sec with
      | .ok (some k) => at_ k
      | .ok none => .fault cPOISON
      | .error r => .refused x.handle r

/-- What an engine's access of a home place leaves: TLBs filled, the link crossed, the line in its caches (R181, R185, R405). -/
def State.beamTouch (s : State) (die core : Nat) (need : Need) (launch va k : Nat) : State :=
  let sec := s.worldInForce (42 + 10 * die + core / 4)
  let s := match s.translate die none sec need clsNear va with | .ok x => s.fillXl die none sec va x | .error _ => s
  (s.touchPeer die launch (dieOfKey k)).noteFrom die k { evp := 3 }
/-- A dead die's engine waits for ever for what it sends out (R406). -/
def State.beamLost (s : State) (die k : Nat) : Bool := (s.die die).dead && decide (dieOfKey k ≠ die)

/-- How a step of a traversal ends: it waits for a lease or an answer, it goes on, or it meets a fault at an address. -/
inductive TStep where
  | wait
  | go (s : State) (t : Trav)
  | fault (s : State) (t : Trav) (p : Place) (va : Nat)
  deriving DecidableEq, Repr

/-- Goes on after a step. -/
def TStep.andThen (r : TStep) (k : State → Trav → TStep) : TStep := match r with | .go s t => k s t | x => x

/-- Where a traversal runs: die and core. -/
structure Site where
  die : Nat
  core : Nat
  deriving DecidableEq, Repr

/-- A write of the engine, which waits at the home slice while the line is taken (R212, R213). -/
def beamWrite (at_ : Site) (va : Nat) (bs : List Byte) (s : State) (t : Trav) : TStep :=
  match s.beamPlace at_.die at_.core .w va bs.length with
  | .home k =>
    if s.beamLost at_.die k || (linesOf k bs.length).any s.lineTaken then .wait
    else .go ((s.opWrite k bs).beamTouch at_.die at_.core .w t.launch va k) t
  | p => .fault s t p va
/-- An indivisible change of 8 bytes by the engine at their home (R375, R376). -/
def beamRmw (at_ : Site) (va : Nat) (new : Nat → Option Nat) (k : Nat → State → Trav → TStep) (s : State) (t : Trav) : TStep :=
  match s.beamPlace at_.die at_.core .rw va 8 with
  | .home p =>
    if s.beamLost at_.die p || s.lineTaken (lineOf p) then .wait
    else
      let s := (s.revoke (lineOf p) (BitVec.allOnes 32) none).beamTouch at_.die at_.core .rw t.launch va p
      let old := rdLE s.mem p 8
      k old (match new old with | some v => s.homeWrite p (leBytes v 8) | none => s) t
  | p => .fault s t p va

/-- A weight as a coverage count: round_rne(W x 2^48) (R375). -/
def coverOf (w : Nat) : Int := roundInt .rne ((f32q w).mul (Q.pow2 48))
/-- The add to a coverage cell, or to a graph request's own count. -/
def addCell (at_ : Site) (tag w : Nat) (s : State) (t : Trav) : TStep :=
  if t.request.isSome then .go s { t with cover := wrap (t.cover + coverOf w) 64 }
  else beamRmw at_ (dscCovb t.desc.toNat + 8 * tag) (fun old => some (wrap (old + coverOf w) 64)) (fun _ s t => .go s t) s t

/-! ## Nodes and walks (R369, R370, R372) -/

/-- A well-formed node. -/
inductive Node where
  | leaf (prim role : Nat) (poly : List V3)
  | inner (c0 c1 : Nat)
  deriving DecidableEq, Repr

/-- The node of 64 bytes; none where it is malformed (R369, R370). -/
def parseNode (nn r : Nat) : Option Node :=
  let flags := recWord r 14
  if recWord r 15 ≠ 0 then none
  else if bit flags 31 then
    let verts := (List.range (if bit flags 24 then 4 else 3)).map fun i => recWords r (3 * i) 3
    if bits flags 28 25 ≠ 0 || flags % 2 ^ 24 ≠ 0 || bits flags 30 29 = 3 || recWord r 13 ≠ 0 || recWord r 12 = 0xFFFFFFFF
        || !(verts.all fun v => v.all fin32) then none
    else some (.leaf (recWord r 12) (bits flags 30 29) (verts.map vecOf))
  else
    let box (b : Nat) : Bool := (List.range 3).all fun k => (f32q (recWord r (6 * b + k))).le (f32q (recWord r (6 * b + 3 + k)))
    if flags ≠ 0 || nn ≤ recWord r 12 || nn ≤ recWord r 13 || !((recWords r 0 12).all fin32) || !box 0 || !box 1 then none
    else some (.inner (recWord r 12) (recWord r 13))

/-- A logged fault of a traversal (R370, R376, R380). -/
def State.logTrav (s : State) (die : Nat) (t : Trav) (r : FRec) : State :=
  s.logFail die t.launch { t.info with cause := r.cause, detail := r.detail, info := r.info, addr := r.addr }
/-- A malformed node: BNODE once per traversal, naming the first (R370). -/
def State.noteBad (s : State) (die : Nat) (t : Trav) (n : Nat) : State × Trav :=
  if t.bnode then (s, t) else (s.logTrav die t { cause := cBNODE, info := BitVec.ofNat 32 n }, { t with bnode := true })

/-- What a walk has met: a leaf at which the beam splits, with the clipped polygon. -/
structure Meet where
  prim : Nat
  role : Nat
  poly : List V3
  clip : List V3
  deriving DecidableEq, Repr

/-- The 64 bytes of a node have been changed by other stores than NODEWR since the traversal began, or such stores are under way: a fetch may
read it torn (R379). Under way are bytes dirty in an L1 or still to be performed, or a store of another die not yet performed. -/
def State.torn (s : State) (t : Trav) (k : Nat) : Bool :=
  ((List.range 64).any fun i => bget s.mem (k + i) ≠ bget t.mem0 (k + i)) ||
  (s.cores.any fun e => decide (e.1 / 64 = dieOfKey k) &&
    (match kget e.2.l1 (lineOf k) with | some l => (List.range 64).any fun i => l.dirty.getLsbD (k % 128 + i) | none => false)) ||
  (s.split.late.any fun l => l.bytes.any fun b => decide (k ≤ b.1) && decide (b.1 < k + 64)) ||
  (s.fab.stores.any fun p =>
    match s.homePlace p.dev p.handle p.ofs p.secure with | some j => decide (j < k + 64) && decide (k < j + p.bytes.length) | none => false)
/-- The 64 bytes a fetch takes: those of the home copy, or free values where the node may be torn (R379; log entry 53). -/
def State.nodeBits (s : State) (t : Trav) (k : Nat) : Nat × State :=
  if s.torn t k then
    (((List.range 8).map fun i => (Config.freeValue (s.free + i)).toNat * 2 ^ (64 * i)).sum, { s with free := s.free + 8 })
  else (rdLE s.mem k 64, s)
/-- Fetches a node in one read of 64 bytes (R379); the continuation takes it, none where it is malformed. stop: what a wait or a fault
becomes. -/
def fetchNode {α : Type} (at_ : Site) (n : Nat) (s : State) (t : Trav) (stop : TStep → α) (k : State → Trav → Option Node → α) : α :=
  let va := dscBase t.desc.toNat + 64 * n
  match s.beamPlace at_.die at_.core .r va 64 with
  | .home p =>
    if s.beamLost at_.die p || s.readHeld at_.die (lineOf p) then stop .wait
    else
      let (r, s) := s.nodeBits t p
      k (s.beamTouch at_.die at_.core .r t.launch va p) t (parseNode (dscNn t.desc.toNat) r)
  | p => stop (.fault s t p va)

/-- How a beam's walk ends; it stops where a fetch waits or faults. -/
inductive Walk where
  | clear (s : State) (t : Trav)
  | hit (s : State) (t : Trav) (m : Meet)
  | stop (r : TStep)
  deriving DecidableEq, Repr

/-- A beam's walk from a node, depth first; the count is 64 less the node's depth. No box is skipped, as R370 allows. -/
def walkFrom (at_ : Site) (b : Beam) : Nat → Nat → State → Trav → Walk
  | 0, n, s, t => let (s, t) := s.noteBad at_.die t n; .clear s t
  | d + 1, n, s, t =>
    fetchNode at_ n s t .stop fun s t nd =>
      match nd with
      | none => let (s, t) := s.noteBad at_.die t n; .clear s t
      | some (.leaf prim role poly) =>
        if prim = b.hit then .clear s t
        else
          let c := clipPoly poly b.exact
          if c.isEmpty || flatFrom (vecOf b.o) c then .clear s t else .hit s t ⟨prim, role, poly, c⟩
      | some (.inner c0 c1) =>
        match walkFrom at_ b d c0 s t with
        | .clear s t => walkFrom at_ b d c1 s t
        | r => r
/-- The walk of a beam; an empty scene has no node (R371, R372). -/
def walkBeam (at_ : Site) (b : Beam) (s : State) (t : Trav) : Walk :=
  if dscNn t.desc.toNat = 0 then .clear s t else walkFrom at_ b 64 0 s t

/-- A leaf a ray is tested against: node index, primitive, polygon. -/
abbrev RayLeaf := Nat × Nat × List V3
/-- Every leaf below a node, in walk order (R378). -/
def leavesFrom (at_ : Site) : Nat → Nat → List RayLeaf → State → Trav → Except TStep (List RayLeaf × State × Trav)
  | 0, n, acc, s, t => let (s, t) := s.noteBad at_.die t n; .ok (acc, s, t)
  | d + 1, n, acc, s, t =>
    fetchNode at_ n s t .error fun s t nd =>
      match nd with
      | none => let (s, t) := s.noteBad at_.die t n; .ok (acc, s, t)
      | some (.leaf prim _ poly) => .ok (acc ++ [(n, prim, poly)], s, t)
      | some (.inner c0 c1) =>
        match leavesFrom at_ d c0 acc s t with
        | .ok (acc, s, t) => leavesFrom at_ d c1 acc s t
        | e => e
/-- The leaves of the scene. -/
def sceneLeaves (at_ : Site) (k : List RayLeaf → State → Trav → TStep) (s : State) (t : Trav) : TStep :=
  if dscNn t.desc.toNat = 0 then k [] s t
  else
    match leavesFrom at_ 64 0 [] s t with
    | .ok (ls, s, t) => k ls s t
    | .error r => r

/-! ## Rays (R376, R378) -/

/-- Numbers of a leaf, for the free THIT of a lost ray. -/
def leafNumbers (l : RayLeaf) : List Nat :=
  [l.1, l.2.1] ++ l.2.2.flatMap fun v => [v.x, v.y, v.z].flatMap fun q => [q.num.natAbs, q.den, if q.num < 0 then 1 else 0]
/-- STATUS, THIT and PRIM of a traced ray. The spec gives a lost ray's THIT no value: a free one, the same for equal records, descriptors and
hierarchies (R367; log entry 53). -/
def traceRay (dsc : BitVec 512) (ls : List RayLeaf) (o dir : List Nat) (tmax w hit : Nat) : Nat × Nat × Nat :=
  if !(o.all fin32) || !(dir.all fin32) || !fin32 tmax || !fin32 w || (vecOf dir).isZero then
    (3, (Config.lostRay dsc (o ++ dir ++ [tmax, w, hit]) (ls.flatMap leafNumbers)).toNat, 0xFFFFFFFF)
  else
    let hits := ls.filterMap fun l =>
      if l.2.1 = hit then none else (rayHit (vecOf o) (vecOf dir) (f32q tmax) l.2.2).map fun t => (t, l.1, l.2.1)
    let best := hits.foldl (fun (m : Option (Q × Nat × Nat)) h =>
      match m with
      | none => some h
      | some b => if h.1.lt b.1 || (h.1.same b.1 && h.2.1 < b.2.1) then some h else some b) none
    match best with
    | none => (1, tmax, 0xFFFFFFFF)
    | some b => (2, fp32.rne (FV.ofQ false b.1), b.2.2)

/-- Writes a traced ray's record, and the coverage of a clear one that has neither RCV nor MIRR (R378). -/
def writeRay (at_ : Site) (va : Nat) (o dir : List Nat) (tmax w tag hit flags pay : Nat) (r : Nat × Nat × Nat) (s : State) (t : Trav) : TStep :=
  (beamWrite at_ va (rayRecord o dir tmax w tag hit (r.1 + flags) r.2.1 r.2.2 pay) s t).andThen fun s t =>
    if r.1 = 1 && flags = 0 then addCell at_ tag w s t else .go s t

/-- Writes an overflowing piece's rays one after the other. -/
def writeRays (at_ : Site) (ls : List RayLeaf) (b : Beam) (w first : Nat) : Nat → List (List Nat) → State → Trav → TStep
  | _, [], s, t => .go s t
  | i, dir :: dirs, s, t =>
    let flags := (if b.mirr then 4 else 0) + (if b.rcv then 8 else 0)
    (writeRay at_ (dscRpb t.desc.toNat + 64 * (first + i)) b.o dir 0x3F800000 w b.tag b.hit flags b.pay
      (traceRay t.desc ls b.o dir 0x3F800000 w b.hit) s t).andThen fun s t => writeRays at_ ls b w first (i + 1) dirs s t

/-- A piece that overflows becomes rays, or is lost where the pool has no room (R376). -/
def overflow (at_ : Site) (b : Beam) (s : State) (t : Trav) : TStep :=
  let far := b.far
  let pts := match strataOf far ((b.exact.getD 1 ⟨⟨.zero, .zero, .zero⟩, .zero⟩).n) with
    | [] => [meanOf far]
    | ps => ps
  let k : Nat := pts.length
  let w := fp32.rne (FV.ofQ false ((f32q b.w).div ⟨k, 1⟩))
  let dirs := pts.map fun p => roundVec (p.sub (vecOf b.o))
  let room (old : Nat) : Bool := decide (old + k ≤ dscRpc t.desc.toNat)
  beamRmw at_ (dscRhead t.desc.toNat) (fun old => if room old then some (old + k) else none) (fun old s t =>
    if room old then sceneLeaves at_ (fun ls s t => writeRays at_ ls b w old 0 dirs s t) s t
    else .go s { t with lost := t.lost + 1 }) s t

/-! ## Splits and ends (R373, R375) -/

/-- The weight of a piece with its OMEGA (R373, R374). Where the beam's OMEGA is 0 in FP32 the quotient has no value: a free one. One that is
0 or subnormal is too coarse, and the weight is held within the bound of R374 of the exact one, where the beam has a measure. -/
def pieceWeight (b piece : Beam) : Nat :=
  let w := if (f32q b.om).isZero then (Config.zeroOmegaWeight (piece.record 0)).toNat
    else fp32.rne (FV.ofQ false (((f32q b.w).mul (f32q piece.om)).div (f32q b.om)))
  if (Q.pow2 (-126)).le (f32q b.om) then w
  else
    let whole := b.measure
    if whole.isZero then w else within w ((f32q b.w).mul (Q.pow2 (-20))) ((f32q b.w).mul (piece.measure.div whole))
/-- The pieces of a split, in order, before place(): those of enough measure (R373). graph: receivers and mirrors act as
occluders (R384). -/
def pieces (b : Beam) (m : Meet) (graph : Bool) : List Beam :=
  let o := vecOf b.o
  let cen := meanOf m.clip
  let ps := (m.clip.zip (rotated m.clip)).map fun e => roundPlane (planeThrough o e.1 e.2 cen)
  let kids : List (Beam × List (List Nat)) := ps.zipIdx.map fun p => (b, b.planes ++ [p.1.map negWord] ++ ps.take p.2)
  let far := roundPlane (planeAlong m.poly o)
  let inner : List (Beam × List (List Nat)) :=
    if m.role = 0 || graph then []
    else [({ b with hit := m.prim, rcv := m.role = 1, mirr := m.role = 2 }, b.planes.set 1 far ++ ps)]
  (kids ++ inner).filterMap fun e =>
    let x := { e.1 with planes := e.2 }
    let q := x.measure
    if q.lt ((f32q b.om).mul (Q.pow2 (-20))) then none
    else
      let x := { x with planes := (keptPlanes x.exact).map fun i => e.2.getD i [] }
      let x := x.withOmega
      some { x with w := pieceWeight b x }
/-- place() of the pieces in order: slots ahead of the rest of the list, or the overflow. placed: those before (R373). -/
def placePieces (at_ : Site) (gang team : Nat) : List Beam → List Nat → State → Trav → TStep
  | [], placed, s, t => .go s { t with work := placed ++ t.work }
  | b :: bs, placed, s, t =>
    match if b.planes.length ≤ 12 then (s.team gang team).add b stWork else none with
    | some (k, m) => placePieces at_ gang team bs (placed ++ [k]) (s.setTeam gang team m) t
    | none =>
      match overflow at_ b s t with
      | .go s t => placePieces at_ gang team bs placed s t
      | .fault s t p va => .fault s { t with work := placed ++ t.work } p va
      | .wait => .wait
/-- A split: the beam's slot is freed, then its pieces are placed. -/
def splitBeam (at_ : Site) (gang team slot : Nat) (b : Beam) (m : Meet) (s : State) (t : Trav) : TStep :=
  let s := s.modTeam gang team fun x => x.drop slot
  placePieces at_ gang team (pieces b m t.request.isSome) [] s { t with work := t.work.tail, taken := kdel t.taken slot }

/-- A mirror's beam after its reflection (R375). -/
def reflect (b : Beam) (mfar : Nat) : Beam :=
  let far := planeOf (b.planes.getD 1 [])
  let ws := b.planes.getD 1 []
  let d := far.d.neg.add ((f32q mfar).mul (if far.n.isZero then .zero else (far.n.dot far.n).sqrt 1300))
  let back : List Nat := (ws.take 3).map negWord ++
    [if !fin32 (ws.getD 3 0) then negWord (ws.getD 3 0) else if (ws.take 3).all fin32 then rnd32 d else 0x7F800000]
  ({ b with
    o := roundVec (mirrorPoint (vecOf b.o) far)
    planes := [ws, back] ++ (b.planes.drop 2).map fun p => roundPlane (mirrorPlane (planeOf p) far)
    depth := b.depth + 1, mirr := false } : Beam).withOmega
/-- A beam that ends clear (R375). -/
def endClear (at_ : Site) (gang team slot : Nat) (b : Beam) (s : State) (t : Trav) : TStep :=
  let done (b : Beam) : TStep :=
    .go (s.modTeam gang team fun x => { x with pool := kset x.pool slot (b.record stDone), doneOrder := x.doneOrder ++ [slot] })
      { t with work := t.work.tail, taken := kdel t.taken slot }
  if b.rcv || b.mdep then done b
  else if b.mirr then
    if b.depth = 7 then done { b with mdep := true }
    else
      let old := kget (s.team gang team).pool slot
      .go (s.modTeam gang team fun x => { x with pool := kset x.pool slot ((reflect b (dscMfar t.desc.toNat)).record stWork) })
        { t with taken := match kget t.taken slot, old with | none, some r => kset t.taken slot r | _, _ => t.taken }
  else
    (addCell at_ b.tag b.w s t).andThen fun s t =>
      .go (s.modTeam gang team fun x => x.drop slot) { t with work := t.work.tail, taken := kdel t.taken slot }

/-! ## The steps as events -/

/-- A team's traversal. -/
def State.trav? (s : State) (gang team : Nat) (ray : Bool) : Option Trav :=
  (s.team? gang team).bind fun t => if ray then t.rtrav else t.trav
def State.setTrav (s : State) (gang team : Nat) (ray : Bool) (v : Option Trav) : State :=
  s.modTeam gang team fun t => if ray then { t with rtrav := v } else { t with trav := v }
/-- The site of a team. -/
def State.siteOf (s : State) (gang team : Nat) : Site := ⟨(s.team gang team).die, (s.team gang team).core⟩
/-- The core's engine runs this traversal now: its gang stands, and no earlier one of the core is incomplete (R390). -/
def State.travRuns (s : State) (gang team : Nat) (t : Trav) : Bool :=
  let at_ := s.siteOf gang team
  let later (o : Option Trav) : Bool := match o with | some v => t.id ≤ v.id | none => true
  s.standing gang && s.teams.all fun e =>
    e.2.die ≠ at_.die || e.2.core ≠ at_.core || !s.standing (e.1 / 32) || (later e.2.trav && later e.2.rtrav)

/-- What a traversal's next step would be: a split, an end, a ray, or a fault; none where nothing is left to do. -/
inductive Next where
  | none
  | split (r : TStep)
  | clear (r : TStep)
  | ray (r : TStep)
  deriving DecidableEq, Repr

/-- The next ray of a RAYTRAV: a record that is not pending is passed over (R396). -/
def rayStep (at_ : Site) (s : State) (t : Trav) : TStep :=
  let va := dscRpb t.desc.toNat + 64 * t.ray
  let t' := { t with ray := t.ray + 1 }
  match s.beamPlace at_.die at_.core .rw va 64 with
  | .home k =>
    if s.beamLost at_.die k || s.readHeld at_.die (lineOf k) then .wait else
    let r := leVal ((List.range 64).map fun i => s.readByte (k + i))
    let s := s.beamTouch at_.die at_.core .rw t.launch va k
    if recWord r 10 % 4 ≠ 0 then .go s t'
    else
      let o := recWords r 0 3
      let dir := recWords r 3 3
      sceneLeaves at_ (fun ls s t =>
        let res := traceRay t.desc ls o dir (recWord r 6) (recWord r 7) (recWord r 9)
        let flags := recWord r 10 - recWord r 10 % 4
        (beamWrite at_ (va + 40) (leBytes (res.1 + flags) 4 ++ leBytes res.2.1 4 ++ leBytes res.2.2 4) s t).andThen fun s t =>
          if res.1 = 1 && bits flags 3 2 = 0 then addCell at_ (recWord r 8) (recWord r 7) s t else .go s t) s t'
  | p => .fault s t' p va
/-- The next step of a traversal. -/
def State.nextStep (s : State) (gang team : Nat) (ray : Bool) (t : Trav) : Next :=
  let at_ := s.siteOf gang team
  if !s.travRuns gang team t then .none
  else if ray then (if t.ray < t.rayEnd then .ray (rayStep at_ s t) else .none)
  else
    match t.work with
    | [] => .none
    | slot :: _ =>
      let b := Beam.ofRecord ((kget (s.team gang team).pool slot).getD 0).toNat
      match walkBeam at_ b s t with
      | .hit s t m => .split (splitBeam at_ gang team slot b m s t)
      | .clear s t => .clear (endClear at_ gang team slot b s t)
      | .stop r => .split r

/-- A completed traversal leaves its team, and a gang that has retired leaves nothing. -/
def State.dropTrav (s : State) (gang team : Nat) (ray : Bool) : State :=
  let s := s.setTrav gang team ray none
  if gang ≠ 0 && (s.gang? gang).isNone && ((s.team gang team).rtrav.isNone) then { s with teams := kdel s.teams (teamKey gang team) } else s
/-- The result of a graph request (R384). -/
def requestResult (t : Trav) (tag : BitVec 32) : BitVec 512 :=
  BitVec.ofNat 512 (ofWords [tag.toNat, fp32.rne (FV.ofQ false ⟨t.cover, 2 ^ 48⟩), if t.lost = 0 then 0 else 1])
/-- A traversal ends: RPFULL for lost pieces, and the completion object or the graph's result (R370, R376, R390). -/
def State.endTrav (s : State) (gang team : Nat) (ray flt : Bool) (t : Trav) : State :=
  let die := (s.siteOf gang team).die
  let s := if t.lost = 0 then s else s.logTrav die t { cause := cRPFULL, info := BitVec.ofNat 32 t.lost }
  match t.request with
  | some (node, tag) =>
    let next := (s.graphNode die node).map (·.next)
    let s := { s with teams := kdel s.teams (teamKey gang team) }
    (match next with | some k => s.sendGraph t.launch t.info.job.toNat die k (requestResult t tag) 0 | none => s)
  | none => (s.dropTrav gang team ray).complete t.owner t.ck t.bar t.tag 0 (flt || t.bnode)
/-- A fault ends a traversal (R380). A graph request's weight is then lost. -/
def State.faultTrav (s : State) (gang team : Nat) (ray : Bool) (t : Trav) (p : Place) (va : Nat) : State :=
  let die := (s.siteOf gang team).die
  let s := match p with
    | .refused h r => s.log (s.exporterOf die h) { t.info with cause := r.cause, detail := r.detail, info := r.info, addr := BitVec.ofNat 64 va, imp := true }
    | _ => s
  let cause := match p with | .fault c => c | _ => cRPERM
  let s := s.logTrav die t { cause := cCPYFLT, detail := cause, info := t.tag.setWidth 32, addr := BitVec.ofNat 64 va }
  let s := if ray then s else s.modTeam gang team fun m =>
    { m with pool := m.pool.map fun (e : Nat × BitVec 2048) => if t.work.contains e.1 then (e.1, setState e.2 stLive) else e }
  s.endTrav gang team ray true (if t.request.isSome then { t with lost := t.lost + 1 } else t)

/-- What a step leaves when it went on; a step that waits or faults leaves the state as it was. -/
def TStep.took (r : TStep) (gang team : Nat) (ray : Bool) (s : State) : State :=
  match r with | .go s' t => s'.setTrav gang team ray (some t) | _ => s
/-- BEAM_SPLIT: the beam at the front of the list splits at the leaf its walk meets (R373). -/
def execBeamSplit (gang team : Nat) (s : State) : Res :=
  match s.trav? gang team false with
  | none => .next s
  | some t => .next (match s.nextStep gang team false t with | .split r => r.took gang team false s | _ => s)
/-- BEAM_ENDS_CLEAR: the walk of the beam at the front reaches its end (R375). -/
def execBeamEndsClear (gang team : Nat) (s : State) : Res :=
  match s.trav? gang team false with
  | none => .next s
  | some t => .next (match s.nextStep gang team false t with | .clear r => r.took gang team false s | _ => s)
/-- RAY_TRACE: the next ray of a RAYTRAV (R378, R396). -/
def execRayTrace (gang team : Nat) (s : State) : Res :=
  match s.trav? gang team true with
  | none => .next s
  | some t => .next (match s.nextStep gang team true t with | .ray r => r.took gang team true s | _ => s)
/-- TRAVERSAL_FAULT: the next step meets a fault (R380). -/
def execTraversalFault (gang team : Nat) (ray : Bool) (s : State) : Res :=
  match s.trav? gang team ray with
  | none => .next s
  | some t =>
    match s.nextStep gang team ray t with
    | .split (.fault s t p va) | .clear (.fault s t p va) | .ray (.fault s t p va) => .next (s.faultTrav gang team ray t p va)
    | _ => .next s
/-- TRAVERSAL_COMPLETE: the work list, or the range of rays, is empty (R390, R396). -/
def execTraversalComplete (gang team : Nat) (ray : Bool) (s : State) : Res :=
  match s.trav? gang team ray with
  | none => .next s
  | some t =>
    if !s.standing gang || (if ray then t.ray < t.rayEnd else !t.work.isEmpty) then .next s else .next (s.endTrav gang team ray false t)

/-! ## Beam-engine graph nodes (R384) -/

/-- Words of a beam request: O, the target's vertices (a triangle where V3 equals V2), TAG. -/
def reqVerts (d : Nat) : List (List Nat) :=
  let v (i : Nat) := recWords d (3 + 3 * i) 3
  if v 3 = v 2 then [v 0, v 1, v 2] else [v 0, v 1, v 2, v 3]
/-- The descriptor of a beam-engine node; none where it cannot be used (R371, R390). -/
def State.nodeDesc (s : State) (die : Nat) (n : GNode) : Option Nat :=
  if n.arg.toNat % 64 ≠ 0 then none
  else
    match s.hubRead die (s.secure die) n.arg.toNat 64 with
    | some bs => if dscBad (leVal bs) then none else some (leVal bs)
    | none => none
/-- BEAM_REQUEST: the beam is built as BMAKE builds it and its traversal starts on a core that Lovage chooses, another where that one
has no entry left or its cluster starts nothing (R457); a degenerate request gives its result at once. -/
def execBeamRequest (rec : Nat) (s : State) : Res :=
  match s.nodeRec rec 3 with
  | none => .next s
  | some (r, n) =>
    let (v, drawn) := s.draw
    let core := v.toNat % 40
    let quota := s.unreserved r.die core (teamKey 0 r.die)
    if (s.team? 0 r.die).isSome then .next s
    else if quota = 0 || s.worldPending (42 + 10 * r.die + core / 4) then .next drawn
    else
      let s := drawn.acceptGraph [r]
      let d := r.data.toNat
      let tag := recWord d 15
      let info := { s.launchRec r.launch { cause := 0, sdie := BitVec.ofNat 4 r.die } with job := BitVec.ofNat 6 r.job }
      let (id, s) := s.take
      let trav (dsc : Nat) : Trav := {
        id := id, desc := BitVec.ofNat 512 dsc, owner := 0, launch := r.launch, task := 0, info := info, ck := 0, bar := 0, tag := 0, work := [0], mem0 := s.mem
        request := some (r.node, BitVec.ofNat 32 tag) }
      let none_ := s.sendGraph r.launch r.job r.die n.next (requestResult { trav 0 with lost := 1 } (BitVec.ofNat 32 tag)) 0
      match s.nodeDesc r.die n with
      | none => .next none_
      | some dsc =>
        match if fin32 (dscNear dsc) && 0 < (f32q (dscNear dsc)).num then makeBeam (reqVerts d) (dscNear dsc) (recWords d 0 3) tag 0 else none with
        | none => .next none_
        | some b =>
          let s := s.hubTouch r.die (s.secure r.die) n.arg.toNat
          let t : Team := { die := r.die, core := core, groups := 0, window := 0, quota := quota }
          .next (s.setTeam 0 r.die { t with pool := [(0, b.record stWork)], trav := some (trav dsc) })

end Sys2Proof.Machine
end

