-- ==== Sys2Proof/Machine/Slots.lean ====
section
/-! DEFINITION. Active slots: the conditions of waiting groups, activation, deactivation, YIELD (spec/02 R35-R38, R42, spec/07
R126). -/

namespace Sys2Proof.Machine

/-- A QLOCK's wait is over: granted, or its request has to be made at the unit (R215). -/
def State.lockDue (s : State) (uid k : Nat) : Bool :=
  match s.lock? k with
  | some l => l.holder = uid || !l.waiters.contains uid
  | none => !s.unitFull k
/-- An incomplete matrix operation of a group, in its core's engine or saved with its team (R300). -/
def State.mopsLeft (s : State) (g : Group) : Bool :=
  !(s.mopsOf g).isEmpty
/-- The condition of a group's wait holds (R37); a group that does not wait, or is held, has none to wait for. -/
def State.condition (s : State) (g : Group) : Bool :=
  match g.wait with
  | .blocked k n a since =>
    (match k with
     | .qrecv => !(s.teamsOf g.gang).any fun t => t.2.queues.any fun q => q.receivers.contains g.uid
     | .bwait => (s.bar g.gang g.team n).complete (a.setWidth 32)
     | .nwait => (match s.gang? g.gang with | some k => (k.nets.getD n {}).complete (a.setWidth 32) | none => false)
     | .waitq => !(s.msgsOf g).isEmpty || (s.quietSince g.job since).isSome
     | .qlock => s.lockDue g.uid a.toNat
     | .msync => !s.mopsLeft g
     | .xwait => g.ticketDone (a.setWidth 32)
     | .evwait => !g.evq.isEmpty
     | .cwait => s.cwaitEnds a since
     | .bpop => !(s.team g.gang g.team).doneOrder.isEmpty || (s.team g.gang g.team).trav.isNone)
  | .ending => !s.storesOut g.uid
  | _ => true
/-- A PRENOTE can be delivered to the group now: outside a handler, and with no stamped store sent (R333, R334); a group that ends takes
none. -/
def State.noteDue (s : State) (g : Group) : Bool := g.preq && !g.priv && !g.isEnding && !(s.fab.stamped.any fun w => w.owner = g.uid)
/-- The group is not blocked (R35, R37). -/
def State.unblocked (s : State) (g : Group) : Bool := s.condition g || s.noteDue g

/-- Active groups of a core. -/
def State.activeOn (s : State) (die core : Nat) : List Group :=
  s.groups.filter fun g => decide (g.life = .active) && g.die = die && g.core = core
/-- Groups of a core that wait for a slot and are not blocked. -/
def State.slotWaiters (s : State) (die core : Nat) : List Group :=
  s.groups.filter fun g => decide (g.life = .waiting) && g.die = die && g.core = core && s.unblocked g
/-- Priority level of a group: its task's PRIO, of which 11 is the highest level (R21, R35; log entry 64). -/
def State.prioOf (s : State) (g : Group) : Nat := Nat.min 11 (((s.task? g.task).map fun t => recPrio t.record.toNat).getD 0)
/-- Cycles after which a group that waits, not blocked, goes first and another gives up its slot, so that none waits more than 65,536
(R35). -/
def slotBound : Nat := 32768
/-- a goes before b for a free slot (R35). -/
def State.slotBefore (s : State) (a b : Group) : Bool :=
  let beyond (g : Group) : Bool := slotBound ≤ s.now - g.waitSince
  if beyond a != beyond b then beyond a
  else if s.prioOf a = s.prioOf b || beyond a then decide (a.waitSince ≤ b.waitSince)
  else decide (s.prioOf b < s.prioOf a)
/-- The group that a free slot of a core goes to. -/
def State.nextActive (s : State) (die core : Nat) : Option Group :=
  if (s.activeOn die core).length < 8 then (sortBy s.slotBefore (s.slotWaiters die core)).head? else none
/-- ACTIVATION (R35). -/
def execActivation (die core : Nat) (s : State) : Res :=
  match s.nextActive die core with
  | some g => .next (s.modGroup g.uid fun g => { g with life := .active })
  | none => .next s
/-- DEACTIVATION: at an instruction boundary (R42), of a blocked group (R37), or of a held one, which stays held and in its place (R267). -/
def execDeactivation (group : Nat) (s : State) : Res :=
  match s.group? group with
  | some g => .next (if g.life = .active then s.modGroup group fun g => { g with life := .waiting, waitSince := s.now } else s)
  | none => .next s
/-- A group of the core has waited so long that another gives up its slot for it (R35). -/
def State.slotDue (s : State) (die core : Nat) : Bool :=
  decide (8 ≤ (s.activeOn die core).length) && (s.slotWaiters die core).any fun g => decide (slotBound ≤ s.now - g.waitSince)
/-- Blocked groups do not wait for a slot: their wait starts when they are no longer blocked (R35). -/
def State.settleWaits (s : State) : State :=
  s.modGroups fun g => if g.life = .waiting && !s.unblocked g then { g with waitSince := s.now } else g

/-! ## Yielding (R126) -/

/-- A resident, unblocked group of a core waits for an active slot. -/
def State.slotWanted (s : State) (die core : Nat) : Bool :=
  s.rest.any fun g => g.die = die && g.core = core && decide (g.life = .waiting) && s.unblocked g

/-- YIELD: the group gives up its slot to a waiting group; otherwise it only ends its turn, and the round robin moves on (R126). It then waits
like any other, and so competes for that slot itself: one of a higher PRIO than every waiting group is activated again (log entry 64). -/
def execYield (f : Fields) (s : State) : Res :=
  issue .c false (dab f) f (fun s =>
    let s := s.advance
    .done (if s.slotWanted s.g.die s.g.core then s.setG { s.g with life := .waiting, waitSince := s.now } else s)) s

end Sys2Proof.Machine
end

