-- ==== Sys2Proof/Machine/Dispatch.lean ====
section
/-! DEFINITION. One arm for each instruction and event: a direct call of its meaning. -/

namespace Sys2Proof.Machine

def exec (i : Instr) (s : State) : Host.Outcome State Fault Refusal :=
  match i with
  | .nop f => Sys2Proof.Machine.execNop f s
  | .yield f => Sys2Proof.Machine.execYield f s
  | .sadd f => Sys2Proof.Machine.execSadd f s
  | .ssub f => Sys2Proof.Machine.execSsub f s
  | .smul f => Sys2Proof.Machine.execSmul f s
  | .smulh f => Sys2Proof.Machine.execSmulh f s
  | .sdiv f => Sys2Proof.Machine.execSdiv f s
  | .srem f => Sys2Proof.Machine.execSrem f s
  | .sand f => Sys2Proof.Machine.execSand f s
  | .sor f => Sys2Proof.Machine.execSor f s
  | .sxor f => Sys2Proof.Machine.execSxor f s
  | .sshl f => Sys2Proof.Machine.execSshl f s
  | .sshr f => Sys2Proof.Machine.execSshr f s
  | .ssra f => Sys2Proof.Machine.execSsra f s
  | .smin f => Sys2Proof.Machine.execSmin f s
  | .smax f => Sys2Proof.Machine.execSmax f s
  | .spopc f => Sys2Proof.Machine.execSpopc f s
  | .sclz f => Sys2Proof.Machine.execSclz f s
  | .smov f => Sys2Proof.Machine.execSmov f s
  | .sli f => Sys2Proof.Machine.execSli f s
  | .slih f => Sys2Proof.Machine.execSlih f s
  | .scmp f => Sys2Proof.Machine.execScmp f s
  | .ssel f => Sys2Proof.Machine.execSsel f s
  | .bra f => Sys2Proof.Machine.execBra f s
  | .brc f => Sys2Proof.Machine.execBrc f s
  | .call f => Sys2Proof.Machine.execCall f s
  | .callIndirect f => Sys2Proof.Machine.execCallIndirect f s
  | .ret f => Sys2Proof.Machine.execRet f s
  | .loop f => Sys2Proof.Machine.execLoop f s
  | .jidx f => Sys2Proof.Machine.execJidx f s
  | .id f => Sys2Proof.Machine.execId f s
  | .view f => Sys2Proof.Machine.execView f s
  | .xset f => Sys2Proof.Machine.execXset f s
  | .xadd f => Sys2Proof.Machine.execXadd f s
  | .many f => Sys2Proof.Machine.execMany f s
  | .mall f => Sys2Proof.Machine.execMall f s
  | .mlog f => Sys2Proof.Machine.execMlog f s
  | .mfrom f => Sys2Proof.Machine.execMfrom f s
  | .vadd f => Sys2Proof.Machine.execVadd f s
  | .vsub f => Sys2Proof.Machine.execVsub f s
  | .vmul f => Sys2Proof.Machine.execVmul f s
  | .vmulh f => Sys2Proof.Machine.execVmulh f s
  | .vfma f => Sys2Proof.Machine.execVfma f s
  | .vfms f => Sys2Proof.Machine.execVfms f s
  | .vmin f => Sys2Proof.Machine.execVmin f s
  | .vmax f => Sys2Proof.Machine.execVmax f s
  | .vabs f => Sys2Proof.Machine.execVabs f s
  | .vneg f => Sys2Proof.Machine.execVneg f s
  | .vdiv f => Sys2Proof.Machine.execVdiv f s
  | .vrcp f => Sys2Proof.Machine.execVrcp f s
  | .vrsq f => Sys2Proof.Machine.execVrsq f s
  | .vsqrt f => Sys2Proof.Machine.execVsqrt f s
  | .vexp2 f => Sys2Proof.Machine.execVexp2 f s
  | .vlog2 f => Sys2Proof.Machine.execVlog2 f s
  | .vsinp f => Sys2Proof.Machine.execVsinp f s
  | .vcosp f => Sys2Proof.Machine.execVcosp f s
  | .vand f => Sys2Proof.Machine.execVand f s
  | .vor f => Sys2Proof.Machine.execVor f s
  | .vxor f => Sys2Proof.Machine.execVxor f s
  | .vnot f => Sys2Proof.Machine.execVnot f s
  | .vshl f => Sys2Proof.Machine.execVshl f s
  | .vshr f => Sys2Proof.Machine.execVshr f s
  | .vsra f => Sys2Proof.Machine.execVsra f s
  | .vpopc f => Sys2Proof.Machine.execVpopc f s
  | .vclz f => Sys2Proof.Machine.execVclz f s
  | .vcmp f => Sys2Proof.Machine.execVcmp f s
  | .vsel f => Sys2Proof.Machine.execVsel f s
  | .vcvt f => Sys2Proof.Machine.execVcvt f s
  | .vpack f => Sys2Proof.Machine.execVpack f s
  | .vunpk f => Sys2Proof.Machine.execVunpk f s
  | .vscale f => Sys2Proof.Machine.execVscale f s
  | .vquant f => Sys2Proof.Machine.execVquant f s
  | .vmov f => Sys2Proof.Machine.execVmov f s
  | .vbc f => Sys2Proof.Machine.execVbc f s
  | .vext f => Sys2Proof.Machine.execVext f s
  | .vins f => Sys2Proof.Machine.execVins f s
  | .vshuf f => Sys2Proof.Machine.execVshuf f s
  | .vidx f => Sys2Proof.Machine.execVidx f s
  | .vred f => Sys2Proof.Machine.execVred f s
  | .vscan f => Sys2Proof.Machine.execVscan f s
  | .ld f => Sys2Proof.Machine.execLd f s
  | .ldFormat f => Sys2Proof.Machine.execLdFormat f s
  | .st f => Sys2Proof.Machine.execSt f s
  | .sld f => Sys2Proof.Machine.execSld f s
  | .sst f => Sys2Proof.Machine.execSst f s
  | .ldg f => Sys2Proof.Machine.execLdg f s
  | .stg f => Sys2Proof.Machine.execStg f s
  | .lds f => Sys2Proof.Machine.execLds f s
  | .sts f => Sys2Proof.Machine.execSts f s
  | .ldsb f => Sys2Proof.Machine.execLdsb f s
  | .atom f => Sys2Proof.Machine.execAtom f s
  | .atomsc f => Sys2Proof.Machine.execAtomsc f s
  | .cas f => Sys2Proof.Machine.execCas f s
  | .lease f => Sys2Proof.Machine.execLease f s
  | .unlease f => Sys2Proof.Machine.execUnlease f s
  | .qlock f => Sys2Proof.Machine.execQlock f s
  | .qunlock f => Sys2Proof.Machine.execQunlock f s
  | .acq f => Sys2Proof.Machine.execAcq f s
  | .rel f => Sys2Proof.Machine.execRel f s
  | .fence f => Sys2Proof.Machine.execFence f s
  | .acpy f => Sys2Proof.Machine.execAcpy f s
  | .acpyb f => Sys2Proof.Machine.execAcpyb f s
  | .pref f => Sys2Proof.Machine.execPref f s
  | .retain f => Sys2Proof.Machine.execRetain f s
  | .cacheClean f => Sys2Proof.Machine.execCacheClean f s
  | .cacheEvict f => Sys2Proof.Machine.execCacheEvict f s
  | .cacheDemote f => Sys2Proof.Machine.execCacheDemote f s
  | .cacheIinv f => Sys2Proof.Machine.execCacheIinv f s
  | .evwait f => Sys2Proof.Machine.execEvwait f s
  | .evpoll f => Sys2Proof.Machine.execEvpoll f s
  | .qsend f => Sys2Proof.Machine.execQsend f s
  | .qrecv f => Sys2Proof.Machine.execQrecv f s
  | .qtrys f => Sys2Proof.Machine.execQtrys f s
  | .qtryr f => Sys2Proof.Machine.execQtryr f s
  | .qallowInit f => Sys2Proof.Machine.execQallowInit f s
  | .qallow f => Sys2Proof.Machine.execQallow f s
  | .qdepth f => Sys2Proof.Machine.execQdepth f s
  | .bexp f => Sys2Proof.Machine.execBexp f s
  | .barv f => Sys2Proof.Machine.execBarv f s
  | .bwait f => Sys2Proof.Machine.execBwait f s
  | .btest f => Sys2Proof.Machine.execBtest f s
  | .narr f => Sys2Proof.Machine.execNarr f s
  | .nwait f => Sys2Proof.Machine.execNwait f s
  | .njoin f => Sys2Proof.Machine.execNjoin f s
  | .nleave f => Sys2Proof.Machine.execNleave f s
  | .mtile f => Sys2Proof.Machine.execMtile f s
  | .mloop f => Sys2Proof.Machine.execMloop f s
  | .mbatch f => Sys2Proof.Machine.execMbatch f s
  | .msplit f => Sys2Proof.Machine.execMsplit f s
  | .wload f => Sys2Proof.Machine.execWload f s
  | .aclr f => Sys2Proof.Machine.execAclr f s
  | .acmov f => Sys2Proof.Machine.execAcmov f s
  | .acld f => Sys2Proof.Machine.execAcld f s
  | .acst f => Sys2Proof.Machine.execAcst f s
  | .msync f => Sys2Proof.Machine.execMsync f s
  | .mstat f => Sys2Proof.Machine.execMstat f s
  | .tenq f => Sys2Proof.Machine.execTenq f s
  | .genq f => Sys2Proof.Machine.execGenq f s
  | .tdepAdd f => Sys2Proof.Machine.execTdepAdd f s
  | .tdepDone f => Sys2Proof.Machine.execTdepDone f s
  | .retire f => Sys2Proof.Machine.execRetire f s
  | .chain f => Sys2Proof.Machine.execChain f s
  | .xcopy f => Sys2Proof.Machine.execXcopy f s
  | .xwait f => Sys2Proof.Machine.execXwait f s
  | .xstat f => Sys2Proof.Machine.execXstat f s
  | .crcv f => Sys2Proof.Machine.execCrcv f s
  | .bquota f => Sys2Proof.Machine.execBquota f s
  | .bmake f => Sys2Proof.Machine.execBmake f s
  | .bmakeRaw f => Sys2Proof.Machine.execBmakeRaw f s
  | .btrav f => Sys2Proof.Machine.execBtrav f s
  | .bpop f => Sys2Proof.Machine.execBpop f s
  | .bfree f => Sys2Proof.Machine.execBfree f s
  | .bfreeAll f => Sys2Proof.Machine.execBfreeAll f s
  | .bemit f => Sys2Proof.Machine.execBemit f s
  | .brecv f => Sys2Proof.Machine.execBrecv f s
  | .raymk f => Sys2Proof.Machine.execRaymk f s
  | .raytrav f => Sys2Proof.Machine.execRaytrav f s
  | .nodewr f => Sys2Proof.Machine.execNodewr f s
  | .bcov f => Sys2Proof.Machine.execBcov f s
  | .bcovCell f => Sys2Proof.Machine.execBcovCell f s
  | .bfoot f => Sys2Proof.Machine.execBfoot f s
  | .msend f => Sys2Proof.Machine.execMsend f s
  | .mret f => Sys2Proof.Machine.execMret f s
  | .waitq f => Sys2Proof.Machine.execWaitq f s
  | .quietst f => Sys2Proof.Machine.execQuietst f s
  | .himport f => Sys2Proof.Machine.execHimport f s
  | .hrevoke f => Sys2Proof.Machine.execHrevoke f s
  | .hrevokeExp f => Sys2Proof.Machine.execHrevokeExp f s
  | .time f => Sys2Proof.Machine.execTime f s
  | .twidth f => Sys2Proof.Machine.execTwidth f s
  | .stsc f => Sys2Proof.Machine.execStsc f s
  | .ldas f => Sys2Proof.Machine.execLdas f s
  | .cwait f => Sys2Proof.Machine.execCwait f s
  | .trap f => Sys2Proof.Machine.execTrap f s
  | .eret f => Sys2Proof.Machine.execEret f s
  | .brk f => Sys2Proof.Machine.execBrk f s
  | .waiti f => Sys2Proof.Machine.execWaiti f s
  | .haltdHalt f => Sys2Proof.Machine.execHaltdHalt f s
  | .haltdQuery f => Sys2Proof.Machine.execHaltdQuery f s
  | .haltdResume f => Sys2Proof.Machine.execHaltdResume f s
  | .rdsr f => Sys2Proof.Machine.execRdsr f s
  | .wrsr f => Sys2Proof.Machine.execWrsr f s
  | .fltrd f => Sys2Proof.Machine.execFltrd f s
  | .preack f => Sys2Proof.Machine.execPreack f s
  | .ctxsave f => Sys2Proof.Machine.execCtxsave f s
  | .ctxload f => Sys2Proof.Machine.execCtxload f s
  | .tlbinv f => Sys2Proof.Machine.execTlbinv f s
  | .hqtailDoorbell dev queue v => Sys2Proof.Machine.execHqtailDoorbell dev queue v s
  | .hqctlWrite dev queue v => Sys2Proof.Machine.execHqctlWrite dev queue v s
  | .queueEntryFetch dev queue => Sys2Proof.Machine.execQueueEntryFetch dev queue s
  | .recordAcceptance rec => Sys2Proof.Machine.execRecordAcceptance rec s
  | .gangPlacement die sizes => Sys2Proof.Machine.execGangPlacement die sizes s
  | .agingReservation die => Sys2Proof.Machine.execAgingReservation die s
  | .activation die core => Sys2Proof.Machine.execActivation die core s
  | .deactivation group => Sys2Proof.Machine.execDeactivation group s
  | .regrouping die node count => Sys2Proof.Machine.execRegrouping die node count s
  | .chainSuccessorPlacement die core => Sys2Proof.Machine.execChainSuccessorPlacement die core s
  | .gangRetire gang => Sys2Proof.Machine.execGangRetire gang s
  | .taskRetire task => Sys2Proof.Machine.execTaskRetire task s
  | .launchComplete launch => Sys2Proof.Machine.execLaunchComplete launch s
  | .flushReadComplete launch link => Sys2Proof.Machine.execFlushReadComplete launch link s
  | .evictionRequest gang => Sys2Proof.Machine.execEvictionRequest gang s
  | .prenoteTimeout gang => Sys2Proof.Machine.execPrenoteTimeout gang s
  | .eviction gang => Sys2Proof.Machine.execEviction gang s
  | .restore gang => Sys2Proof.Machine.execRestore gang s
  | .walkComplete die core va => Sys2Proof.Machine.execWalkComplete die core va s
  | .peerStoreAck store => Sys2Proof.Machine.execPeerStoreAck store s
  | .homeRefusal store => Sys2Proof.Machine.execHomeRefusal store s
  | .leaseGrant die core line => Sys2Proof.Machine.execLeaseGrant die core line s
  | .leaseExpiry die core line => Sys2Proof.Machine.execLeaseExpiry die core line s
  | .copyComplete die core copy => Sys2Proof.Machine.execCopyComplete die core copy s
  | .kStep die core => Sys2Proof.Machine.execKStep die core s
  | .matrixOpComplete die core op => Sys2Proof.Machine.execMatrixOpComplete die core op s
  | .dillJobStart engine => Sys2Proof.Machine.execDillJobStart engine s
  | .dillJobComplete engine choice ecode => Sys2Proof.Machine.execDillJobComplete engine choice ecode s
  | .routineTimeLimit engine written => Sys2Proof.Machine.execRoutineTimeLimit engine written s
  | .dxrtWrite engine imem index v => Sys2Proof.Machine.execDxrtWrite engine imem index v s
  | .beamSplit gang team => Sys2Proof.Machine.execBeamSplit gang team s
  | .beamEndsClear gang team => Sys2Proof.Machine.execBeamEndsClear gang team s
  | .traversalComplete gang team ray => Sys2Proof.Machine.execTraversalComplete gang team ray s
  | .traversalFault gang team ray => Sys2Proof.Machine.execTraversalFault gang team ray s
  | .rayTrace gang team => Sys2Proof.Machine.execRayTrace gang team s
  | .rasteriser rec => Sys2Proof.Machine.execRasteriser rec s
  | .binnerRecord rec => Sys2Proof.Machine.execBinnerRecord rec s
  | .blender rec => Sys2Proof.Machine.execBlender rec s
  | .beamRequest rec => Sys2Proof.Machine.execBeamRequest rec s
  | .messageArrival msg => Sys2Proof.Machine.execMessageArrival msg s
  | .messageDelivery msg => Sys2Proof.Machine.execMessageDelivery msg s
  | .waveStart => Sys2Proof.Machine.execWaveStart s
  | .wavePass wave => Sys2Proof.Machine.execWavePass wave s
  | .packetLoss msg => Sys2Proof.Machine.execPacketLoss msg s
  | .linkSleep die => Sys2Proof.Machine.execLinkSleep die s
  | .linkWake die => Sys2Proof.Machine.execLinkWake die s
  | .deadDie die => Sys2Proof.Machine.execDeadDie die s
  | .syncExchange die e l => Sys2Proof.Machine.execSyncExchange die e l s
  | .horizonAdvance => Sys2Proof.Machine.execHorizonAdvance s
  | .horizonDelivery die => Sys2Proof.Machine.execHorizonDelivery die s
  | .stampedStoreArrival store => Sys2Proof.Machine.execStampedStoreArrival store s
  | .commitWaitCap store => Sys2Proof.Machine.execCommitWaitCap store s
  | .cwaitCap group => Sys2Proof.Machine.execCwaitCap group s
  | .waitiTimeout group => Sys2Proof.Machine.execWaitiTimeout group s
  | .ptmExchange ns => Sys2Proof.Machine.execPtmExchange ns s
  | .linkDown => Sys2Proof.Machine.execLinkDown s
  | .linkUp width => Sys2Proof.Machine.execLinkUp width s
  | .computeDieReset die contents => Sys2Proof.Machine.execComputeDieReset die contents s
  | .functionReady mem bit up => Sys2Proof.Machine.execFunctionReady mem bit up s
  | .firmwareBoot image signed ns => Sys2Proof.Machine.execFirmwareBoot image signed ns s
  | .measurementExtend slot object => Sys2Proof.Machine.execMeasurementExtend slot object s
  | .budgetControl die pwr temp budget => Sys2Proof.Machine.execBudgetControl die pwr temp budget s
  | .worldRegisterWrite reg v host => Sys2Proof.Machine.execWorldRegisterWrite reg v host s
  | .worldChangeEffect block => Sys2Proof.Machine.execWorldChangeEffect block s
  | .formatWindowWrite die window ctl v => Sys2Proof.Machine.execFormatWindowWrite die window ctl v s
  | .residencyRangeWrite die range ctl v => Sys2Proof.Machine.execResidencyRangeWrite die range ctl v s
  | .cmpcfgWrite die v => Sys2Proof.Machine.execCmpcfgWrite die v s
  | .registerWrite off v host => Sys2Proof.Machine.execRegisterWrite off v host s
  | .uncorrectableError line => Sys2Proof.Machine.execUncorrectableError line s
  | .illegalInstruction word detail => Sys2Proof.Machine.execIllegalInstruction word detail s
  | .fetchFault cause detail addr => Sys2Proof.Machine.execFetchFault cause detail addr s

end Sys2Proof.Machine
end

