-- ==== Sys2Proof/Machine/Run.lean ====
section
/-! DEFINITION. Fetching (spec/04 R57-R59, R78), and which agent moves: the issuing group, an event of the module, a cache
(spec/02 R35-R38). -/

namespace Sys2Proof.Machine

/-! ## Fetch (R57-R59) -/

/-- A fetch fault: cause, detail and the address of the first byte that could not be fetched. -/
abbrev FetchErr := BitVec 8 × BitVec 8 × Word
/-- Physical place of an instruction byte, through the page of its own address, and that page's leaf. -/
def State.fetchPlace (s : State) (va : Nat) : Except FetchErr (Nat × Nat) :=
  match s.translate s.g.die (some s.g.core) s.gSecure .x clsNormal va with
  | .ok x => .ok (memKey s.g.die x.ofs, x.leaf)
  | .error r => .error (r.cause, r.detail, BitVec.ofNat 64 va)
/-- The places of the 12 bytes: the lower page is translated first (R58). -/
def State.fetchPlaces (s : State) (pc : Nat) : Except FetchErr (List Nat) :=
  let low := Nat.min 12 (4096 - pc % 4096)
  match s.fetchPlace pc with
  | .error e => .error e
  | .ok (k, _) =>
    if low = 12 then .ok ((List.range 12).map fun i => k + i)
    else
      match s.fetchPlace (pc + low) with
      | .error e => .error e
      | .ok (k2, _) => .ok ((List.range low).map (fun i => k + i) ++ (List.range (12 - low)).map fun i => k2 + i)
/-- The translation of a fetched byte stands in the TLBs (R181). -/
def State.fetchTlb (s : State) (va : Nat) : State :=
  match s.fetchPlace va with
  | .ok (_, leaf) => s.fillTlb s.g.die s.g.core va leaf
  | .error _ => s
/-- Bytes of a core's instruction cache: 64 KiB (R16). -/
def icBytes : Nat := 65536
/-- A full instruction cache gives up a line for another, none of those of the word that is fetched (R16). -/
def icRoom (t : Table Byte) (word : List Nat) : Table Byte :=
  if t.length < icBytes then t
  else match t.find? fun e => !(word.map lineOf).contains (lineOf e.1) with
    | some v => t.filter fun e => decide (lineOf e.1 ≠ lineOf v.1)
    | none => t
/-- An instruction byte of a word that the core's instruction cache lacks is filled from the home copy (R59). -/
def State.icFill (s : State) (die core : Nat) (word : List Nat) (k : Nat) : State :=
  s.modCore die core fun c => { c with icache :=
    if (kget c.icache k).isSome then c.icache else kset (icRoom c.icache word) k (bget s.mem k) }
/-- A byte is in the instruction cache. -/
def State.icHas (s : State) (die core k : Nat) : Bool := (kget (s.core die core).icache k).isSome
/-- The word of the instruction that the group waits in: it has been fetched (R38, R267, R268, R279). -/
def Group.inHand (g : Group) : Option IWord := if g.wait = .run then none else g.issued
/-- The first byte of some at the program counter that cannot be fetched: it is missing, and its line is poisoned (R193). -/
def State.badByte (s : State) (ks : List Nat) : Option FetchErr :=
  (ks.zipIdx.find? fun k => !s.icHas s.g.die s.g.core k.1 && s.lineBad k.1).map fun k => (cPOISON, 0, s.g.pc + BitVec.ofNat 64 k.2)
/-- Places of the bytes that the page of the first holds. -/
def State.lowPlaces (s : State) (pc : Nat) : List Nat :=
  match s.fetchPlace pc with
  | .ok (k, _) => (List.range (Nat.min 12 (4096 - pc % 4096))).map fun i => k + i
  | .error _ => []
/-- The word at the program counter, and the state with its bytes in the instruction cache, or the first byte that could not be fetched: of
a word on two pages the lower page's bytes come before the upper page's (R58, R193; log entry 15). A group that waits in an instruction
completes that one, and fetches none. -/
def State.fetch (s : State) : Except FetchErr (IWord × State) :=
  match s.g.inHand with
  | some w => .ok (w, s)
  | none =>
    match s.fetchPlaces s.g.pc.toNat with
    | .error e => .error ((s.badByte (s.lowPlaces s.g.pc.toNat)).getD e)
    | .ok ks =>
      match s.badByte ks with
      | some e => .error e
      | none =>
        let s := (s.fetchTlb s.g.pc.toNat).fetchTlb (s.g.pc.toNat + 11)
        let s := ks.foldl (fun s k => s.icFill s.g.die s.g.core ks k) s
        let w := wordOfBytes (ks.map fun k => (kget (s.core s.g.die s.g.core).icache k).getD 0)
        .ok (w, s.setG { s.g with issued := some w })

/-! ## The issuing group -/

/-- A group's PRENOTE goes before its instruction, unless that has already come to its end (R333, R38). -/
def State.noteFirst (s : State) : Bool := s.noteDue s.g && (match s.g.wait with | .ready _ => false | _ => true)
/-- The issuing group executes the instruction at its program counter (R78); one that ends by a fault ends once its peer stores are
performed (R320, R328). -/
def State.runGroup (s : State) : Res :=
  if s.noteFirst then .next s.deliverPrenote
  else if s.g.isEnding then .next (if s.storesOut s.g.uid then s else s.endGroup)
  else
    match s.fetch with
    | .error e => execFetchFault e.1 e.2.1 e.2.2 s
    | .ok (w, s) =>
      match decodeWord w with
      | .ok i => exec i s
      | .error d => execIllegalInstruction w d.code s
/-- A group can issue: it is active, its core is not halted, and it is not blocked (R35, R36, R339). -/
def State.canIssue (s : State) (g : Group) : Bool := decide (g.life = .active) && !(s.core g.die g.core).halted && s.unblocked g
/-- Round-robin order from the issuing group on; a place without a group is left out. -/
def State.order (s : State) : List Group := if s.g.life = .absent then s.rest else s.groups
/-- The first group of an order that satisfies a test comes to issue; the order behind it is kept. -/
def State.focus (s : State) (p : Group → Bool) : Option State :=
  let gs := s.order
  match gs.dropWhile fun g => !p g with
  | g :: after => some { s with g := g, rest := after ++ gs.takeWhile fun g => !p g }
  | [] => none
/-- The next group in round-robin order stands first. -/
def State.rotate (s : State) : State :=
  match s.rest with
  | [] => s
  | g :: gs => { s with g := g, rest := if s.g.life = .absent then gs else gs ++ [s.g] }

/-! ## Events that need no choice from outside -/

/-- What an event does; a name for the meaning of its instruction. -/
abbrev Event := State → Res
/-- Cores that hold something. -/
def State.coreList (s : State) : List (Nat × Nat) :=
  ((List.range 8).flatMap fun d => (List.range 40).map fun c => (d, c)).filter fun e =>
    (kget s.cores (64 * e.1 + e.2)).isSome || s.groups.any fun g => decide (g.life ≠ .absent) && g.die = e.1 && g.core = e.2
/-- A list turned so that another place stands first. -/
def turned {α : Type} (l : List α) (n : Nat) : List α := l.drop (n % l.length) ++ l.take (n % l.length)
/-- Events of cores, by kind, the cores turned so that another stands first. -/
def State.coreEvents (s : State) (turn : Nat) : List (List Event) :=
  let cs := turned s.coreList turn
  let each (f : Nat → Nat → Core → List Event) : List Event := cs.flatMap fun e => f e.1 e.2 (s.core e.1 e.2)
  [each fun d k c => c.leases.map fun l => execLeaseExpiry d k l.line, each fun d k c => c.leaseReq.map fun r => execLeaseGrant d k r.2.2.1,
    each fun d k c => c.copies.map fun x => execCopyComplete d k x.id, each fun d k c => if c.mops.isEmpty then [] else [execKStep d k],
    each fun d k c => c.mops.map fun m => execMatrixOpComplete d k m.id,
    each fun d k c => if c.chains.isEmpty then [] else [execChainSuccessorPlacement d k], each fun d k _ => [execActivation d k]]
/-- Events of traversals. -/
def travEvents (t : Nat × Team) : List Event :=
  let g := t.1 / 32
  let i := t.1 % 32
  (if t.2.trav.isSome then [execBeamEndsClear g i, execBeamSplit g i, execTraversalFault g i false, execTraversalComplete g i false] else [])
    ++ (if t.2.rtrav.isSome then [execRayTrace g i, execTraversalFault g i true, execTraversalComplete g i true] else [])
/-- Events of graph records: a node's unit, and a batch of what stands at it (R39). -/
def State.graphEvents (s : State) : List Event :=
  (s.fab.graph.flatMap fun r => [execRasteriser r.id, execBinnerRecord r.id, execBlender r.id, execBeamRequest r.id])
    ++ (s.fab.graph.map fun r => execRegrouping r.die r.node
      (Nat.min 64 ((s.atNode r.die r.node).takeWhile fun q => decide (q.launch = r.launch)).length))
/-- Events of gangs and groups, by kind. -/
def State.gangEvents (s : State) : List (List Event) := [
  s.gangs.flatMap fun k => [execGangRetire k.1, execPrenoteTimeout k.1, execEviction k.1, execRestore k.1],
  (s.groups.filter fun g => decide (g.life = .active) && (!s.unblocked g || s.slotDue g.die g.core)).map fun g => execDeactivation g.uid,
  (s.groups.filter fun g => g.isHeld).map fun g => execWaitiTimeout g.uid,
  (s.groups.filter fun g => g.isBlocked).map fun g => execCwaitCap g.uid]
/-- Events of launches, queues and the fabric, by kind: the oldest of a list stands first, dies, engines and queues go round. -/
def State.moduleEvents (s : State) (turn : Nat) : List (List Event) :=
  let fab := s.fab
  let dies := turned (List.range 8) turn
  let idle := s.tasks.isEmpty && s.gangs.isEmpty
  [fab.msgs.map fun m => fun s => .next (s.inject m.id), fab.msgs.map fun m => execMessageArrival m.id, fab.msgs.map fun m => execMessageDelivery m.id,
    fab.recs.map fun r => execRecordAcceptance r.id,
    fab.stores.flatMap fun p => [execPeerStoreAck p.id, execHomeRefusal p.id],
    fab.stamped.flatMap fun w => [execStampedStoreArrival w.id, execCommitWaitCap w.id],
    s.dills.map fun e => execDillJobStart e.1, (turned s.dills turn).map fun e => fun s => .next (s.routineStep e.1),
    (turned s.dills turn).map fun e => execDillJobComplete e.1 [] 0,
    s.tasks.map fun t => execTaskRetire t.1,
    if idle then [] else dies.map fun d => execGangPlacement d [],
    (dies.filter fun d => (s.die d).asleep && s.cache.dir.any fun e => e.2.sharers.getLsbD d).map fun d => execLinkWake d,
    if idle then [] else dies.map fun d => execAgingReservation d,
    ((List.range 122).filter s.worldPending).map fun b => execWorldChangeEffect b,
    s.launches.flatMap fun l => l.2.links.map (fun k => execFlushReadComplete l.1 k) ++ [execLaunchComplete l.1],
    (turned s.mreg turn).filterMap fun e =>
      if 0x1000000 ≤ e.1 && e.1 % 0x1000 = 8 then some (execQueueEntryFetch ((e.1 - 0x1000000) / 0x10000) (e.1 % 0x10000 / 0x1000)) else none]
/-- Events that recur: waves while a launch or a request needs them, the horizon. -/
def State.lastEvents (s : State) : List (List Event) := [
  s.hub.waves.map fun w => execWavePass w.num,
  if s.hub.waveReq = 0 && (s.launches.isEmpty || !s.hub.waves.isEmpty) then [] else [execWaveStart],
  [execHorizonAdvance]] ++ (List.range 8).map fun d => [execHorizonDelivery d]
/-- What an event changes; none where it leaves the state as it is. -/
def State.tryEvent (s : State) (e : Event) : Option State :=
  match e s with
  | .next s' => if s' = s then none else some s'
  | _ => none
/-- Every candidate. What recurs comes first at every fourth event and last otherwise; else the kinds go round, and after each round of the
kinds what a kind holds goes round too, so that none waits for ever (log entry 10). -/
def State.candidates (s : State) : List Event :=
  let n := s.evNext - (s.evNext + 1) / 4
  let kinds (turn : Nat) : List (List Event) :=
    s.coreEvents turn ++ s.moduleEvents turn ++ s.gangEvents ++ [(turned s.teams turn).flatMap travEvents, turned s.graphEvents turn]
  let once := (turned (kinds (n / (kinds 0).length)) n).flatten
  let again := (turned s.lastEvents (s.evNext / 4)).flatten
  if s.evNext % 4 = 3 then again ++ once else once ++ again
/-- The next event that changes something. -/
def State.firstEvent (s : State) : Option State :=
  (s.candidates.findSome? s.tryEvent).map fun t => { t with evNext := s.evNext + 1 }

/-! ## Turns -/

/-- An instruction that is an event of its own; an illegal word and a fetch fault are a group's. -/
def isEvent (i : Instr) : Bool :=
  i.parts.isNone && (match i with | .illegalInstruction .. | .fetchFault .. => false | _ => true)
/-- Time passes. -/
def State.tick (s : State) (n : Nat) : State := { s with now := s.now + n }
/-- Cycles pass: who is blocked does not wait for a slot (R35), and what has been written back to compressed lines stands in their codes
(R190). -/
def State.elapse (s : State) (n : Nat) : State := (s.tick n).settleWaits.settleCodes
/-- The same for an outcome. -/
def tickRes (n : Nat) : Res → Res
  | .next s => .next (s.elapse n)
  | r => r
/-- Places that hold memory: the dies' and the host's. -/
def inMemory (k n : Nat) : Bool := decide (k + n ≤ memKey 8 0) || (decide (hostKey 0 ≤ k) && decide (k + n ≤ hostKey (2 ^ 64)))
/-! ## Divided accesses (R229, R232, R239, R245) -/

/-- The instruction that the issuing group would issue. -/
def State.nextInstr (s : State) : Option Instr :=
  match s.fetch with
  | .ok (w, _) => (match decodeWord w with | .ok i => some i | .error _ => none)
  | .error _ => none
/-- Its opcode, function and fields. -/
abbrev Parts := Nat × Nat × Fields
/-- It loads from memory or the scratchpad, and it stores to memory, or to the scratchpad. -/
def opLoads (o : Parts) : Bool := (o.1 = 0x50 && (o.2.1 = 0 || o.2.1 = 2 || o.2.1 = 4)) || (o.1 = 0x51 && o.2.1 ≠ 1)
def opStores (o : Parts) : Bool := o.1 = 0x50 && (o.2.1 = 1 || o.2.1 = 3 || o.2.1 = 5)
def opSts (o : Parts) : Bool := o.1 = 0x51 && o.2.1 = 1
/-- It reads memory or the scratchpad as a plain load does: such loads, and TENQ, GENQ, XCOPY and CRCV (R318, R360, R363). -/
def opReads (o : Parts) : Bool := (opLoads o && o.2.2.ord = 0) || o.1 = 0x90 || o.1 = 0x98
/-- It is no release side of R230 and tells nobody what its core has seen: work on registers, loads, stores and atomics, and EVWAIT, EVPOLL,
BWAIT, BTEST, MSYNC, XWAIT and XSTAT. A release tells at its write-back. -/
def opSilent (o : Parts) : Bool :=
  decide (o.1 < 0x53) || ([(0x57, 0), (0x57, 1), (0x71, 2), (0x71, 3), (0x83, 0), (0x98, 1), (0x98, 2)] : List (Nat × Nat)).contains (o.1, o.2.1)
/-- A group comes to issue, if it can. -/
def State.focusOn (s : State) (uid : Nat) : Option State := s.focus fun g => g.uid = uid && s.canIssue g
/-- The state in which a group issues, with what it would issue. -/
def State.issuing (s : State) (uid : Nat) : Option (State × Parts) :=
  (s.focusOn uid).bind fun s => (s.nextInstr.bind (·.parts)).map fun o => (s, o)

/-- A place of the scratchpads. -/
def inSpad (k : Nat) : Bool := decide (2 ^ 70 ≤ k)
/-- A byte of a store that was still to come is performed. -/
def State.performByte (s : State) (die core : Nat) (b : Nat × Byte) : State :=
  if inSpad b.1 then s.spadWrite ((b.1 - 2 ^ 70) / 2 ^ 25) ((b.1 - 2 ^ 70) / 2 ^ 20 % 32) (b.1 % 2 ^ 20) [b.2] else s.storeByte die core b.1 b.2
/-- Of a group's store that is still to be performed, the bytes that a test names by their numbers are (R229). -/
def State.perform (s : State) (uid : Nat) (p : Nat → Bool) : State :=
  let (mine, others) := s.split.late.partition fun l => l.uid = uid
  let kept := (mine.map fun l => { l with bytes := (l.bytes.zipIdx.filter fun b => !p b.2).map (·.1) }).filter fun l => !l.bytes.isEmpty
  let s := mine.foldl (fun s l => (l.bytes.zipIdx.filter fun b => p b.2).foldl (fun s b => s.performByte l.die l.core b.1) s) s
  { s with split := { s.split with late := others ++ kept } }
/-- No access is divided any more: what was to come has come, and every core sees every store. -/
def State.settled (s : State) : State :=
  if s.split = {} then s
  else { s.split.late.foldl (fun s l => l.bytes.foldl (fun s b => s.performByte l.die l.core b) s) s with split := {} }
/-- What an agent has done ahead. -/
def State.ahead (s : State) (who : Nat) : Early := (s.split.early.find? fun e => e.who = who).getD { who := who }
/-- The same replaced. -/
def State.setAhead (s : State) (e : Early) : State :=
  { s with split := { s.split with early := (s.split.early.filter fun x => decide (x.who ≠ e.who)) ++ [e] } }
/-- An instruction or event of an agent runs with what it has done ahead; that is over once it has changed the state, unless it keeps it. -/
def State.runAhead (s : State) (who : Nat) (keep : State → Bool) (run : State → Res) : Res :=
  let e := s.ahead who
  match run { s with split := { s.split with read := e.read, wrote := e.wrote } } with
  | .next t =>
    let t := { t with split := { t.split with read := [], wrote := [] } }
    .next (if keep t then t else { t with split := { t.split with early := t.split.early.filter fun x => decide (x.who ≠ who) } })
  | r => r

/-- The issuing group's turn. What its last store still had to perform is performed, what its core has seen is seen by all unless the
instruction tells nobody, and a plain load takes the bytes it has read ahead; they are forgotten unless it waits. -/
def State.runTurn (s : State) : Res :=
  if s.split = {} then s.runGroup
  else
    let s := s.perform s.g.uid fun _ => true
    let o := s.nextInstr.bind (·.parts)
    let s := if o.any opSilent then s else s.publish s.g.die s.g.core
    let s := if o.any opReads then s else s.setAhead { who := s.g.uid }
    s.runAhead s.g.uid (fun t => t.g.uid = s.g.uid && t.g.pc = s.g.pc && t.g.wait ≠ .run) State.runGroup
/-- Number of an operation whose accesses race byte by byte until it has joined (R239), by the event that ends it or takes it on; none while
it has not begun. -/
def State.operation (s : State) (e : Instr) : Option Nat :=
  match e with
  | .matrixOpComplete d c op => if (s.core d c).mops.any fun m => m.id = op then some op else none
  | .beamSplit g i | .beamEndsClear g i | .traversalComplete g i false | .traversalFault g i false => (s.team g i).trav.map (·.id)
  | .rayTrace g i | .traversalComplete g i true | .traversalFault g i true => (s.team g i).rtrav.map (·.id)
  | _ => none
/-- Operations that have begun, by number. -/
def State.operations (s : State) : List Nat :=
  (s.cores.flatMap fun c => c.2.mops.map (·.id)) ++ s.teams.flatMap fun t => (t.2.trav.map (·.id)).toList ++ (t.2.rtrav.map (·.id)).toList
/-- An event that leaves groups where they are and grants nobody a line: divided accesses stay divided over it. -/
def leavesDivided : Instr → Bool
  | .copyComplete .. | .kStep .. | .matrixOpComplete .. | .dillJobStart .. | .dillJobComplete .. | .routineTimeLimit .. | .peerStoreAck ..
  | .homeRefusal .. | .stampedStoreArrival .. | .commitWaitCap .. | .cwaitCap .. | .horizonAdvance | .horizonDelivery .. | .messageArrival ..
  | .messageDelivery .. | .recordAcceptance .. | .beamSplit .. | .beamEndsClear .. | .rayTrace .. | .traversalComplete .. | .traversalFault ..
  | .activation .. | .deactivation .. | .linkWake .. | .waveStart | .wavePass .. => true
  | _ => false
/-- An event of the module; an operation's takes what it has done ahead, until it changes something. -/
def State.runEvent (s : State) (e : Instr) : Res :=
  if s.split = {} then exec e s
  else
    let s := if leavesDivided e then s else s.settled
    match s.operation e with
    | some op => s.runAhead op (fun t => t = s) (exec e)
    | none => exec e s

/-- A peer store on its way travels in two parts, by the places of its bytes in their line. -/
def State.splitStore (s : State) (id mask : Nat) : State :=
  match s.fab.stores.find? fun p => p.id = id with
  | none => s
  | some p =>
    let (a, b) := p.bytes.partition fun x => mask.testBit ((p.ofs + x.1) % 128)
    if a.isEmpty || b.isEmpty then s
    else
      let (new, s) := s.take
      { s with fab := { s.fab with
          stores := (s.fab.stores.map fun q => if q.id = id then { q with bytes := a } else q) ++ [{ p with id := new, bytes := b }] } }

/-- A turn of one step. -/
def State.simpleTurn (s : State) (t : Turn) : Res :=
  match t with
  | .group uid =>
    (match s.focusOn uid with
     | some s => tickRes 1 s.runTurn
     | none => .next s)
  | .event e => if isEvent e then s.runEvent e else .next s
  | .l1Drop d c line => .next (s.dropLine d c line)
  | .icDrop d c k => .next (s.modCore d c fun x => { x with icache := kdel x.icache k })
  | .tlbDrop d c dev va => .next (s.modCore d c fun x => { x with tlb := x.tlb.filter fun e => !invHit dev false va 1 e })
  | .dieTlbDrop d dev va => .next (s.modDie d fun x => { x with tlb := x.tlb.filter fun e => !invHit dev false va 1 e })
  | .sideDrop line block => .next { s with side := s.side.map fun e =>
      if e.1 = line then (e.1, { e.2 with scales := kdel e.2.scales block }) else e }
  | .copyLine d c id => .next (s.copyLine d c id)
  | .l1Fill d c line => .next (if decide (c < 40) && dieOfKey (128 * line) = d && !s.lineBad (128 * line) then s.l1Fill d c line else s)
  | .icFill d c k => .next (if dieOfKey k = d && !s.lineBad k then s.icFill d c [k] k else s)
  | .flushPosted => .next s.flushPosted
  | .idle n => .next (s.elapse n)
  | .write k bs => .next (if inMemory k bs.length && !(linesOf k bs.length).any s.lineTaken then s.homeWrite k bs else s)
  | .copyBytes d c id n => .next (s.copyPart d c id (some n))
  | .dirGrant d line => .next (s.dirGrant d line)
  | .routineStep k => .next (s.routineStep k)
  | .routineIn k place n => .next (s.routineIn k place n)
  | .routineOut k place n => .next (s.routineOut k place n)
  | .jobReads k n => .next (s.jobReads k n)
  | .jobWrites k n => .next (s.jobWrites k n)
  | .inject id => .next (s.inject id)
  | .splitStore id mask => .next (s.splitStore id mask)
  | .latePart uid mask => .next (s.perform uid mask.testBit)
  | .earlyRead .. | .earlyWrite .. | .tornStore .. | .lag .. | .tornAtomic .. => .next s

/-- The bytes of lines that masks name. -/
def maskPlaces (parts : List (Nat × Nat)) : List Nat :=
  parts.flatMap fun p => ((List.range 128).filter p.2.testBit).map fun i => 128 * p.1 + i
/-- Bytes are noted as read ahead by an agent, each once. -/
def State.noteRead (s : State) (who : Nat) (bs : List (Nat × Byte)) : State :=
  let e := s.ahead who
  s.setAhead { e with read := bs.foldl (fun m b => if (kget m b.1).isSome then m else kset m b.1 b.2) e.read }
/-- The next instruction of a group, a plain load whose group waits for no store of its own, or an operation that has begun, reads named
bytes ahead (R229, R239). -/
def State.earlyReadTurn (s : State) (who : Nat) (parts : List (Nat × Nat)) : State :=
  match s.issuing who with
  | some (t, o) =>
    if !opReads o || s.split.late.any (fun l => l.uid = who) || s.storesOut who || s.fab.posted.any (fun p => p.owner = who) then s
    else s.noteRead who ((maskPlaces parts).map fun k => (k,
      if inSpad k then bget (t.team ((k - 2 ^ 70) / 2 ^ 25) ((k - 2 ^ 70) / 2 ^ 20 % 32)).spad (k % 2 ^ 20) else t.see t.g.die t.g.core k))
  | none => if s.operations.contains who then s.noteRead who ((maskPlaces parts).map fun k => (k, bget s.mem k)) else s
/-- An operation that has begun writes named bytes ahead, as it would write them now; not those of an indivisible change (R239, R375). -/
def State.earlyWriteTurn (s : State) (e : Instr) (parts : List (Nat × Nat)) : State :=
  match s.operation e with
  | none => s
  | some op =>
    let x := s.ahead op
    let run (wrote : List Nat) : Option State :=
      match exec e { s with split := { s.split with read := x.read, wrote := wrote } } with | .next t => some t | _ => none
    match run x.wrote with
    | none => s
    | some t =>
      let ks := (maskPlaces parts).filter fun k => !x.wrote.contains k && t.cohByte k ≠ s.cohByte k
      match run (x.wrote ++ ks) with
      | none => s
      | some u =>
        let ks := ks.filter fun k => u.cohByte k = s.cohByte k
        (ks.foldl (fun s k => s.homeWriteByte k (t.cohByte k)) s).setAhead { x with wrote := x.wrote ++ ks }

/-- The group's instruction has completed. -/
def doneIn (s t : State) : Bool := t.g.uid = s.g.uid && t.g.pc = s.g.pc + 12 && decide (t.g.wait = .run)
/-- Dirty bytes of a core's L1: places and values. -/
def State.dirtyBytes (s : State) (die core : Nat) : List (Nat × Byte) :=
  (s.core die core).l1.flatMap fun e =>
    ((List.range 128).filter fun i => e.2.dirty.getLsbD i).map fun i => (128 * e.1 + i, bget e.2.data i)
/-- A byte of a line that a core owns holds its home copy again. -/
def State.undoByte (s : State) (die core k : Nat) : State :=
  s.modCore die core fun c => match kget c.l1 (lineOf k) with
    | some l =>
      let l := { l with data := bset l.data (k % 128) (bget s.mem k), dirty := l.dirty &&& ~~~(1#128 <<< (k % 128)) }
      { c with l1 := kset c.l1 (lineOf k) l }
    | none => c
/-- Bytes of a group's store are still to be performed. -/
def State.defer (s : State) (uid die core : Nat) (bs : List (Nat × Byte)) : State :=
  if bs.isEmpty then s else { s with split := { s.split with late := s.split.late ++ [⟨uid, die, core, bs⟩] } }
/-- A group's plain store to local memory or scratchpads, of whose bytes, numbered upward, those that a mask names are still to be performed
(R229, R232); of an STS's, each byte counts once, with the value that the last lane gives it (R206). -/
def State.tornStoreTurn (s : State) (uid mask : Nat) : Res :=
  match s.issuing uid with
  | none => .next s
  | some (t, o) =>
    let d := t.g.die
    let c := t.g.core
    let named (bs : List (Nat × Byte)) : List (Nat × Byte) := (bs.zipIdx.filter fun b => mask.testBit b.2).map (·.1)
    if o.2.2.ord ≠ 0 then .next s
    else if opStores o then
      match tickRes 1 ((t.perform uid fun _ => true).cleanCore d c).runTurn with
      | .next u =>
        let bs := named (u.dirtyBytes d c)
        .next ((bs.foldl (fun u b => u.undoByte d c b.1) u).defer uid d c bs)
      | r => r
    else if opSts o then
      match tickRes 1 t.runTurn with
      | .next u =>
        if !doneIn t u then .next u
        else
          let at_ := ((stsBytes o.2.2 t.g ((t.mcastTeams (o.2.2.immN / 2 ^ 18 % 16)).filterMap (·.1))).map fun b => (b.1, b.2.1)).eraseDups
          let byte (x : State) (b : Nat × Nat) : Byte := bget (x.team t.g.gang b.1).spad b.2
          let late := named (at_.map fun b => (spadKey t.g.gang b.1 b.2, byte u b))
          let undone := at_.foldl (fun u b => if late.any fun l => l.1 = spadKey t.g.gang b.1 b.2 then u.spadWrite t.g.gang b.1 b.2 [byte t b] else u) u
          .next (undone.defer uid d c late)
      | r => r
    else .next s

/-- The core from which a turn stores, or for whose group; none for a turn whose stores all cores see at once. -/
def State.storer (s : State) (t : Turn) : Option (Nat × Nat) :=
  match t with
  | .group uid => (s.issuing uid).bind fun x => if opStores x.2 then some (x.1.g.die, x.1.g.core) else none
  | .copyLine d c _ | .copyBytes d c _ _ | .event (.copyComplete d c _) | .event (.matrixOpComplete d c _) => some (d, c)
  | .event (.peerStoreAck id) => (s.fab.stores.find? fun p => p.id = id).map fun p => (p.dev, p.core)
  | .jobWrites k _ | .routineOut k _ _ | .event (.dillJobComplete k ..) =>
    (s.runningJob k).bind fun j => (s.group? j.owner).map fun g => (g.die, g.core)
  | _ => none
/-- Places of device memory whose newest byte differs between two states, with the byte of the first. -/
def State.changed (s t : State) : Table Byte :=
  let dirty (s : State) : List Nat := s.cores.flatMap fun e => (s.dirtyBytes (e.1 / 64) (e.1 % 64)).map (·.1)
  let ks := (s.mem.map (·.1) ++ t.mem.map (·.1) ++ dirty s ++ dirty t).eraseDups
  ((ks.filter fun k => decide (k < hostKey 0) && s.cohByte k ≠ t.cohByte k).map fun k => (k, s.cohByte k)).foldl (fun m e => kset m e.1 e.2) []
/-- A turn's store is not seen by some cores, not the one it comes from, until something could order it before what they read (R232, R245,
R249, R253; log entry 10). -/
def State.lagTurn (s : State) (cores : List Nat) (t : Turn) : Res :=
  match s.simpleTurn t with
  | .next u =>
    (match s.storer t with
     | some (d, c) =>
       let old := s.changed u
       .next (if cores.contains (64 * d + c) || old.isEmpty then u
         else { u with split := { u.split with unseen := u.split.unseen ++ [{ old := old, cores := cores }] } })
     | none => .next u)
  | r => r

/-- The next turns of the list, at most n, as far as they are of one step and not the group's own. -/
def State.within (uid : Nat) : Nat → State → Res
  | 0, s => .next s
  | n + 1, s =>
    match s.agenda with
    | [] => .next s
    | t :: ts =>
      if t = .group uid then .next s
      else
        match ({ s with agenda := ts } : State).simpleTurn t with
        | .next s => State.within uid n s
        | r => r
/-- The read-modify-write of an atomic: its fields, whether it is ATOMSC, and its new values. -/
def atomOf : Instr → Option (Fields × Bool × (Group → Nat → Nat → Option Nat))
  | .atom f => some (f, false, atomNew f)
  | .atomsc f => some (f, true, atomNew f)
  | .cas f => some (f, false, casNew f)
  | _ => none
/-- The state in which the issuing group's instruction has been fetched. -/
def State.fetched (s : State) : State := match s.fetch with | .ok (_, t) => t | .error _ => s
/-- Moments of an atomic: at each so many of the lines that are left are performed, then turns pass; at the end the rest. None where a line
left is not free at its moment. -/
def State.atomMoments (uid : Nat) (f : Fields) (sc : Bool) (new : Nat → Nat → Option Nat) :
    List (Nat × Nat) → List (List LaneAcc) → List (Nat × Nat) → State → Option (List (Nat × Nat) × State)
  | [], ls, olds, s =>
    let (os, s) := s.rmwLanes (hintOf f) (szBytes f) sc new ls.flatten
    some (olds ++ os, s)
  | (k, n) :: ms, ls, olds, s =>
    let (os, s) := s.rmwLanes (hintOf f) (szBytes f) sc new (ls.take k).flatten
    match State.within uid n s with
    | .next t => (t.focusOn uid).bind fun t =>
        if ((ls.drop k).flatten).any fun a => t.leaseBusy (szBytes f) a || t.homeLeased .rw (szBytes f) a then none
        else State.atomMoments uid f sc new ms (ls.drop k) (olds ++ os) t
    | _ => none
/-- An atomic whose lines are performed at several moments: lanes of one line together, each line on its own (R209). -/
def State.tornAtomicTurn (s : State) (uid : Nat) (moments : List (Nat × Nat)) : Res :=
  match s.focusOn uid with
  | none => .next s
  | some t =>
    let t := (t.perform uid fun _ => true).fetched
    match t.nextInstr.bind atomOf, t.runGroup with
    | some (f, sc, new), .next whole =>
      let e := szBytes f
      if !doneIn t whole || !executed (if sc then .c else .k) f t.g then .next s
      else
        match t.checkLanes .rw f.mcls e (atomAddr f t.g) (atomLanes f t.g) with
        | .error _ => .next s
        | .ok xs =>
          let t := if sc || f.ord = 2 || f.ord = 3 then t.flushCore t.g.die t.g.core else t
          let t := t.leaveLines
          let t := if sc then { t with hub := { t.hub with ticket := t.hub.ticket + 1 } } else t
          match State.atomMoments uid f sc (new t.g) moments (t.byLine xs) [] t with
          | none => .next s
          | some (olds, t) =>
            let g := if f.d.isView then toLanes f t.g olds else toScalar f t.g olds
            tickRes 1 (.next ((t.setG g).acqIf (sc || f.ord = 1 || f.ord = 3)).advance)
    | _, _ => .next s

/-- A turn that the list of turns gives. -/
def State.takeTurn (s : State) (t : Turn) : Res :=
  match t with
  | .earlyRead who parts => .next (s.earlyReadTurn who parts)
  | .earlyWrite e parts => .next (s.earlyWriteTurn e parts)
  | .tornStore uid mask => s.tornStoreTurn uid mask
  | .lag cores t => s.lagTurn cores t
  | .tornAtomic uid ms => s.tornAtomicTurn uid ms
  | t => s.simpleTurn t

/-- A turn of the groups: the next that can issue does, and the one behind it stands first; where none can, a cycle passes. -/
def State.groupTurn (s : State) : Res :=
  match s.focus s.canIssue with
  | none => .next { s.elapse 1 with evTurn := true }
  | some s =>
    match tickRes 1 s.runTurn with
    | .next s => .next { s.rotate with evTurn := true }
    | r => r
/-- What happens without a list of turns: a cycle of the groups and an event of the module take turns (log entry 10). -/
def State.ownTurn (s : State) : Res :=
  if s.evTurn then (match s.firstEvent with | some s => .next { s with evTurn := false } | none => s.groupTurn)
  else s.groupTurn

/-! ## Placing an instruction where the next step fetches -/

/-- The state has a group that would issue next and whose program counter can be fetched. -/
def State.ready (s : State) : Bool :=
  s.canIssue s.g && !s.noteFirst && decide (s.g.wait = .run) && (match s.fetchPlaces s.g.pc.toNat with | .ok _ => true | .error _ => false)
/-- The page that maps virtual page 0 of logical device 0 for a group to run from: readable, writable, executable. -/
def loadLeaf : Word := 0x71
/-- A group of logical device 0 is active on core 0 at address 0, translation is on, and core 0's TLB holds its page (log entry 1). -/
def State.loaded (s : State) : State :=
  let s := { s with g := { uid := s.fresh, life := .active, alloc := 393216 }, rest := s.order, fresh := s.fresh + 1 }
  let s := s.setMr (offPTBR 0) (s.mr (offPTBR 0) ||| 1)
  s.modCore 0 0 fun c => { c with halted := false, tlb := [⟨0, 0, 4096, loadLeaf⟩] ++ c.tlb }
/-- The word's bytes in the issuing core's instruction cache at the program counter. -/
def State.placeWord (s : State) (w : Nat) : State :=
  match s.fetchPlaces s.g.pc.toNat with
  | .ok ks => s.modCore s.g.die s.g.core fun c => { c with icache := (ks.zip (leBytes w 12)).foldl (fun m e => kset m e.1 e.2) c.icache }
  | .error _ => s

end Sys2Proof.Machine
end

