-- ==== Sys2Proof/Machine/Step.lean ====
section
/-! DEFINITION. One step of the module. -/

namespace Sys2Proof.Machine

/-- One step: the first turn of the list, or the module's own, in which no access stays divided. -/
def step (s : State) : Host.Outcome State Fault Refusal :=
  match s.agenda with
  | t :: ts => ({ s with agenda := ts } : State).takeTurn t
  | [] => s.settled.ownTurn

/-- The state with an instruction where step fetches its next one: as the first group's, loaded where none is ready. -/
def State.withFetchWord (s : State) (_nbits w : Nat) : State :=
  let s := { s with agenda := [], evTurn := false, split := {} }
  let s := if s.ready then s else s.loaded
  s.placeWord w

end Sys2Proof.Machine
end

