-- ==== Sys2Proof/Safety.lean ====
section
/-! DEFINITION. What counts as a safe run, and the terms claims are stated in: when an instruction executes, the canonical
form of memory. -/

namespace Sys2Proof.Machine

/-- A step that stops at neither a fault nor a refusal. -/
def State.Safe (s : State) : Prop := ∃ t, step s = .next t

/-- The instruction with these fields, of a guard class, privileged or not, with these operands, executes: the issuing group
is active, the guard lets the instruction execute (R66), the mode allows it (R75), no operand is out of range (R65), and no product of the
group has source bytes still to read, for which a write of them would be held (R104, R288). -/
structure Executes (cls : GClass) (priv : Bool) (refs : Group → List Ref) (f : Fields) (s : State) : Prop where
  active : s.g.life = .active
  guard : executed cls f s.g = true
  mode : priv = true → s.g.priv = true
  operands : s.g.regbound (refs s.g) = none
  sources : s.unread s.g = []

/-- The home copy of memory is in its canonical form. -/
def State.Canonical (s : State) : Prop := Memory.wf s.mem = true

/-- From s to t each lane of an instruction's set takes the low w bits of a value in D's view; every other lane and every byte
outside the view stays, and nothing but the program counter moves besides (R148). -/
structure TakesLanes (f : Fields) (w : Nat) (val : Nat → Nat) (s t : State) : Prop where
  taken : ∀ l, l < 64 → (s.g.lanes f).getLsbD l = true → t.g.elem f.imm f.d w l = val l % 2 ^ w
  kept : ∀ l, l < 64 → (s.g.lanes f).getLsbD l = false → t.g.elem f.imm f.d w l = s.g.elem f.imm f.d w l
  outside : ∀ b, b < s.g.base f.d ∨ s.g.base f.d + 8 * w ≤ b → bget t.g.regs b = bget s.g.regs b
  rest : t = { s with g := { s.g with regs := t.g.regs, pc := s.g.pc + 12, wait := .run } }

/-- A leaf that maps local memory keeps its reserved address bits clear (R176, R177). -/
def leafSane (leaf : Word) : Prop := bits leaf.toNat 60 59 = 0 → bits leaf.toNat 58 35 = 0

/-- What every state of the memory system satisfies that a run reaches, as long as no access stands divided: home memory and cached lines in
canonical form, a core caches lines of its own die, a dirty byte lies in an owned word, no word has two owners (R186), and translations,
handles, groups and teams lie where they can. -/
structure State.Sound (s : State) : Prop where
  memory : s.Canonical
  cores : risesFrom 0 s.cores = true
  l1 : ∀ e ∈ s.cores, risesFrom 0 e.2.l1 = true
  lines : ∀ e ∈ s.cores, ∀ l ∈ e.2.l1, dieOfKey (128 * l.1) = e.1 / 64 ∧ Memory.wf l.2.data = true ∧
    ∀ i, i < 128 → l.2.dirty.getLsbD i = true → l.2.own.getLsbD (i / 4) = true
  owners : ∀ e ∈ s.cores, ∀ e' ∈ s.cores, e.1 ≠ e'.1 → ∀ l ∈ e.2.l1, ∀ l' ∈ e'.2.l1, l.1 = l'.1 → l.2.own &&& l'.2.own = 0
  requests : ∀ e ∈ s.cores, ∀ r ∈ e.2.leaseReq, dieOfKey (128 * r.2.2.1) = e.1 / 64
  coreTlbs : ∀ e ∈ s.cores, ∀ t ∈ e.2.tlb, leafSane t.leaf
  dieTlbs : ∀ e ∈ s.dies, ∀ t ∈ e.2.tlb, leafSane t.leaf
  handles : ∀ e ∈ s.devs, ∀ h ∈ e.2.handles, h.2.base.toNat % 4096 = 0
  groups : ∀ g ∈ s.groups, g.core < 64
  numbered : ∀ g ∈ s.groups, g.life ≠ .absent → g.uid ≠ 0
  nobody : s.g.life = .absent → s.g.uid = 0
  fresh : 0 < s.fresh
  whole : s.split = {}
  teams : ∀ e ∈ s.teams, e.2.core < 64

/-- Read-modify-writes of e bytes one after another on a memory, each (lane, place): the old values and the memory after. A new
value of none writes nothing (R209). -/
def serially (e : Nat) (new : Nat → Nat → Option Nat) : List (Nat × Nat) → (Nat → Byte) → List (Nat × Nat) × (Nat → Byte)
  | [], m => ([], m)
  | (lane, k) :: rest, m =>
    let old := leVal ((List.range e).map fun i => m (k + i))
    let m' : Nat → Byte := match new lane old with
      | some v => fun j => if k ≤ j ∧ j < k + e then BitVec.ofNat 8 (v / 256 ^ (j - k)) else m j
      | none => m
    let (olds, m'') := serially e new rest m'
    ((lane, old) :: olds, m'')

end Sys2Proof.Machine
end

