-- ==== Sys2Proof/Certificates/Slice0/Obligations.lean ====
section
/-! DEFINITION. The statements made about the machine, for the provers. -/

open Sys2Proof Sys2Proof.Machine

/-! ## Encoding -/

/-- Every well-formed Jeniz instruction's word decodes to it (R56, R60-R74). -/
def Obligations.EncodedInstructionDecodes : Prop :=
  ∀ (i : Instr) (w : IWord), i.wf = true → encode i = some w →
    decodeWord w = .ok i ∧ decodeTableWord 96 w.toNat = some i

/-- Every word that decodes gives a well-formed instruction, and is that instruction's word (R56, R60-R74, R77). -/
def Obligations.DecodedWordEncodes : Prop :=
  ∀ (w : IWord) (i : Instr), decodeWord w = .ok i → i.wf = true ∧ encode i = some w

/-- The words that chapters 4, 7, 11 and 21 write out stand for the instructions they say. -/
def Obligations.SpecWordsDecode : Prop :=
  decodeTableWord 96 0x010000040080_0C6000000000 = some (.sadd ⟨false, 0, .sreg 1, .sreg 2, .sreg 3, 0x060, 0⟩)
  ∧ decodeTableWord 96 0x20129A0D0110_150000000406 =
      some (.vfma ⟨true, 2, .rel .view 1 3, .view 4, .view 5, 0x100, 0x406⟩)
  ∧ decodeTableWord 96 0x030000000000_0000FFFFFFFB = some (.bra ⟨false, 0, .none, .none, .none, 0, 0xFFFFFFFB⟩)
  ∧ decodeTableWord 96 0x031000140000_0000FFFFFFFD = some (.loop ⟨false, 0, .sreg 5, .none, .none, 0, 0xFFFFFFFD⟩)
  ∧ decodeTableWord 96 0x0404305B0600_0000007F0700 = some (.view ⟨false, 0, .tsh, .immv, .none, 0, 0x7F0700⟩)
  ∧ decodeTableWord 96 0x241050290080_15E000000009 = some (.vquant ⟨false, 1, .view 10, .view 2, .sreg 5, 0x1E0, 9⟩)
  ∧ decodeTableWord 96 0xC00000000000_000000000025 = some (.trap ⟨false, 0, .none, .none, .none, 0, 0x25⟩)
  ∧ decodeTableWord 96 0xC01000100240_000000000000 = some (.haltdHalt ⟨false, 0, .sreg 4, .sreg 9, .none, 0, 0⟩)
  ∧ decodeTableWord 96 0xC20000140180_1C0000000000 = some (.ctxsave ⟨false, 0, .sreg 5, .sreg 6, .sreg 7, 0, 0⟩)
  ∧ decodeTableWord 96 0xD30000000000_000000000000 = none

/-! ## Steps -/

/-- Where the bytes at the program counter decode to an instruction, or the group waits in one, a step of the issuing group is that
instruction's meaning and one cycle (R57, R78), in which the wait for a slot of who is blocked does not run (R35); without a list of turns the
group behind it comes to stand first.
The model's part: the order without a list of turns is the model's, and so is what an access that a list of turns divides adds to the steps
that follow, none of which stands divided here (log entry 10). -/
def Obligations.StepRunsDecodedInstruction : Prop :=
  ∀ (s s' : State) (w : IWord) (i : Instr), s.canIssue s.g = true → s.noteFirst = false → s.g.isEnding = false → s.split = {} →
    s.fetch = .ok (w, s') → decodeWord w = .ok i →
    (s.agenda = [] → s.evTurn = false →
      step s = match exec i s' with
        | .next t => .next { (t.elapse 1).rotate with evTurn := true }
        | .fault r => .fault r
        | .refused r => .refused r)
    ∧ ∀ ts, step { s with agenda := .group s.g.uid :: ts } =
        match exec i { s' with agenda := ts } with
        | .next t => .next (t.elapse 1)
        | .fault r => .fault r
        | .refused r => .refused r

/-- No step of the machine stops, from any state: every instruction and every event has a next state. -/
def Obligations.NoStepStops : Prop := ∀ s : State, s.Safe

/-- Every step keeps the home copy of memory in the canonical form of the model: addresses strictly rising, and no entry equal to what an
unlisted address reads as, so that equal memories are equal data (R173).
The model's part: the form is the model's own representation, and no rule gives one (log entry 2). -/
def Obligations.StepKeepsMemoryCanonical : Prop := ∀ s t : State, s.Canonical → step s = .next t → t.Canonical

/-- Right after reset nothing is placed, the registers of the management space to which the spec gives a reset value hold it, each die's
interval is the whole range of time, and the machine's invariant holds (R139, R175, R188, R214, R305, R316, R324, R351, R383, R401, R404, R408,
R427, R428, R434, R444, R450, R455-R458, R460, R461).
The model's part: where the spec gives no reset value, none is named (log entry 3). -/
def Obligations.ResetState : Prop :=
  (State.reset.Canonical ∧ State.reset.launches = [] ∧ State.reset.gangs = [] ∧ State.reset.tasks = []
  ∧ (∀ g ∈ State.reset.groups, g.life = .absent)
  ∧ State.reset.mrN offFABCFG = 100 * 2 ^ 32 + 50 * 2 ^ 16 + 2000
  ∧ State.reset.mrN offTMCFG = 8192 * 2 ^ 16 + 1000
  ∧ State.reset.mrN offPWRCFG = 760
  ∧ (∀ o ∈ [offRDYSTAT, offWLD 0, offWLD 1, offWLD 2, offHLSTAT, offMEASSEQ], State.reset.mr o = 0)
  ∧ (∀ k i, k < 4 → i < 8 → State.reset.mr (offMEAS k i) = 0)
  ∧ (∀ d, d < 8 →
      (∀ o ∈ [offPTBR d, offTVEC d, offTTBR d, offWGBR d, offEXBR d, offMHTB d, offTCWSTAT d, offTCWCNT d, offPWRSTAT d], State.reset.mr o = 0)
      ∧ (∀ k, k < 64 → State.reset.mr (offRGN d k) = 0 ∧ State.reset.mr (offHDC d k) = 0)
      ∧ (∀ w, w < 16 → State.reset.mr (offFWRNG d w) = 0 ∧ State.reset.mr (offFWCTL d w) = 0 ∧ State.reset.mr (offHQ d w 0x08) = 0)
      ∧ (∀ r, r < 8 → State.reset.mr (offRRNG d r) = 0 ∧ State.reset.mr (offRRCTL d r) = 0) ∧ ∀ k, k < 4 → State.reset.mr (offLVECW d k) = 0)
  ∧ (∀ d, d < 8 → State.reset.mrN (offLSCFG d) = 4096 ∧ State.reset.mrN (offLVCFG d) = 6
      ∧ State.reset.mrN (offLVBUD d) = 0xFFFFFFFF
      ∧ (State.reset.die d).e = 0 ∧ (State.reset.die d).l = BitVec.allOnes 64)
  ∧ (∀ k e, k < 34 → e < 64 → State.reset.routValid k e = decide (e < 4)))
  ∧ (State.reset.Sound)

/-- A word that does not decode takes ILLEGAL with its detail code and its 96 bits, and a failed fetch takes its own cause with FETCH
set, nothing of the group but the saved registers changing; a step of a group at such a word is that trap (R58, R77, R78, R325, R327). -/
def Obligations.UndecodableWordsTrap : Prop :=
  (∀ (s : State), s.g.life = .active → s.canEnter = true →
    (∀ (w : IWord) (d : Illegal), ∃ t, exec (.illegalInstruction w d.code) s = .next t ∧
      t.g = { s.g with
        epc := s.g.pc, ecause := (({ cause := 0x01, detail := d.code } : FRec)).ecause, eaddr := 0, eiaddr := s.g.pc, ewordl := w.setWidth 64,
        ewordh := (w.extractLsb' 64 32).setWidth 64, priv := true, pc := s.handlerPc, wait := .run, unres := true } ∧
      t.mem = s.mem ∧ t.rest = s.rest)
    ∧ ∀ (c d : BitVec 8) (a : Word), c ∈ [0x10, 0x11, 0x12, 0x13, 0x17] → ∃ t, exec (.fetchFault c d a) s = .next t ∧
      t.g = { s.g with
        epc := s.g.pc, ecause := (({ cause := c, detail := d, fetch := true } : FRec)).ecause, eaddr := a, eiaddr := s.g.pc, ewordl := 0, ewordh := 0, priv := true,
        pc := s.handlerPc, wait := .run, unres := true } ∧
      t.mem = s.mem ∧ t.rest = s.rest)
  ∧ (∀ (s s' : State) (w : IWord), s.canIssue s.g = true → s.noteFirst = false → s.g.isEnding = false → s.split = {} →
    (∀ d ts, s.fetch = .ok (w, s') → decodeWord w = .error d →
      ∃ t, exec (.illegalInstruction w d.code) { s' with agenda := ts } = .next t ∧
        step { s with agenda := .group s.g.uid :: ts } = .next (t.elapse 1))
    ∧ ∀ c d a ts, s.fetch = .error (c, d, a) →
      ∃ t, exec (.fetchFault c d a) { s with agenda := ts } = .next t ∧
        step { s with agenda := .group s.g.uid :: ts } = .next (t.elapse 1))

/-! ## Issue and traps -/

/-- A Jeniz instruction whose guard is false does nothing but advance the program counter by 12; with GN = 1 and GRD = 0 no
instruction executes (R66). -/
def Obligations.FalseGuardOnlyAdvances : Prop :=
  ∀ (i : Instr) (opc fn : Nat) (f : Fields) (s : State) (r : Row), i.parts = some (opc, fn, f) → r ∈ rowsOf opc → r.form.fn = fn →
    s.g.life = .active → executed r.form.cls f s.g = false →
    exec i s = .next { s with g := { s.g with pc := s.g.pc + 12, wait := .run } }

/-- A privileged instruction in an unprivileged group takes PRIV, whatever its operands, and so does RDSR of a privileged register; a scalar
operand whose effective index is outside 0-63 takes REGBOUND
with its position and index, the first of D, A, B in that order; of the lanes of an access in ascending order the lowest that fails decides the
trap, ALIGN before anything else of its lane; nothing of the instruction happens (R63, R65, R75, R78, R197). -/
def Obligations.ChecksBeforeEffect : Prop :=
  (∀ (f : Fields) (s : State), s.g.life = .active → executed .c f s.g = true → s.g.priv = false →
    ∀ i ∈ [Instr.eret f, .waiti f, .haltdHalt f, .haltdQuery f, .haltdResume f, .wrsr f, .fltrd f, .preack f, .ctxsave f,
        .ctxload f, .tlbinv f],
      exec i s = .next (s.takeTrap { cause := 0x02 }))
  ∧ (∀ (f : Fields) (s : State), s.g.life = .active → executed .c f s.g = true → s.g.priv = false →
    (1 ≤ f.immN % 4096 ∧ f.immN % 4096 ≤ 8 ∨ f.immN % 4096 = 0x12 ∨ f.immN % 4096 = 0x13) →
      exec (.rdsr f) s = .next (s.takeTrap { cause := 0x02 }))
  ∧ (∀ (f : Fields) (s : State), s.g.life = .active → executed .c f s.g = true →
    ∀ i ∈ [Instr.sadd f, .ssub f, .smul f, .smulh f, .sdiv f, .srem f, .sand f, .sor f, .sxor f, .sshl f, .sshr f, .ssra f,
        .smin f, .smax f, .spopc f, .sclz f, .smov f, .sli f, .slih f, .scmp f, .ssel f, .brc f, .callIndirect f, .loop f, .jidx f,
        .id f, .view f, .xset f, .xadd f, .mfrom f],
      let out (o : Opnd) (n : Int) : Prop :=
        ∃ x ofs, o = .rel .scalar x ofs ∧ n = (s.g.index x).toInt + ofs.toInt ∧ (n < 0 ∨ 63 < n)
      let inside (o : Opnd) : Prop := s.g.inRange ⟨0, o, 8⟩ = true
      let trap (p : BitVec 8) (n : Int) : Res := .next (s.takeTrap { cause := 0x03, detail := p, info := BitVec.ofInt 32 n })
      (∀ n, out f.d n → exec i s = trap 0 n)
      ∧ (∀ n, inside f.d → out f.a n → exec i s = trap 1 n)
      ∧ ∀ n, inside f.d → inside f.a → out f.b n → exec i s = trap 2 n)
  ∧ (∀ (f : Fields) (s : State) (before after : List Nat) (l : Nat), f.ord ≠ 2 → f.ord ≠ 3 → laneList (s.g.lanes f) = before ++ l :: after →
    let e := 2 ^ (f.modN % 4)
    let base : Int := (s.va f).toNat + f.imm.toInt
    let traps (i : Instr) (need : Need) (addr : Nat → Int) : Prop :=
      (∀ k ∈ before, ∃ x, s.checkElem need f.mcls e k (addr k) = .ok x) → addr l % (e : Int) ≠ 0 →
        exec i s = .next (s.takeTrap { cause := 0x15, lane := BitVec.ofNat 6 l, addr := BitVec.ofInt 64 (addr l) })
    (Executes .m false (vrefs f (8 * e) 8 8) f s →
      traps (.ld f) .r (fun l => base + (l * e : Nat)) ∧ traps (.st f) .w (fun l => base + (l * e : Nat)))
    ∧ (Executes .m false (vrefs f (8 * e) 8 64) f s →
      traps (.ldg f) .r (fun l => base + sgn (s.g.elem f.imm f.b 64 l) 64)
      ∧ traps (.stg f) .w (fun l => base + sgn (s.g.elem f.imm f.b 64 l) 64))
    ∧ (f.d.isView = true → Executes .k false (atomRefs f) f s →
      traps (.atom f) .rw (fun l => (s.va f).toNat + sgn (s.g.elem f.imm f.b 64 l) 64)
      ∧ traps (.cas f) .rw (fun l => (s.va f).toNat + sgn (s.g.elem f.imm f.b 64 l) 64)))

/-- A precise trap of an unprivileged group whose logical device has a handler saves the return address, the record's fields, at ECAUSE's
places, and the mode, goes to the handler, and leaves every register, mask, condition bit, index and view register, all other groups and
every byte of memory alone; one that finds no handler fails its launch and ends the group, as RETIRE would, once its peer stores are
performed (R325, R327, R328, R332, R48, R199, R320). -/
def Obligations.TrapEntry : Prop :=
  (∀ (s : State) (r : FRec), r.imp = false → s.canEnter = true → ¬ (r.cause = 0x08 ∧ s.vec.getLsbD 61 = true) →
    let t := s.takeTrap r
    let quiet := r.cause = 0x07 ∨ r.cause = 0x08 ∨ r.cause = 0x0A
    t.g.epc = (if r.cause = 0x07 then s.g.pc + 12 else s.g.pc) ∧ t.g.ecause = r.ecause ∧ t.g.eaddr = r.addr
    ∧ t.g.eiaddr = s.g.pc ∧ t.g.priv = true ∧ t.g.pc = (s.vec.extractLsb' 0 57).setWidth 64
    ∧ (r.cause ≠ 0x01 → t.g.ewordl = 0 ∧ t.g.ewordh = 0)
    ∧ t.g.regs = s.g.regs ∧ t.g.masks = s.g.masks ∧ t.g.conds = s.g.conds ∧ t.g.xs = s.g.xs ∧ t.g.vb = s.g.vb ∧ t.g.tb = s.g.tb
    ∧ t.g.tsh = s.g.tsh ∧ t.g.escr0 = s.g.escr0 ∧ t.g.escr1 = s.g.escr1 ∧ t.g.life = s.g.life
    ∧ t.mem = s.mem ∧ t.rest = s.rest ∧ t.cores = s.cores ∧ t.teams = s.teams
    ∧ t.flhead = (if quiet then s.flhead else s.flhead + 1))
  ∧ (∀ r : FRec, r.ecause.extractLsb' 0 8 = r.cause ∧ r.ecause.extractLsb' 8 8 = r.detail ∧ r.ecause.extractLsb' 16 32 = r.info
    ∧ r.ecause.extractLsb' 48 6 = r.lane ∧ r.ecause.extractLsb' 54 8 = 0 ∧ r.ecause.getLsbD 62 = r.fetch
    ∧ r.ecause.getLsbD 63 = r.imp)
  ∧ (∀ (s : State) (r : FRec), s.canEnter = false → ¬ (r.cause = 0x08 ∧ s.vec.getLsbD 61 = true) →
    (s.storesOut s.g.uid = false → (s.takeTrap r).g.life = .ended)
    ∧ (s.storesOut s.g.uid = true → (s.takeTrap r).g.life = s.g.life ∧ (s.takeTrap r).g.isEnding = true)
    ∧ ∀ l, s.launch? s.g.launch = some l → ∃ l', (s.takeTrap r).launch? s.g.launch = some l' ∧ l'.failed = true)
  ∧ (∀ (s : State) (ts : List Turn), s.g.life = .active → (s.core s.g.die s.g.core).halted = false → s.g.isEnding = true →
    s.split = {} → s.storesOut s.g.uid = false → let u := ({ s with agenda := ts } : State).endGroup
      step { s with agenda := .group s.g.uid :: ts } = .next (u.elapse 1) ∧ u.g.life = .ended ∧ u.g.uid = s.g.uid)

/-- TRAP and BRK raise SWTRAP and BRK with their code in INFO; a BRK under DBG halts the core and goes on behind itself instead. ERET is
a checked return to EPC out of the handler; a PRENOTE that is pending is delivered at the target (R325, R341, R342).
The model's part: when a pending PRENOTE is delivered is the model's reading (log entry 22). -/
def Obligations.TrapInstructionsAndReturn : Prop :=
  (∀ (f : Fields) (s : State), Executes .c false (dab f) f s →
    (s.canEnter = true →
      ∃ t, exec (.trap f) s = .next t ∧
        t.g = { s.g with
          epc := s.g.pc + 12, ecause := (({ cause := 0x07, info := BitVec.ofNat 32 (f.immN % 65536) } : FRec)).ecause, eaddr := 0, eiaddr := s.g.pc, ewordl := 0, ewordh := 0, priv := true,
          pc := s.handlerPc, wait := .run } ∧ t.mem = s.mem ∧ t.flhead = s.flhead)
    ∧ (s.canEnter = true → s.vec.getLsbD 61 = false →
      ∃ t, exec (.brk f) s = .next t ∧
        t.g = { s.g with
          epc := s.g.pc, ecause := (({ cause := 0x08, info := BitVec.ofNat 32 (f.immN % 65536) } : FRec)).ecause, eaddr := 0, eiaddr := s.g.pc, ewordl := 0, ewordh := 0, priv := true,
          pc := s.handlerPc, wait := .run } ∧ t.mem = s.mem ∧ t.flhead = s.flhead)
    ∧ (s.vec.getLsbD 61 = true →
      ∃ t, exec (.brk f) s = .next t ∧ t.g = { s.g with pc := s.g.pc + 12, wait := .run } ∧
        (t.core s.g.die s.g.core).halted = true ∧ t.flhead = s.flhead + 1 ∧ t.mem = s.mem))
  ∧ (∀ (f : Fields) (s : State), Executes .c true (dab f) f s →
    (validTarget s.g.epc.toNat = true → s.g.preq = false →
      exec (.eret f) s = .next { s with g := { s.g with pc := s.g.epc, wait := .run, priv := false, unres := false } })
    ∧ (validTarget s.g.epc.toNat = true → s.g.preq = true → s.vec.getLsbD 63 = true → validTarget s.handlerPc.toNat = true →
      ∃ t, exec (.eret f) s = .next t ∧ t.g.priv = true ∧ t.g.pc = s.handlerPc ∧ t.g.epc = s.g.epc ∧
        t.g.ecause = 0x0A ∧ t.g.pnote = true ∧ t.g.preq = false ∧ t.g.regs = s.g.regs ∧ t.mem = s.mem)
    ∧ (validTarget s.g.epc.toNat = false → exec (.eret f) s = .next (s.takeTrap { cause := 0x04 })))

/-- RDSR answers the register that R326 lists under the index, WRSR writes the three that it marks RW, FLTRD the word of a log
entry; privileged registers take PRIV from an unprivileged group and unlisted indices SYSARG (R326, R343, R344). -/
def Obligations.SystemRegisters : Prop :=
  ∀ (f : Fields) (s : State), (Executes .c false (dab f) f s →
      let i := f.immN % 4096
      let reads (v : Word) : Prop := exec (.rdsr f) s = .next (s.putD f v).advance
      (i = 0x000 → reads (BitVec.ofNat 64
        ((if s.g.priv then 1 else 0) + (if s.g.pnote then 2 else 0) + 16 * s.g.pend.length + (if s.g.povf then 128 else 0))))
      ∧ (i = 0x010 → reads (0#16 ++ BitVec.ofNat 4 s.g.die ++ BitVec.ofNat 6 s.g.core ++ BitVec.ofNat 5 s.g.slot ++ 0#1
          ++ (match s.gang? s.g.gang with | some k => k.handle | none => 0#32)))
      ∧ (i = 0x011 → reads (BitVec.ofNat 64 (s.now - (s.die s.g.die).resetAt)))
      ∧ (s.g.priv = true →
          (i = 0x001 → reads s.g.epc) ∧ (i = 0x002 → reads s.g.ecause) ∧ (i = 0x003 → reads s.g.eaddr)
          ∧ (i = 0x004 → reads s.g.eiaddr) ∧ (i = 0x005 → reads s.g.ewordl) ∧ (i = 0x006 → reads s.g.ewordh)
          ∧ (i = 0x007 → reads s.g.escr0) ∧ (i = 0x008 → reads s.g.escr1)
          ∧ (i = 0x012 → reads ((s.dev s.g.die).flhead.setWidth 64)) ∧ (i = 0x013 → reads s.vec))
      ∧ (s.g.priv = false → (1 ≤ i ∧ i ≤ 8 ∨ i = 0x12 ∨ i = 0x13) → exec (.rdsr f) s = .next (s.takeTrap { cause := 0x02 }))
      ∧ (9 ≤ i → i ∉ [0x10, 0x11, 0x12, 0x13] → exec (.rdsr f) s = .next (s.takeTrap { cause := 0x09, detail := 0 })))
  ∧ (Executes .c true (dab f) f s →
      let i := f.immN % 4096
      let v := s.va f
      (i = 1 → exec (.wrsr f) s = .next { s with g := { s.g with epc := v, pc := s.g.pc + 12, wait := .run } })
      ∧ (i = 7 → exec (.wrsr f) s = .next { s with g := { s.g with escr0 := v, pc := s.g.pc + 12, wait := .run } })
      ∧ (i = 8 → exec (.wrsr f) s = .next { s with g := { s.g with escr1 := v, pc := s.g.pc + 12, wait := .run } })
      ∧ (i ∉ [1, 7, 8] → exec (.wrsr f) s = .next (s.takeTrap { cause := 0x09, detail := 1 }))
      ∧ exec (.fltrd f) s = .next (s.putD f
          ((((kget (s.dev s.g.die).log ((s.va f).toNat % 256)).getD 0) >>> (64 * (f.immN % 4))).setWidth 64)).advance)

/-! ## Scalar and control instructions -/

/-- Opcode 0x01: D takes the low W bits of the integer result, extended by TYPE; SAT clamps SADD, SSUB, SMUL, SDIV and SSHL
(R112, R113). -/
def Obligations.ScalarArithmetic : Prop :=
  ∀ (f : Fields) (s : State), Executes .c false (dab f) f s → f.type < 8 →
    let w := intWidth f.type
    let pa := (s.va f).toNat % 2 ^ w
    let pb := (s.vb f).toNat % 2 ^ w
    let a : Int := if isSigned f.type ∧ 2 ^ (w - 1) ≤ pa then (pa : Int) - (2 ^ w : Nat) else pa
    let b : Int := if isSigned f.type ∧ 2 ^ (w - 1) ≤ pb then (pb : Int) - (2 ^ w : Nat) else pb
    let sa : Int := if 2 ^ (w - 1) ≤ pa then (pa : Int) - (2 ^ w : Nat) else pa
    let n := (s.vb f).toNat
    let clamp (r : Int) : Int := if f.sat then min (max r (minVal f.type)) (maxVal f.type) else r
    let gives (i : Instr) (r : Int) : Prop := exec i s = .next (s.putD f (extTo f.type r)).advance
    gives (.sadd f) (clamp (a + b)) ∧ gives (.ssub f) (clamp (a - b)) ∧ gives (.smul f) (clamp (a * b))
    ∧ gives (.smulh f) (a * b / (2 ^ w : Nat))
    ∧ gives (.sdiv f) (clamp (if b = 0 then (if isSigned f.type then -1 else (2 ^ w : Nat) - 1) else a.tdiv b))
    ∧ gives (.srem f) (if b = 0 then a else a - b * a.tdiv b)
    ∧ gives (.sand f) (pa &&& pb : Nat) ∧ gives (.sor f) (pa ||| pb : Nat) ∧ gives (.sxor f) (pa ^^^ pb : Nat)
    ∧ gives (.sshl f) (clamp (a * (2 ^ n : Nat)))
    ∧ gives (.sshr f) (if w ≤ n then 0 else pa / 2 ^ n : Nat)
    ∧ gives (.ssra f) (if w ≤ n then (if sa < 0 then -1 else 0) else sa / (2 ^ n : Nat))
    ∧ gives (.smin f) (min a b) ∧ gives (.smax f) (max a b)
    ∧ gives (.spopc f) (((List.range w).filter pa.testBit).length : Nat)
    ∧ gives (.sclz f) (if pa = 0 then w else w - 1 - Nat.log2 pa : Nat)

/-- Moves, constants, comparison, selection, index registers and NOP, and MANY, MALL, MLOG and MFROM: the value D takes, a condition bit
or a mask bit by bit, and nothing else but the program counter (R76, R114-R117, R122-R125). -/
def Obligations.ScalarMovesAndMasks : Prop :=
  (∀ (f : Fields) (s : State), Executes .c false (dab f) f s →
    let gives (i : Instr) (v : Word) : Prop := exec i s = .next (s.putD f v).advance
    exec (.nop f) s = .next s.advance
    ∧ gives (.smov f) (s.va f) ∧ gives (.sli f) (f.imm.signExtend 64)
    ∧ gives (.slih f) (BitVec.ofNat 64 (f.imm.toNat * 2 ^ 32 + (s.vd f).toNat % 2 ^ 32))
    ∧ gives (.ssel f) (if s.vc f = 0 then s.vb f else s.va f)
    ∧ gives (.xset f) (s.va f) ∧ gives (.xadd f) (s.va f + s.vb f)
    ∧ (f.type < 8 → f.cc < 6 →
        let a := intVal f.type (s.va f).toNat
        let b := intVal f.type (s.vb f).toNat
        let holds : Prop := match f.cc with
          | 0 => a = b | 1 => a ≠ b | 2 => a < b | 3 => a ≤ b | 4 => a > b | _ => a ≥ b
        (holds → gives (.scmp f) 1) ∧ (¬ holds → gives (.scmp f) 0)))
  ∧ (∀ (f : Fields) (s : State), Executes .c false (dab f) f s →
    let gives (i : Instr) (v : Word) : Prop := exec i s = .next (s.putD f v).advance
    let ma := s.va f
    let mb := s.vb f
    let m0 := s.g.mask 0
    ((∃ l : Nat, l < 64 ∧ ma.getLsbD l = true ∧ m0.getLsbD l = true) → gives (.many f) 1)
    ∧ ((∀ l : Nat, l < 64 → ma.getLsbD l = true → m0.getLsbD l = false) → gives (.many f) 0)
    ∧ ((∀ l : Nat, l < 64 → m0.getLsbD l = true → ma.getLsbD l = true) → gives (.mall f) 1)
    ∧ ((∃ l : Nat, l < 64 ∧ m0.getLsbD l = true ∧ ma.getLsbD l = false) → gives (.mall f) 0)
    ∧ (∃ v, gives (.mlog f) v ∧ ∀ l : Nat, l < 64 → v.getLsbD l =
        (f.mod.getLsbD 2 ^^ (match f.modN % 4 with
          | 0 => ma.getLsbD l && mb.getLsbD l | 1 => ma.getLsbD l || mb.getLsbD l
          | 2 => ma.getLsbD l ^^ mb.getLsbD l | _ => ma.getLsbD l && !mb.getLsbD l)))
    ∧ ∃ v, gives (.mfrom f) v ∧ ∀ l : Nat, l < 64 → v.getLsbD l =
        (if f.mod.getLsbD 0 then decide (l = ma.toNat) else decide (l < ma.toNat)))

/-- Control transfers: the exact target, the check before anything is written, the link register and LOOP's count, which wraps
(R72, R118, R119). -/
def Obligations.ControlTransfers : Prop :=
  ∀ (f : Fields) (s : State), Executes .c false (dab f) f s →
    let here : Int := s.g.pc.toNat
    let t : Int := here + 12 * f.imm.toInt
    let jt : Int := here + 12 * f.imm.toInt + 12 * (s.va f).toNat
    let k : Word := s.vd f - 1
    let valid (x : Int) : Prop := 0 ≤ x ∧ x < 2 ^ 57 ∧ x % 12 = 0
    let dest (x : Int) : State := { s with g := { s.g with pc := BitVec.ofInt 64 x, wait := .run } }
    let link (x : Int) : State :=
      { s with g := { s.g.setSreg 63 (s.g.pc + 12) with pc := BitVec.ofInt 64 x, wait := .run } }
    let checked (x : Int) (i : Instr) (u : State) : Prop :=
      (valid x → exec i s = .next u) ∧ (¬ valid x → exec i s = .next (s.takeTrap { cause := 0x04 }))
    checked t (.bra f) (dest t)
    ∧ (s.va f ≠ 0 → checked t (.brc f) (dest t)) ∧ (s.va f = 0 → exec (.brc f) s = .next s.advance)
    ∧ checked t (.call f) (link t)
    ∧ checked ((s.va f).toNat : Int) (.callIndirect f) (link (s.va f).toNat)
    ∧ checked ((s.g.sreg 63).toNat : Int) (.ret f) (dest (s.g.sreg 63).toNat)
    ∧ (k ≠ 0 → checked t (.loop f) { s.putD f k with g := { (s.putD f k).g with pc := BitVec.ofInt 64 t, wait := .run } })
    ∧ (k = 0 → exec (.loop f) s = .next (s.putD f 0).advance)
    ∧ checked jt (.jidx f) (dest jt)

/-- ID reads a field of lane 0's identifier, the whole identifier, or the layout word; VIEW writes a view register unless its value is
refused with VIEWVAL; YIELD advances and, where an unblocked resident group of the core waits for a slot, gives its slot up (R27, R28, R30,
R103, R120, R121, R126). -/
def Obligations.IdentifierViewYield : Prop :=
  (∀ (f : Fields) (s : State), Executes .c false (dab f) f s →
    let sel := f.immN % 8
    let width (k : Nat) := s.g.layout.toNat / 2 ^ (10 * k + 4) % 64
    let source (k : Nat) := s.g.layout.toNat / 2 ^ (10 * k) % 16
    let value (src : Nat) : Nat := match src with
      | 2 => s.g.srcs.group | 3 => s.g.srcs.team | 4 => s.g.srcs.rank | 5 => s.g.srcs.gang | 6 => s.g.srcs.tileX
      | 7 => s.g.srcs.tileY | 8 => s.g.srcs.tileZ | 9 => s.g.srcs.task | 10 => s.g.srcs.launch | _ => 0
    let field (k : Nat) := value (source k) % 2 ^ width k
    let place (k : Nat) := ((List.range k).map width).sum
    (sel < 6 → exec (.id f) s = .next (s.putD f (BitVec.ofNat 64 (field sel))).advance)
    ∧ (sel = 6 → exec (.id f) s = .next (s.putD f
        (BitVec.ofNat 64 (((List.range 6).map fun k => field k * 2 ^ place k).sum))).advance)
    ∧ (sel = 7 → exec (.id f) s = .next (s.putD f s.g.layout).advance))
  ∧ (∀ (f : Fields) (s : State), Executes .c false (dab f) f s →
    let v := (s.va f).toNat
    let good : Prop := if f.d = .tsh then v % 256 = 0 ∧ v < 2 ^ 24 else v % 16 = 0 ∧ v < 2 ^ 19 ∧ v / 16 ≤ 24575
    (good → exec (.view f) s = .next (s.putD f (s.va f)).advance)
    ∧ (¬ good → exec (.view f) s = .next (s.takeTrap { cause := 0x05 })))
  ∧ (∀ (f : Fields) (s : State), Executes .c false (dab f) f s →
    let waits (g : Group) : Prop := g.die = s.g.die ∧ g.core = s.g.core ∧ g.life = .waiting ∧ s.unblocked g = true
    ((∃ g ∈ s.rest, waits g) → exec (.yield f) s =
      .next { s with g := { s.g with pc := s.g.pc + 12, wait := .run, life := .waiting, waitSince := s.now } })
    ∧ ((∀ g ∈ s.rest, ¬ waits g) → exec (.yield f) s = .next { s with g := { s.g with pc := s.g.pc + 12, wait := .run } }))

/-- A write to an operand reads back and leaves every other register alone; c0, m0 and ZERO take nothing. Scalar and control instructions
(opcodes 0x00 to 0x05) and vector instructions (0x20 to 0x26) reach only their own group: memory, the other groups and every other part of the
module are as before, unless the instruction takes a trap or is held because it would overwrite a source byte that a product has still to
read; YIELD alone may give up its slot, and block-scaled instructions count into their launch (R61, R104, R106, R110, R114, R121, R122,
R145). -/
def Obligations.GroupStaysInItself : Prop :=
  (∀ (g : Group) (o : Opnd) (v : Word),
    let t := g.put o v
    (∀ n : BitVec 6, o = .sreg n → t.sreg n.toNat = v)
    ∧ (∀ (x : BitVec 2) (ofs : BitVec 7) (n : Nat), o = .rel .scalar x ofs → (g.index x).toInt + ofs.toInt = n → t.sreg n = v)
    ∧ (∀ n : BitVec 3, n ≠ 0 → o = .cond n → t.cond n = decide (v ≠ 0))
    ∧ (∀ n : BitVec 3, n ≠ 0 → o = .mask n → t.mask n = v)
    ∧ (∀ n : BitVec 2, o = .index n → t.index n = v.setWidth 32)
    ∧ (o = .vb → t.vb = v) ∧ (o = .tb → t.tb = v) ∧ (o = .tsh → t.tsh = v)
    ∧ t.cond 0 = true ∧ t.mask 0 = g.mask 0
    ∧ (∀ n : Nat, (¬ ∃ m : BitVec 6, o = .sreg m ∧ m.toNat = n) →
        (¬ ∃ x ofs, o = .rel .scalar x ofs ∧ ((g.index x).toInt + ofs.toInt).toNat = n) → t.sreg n = g.sreg n)
    ∧ (∀ b : Nat, (∀ n : BitVec 6, o = .sreg n → b < 8 * n.toNat ∨ 8 * n.toNat + 8 ≤ b) →
        (∀ x ofs, o ≠ .rel .scalar x ofs) → bget t.regs b = bget g.regs b)
    ∧ (∀ n : BitVec 3, o ≠ .cond n → t.cond n = g.cond n) ∧ (∀ n : BitVec 3, o ≠ .mask n → t.mask n = g.mask n)
    ∧ (∀ n : BitVec 2, o ≠ .index n → t.index n = g.index n)
    ∧ (o ≠ .vb → t.vb = g.vb) ∧ (o ≠ .tb → t.tb = g.tb) ∧ (o ≠ .tsh → t.tsh = g.tsh)
    ∧ t = { g with regs := t.regs, conds := t.conds, masks := t.masks, xs := t.xs, vb := t.vb, tb := t.tb, tsh := t.tsh })
  ∧ (∀ (i : Instr) (opc fn : Nat) (f : Fields) (s t : State), i.parts = some (opc, fn, f) → opc ≤ 0x26 → exec i s = .next t →
    (∃ r : FRec, t = s.takeTrap r)
    ∨ (s.unread s.g ≠ [] ∧ (t = s ∨ t = { s with g := { s.g with wait := .held 0 s.now } }))
    ∨ (t = { s with g := t.g, launches := t.launches } ∧
        t.g = { s.g with
          regs := t.g.regs, conds := t.g.conds, masks := t.g.masks, xs := t.g.xs, vb := t.g.vb, tb := t.g.tb, tsh := t.g.tsh,
          pc := t.g.pc, wait := .run, life := t.g.life, waitSince := t.g.waitSince } ∧
        (opc < 0x20 → t.launches = s.launches) ∧
        ((∀ f, i ≠ .yield f) → t.g.life = s.g.life ∧ t.g.waitSince = s.g.waitSince)))

/-! ## Vector instructions -/

/-- Opcode 0x20: every lane of the set takes the integer result, clamped or wrapped, or the exact floating result rounded once
by RND, SAT and FTZ; SAT does not reach VMULH, VMIN and VMAX (R148, R151, R152). -/
def Obligations.VectorArithmetic : Prop :=
  ∀ (f : Fields) (s : State), f.d.isView = true →
    let w := typeWidth f.type
    let ea (l : Nat) := s.g.elem f.imm f.a w l
    let eb (l : Nat) := s.g.elem f.imm f.b w l
    let ec (l : Nat) := s.g.elem f.imm f.c w l
    let gives (i : Instr) (v : Nat → Nat) : Prop := ∃ t, exec i s = .next t ∧ TakesLanes f w v s t
    let a (l : Nat) := intVal f.type (ea l)
    let b (l : Nat) := intVal f.type (eb l)
    let c (l : Nat) := intVal f.type (ec l)
    let low (r : Int) : Nat := (r % (2 ^ w : Nat)).toNat
    let out (r : Int) : Nat := low (if f.sat then min (max r (minVal f.type)) (maxVal f.type) else r)
    let rm := RM.ofCode f.rnd
    let x (l : Nat) := fltVal f.type f.ftz (ea l)
    let y (l : Nat) := fltVal f.type f.ftz (eb l)
    let z (l : Nat) := fltVal f.type f.ftz (ec l)
    let rnd (v : FV) : Nat := (fmtOf f.type).fround rm f.sat f.ftz v
    let rndMm (v : FV) : Nat := (fmtOf f.type).fround rm false f.ftz v
    (Executes .m false (vrefs f w w w) f s → f.type < 8 →
      gives (.vadd f) (fun l => out (a l + b l)) ∧ gives (.vsub f) (fun l => out (a l - b l))
      ∧ gives (.vmul f) (fun l => out (a l * b l)) ∧ gives (.vmulh f) (fun l => low (a l * b l / (2 ^ w : Nat)))
      ∧ gives (.vmin f) (fun l => low (min (a l) (b l))) ∧ gives (.vmax f) (fun l => low (max (a l) (b l)))
      ∧ gives (.vabs f) (fun l => out ((a l).natAbs : Nat)) ∧ gives (.vneg f) (fun l => out (-(a l)))
      ∧ gives (.vdiv f) (fun l => out
          (if b l = 0 then (if isSigned f.type then -1 else (2 ^ w : Nat) - 1) else (a l).tdiv (b l))))
    ∧ (Executes .m false (vrefsC f w w w w) f s → f.type < 8 →
      gives (.vfma f) (fun l => out (a l * b l + c l)) ∧ gives (.vfms f) (fun l => out (a l * b l - c l)))
    ∧ (Executes .m false (vrefs f w w w) f s → 8 ≤ f.type →
      gives (.vadd f) (fun l => rnd ((x l).add rm (y l))) ∧ gives (.vsub f) (fun l => rnd ((x l).add rm (y l).neg))
      ∧ gives (.vmul f) (fun l => rnd ((x l).mul (y l))) ∧ gives (.vdiv f) (fun l => rnd ((x l).div (y l)))
      ∧ gives (.vmin f) (fun l => rndMm (FV.minMax false (x l) (y l)))
      ∧ gives (.vmax f) (fun l => rndMm (FV.minMax true (x l) (y l)))
      ∧ gives (.vabs f) (fun l => rnd (x l).abs) ∧ gives (.vneg f) (fun l => rnd (x l).neg))
    ∧ (Executes .m false (vrefsC f w w w w) f s → 8 ≤ f.type →
      gives (.vfma f) (fun l => rnd (((x l).mul (y l)).add rm (z l)))
      ∧ gives (.vfms f) (fun l => rnd (((x l).mul (y l)).add rm (z l).neg)))

/-- Opcode 0x21: each function gives one fixed value for each input pattern of a type, the same in every state; VSQRT the exact
root rounded by RND; and FP32 gives the listed values on special and exact inputs (R153, R154).
The model's part: the bits of six functions are free within their bound (log entry 5). -/
def Obligations.VectorFunctions : Prop :=
  (∀ (f : Fields) (s : State), f.d.isView = true →
    let w := typeWidth f.type
    Executes .m false (vrefs f w w w) f s →
      ∃ t, exec (.vsqrt f) s = .next t ∧ TakesLanes f w
        (fun l => (fmtOf f.type).fround (RM.ofCode f.rnd) f.sat f.ftz (fltVal f.type f.ftz (s.g.elem f.imm f.a w l)).sqrt) s t)
  ∧ ∀ (ty : Nat) (sat ftz : Bool), 8 ≤ ty → ty < 11 →
    let fixed (c : Fields → Instr) (special : List (Nat × Nat)) : Prop := ∃ v : Nat → Nat,
      (∀ (f : Fields) (s : State), f.d.isView = true → f.type = ty → f.sat = sat → f.ftz = ftz →
        Executes .m false (vrefs f (typeWidth ty) (typeWidth ty) (typeWidth ty)) f s →
          ∃ t, exec (c f) s = .next t ∧ TakesLanes f (typeWidth ty) (fun l => v (s.g.elem f.imm f.a (typeWidth ty) l)) s t)
      ∧ (ty = 8 → sat = false → ∀ e ∈ special, v e.1 = e.2)
    fixed .vrcp [(0, 0x7F800000), (0x80000000, 0xFF800000), (0x7F800000, 0), (0xFF800000, 0x80000000),
      (0x7F800001, 0x7FC00000), (0x40000000, 0x3F000000)]
    ∧ fixed .vrsq [(0, 0x7F800000), (0x80000000, 0xFF800000), (0xBF800000, 0x7FC00000), (0x7F800000, 0),
      (0x40800000, 0x3F000000)]
    ∧ fixed .vexp2 [(0, 0x3F800000), (0x80000000, 0x3F800000), (0xFF800000, 0), (0x7F800000, 0x7F800000),
      (0xC2FC0000, 0x00800000), (0x43000000, 0x7F800000), (0x7F800001, 0x7FC00000)]
    ∧ fixed .vlog2 [(0, 0xFF800000), (0x80000000, 0xFF800000), (0x3F800000, 0), (0x40800000, 0x40000000),
      (0xBF800000, 0x7FC00000), (0x7F800000, 0x7F800000)]
    ∧ fixed .vsinp [(0x3F800000, 0), (0xBF800000, 0x80000000), (0x3F000000, 0x3F800000), (0x3FC00000, 0xBF800000),
      (0x7F800000, 0x7FC00000)]
    ∧ fixed .vcosp [(0x3F800000, 0xBF800000), (0x40000000, 0x3F800000), (0x3F000000, 0), (0xFF800000, 0x7FC00000)]

/-- Opcode 0x22's bitwise operations, shifts by the element's own pattern and bit counts, lane by lane; VCMP writes the mask bits of its
lanes, VSEL chooses by a mask, VCVT converts (R148, R155-R159).
The model's part: a VCVT between equal types copies an infinity also with SAT = 1, and leaves a subnormal out under FTZ = 1 (log entry 60). -/
def Obligations.VectorBitsCompareConvert : Prop :=
  (∀ (f : Fields) (s : State), f.d.isView = true → f.type < 8 →
    let w := intWidth f.type
    Executes .m false (vrefs f w w w) f s →
      let a (l : Nat) := s.g.elem f.imm f.a w l
      let b (l : Nat) := s.g.elem f.imm f.b w l
      let low (r : Int) : Nat := (r % (2 ^ w : Nat)).toNat
      let clamp (r : Int) : Int := if f.sat then min (max r (minVal f.type)) (maxVal f.type) else r
      let gives (i : Instr) (v : Nat → Nat) : Prop := ∃ t, exec i s = .next t ∧ TakesLanes f w v s t
      gives (.vand f) (fun l => a l &&& b l) ∧ gives (.vor f) (fun l => a l ||| b l) ∧ gives (.vxor f) (fun l => a l ^^^ b l)
      ∧ gives (.vnot f) (fun l => 2 ^ w - 1 - a l)
      ∧ gives (.vshl f) (fun l => low (clamp (intVal f.type (a l) * (2 ^ b l : Nat))))
      ∧ gives (.vshr f) (fun l => a l / 2 ^ b l)
      ∧ gives (.vsra f) (fun l => low (sgn (a l) w / (2 ^ b l : Nat)))
      ∧ gives (.vpopc f) (fun l => ((List.range w).filter (a l).testBit).length)
      ∧ gives (.vclz f) (fun l => if a l = 0 then w else w - 1 - Nat.log2 (a l)))
  ∧ (∀ (f : Fields) (s : State),
    (Executes .m false (vrefs f (typeWidth f.type) (typeWidth f.type) (typeWidth f.type)) f s →
      let a (l : Nat) := s.g.elem f.imm f.a (typeWidth f.type) l
      let b (l : Nat) := s.g.elem f.imm f.b (typeWidth f.type) l
      ∃ m, exec (.vcmp f) s = .next (s.putD f m).advance ∧ ∀ l, l < 64 →
        ((s.g.lanes f).getLsbD l = false → m.getLsbD l = (s.vd f).getLsbD l)
        ∧ ((s.g.lanes f).getLsbD l = true → f.type < 8 → f.cc < 6 → (m.getLsbD l = true ↔ match f.cc with
          | 0 => intVal f.type (a l) = intVal f.type (b l) | 1 => intVal f.type (a l) ≠ intVal f.type (b l)
          | 2 => intVal f.type (a l) < intVal f.type (b l) | 3 => intVal f.type (a l) ≤ intVal f.type (b l)
          | 4 => intVal f.type (a l) > intVal f.type (b l) | _ => intVal f.type (a l) ≥ intVal f.type (b l)))
        ∧ ((s.g.lanes f).getLsbD l = true → 8 ≤ f.type → f.cc < 8 →
          let x := (fmtOf f.type).decode (a l)
          let y := (fmtOf f.type).decode (b l)
          let nan := x.isNan = true ∨ y.isNan = true
          (m.getLsbD l = true ↔ match f.cc with
            | 0 => ¬ nan ∧ x.cmp y = 0 | 1 => nan ∨ x.cmp y ≠ 0 | 2 => ¬ nan ∧ x.cmp y < 0 | 3 => ¬ nan ∧ x.cmp y ≤ 0
            | 4 => ¬ nan ∧ x.cmp y > 0 | 5 => ¬ nan ∧ x.cmp y ≥ 0 | 6 => nan | _ => ¬ nan)))
    ∧ (f.d.isView = true → Executes .m false (vrefs f 32 32 32) f s → ∃ t, exec (.vsel f) s = .next t ∧ TakesLanes f 32
        (fun l => if (s.vc f).getLsbD l then s.g.elem f.imm f.a 32 l else s.g.elem f.imm f.b 32 l) s t)
    ∧ (f.d.isView = true →
      let st := f.immN % 32
      let dt := f.type
      let e (l : Nat) := s.g.elem f.imm f.a (typeWidth st) l
      let clamp (r : Int) : Int := min (max r (minVal dt)) (maxVal dt)
      let low (r : Int) : Nat := (r % (2 ^ intWidth dt : Nat)).toNat
      let rm := RM.ofCode f.rnd
      Executes .m false (vrefs f (typeWidth dt) (typeWidth st) 8) f s → ∃ v t, exec (.vcvt f) s = .next t ∧
        TakesLanes f (typeWidth dt) v s t ∧ ∀ l,
          (st < 8 → dt < 8 → v l = low (if f.sat then clamp (intVal st (e l)) else intVal st (e l)))
          ∧ (st < 8 → 8 ≤ dt → v l = (fmtOf dt).fround rm f.sat f.ftz
              (if intVal st (e l) = 0 then .zero false else .fin (Q.ofInt (intVal st (e l)))))
          ∧ (8 ≤ st → dt < 8 → match fltVal st f.ftz (e l) with
              | .nan => v l = 0 | .inf n => v l = low (if n then minVal dt else maxVal dt) | .zero _ => v l = 0
              | .fin q => v l = low (clamp (roundInt rm q)))
          ∧ (8 ≤ st → dt = st → ((fmtOf dt).decode (e l)).isNan = true → v l = (fmtOf dt).canon)
          ∧ (8 ≤ st → st < 13 → dt = st → ((fmtOf dt).decode (e l)).isNan = false →
              (f.ftz = false ∨ (fmtOf dt).subnormal (e l) = false) → v l = e l)
          ∧ (8 ≤ st → 8 ≤ dt → dt ≠ st → v l = (fmtOf dt).fround rm f.sat f.ftz (fltVal st f.ftz (e l)))))

/-- Opcode 0x25: elements move between lanes and scalars; idx is B's low 6 bits, source lanes are read whether or not they lie
in the set (R166-R168). -/
def Obligations.LaneMovement : Prop :=
  ∀ (f : Fields) (s : State),
    let w := 8 * 2 ^ (f.modN % 4)
    Executes .m false (vrefs f w w w) f s →
      let idx := (s.vb f).toNat % 64
      let a (l : Nat) := s.g.elem f.imm f.a w l
      let b (l : Nat) := s.g.elem f.imm f.b w l
      let gives (i : Instr) (v : Nat → Nat) : Prop := f.d.isView = true → ∃ t, exec i s = .next t ∧ TakesLanes f w v s t
      let sel := f.immN % 8
      let width (k : Nat) := s.g.layout.toNat / 2 ^ (10 * k + 4) % 64
      let source (k : Nat) := s.g.layout.toNat / 2 ^ (10 * k) % 16
      let value (l src : Nat) : Nat := match src with
        | 1 => l | 2 => s.g.srcs.group | 3 => s.g.srcs.team | 4 => s.g.srcs.rank | 5 => s.g.srcs.gang | 6 => s.g.srcs.tileX
        | 7 => s.g.srcs.tileY | 8 => s.g.srcs.tileZ | 9 => s.g.srcs.task | 10 => s.g.srcs.launch | _ => 0
      gives (.vmov f) a ∧ gives (.vbc f) (fun _ => a idx)
      ∧ gives (.vshuf f) (fun l => if (b l).testBit 6 then 0 else a (b l % 64))
      ∧ (sel < 6 → gives (.vidx f) (fun l => value l (source sel) % 2 ^ width sel))
      ∧ (sel = 6 → gives (.vidx f) (fun l =>
          ((List.range 6).map fun k => value l (source k) % 2 ^ width k * 2 ^ ((List.range k).map width).sum).sum))
      ∧ (sel = 7 → gives (.vidx f) (fun l => l))
      ∧ ((s.g.lanes f).getLsbD idx = true →
          exec (.vext f) s = .next (s.putD f (if f.mod.getLsbD 2 then BitVec.ofInt 64 (sgn (a idx) w) else BitVec.ofNat 64 (a idx))).advance
          ∧ (f.d.isView = true → ∃ t, exec (.vins f) s = .next t ∧
              t = { s with g := { s.g with regs := t.g.regs, pc := s.g.pc + 12, wait := .run } } ∧
              (∀ b, b < s.g.base f.d ∨ s.g.base f.d + 8 * w ≤ b → bget t.g.regs b = bget s.g.regs b) ∧
              ∀ l, l < 64 → t.g.elem f.imm f.d w l = if l = idx then (s.va f).toNat % 2 ^ w else s.g.elem f.imm f.d w l))
      ∧ ((s.g.lanes f).getLsbD idx = false → exec (.vext f) s = .next s.advance ∧ exec (.vins f) s = .next s.advance)

/-- VPACK, VUNPK, VSCALE and VQUANT: each block of 32 lanes under its own 10-bit scale of B; a NaN scale gives code 0 or the
canonical NaN; VQUANT chooses EXP from the greatest magnitude of the block's lanes, 0xFF where one is NaN or infinite, and keeps the scale of
a block without lanes (R130, R134, R136, R160-R165).
The model's part: what the statistics count is the model's reading (log entry 27), and VPACK and VSCALE read a wide subnormal as zero under
FTZ = 1 by R160. -/
def Obligations.BlockScaledInstructions : Prop :=
  ∀ (f : Fields) (s : State), f.d.isView = true →
    let nw := narrowWidth (f.modN / 32)
    let wt := 8 + f.modN / 2 % 4
    let ww := typeWidth wt
    let scale (l : Nat) := (s.vb f).toNat / 2 ^ (10 * (l / 32)) % 1024
    let wide (l : Nat) := s.g.elem f.imm f.a ww l
    let q (sc p : Nat) := quant (f.modN / 32) sc (RM.ofCode (f.modN / 8 % 4)) (f.mod.getLsbD 0) ((fmtOf wt).subnormal p) ((fmtOf wt).decode p)
    (Executes .m false (vrefs f nw ww 8) f s →
      (∃ t, exec (.vpack f) s = .next t ∧ t.mem = s.mem ∧ t.rest = s.rest ∧
        TakesLanes f nw (fun l => if scale l % 256 = 255 then 0 else (q (scale l) (wide l)).code) { s with launches := t.launches } t)
      ∧ (s.g.lanes f = 0 → exec (.vquant f) s = .next s.advance)
      ∧ (∀ r, f.b = .sreg r → 512 ≤ s.g.base f.d → s.g.lanes f ≠ 0 → ∃ (t : State) (sc : Nat → Nat), exec (.vquant f) s = .next t ∧ t.mem = s.mem ∧ t.rest = s.rest
          ∧ (∀ l, l < 64 → (s.g.lanes f).getLsbD l = true →
              sc l = (t.g.sreg r.toNat).toNat / 2 ^ (10 * (l / 32)) % 1024 ∧ sc l / 256 = f.immN / 4096 % 4 ∧
              t.g.elem f.imm f.d nw l = (if sc l % 256 = 255 then 0 else (q (sc l) (wide l)).code) % 2 ^ nw)
          ∧ (t.g.sreg r.toNat).toNat / 2 ^ 20 = (s.vb f).toNat / 2 ^ 20
          ∧ (∀ l, l < 64 → (s.g.lanes f).getLsbD l = false → t.g.elem f.imm f.d nw l = s.g.elem f.imm f.d nw l)
          ∧ (∀ b, b < 2 → (∀ l, l < 64 → l / 32 = b → (s.g.lanes f).getLsbD l = false) →
              (t.g.sreg r.toNat).toNat / 2 ^ (10 * b) % 1024 = (s.vb f).toNat / 2 ^ (10 * b) % 1024)
          ∧ (∀ b, b < 2 →
              let set (l : Nat) : Prop := l < 64 ∧ l / 32 = b ∧ (s.g.lanes f).getLsbD l = true
              let x (l : Nat) : FV := (fmtOf wt).read (f.mod.getLsbD 0) (wide l)
              let exp := (t.g.sreg r.toNat).toNat / 2 ^ (10 * b) % 256
              let emax : Int := match f.modN / 32, f.immN / 4096 % 4 with
                | 11, _ => 8 | 12, _ => 15 | 13, _ => 4 | 14, _ => 2 | _, 0 => 2 | _, 1 => 2 | _, _ => 3
              ((∃ l, set l ∧ ((x l).isNan = true ∨ (x l).isInf = true)) → exp = 255)
              ∧ ((∃ l, set l) → (∀ l, set l → ∃ n, x l = .zero n) → exp = 127)
              ∧ ∀ (l : Nat) (m : Q) (k : Int), set l → x l = .fin m →
                  (∀ j, set j → (∃ n, x j = .zero n) ∨ ∃ q, x j = .fin q ∧ q.num.natAbs * m.den ≤ m.num.natAbs * q.den) →
                  m.den * 2 ^ k.toNat ≤ m.num.natAbs * 2 ^ (-k).toNat → m.num.natAbs * 2 ^ (-k).toNat < 2 * (m.den * 2 ^ k.toNat) →
                  exp = (min (max (k - emax + 127) 0) 254).toNat)))
    ∧ (Executes .m false (vrefs f ww nw 8) f s → ∃ t, exec (.vunpk f) s = .next t ∧ TakesLanes f ww
        (fun l => (fmtOf wt).fround (RM.ofCode (f.modN / 8 % 4)) false (f.mod.getLsbD 0)
          (scaledDecode (f.modN / 32) (scale l) (s.g.elem f.imm f.a nw l))) s t)
    ∧ (Executes .m false (vrefs f ww ww 8) f s → ∃ t v, exec (.vscale f) s = .next t ∧ TakesLanes f ww v s t ∧ ∀ l,
        (scale l % 256 = 255 → v l = (fmtOf wt).canon)
        ∧ (scale l % 256 ≠ 255 → ∀ x, (fmtOf wt).read (f.mod.getLsbD 0) (wide l) = .fin x → v l =
            (fmtOf wt).fround (RM.ofCode (f.modN / 8 % 4)) false (f.mod.getLsbD 0)
              (.fin (if f.imm.getLsbD 0 then x.div (scaleX (scale l)) else x.mul (scaleX (scale l)))))
        ∧ (scale l % 256 ≠ 255 → match (fmtOf wt).read (f.mod.getLsbD 0) (wide l) with
            | .nan => v l = (fmtOf wt).canon | .inf n => v l = (fmtOf wt).infinity n | .zero n => v l = (fmtOf wt).withSign n 0
            | .fin _ => True))

/-- VRED over integers: the sum modulo 2^W, the minimum, the maximum and the bitwise operations of the lanes of the set, or the
identity of an empty set, extended by TYPE into D. Over every type, VRED is the fixed tree of combinations over neighbours, and VSCAN combines
in ascending lane order, each floating combination rounded once, every NaN result canonical (R128, R169-R171). -/
def Obligations.ReductionAndScan : Prop :=
  (∀ (f : Fields) (s : State), f.type < 8 →
    let w := intWidth f.type
    Executes .m false (vrefs f w w w) f s →
      let op := f.modN % 8
      let a (l : Nat) := s.g.elem f.imm f.a w l
      let upTo (n : Nat) : List Nat := (List.range n).filter fun l => (s.g.lanes f).getLsbD l
      let sum (n : Nat) : Int := ((upTo n).map fun l => intVal f.type (a l)).sum
      let low (r : Int) : Nat := (r % (2 ^ w : Nat)).toNat
      ∃ r, exec (.vred f) s = .next (s.putD f (BitVec.ofInt 64 (intVal f.type r))).advance
        ∧ (op = 0 → r = low (sum 64))
        ∧ (op = 1 → (∀ l ∈ upTo 64, intVal f.type r ≤ intVal f.type (a l)) ∧
            (upTo 64 ≠ [] → ∃ l ∈ upTo 64, r = a l) ∧ (upTo 64 = [] → intVal f.type r = maxVal f.type))
        ∧ (op = 2 → (∀ l ∈ upTo 64, intVal f.type (a l) ≤ intVal f.type r) ∧
            (upTo 64 ≠ [] → ∃ l ∈ upTo 64, r = a l) ∧ (upTo 64 = [] → intVal f.type r = minVal f.type))
        ∧ (op = 3 → ∀ i, i < w → (r.testBit i = true ↔ ∀ l ∈ upTo 64, (a l).testBit i = true))
        ∧ (op = 4 → ∀ i, i < w → (r.testBit i = true ↔ ∃ l ∈ upTo 64, (a l).testBit i = true))
        ∧ (op = 5 → ∀ i, i < w → (r.testBit i = true ↔ ((upTo 64).filter fun l => (a l).testBit i).length % 2 = 1))
        ∧ (f.d.isView = true → ∃ t v, exec (.vscan f) s = .next t ∧ TakesLanes f w v s t ∧ (op = 0 → ∀ l, l < 64 →
            (s.g.lanes f).getLsbD l = true → v l % 2 ^ w = low (sum (l + 1)))))
  ∧ (∀ (f : Fields) (s : State), f.type < 11 → f.modN % 8 < (if f.type < 8 then 6 else 3) →
    let w := typeWidth f.type
    Executes .m false (vrefs f w w w) f s →
      let op := f.modN % 8
      let rm := RM.ofCode f.rnd
      let fmt := fmtOf f.type
      let a (l : Nat) := s.g.elem f.imm f.a w l
      let iv (x : Nat) : Int := intVal f.type x
      let comb (x y : Nat) : Nat :=
        if f.type < 8 then (match op with
          | 0 => ((iv x + iv y) % (2 ^ w : Nat)).toNat | 1 => if iv x ≤ iv y then x else y | 2 => if iv x ≤ iv y then y else x
          | 3 => x &&& y | 4 => x ||| y | _ => x ^^^ y)
        else (match op with
          | 0 => fmt.fround rm false false ((fmt.decode x).add rm (fmt.decode y))
          | 1 => fmt.fround rm false false (FV.minMax false (fmt.decode x) (fmt.decode y))
          | _ => fmt.fround rm false false (FV.minMax true (fmt.decode x) (fmt.decode y)))
      let join (x y : Option Nat) : Option Nat := match x, y with | none, y => y | x, none => x | some x, some y => some (comb x y)
      let clean (x : Nat) : Nat := if 8 ≤ f.type ∧ (fmt.decode x).isNan = true then fmt.canon else x
      let value (x : Nat) : Word := if f.type < 8 then BitVec.ofInt 64 (iv x) else BitVec.ofNat 64 x
      let set (l : Nat) : Bool := decide (l < 64) && (s.g.lanes f).getLsbD l
      (∃ t : Nat → Nat → Option Nat, (∀ l, t 0 l = if set l then some (a l) else none)
        ∧ (∀ k i, t (k + 1) i = join (t k i) (t k (i + 2 ^ k)))
        ∧ (∀ x, t 6 0 = some x → exec (.vred f) s = .next (s.putD f (value (clean x))).advance)
        ∧ (t 6 0 = none → 8 ≤ f.type → exec (.vred f) s = .next (s.putD f (BitVec.ofNat 64 (match op with
            | 0 => 0 | 1 => fmt.infinity false | _ => fmt.infinity true))).advance))
      ∧ (f.d.isView = true → ∃ (acc : Nat → Option Nat) (v : Nat → Nat) (t : State), acc 0 = none
        ∧ (∀ l, acc (l + 1) = if set l then join (acc l) (some (a l)) else acc l)
        ∧ exec (.vscan f) s = .next t ∧ TakesLanes f w v s t
        ∧ ∀ l x, l < 64 → set l = true → acc (l + 1) = some x → v l % 2 ^ w = clean x))

/-! ## Memory -/

/-- Every step keeps the memory system's invariant: canonical stores, lines of the own die, dirty within owned, one owner a word
(R186), translations within a die.
The model's part: the invariant is the model's own. -/
def Obligations.StepKeepsSound : Prop := ∀ s t : State, s.Sound → step s = .next t → t.Sound

/-- Loads: each lane of the set (SLD: one address) reads its bytes, little-endian, from the core's readable copy or the home copy, from
host memory behind the group's posted writes, or at the home die; D takes them, ORD = 1 then advances the core's generation, other lanes and bytes stay, and no byte of device memory changes; a
failed check and a poisoned line trap before anything is read. The format-taking LD in local memory: the line's sidecar gives the format,
each lane its packed element, and B the scales of both blocks, TY of an MX block's as 0, with the format in [24:20] (R130, R141, R187, R193,
R196, R197, R199, R202, R204).
The model's part: which copies a core may hold is the model's (log entries 14 and 17), as are the lane that a fault of the
format-taking LD names and what a line in no window gives it (log entry 12), a second block in a window of another format, whose scale is
free (log entry 9), and that a read of the host pushes the group's posted
writes before it (log entry 36). -/
def Obligations.Loads : Prop :=
  (∀ (f : Fields) (s : State), s.Sound →
    let e := 2 ^ (f.modN % 4)
    let base : Int := (s.va f).toNat + f.imm.toInt
    let set := laneList (s.g.lanes f)
    let value (a : LaneAcc) : Nat :=
      if a.x.tgt = 0 then leVal ((List.range e).map fun i => s.see s.g.die s.g.core (memKey s.g.die a.x.ofs + i))
      else if a.x.tgt = 1 then rdLE (s.flushOwn s.g.uid).mem (hostKey a.x.ofs) e
      else match s.peerHome s.g.die a.x.handle a.x.ofs .r s.gSecure with | .ok (some k) => rdLE s.mem k e | _ => 0
    let loads (i : Instr) (addr : Nat → Int) (lanes : List Nat) (into : (Nat → Nat) → State → State → Prop) : Prop :=
      (∀ r, s.checkLanes .r f.mcls e addr lanes = .error r → exec i s = .next (s.takeTrap r))
      ∧ ∀ xs, s.checkLanes .r f.mcls e addr lanes = .ok xs →
        (∀ r, s.firstPoison .r e xs = some r → exec i s = .next (s.takeTrap r))
        ∧ (s.firstPoison .r e xs = none → (∀ a ∈ xs, s.peerBusy e a = false ∧ s.loadHeld e a = false) →
            (∀ a ∈ xs, a.x.tgt = 2 → ∃ k, s.peerHome s.g.die a.x.handle a.x.ofs .r s.gSecure = .ok (some k)) →
          ∃ t v, exec i s = .next t ∧ (∀ a ∈ xs, v a.lane = value a)
            ∧ into v { s with
                cores := t.cores, mem := t.mem, cache := t.cache, side := t.side, dies := t.dies, fab := t.fab, launches := t.launches } t
            ∧ (t.core s.g.die s.g.core).gen = (s.core s.g.die s.g.core).gen + (if f.ord = 1 then 1 else 0)
            ∧ ∀ k, k < 2 ^ 60 → t.cohByte k = s.cohByte k)
    let vector (v : Nat → Nat) (u t : State) : Prop := TakesLanes f (8 * e) v u t
    (f.d.isView = true → Executes .m false (vrefs f (8 * e) 8 8) f s → loads (.ld f) (fun l => base + (l * e : Nat)) set vector)
    ∧ (f.d.isView = true → Executes .m false (vrefs f (8 * e) 8 64) f s →
        loads (.ldg f) (fun l => base + sgn (s.g.elem f.imm f.b 64 l) 64) set vector)
    ∧ (Executes .c false (dab f) f s →
        loads (.sld f) (fun _ => base) [0] fun v u t => t = (u.putD f (BitVec.ofNat 64 (v 0))).advance))
  ∧ (∀ (f : Fields) (s : State) (r : BitVec 6), s.Sound → f.d.isView = true → f.b = .sreg r → 512 ≤ s.g.base f.d →
    Executes .m false (fun _ => [⟨0, f.d, 64⟩, ⟨1, f.a, 8⟩, ⟨2, f.b, 8⟩]) f s →
    let base : Int := (s.va f).toNat + f.imm.toInt
    let set := laneList (s.g.lanes f)
    (set = [] → f.ord ≠ 1 → exec (.ldFormat f) s = .next s.advance)
    ∧ (set ≠ [] → (∀ r, s.checkElem .r f.mcls 1 0 base = .error r → exec (.ldFormat f) s = .next (s.takeTrap r))
      ∧ ∀ x0, s.checkElem .r f.mcls 1 0 base = .ok x0 →
        let k0 := memKey s.g.die x0.ofs
        let s1 := s.noteLine k0 (hintOf f ⟨0, base, x0⟩)
        let (fmt, j, off) := s1.formatAt k0
        let b := blockBytes fmt
        let w := if fmt = 0 then 4 else narrowWidth fmt
        let s2 (x1 : Xl) := s1.noteLine (memKey s.g.die x1.ofs) (hintOf f ⟨32, base + (b : Nat), x1⟩)
        let fmt1 (x1 : Xl) := ((s2 x1).formatAt (memKey s.g.die x1.ofs)).1
        let second (x1 : Xl) : Nat := if fmt = 0 ∨ fmt1 x1 = 0 then 0xFF
          else ((s2 x1).sideScale (memKey s.g.die x1.ofs) ((s2 x1).formatAt (memKey s.g.die x1.ofs)).2.1).toNat
        let written (sc : Nat) : Nat := if 11 ≤ fmt ∧ fmt ≤ 14 then sc % 256 else sc
        (off ≠ 0 → exec (.ldFormat f) s = .next (s.takeTrap (fltAt 0x15 0 base)))
        ∧ (off = 0 → ∀ xs x1, s.spanAccs base w set = .ok xs → s.checkElem .r f.mcls 1 32 (base + (b : Nat)) = .ok x1 →
            s.firstPoison .r 1 xs = none → (∀ a ∈ xs, s.loadHeld 1 a = false) →
            ∃ (t : State) (v : Nat → Nat), exec (.ldFormat f) s = .next t
              ∧ (∀ l, l < 64 → (s.g.lanes f).getLsbD l = true → t.g.elem f.imm f.d w l = v l % 2 ^ w)
              ∧ (∀ l, l < 64 → (s.g.lanes f).getLsbD l = false → t.g.elem f.imm f.d w l = s.g.elem f.imm f.d w l)
              ∧ (∀ a ∈ xs, ∀ i, i < w → ∀ o : Nat, a.va = base + o → (a.lane * w + i) / 8 = o →
                  (v a.lane).testBit i = (s.see s.g.die s.g.core (memKey s.g.die a.x.ofs)).getLsbD ((a.lane * w + i) % 8))
              ∧ (t.g.sreg r.toNat).toNat / 2 ^ 20 = fmt ∧ (t.g.sreg r.toNat).toNat % 2 ^ 10 = written (s1.sideScale k0 j).toNat
              ∧ (fmt = 0 ∨ fmt1 x1 = 0 ∨ fmt1 x1 = fmt → (t.g.sreg r.toNat).toNat / 2 ^ 10 % 2 ^ 10 = written (second x1))
              ∧ (t.core s.g.die s.g.core).gen = (s.core s.g.die s.g.core).gen + (if f.ord = 1 then 1 else 0)
              ∧ (∀ k, k < 2 ^ 60 → t.cohByte k = s.cohByte k) ∧ t.rest = s.rest ∧ t.g.pc = s.g.pc + 12 ∧ t.g.masks = s.g.masks)))

/-- Stores: after the release that ORD 2 asks for, every lane's element goes to the address the instruction computes, lanes in
ascending order so that the highest stands; local bytes are written and no other byte of memory changes; host stores are posted
in order and peer stores sent; behind another core's lease, or an earlier request there, the store is held (R196, R197, R199, R202,
R203, R212, R213).
The model's part: when host and peer stores arrive is the model's (log entry 36). -/
def Obligations.Stores : Prop :=
  ∀ (f : Fields) (s : State), s.Sound → (f.ord = 2 → s.storesOut s.g.uid = false) →
    let u := if f.ord = 2 then s.flushCore s.g.die s.g.core else s
    let e := 2 ^ (f.modN % 4)
    let base : Int := (s.va f).toNat + f.imm.toInt
    let set := laneList (s.g.lanes f)
    let key (a : LaneAcc) := memKey s.g.die a.x.ofs
    let stores (i : Instr) (addr : Nat → Int) (lanes : List Nat) (val : Nat → Nat) : Prop :=
      (∀ r, u.checkLanes .w f.mcls e addr lanes = .error r → exec i s = .next (u.takeTrap r))
      ∧ ∀ xs, u.checkLanes .w f.mcls e addr lanes = .ok xs →
        ((∃ a ∈ xs, u.leaseBusy e a = true) → ∃ t, exec i s = .next t ∧ t.g.pc = s.g.pc ∧ t.g.regs = s.g.regs ∧ t.g.isHeld = true
          ∧ ∀ k, t.cohByte k = s.cohByte k)
        ∧ ((∀ a ∈ xs, u.leaseBusy e a = false) → ∃ t, exec i s = .next t
        ∧ t = { s with
            g := { s.g with pc := s.g.pc + 12, wait := .run }, cores := t.cores, mem := t.mem, cache := t.cache, side := t.side,
            dies := t.dies, poison := t.poison, fab := t.fab, launches := t.launches, fresh := t.fresh, mreg := t.mreg }
        ∧ (∀ k, (∀ a ∈ xs, a.x.tgt = 0 → k < key a ∨ key a + e ≤ k) → t.cohByte k = s.cohByte k)
        ∧ (∀ a ∈ xs, a.x.tgt = 0 → ∀ i, i < e →
            (∀ b ∈ xs, a.lane < b.lane → b.x.tgt = 0 → key a + i < key b ∨ key b + e ≤ key a + i) →
            t.cohByte (key a + i) = BitVec.ofNat 8 (val a.lane / 256 ^ i))
        ∧ ((∀ a ∈ xs, a.x.tgt = 1) → s.linkUp = true → (s.die s.g.die).dead = false → t.fab.posted = s.fab.posted ++ xs.map fun a =>
            { dev := s.g.die, job := s.g.job, addr := a.x.ofs, bytes := leBytes (val a.lane) e, launch := s.g.launch, owner := s.g.uid })
        ∧ (∀ a ∈ xs, a.x.tgt = 2 → ∃ p ∈ t.fab.stores, p.owner = s.g.uid ∧ p.handle = a.x.handle ∧ p.ofs = a.x.ofs ∧
            p.bytes = (List.range e).zip (leBytes (val a.lane) e))
        ∧ (∀ p ∈ s.fab.stores, p ∈ t.fab.stores))
    let elem (l : Nat) := s.g.elem f.imm f.d (8 * e) l
    (Executes .m false (vrefs f (8 * e) 8 8) f s → stores (.st f) (fun l => base + (l * e : Nat)) set elem)
    ∧ (Executes .m false (vrefs f (8 * e) 8 64) f s →
        stores (.stg f) (fun l => base + sgn (s.g.elem f.imm f.b 64 l) 64) set elem)
    ∧ (Executes .c false (dab f) f s → stores (.sst f) (fun _ => base) [0] fun _ => (s.vd f).toNat)

/-- The scratchpad: LDS and LDSB read the window of the own team or of the team at a cluster position; STS writes the own window,
or that of every position MCAST names, after the check of every target; a lane outside a window it reads or writes takes SPBOUND, and
a position without a team has no window; memory is not changed; a store to the window of a team whose core is halted is held (R205, R206, R339). -/
def Obligations.Scratchpad : Prop :=
  ∀ (f : Fields) (s : State), s.Sound → (f.ord = 2 → s.storesOut s.g.uid = false) →
    let e := 2 ^ (f.modN % 4)
    let set := laneList (s.g.lanes f)
    let at_ (l : Nat) : Nat := (s.va f).toNat + f.immN % 2 ^ 18 + l * e
    let inside (window : Nat) : Prop := ∀ l ∈ set, at_ l % e = 0 ∧ at_ l + e ≤ window
    let takes (i : Instr) (spad : Bytes) : Prop := ∃ t, exec i s = .next t ∧ (∀ k, t.cohByte k = s.cohByte k) ∧
      TakesLanes f (8 * e) (fun l => rdLE spad (at_ l) e) { s with cores := t.cores, mem := t.mem } t
    let stored (m : Bytes) : Prop :=
      ∀ l ∈ set, ∀ i, i < e → bget m (at_ l + i) = BitVec.ofNat 8 (s.g.elem f.imm f.d (8 * e) l / 256 ^ i)
    let storedOnly (t : State) : Prop := (∀ k, t.cohByte k = s.cohByte k) ∧
      t = { s with g := { s.g with pc := s.g.pc + 12, wait := .run }, teams := t.teams, cores := t.cores, mem := t.mem }
    let mc := f.immN / 2 ^ 18 % 16
    Executes .m false (vrefs f (8 * e) 8 8) f s →
      (f.d.isView = true → inside s.myTeam.window → takes (.lds f) s.myTeam.spad)
      ∧ (f.d.isView = true → ∀ i m, s.teamAt (f.immN / 2 ^ 18 % 4) = some (i, m) → inside m.window → takes (.ldsb f) m.spad)
      ∧ (mc = 0 → (s.team? s.g.gang s.g.team).isSome = true → inside s.myTeam.window → s.spadStopped s.g.gang s.g.team = false →
          ∃ t, exec (.sts f) s = .next t
          ∧ storedOnly t ∧ t.team s.g.gang s.g.team = { s.myTeam with spad := (t.team s.g.gang s.g.team).spad }
          ∧ (∀ k, k ≠ teamKey s.g.gang s.g.team → kget t.teams k = kget s.teams k) ∧ stored t.myTeam.spad
          ∧ (∀ o, (∀ l ∈ set, o < at_ l ∨ at_ l + e ≤ o) → bget t.myTeam.spad o = bget s.myTeam.spad o))
      ∧ (mc ≠ 0 → (∀ p, p < 4 → mc.testBit p = true → ∃ i m, s.teamAt p = some (i, m) ∧ inside m.window) →
          (∃ p i m, p < 4 ∧ mc.testBit p = true ∧ s.teamAt p = some (i, m) ∧ s.spadStopped s.g.gang i = true) →
          ∃ t, exec (.sts f) s = .next t ∧ t.g.pc = s.g.pc ∧ t.g.regs = s.g.regs ∧ t.teams = s.teams ∧ ∀ k, t.cohByte k = s.cohByte k)
      ∧ (mc ≠ 0 → (∀ p, p < 4 → mc.testBit p = true → ∃ i m, s.teamAt p = some (i, m) ∧ inside m.window ∧
            s.spadStopped s.g.gang i = false) →
          ∃ t, exec (.sts f) s = .next t ∧ storedOnly t
          ∧ (∀ p i m, p < 4 → mc.testBit p = true → s.teamAt p = some (i, m) → stored (t.team s.g.gang i).spad)
          ∧ ∀ k, (∀ p i m, p < 4 → mc.testBit p = true → s.teamAt p = some (i, m) → k ≠ teamKey s.g.gang i) →
              kget t.teams k = kget s.teams k)
      ∧ (∀ before l after, set = before ++ l :: after → (∀ k ∈ before, at_ k % e = 0 ∧ at_ k + e ≤ s.myTeam.window) →
          at_ l % e = 0 → s.myTeam.window < at_ l + e →
          let r : FRec := { cause := 0x16, lane := BitVec.ofNat 6 l, addr := BitVec.ofNat 64 (at_ l) }
          exec (.lds f) s = .next (s.takeTrap r) ∧ (mc = 0 → f.ord ≠ 2 → exec (.sts f) s = .next (s.takeTrap r)))
      ∧ (let size (p : Nat) : Nat := match s.teamAt p with | some (_, m) => m.window | none => 0
        ∀ before l after, set = before ++ l :: after → at_ l % e = 0 →
          let r : FRec := { cause := 0x16, lane := BitVec.ofNat 6 l, addr := BitVec.ofNat 64 (at_ l) }
          ((∀ k ∈ before, at_ k % e = 0 ∧ at_ k + e ≤ size (f.immN / 2 ^ 18 % 4)) → size (f.immN / 2 ^ 18 % 4) < at_ l + e →
            exec (.ldsb f) s = .next (s.takeTrap r))
          ∧ (f.ord ≠ 2 → (∀ k ∈ before, at_ k % e = 0 ∧ ∀ p, p < 4 → mc.testBit p = true → at_ k + e ≤ size p) →
            (∃ p, p < 4 ∧ mc.testBit p = true ∧ size p < at_ l + e) → exec (.sts f) s = .next (s.takeTrap r)))

/-- Atomics: after the checks the lanes read, compute and write one after another in ascending order, and D takes the old values;
ATOMSC takes a ticket; no other byte changes. A peer access (one lane here) is performed at its home (R207-R210). -/
def Obligations.Atomics : Prop :=
  ∀ (f : Fields) (s : State), s.Sound →
    let e := 2 ^ (f.modN % 4)
    let w := 8 * e
    let vec := f.d.isView
    let lanes := if vec then laneList (s.g.lanes f) else [0]
    let addr (l : Nat) : Int := (s.va f).toNat + (if vec then sgn (s.g.elem f.imm f.b 64 l) 64 else 0)
    let c (l : Nat) := s.g.elem f.imm f.c w l
    let op := f.immN / 4096 % 16
    let apply (l old : Nat) : Option Nat := some (match op with
      | 0 => c l | 1 => (old + c l) % 2 ^ w | 2 => old &&& c l | 3 => old ||| c l | 4 => old ^^^ c l
      | 5 => if sgn old w ≤ sgn (c l) w then old else c l | 6 => if sgn old w ≤ sgn (c l) w then c l else old
      | 7 => min old (c l) | 8 => max old (c l) | _ => fp32.rne ((fp32.decode old).add .rne (fp32.decode (c l))))
    let swap (l old : Nat) : Option Nat := if old = s.g.elem f.imm f.d w l then some (c l) else none
    let acts (i : Instr) (rel : Bool) (tickets : Word) (new : Nat → Nat → Option Nat) : Prop := (rel = true → s.storesOut s.g.uid = false) →
      let u := if rel then s.flushCore s.g.die s.g.core else s
      let home (a : LaneAcc) := u.peerHome s.g.die a.x.handle a.x.ofs .rw u.gSecure
      let key (a : LaneAcc) : Nat :=
        if a.x.tgt = 0 then memKey s.g.die a.x.ofs else match home a with | .ok (some k) => k | _ => 0
      (∀ r, u.checkLanes .rw f.mcls e addr lanes = .error r → exec i s = .next (u.takeTrap r))
      ∧ ∀ xs, u.checkLanes .rw f.mcls e addr lanes = .ok xs →
        (∀ a ∈ xs, a.x.tgt = 0) ∨ (∃ a k, xs = [a] ∧ a.x.tgt = 2 ∧ home a = .ok (some k)) →
        u.firstPoison .rw e xs = none →
        (∀ a ∈ xs, u.leaseBusy e a = false ∧ u.peerBusy e a = false ∧ u.homeLeased .rw e a = false) →
        let done := serially e new (xs.map fun a => (a.lane, key a)) s.cohByte
        ∃ t, exec i s = .next t ∧ (∀ k, t.cohByte k = done.2 k) ∧ t.hub = { s.hub with ticket := s.hub.ticket + tickets }
          ∧ (let v : State := { s with
                hub := t.hub, cores := t.cores, mem := t.mem, cache := t.cache, side := t.side, poison := t.poison, dies := t.dies
                launches := t.launches }
              if vec then TakesLanes f w (fun l => (kget done.1 l).getD 0) v t
              else t = (v.putD f (BitVec.ofNat 64 ((kget done.1 0).getD 0))).advance)
    (Executes .k false (atomRefs f) f s →
      acts (.atom f) (f.ord = 2 || f.ord = 3) 0 apply ∧ acts (.cas f) (f.ord = 2 || f.ord = 3) 0 swap)
    ∧ (Executes .c false (atomRefs f) f s → vec = false → acts (.atomsc f) true 1 apply)

/-- LEASE takes a line for the issuing core for at most LMAX cycles when no other core leases it and no request waits, and starts the count
again on a line that the core leases; behind another core's lease its request queues and the group waits; LEASE_GRANT grants the oldest
request of the line, LEASE_EXPIRY and UNLEASE end a
lease, UNLEASE of an address with none only releasing; no byte of memory changes. QLOCK takes a free lock, queues behind a holder, and completes once the lock has been handed over; QUNLOCK
hands the lock to the longest-waiting group or frees it, and takes LOCKOWN from any other group; both release first (R211-R213, R215).
The model's part: the address that LOCKOWN records is the model's reading (log entry 31). -/
def Obligations.LeasesAndLocks : Prop :=
  ((∀ (f : Fields) (s : State) (x : Xl), s.Sound → Executes .c false (dab f) f s → s.storesOut s.g.uid = false →
    let u := s.flushCore s.g.die s.g.core
    let line := lineOf (memKey s.g.die x.ofs)
    (s.g.wait = .run → u.checkElem .rw 0 1 0 (s.va f).toNat = .ok x →
      let n := min (max (s.vb f).toNat 1) (max 1 (s.mrN (offLSCFG s.g.die) % 8192))
      (((∀ e ∈ s.cores, ∀ r ∈ e.2.leaseReq, r.2.2.1 ≠ line) ∧ s.leasedByOther s.g.die s.g.core line = false ∧ s.snoopHeld line = false ∨
          s.leasesLine s.g.die s.g.core line = true) →
        ((s.leasesNow s.g.die s.g.core).length < 8 ∨ s.leasesLine s.g.die s.g.core line = true) →
        s.mrN (offLSCFG s.g.die) % 8192 ≠ 0 → ∃ t, exec (.lease f) s = .next t
          ∧ t.g = { s.g with pc := s.g.pc + 12, wait := .run } ∧ t.rest = s.rest ∧ (∀ k, t.cohByte k = s.cohByte k)
          ∧ ∃ l ∈ (t.core s.g.die s.g.core).leases, l.line = line ∧ l.until_ = s.now + n ∧ s.g.uid ∈ l.owners)
      ∧ (s.leasedByOther s.g.die s.g.core line = true → s.leasesLine s.g.die s.g.core line = false →
          (s.leasesNow s.g.die s.g.core).length < 8 → ∃ t num, exec (.lease f) s = .next t
          ∧ t.g = { s.g with wait := .held 1 s.now } ∧ (∀ k, t.cohByte k = s.cohByte k)
          ∧ (t.core s.g.die s.g.core).leaseReq = ((s.core s.g.die s.g.core).leaseReq.filter fun r => decide (r.2.1 ≠ s.g.uid)) ++
              [(num, s.g.uid, line, if s.vb f = 0 then 1 else min (s.vb f).toNat (s.mrN (offLSCFG s.g.die) % 8192))]))
    ∧ (∀ r, u.checkElem .any 0 1 0 (s.va f).toNat = .error r → exec (.unlease f) s = .next u.advance)
    ∧ (u.checkElem .any 0 1 0 (s.va f).toNat = .ok x → ∃ t, exec (.unlease f) s = .next t
        ∧ t.g = { s.g with pc := s.g.pc + 12, wait := .run } ∧ (∀ k, t.cohByte k = s.cohByte k)
        ∧ (t.core s.g.die s.g.core).leases = (s.core s.g.die s.g.core).leases.filter fun l => decide (l.line ≠ line)))
  ∧ ∀ (s : State) (die core line : Nat), s.Sound →
    (∀ num uid n, (s.core die core).leaseReq.find? (fun r => decide (r.2.2.1 = line) && decide (r.2.2.2 ≠ 0)) = some (num, uid, line, n) →
      s.canLease die core line num = true → s.leaseRoom die core line = true → ∃ t, exec (.leaseGrant die core line) s = .next t
        ∧ (∃ l ∈ (t.core die core).leases, l.line = line ∧ l.until_ = s.now + n ∧ uid ∈ l.owners)
        ∧ (∀ r ∈ (t.core die core).leaseReq, r.2.1 ≠ uid) ∧ (∀ k, t.cohByte k = s.cohByte k)
        ∧ ∀ g, s.group? uid = some g → ∃ g', t.group? uid = some g' ∧ g' = { g with wait := .ready 0 })
    ∧ ∃ t, exec (.leaseExpiry die core line) s = .next t ∧ t = { s with cores := t.cores, cache := t.cache }
        ∧ (t.core die core).leases = (s.core die core).leases.filter (fun l => l.line ≠ line || decide (s.now < l.until_))
        ∧ (∀ d c, (d, c) ≠ (die, core) → d < 8 → c < 64 → core < 64 → t.core d c = s.core d c)
        ∧ ((∃ l ∈ (s.core die core).leases, l.line = line ∧ l.until_ ≤ s.now) → t.leaseEnded line = some (64 * die + core)))
  ∧ (∀ (f : Fields) (s : State) (k : Nat), Executes .c false (dab f) f s → s.storesOut s.g.uid = false →
    let u := s.flushCore s.g.die s.g.core
    ∀ v, u.lockKey (s.va f).toNat = .ok (some k, v) → ((s.die s.g.die).dead = false ∨ dieOfKey k = s.g.die) →
      (s.g.wait = .run → s.lock? k = none → s.unitFull k = false → ∃ t, exec (.qlock f) s = .next t
        ∧ t.lock? k = some { holder := s.g.uid, waiters := [] } ∧ t.g = { s.g with pc := s.g.pc + 12, wait := .run }
        ∧ t.rest = s.rest ∧ t.core s.g.die s.g.core = (v.acquireG).core s.g.die s.g.core)
      ∧ (s.g.wait = .run → ∀ l, s.lock? k = some l → ∃ t, exec (.qlock f) s = .next t
        ∧ t.lock? k = some { l with waiters := l.waiters ++ [s.g.uid] }
        ∧ t.g = { s.g with wait := .blocked .qlock 0 (BitVec.ofNat 64 k) s.now } ∧ t.rest = s.rest)
      ∧ (∀ since l, s.g.wait = .blocked .qlock 0 (BitVec.ofNat 64 k) since → k < 2 ^ 64 → s.lock? k = some l → l.holder = s.g.uid →
        l.waiters.contains s.g.uid = false → exec (.qlock f) s = .next s.acquireG.advance)
      ∧ (∀ x, s.g.wait = .ready x → exec (.qlock f) s = .next s.acquireG.advance)
      ∧ (∀ l, s.lock? k = some l → l.holder = s.g.uid → ∃ t, exec (.qunlock f) s = .next t
        ∧ t.g = { s.g with pc := s.g.pc + 12, wait := .run } ∧ t.mem = v.mem
        ∧ (∀ w ws, l.waiters = w :: ws → t.lock? k = some { holder := w, waiters := ws } ∧
            ∀ g, w ≠ s.g.uid → s.group? w = some g → t.group? w = some { g with wait := .ready 0 })
        ∧ (l.waiters = [] → t.lock? k = none ∧ t.rest = s.rest))
      ∧ ((∀ l, s.lock? k = some l → l.holder ≠ s.g.uid) → exec (.qunlock f) s =
          .next ((v.cross s.g.die (dieOfKey k)).takeTrap { cause := 0x18, addr := BitVec.ofNat 64 (s.va f).toNat })))

/-- ACQ advances the core's generation, so that what it does not own is read afresh, and where the generation wraps drops the lines of which it
owns nothing; REL writes every dirty byte of the core back;
FENCE does both, and delivers the oldest pending imprecise record first; none of them changes what memory holds (R187, R199, R216,
R329).
The model's part: the launch fails when a record is made (log entry 18); that a line owned in part stays at the wrap is the model's
(log entry 14). -/
def Obligations.OrderingInstructions : Prop :=
  ∀ (f : Fields) (s : State), s.Sound → Executes .c false (dab f) f s →
    let home (s : State) := s.core s.g.die s.g.core
    let same (t : State) : Prop := t = { s with g := { s.g with pc := s.g.pc + 12, wait := .run }, cores := t.cores, mem := t.mem } ∧
      ∀ k, t.cohByte k = s.cohByte k
    let clean (t : State) : Prop := ∀ l ∈ (home t).l1, l.2.dirty = 0
    let fresh (t : State) : Prop := (home t).gen = (home s).gen + 1 ∧ ∀ line, (kget (home t).l1 line).map (·.own) =
      ((kget (home s).l1 line).map (·.own)).bind fun o => if o = 0 ∧ (home s).gen = BitVec.allOnes 16 then none else some o
    (∃ t, exec (.acq f) s = .next t ∧ same t ∧ fresh t)
    ∧ (s.storesOut s.g.uid = false →
      (∃ t, exec (.rel f) s = .next t ∧ same t ∧ clean t)
      ∧ (s.g.pend = [] → ∃ t, exec (.fence f) s = .next t ∧ same t ∧ clean t ∧ fresh t)
      ∧ ∀ r rs, s.g.pend = r :: rs → exec (.fence f) s =
          .next ({ s with g := { s.g with pend := rs, povf := s.g.povf && !rs.isEmpty } }.takeTrap r))
    ∧ (s.storesOut s.g.uid = true → s.g.wait = .run → ∀ i ∈ [Instr.rel f, .fence f],
        exec i s = .next { s with g := { s.g with wait := .held 0 s.now } })

/-- ACPY and ACPYB start a copy, checked at issue: one piece a lane, or one a row; EVWAIT and EVPOLL take the oldest completion record. A
copy of one piece within a line of local memory carries exactly its bytes between the home copy and the window, leaves its core, and writes a
completion record of the bytes delivered when CK asks for one (R217-R224, R236).
The model's part: a copy moves line by line; of two addresses of a lane that are not aligned ACPY reports the memory's, and ACPYB reports
opval(A) whatever is not aligned (log entry 23). -/
def Obligations.AsynchronousCopies : Prop :=
  (∀ (f : Fields) (s : State),
    let e := 2 ^ (f.modN % 4)
    let ck := f.immN / 16 % 4
    let room : Prop := ((s.core s.g.die s.g.core).copies.length < 64) ∧ (ck = 2 → s.g.evq.length + s.evqDue s.g < 16) ∧
      (ck = 1 → (s.bar s.g.gang s.g.team (f.immN % 16)).members ≠ 0)
    let starts (i : Instr) (mcast : Nat) (ok : List Seg → Prop) : Prop := ∃ t c, exec i s = .next t
      ∧ (t.core s.g.die s.g.core).copies = (s.core s.g.die s.g.core).copies ++ [c]
      ∧ c.owner = s.g.uid ∧ c.out = f.imm.getLsbD 6 ∧ c.ck = BitVec.ofNat 2 ck ∧ c.bar = f.immN % 16 ∧ c.cls = BitVec.ofNat 3 f.mcls
      ∧ c.tag = BitVec.ofNat 8 (f.immN / 256) ∧ c.mcast = BitVec.ofNat 4 mcast ∧ c.evp = f.evp ∧ ok c.segs
      ∧ t = { s with
          g := { s.g with pc := s.g.pc + 12, wait := .run }, cores := t.cores, mem := t.mem, cache := t.cache, side := t.side, dies := t.dies
          launches := t.launches, fresh := s.fresh + 1 }
      ∧ (s.Sound → ∀ k, t.cohByte k = s.cohByte k)
    (Executes .m false (vrefs f 8 8 64) f s → room → laneList (s.g.lanes f) ≠ [] →
      (∀ l ∈ laneList (s.g.lanes f), (s.vd f).toNat + l * e + e ≤ s.myTeam.window) → (s.vd f).toNat % e = 0 →
      let va (l : Nat) : Int := (s.va f).toNat + sgn (s.g.elem f.imm f.b 64 l) 64
      ∀ x : Nat → Xl, (∀ l ∈ laneList (s.g.lanes f), s.checkElem (if f.imm.getLsbD 6 then .w else .r) f.mcls e l (va l) = .ok (x l)) →
        starts (.acpy f) 0 fun gs => gs.length = (laneList (s.g.lanes f)).length ∧ ∀ l ∈ laneList (s.g.lanes f),
          ∃ g ∈ gs, g.va = (va l).toNat ∧ g.so = (s.vd f).toNat + l * e ∧ g.len = e ∧ g.xl = some ((x l).tgt, (x l).ofs, (x l).handle))
    ∧ (Executes .m false (vrefs f 8 8 64) f s → (s.vd f).toNat % e ≠ 0 → ∀ l ls, laneList (s.g.lanes f) = l :: ls →
      let va : Int := (s.va f).toNat + sgn (s.g.elem f.imm f.b 64 l) 64
      exec (.acpy f) s = .next (s.takeTrap { cause := 0x15, lane := BitVec.ofNat 6 l
                                             addr := BitVec.ofInt 64 (if va % (e : Int) = 0 then (s.vd f).toNat + (l * e : Nat) else va) }))
    ∧ (Executes .c false (dab f) f s →
      let rowBytes := (s.vb f).toNat % 2 ^ 16 + 1
      let rows := (s.vb f).toNat / 2 ^ 16 % 2 ^ 12 + 1
      let stride := (s.vb f).toNat / 2 ^ 32
      let mc := f.immN / 2 ^ 16 % 16
      let aligned : Prop := (s.va f).toNat % e = 0 ∧ rowBytes % e = 0 ∧ stride % e = 0 ∧ (s.vd f).toNat % e = 0
      (room → aligned → (∀ w ∈ s.mcastTeams mc, (s.vd f).toNat + rows * rowBytes ≤ w.2) → starts (.acpyb f) mc fun gs => gs =
        (List.range rows).map fun i => { va := (s.va f).toNat + i * stride, so := (s.vd f).toNat + i * rowBytes, len := rowBytes })
      ∧ (¬ aligned → exec (.acpyb f) s = .next (s.takeTrap { cause := 0x15, addr := s.va f }))
      ∧ (∀ r rs, s.g.evq = r :: rs → ∀ i ∈ [Instr.evwait f, .evpoll f], exec i s =
          .next (({ s with g := { s.g with evq := rs } }.putD f r).acquireG.advance))
      ∧ (s.g.evq = [] → exec (.evpoll f) s = .next (s.putD f 0).advance
          ∧ (s.g.wait = .run → exec (.evwait f) s = .next { s with g := { s.g with wait := .blocked .evwait 0 0 s.now } }))))
  ∧ (∀ (s : State) (die core id : Nat) (c : Copy) (g : Group) (p : Seg) (x : Xl), s.Sound →
    (s.core die core).copies.find? (fun c => decide (c.id = id)) = some c → c.id = id → c.segs = [p] → c.mcast = 0 → p.xl = none →
    0 < p.len → p.va % 128 + p.len ≤ 128 → s.group? c.owner = some g → (s.team? g.gang g.team).isSome = true →
    s.translate g.die none (s.secure g.die) (if c.out then .w else .r) c.cls.toNat p.va = .ok x → x.tgt = 0 →
    let k := memKey g.die x.ofs
    (c.out = false → s.anyBad k p.len = false ∧ s.readHeld g.die (lineOf k) = false) → (c.out = true → s.lineTaken (lineOf k) = false) →
    ∃ t, exec (.copyComplete die core id) s = .next t ∧ (∀ y ∈ (t.core die core).copies, y.id ≠ id)
      ∧ (c.out = false → (∀ i, i < p.len → bget (t.team g.gang g.team).spad (p.so + i) = bget s.mem (k + i)) ∧
          (∀ o, o < p.so ∨ p.so + p.len ≤ o → bget (t.team g.gang g.team).spad o = bget (s.team g.gang g.team).spad o) ∧
          ∀ j, t.cohByte j = s.cohByte j)
      ∧ (c.out = true → (∀ i, i < p.len → t.cohByte (k + i) = bget (s.team g.gang g.team).spad (p.so + i)) ∧
          ∀ j, j < k ∨ k + p.len ≤ j → t.cohByte j = s.cohByte j)
      ∧ (c.ck = 2 → ∃ g', t.group? c.owner = some g' ∧ g'.evq = g.evq ++
          [1#1 ++ 0#15 ++ BitVec.ofNat 32 (c.deliv + p.len) ++ 0#7 ++ 0#1 ++ c.tag]))

/-- Prefetch, retention and maintenance over the lines of a range that pass the checks: levels, sidecars and cache contents change,
what memory holds does not; where nothing is leased PREF and RETAIN raise a line's level to EVP's, CLEAN leaves no dirty byte of them, EVICT none of them in the
issuing core's L1 nor in its die's L2 and stacked cache, and of its own die's no owner, DEMOTE level 0, IINV no instruction byte; where a page has
to be walked for, the walk's own lines come into the caches; a walk that ends at a leaf fills both TLBs, and an uncorrectable error poisons its line
(R181, R185, R193, R225, R226).
The model's part: a walk and its effects are the model's (log entries 14 to 16), and so are which lines a cache gives up for others and the
level 6 that a selected line without a reserved way gets (log entry 58). -/
def Obligations.CacheControl : Prop :=
  (∀ (f : Fields) (s : State), s.Sound →
    let kept (t : State) : Prop := (∀ k, t.cohByte k = s.cohByte k) ∧
      t = { s with
        g := { s.g with pc := s.g.pc + 12, wait := .run }, cores := t.cores, mem := t.mem, cache := t.cache, side := t.side, dies := t.dies
        launches := t.launches }
    let raised (u t : State) (k evp : Nat) : Prop := (∀ line, s.leased line = false) →
      let key := cacheKey (dieOfKey k) (lineOf k)
      let cap (n : Nat) : Nat := if (s.wayOf .l2 k).isSome then n else min n 6
      let asked := s.evpAt .l2 (dieOfKey k) k evp
      let top := max asked (((kget u.cache.l2 key).map (·.level)).getD 0)
      ∃ c, kget t.cache.l2 key = some c ∧ cap asked ≤ c.level ∧ c.level ≤ cap top ∧
        (s.mrN (offCMPCFG (dieOfKey k)) % 2 = 0 → c.level = cap top)
    (Executes .m false (vrefs f 8 8 64) f s → ∃ t, exec (.pref f) s = .next t ∧ kept t
      ∧ (f.b = .zero → f.sz < 2 → let va : Int := (s.va f).toNat + f.imm.toInt
          ∀ k x, s.lineXl .r (fun _ => f.mcls) va = some (k, x) → raised (s.reachLine va (k, x) true) t k (if f.mcls = 4 then 0 else f.evp)
          ∧ (f.sz = 0 → dieOfKey k = s.g.die → ((t.core s.g.die s.g.core).l1Byte? k).isSome = true)))
    ∧ (Executes .c false (dab f) f s →
      let n := (s.vb f).toNat % 2 ^ 32
      let covers (a : Nat) : Prop := (s.va f).toNat ≤ a ∧ a < (s.va f).toNat + n ∧ (a = (s.va f).toNat ∨ a % 128 = 0)
      let onLines (need : Need) (p : Nat → Prop) : Prop := ∀ a k, covers a → s.linePlace need clsOf (a : Int) = some k → p (lineOf k)
      let home (line : Nat) : Prop := dieOfKey (128 * line) = s.g.die
      let key (line : Nat) : Nat := cacheKey s.g.die line
      let noWalk : Prop := ∀ (a : Nat) e, covers a → s.lineXl .any clsOf (a : Int) = some e → s.reachLine a e false = s
      let unwalked (line : Nat) : Prop := noWalk ∨ ∀ d va, ∀ k ∈ s.walkPlaces d va, lineOf k ≠ line
      (∃ t, exec (.retain f) s = .next t ∧ kept t ∧ (0 < n → (s.va f).toNat % 128 + n ≤ 128 →
          ∀ k x, s.lineXl .r clsOf ((s.va f).toNat : Int) = some (k, x) → raised (s.reachLine (s.va f).toNat (k, x) true) t k f.evp))
      ∧ (∃ t, exec (.cacheClean f) s = .next t ∧ kept t ∧ (noWalk → t.cache = s.cache) ∧ onLines .any fun line =>
          ∀ l, kget (t.core s.g.die s.g.core).l1 line = some l → l.dirty = 0)
      ∧ ((onLines .any fun line => s.lineBusy line = false) →
          ∃ t, exec (.cacheEvict f) s = .next t ∧ kept t ∧ onLines .any fun line => unwalked line →
            kget (t.core s.g.die s.g.core).l1 line = none ∧ kget t.cache.l2 (key line) = none ∧ kget t.cache.llc (key line) = none
            ∧ (home line → kget t.side line = none ∧ ∀ e ∈ t.cores, ∀ l, kget e.2.l1 line = some l → l.own = 0))
      ∧ (∀ a k, covers a → s.linePlace .any clsOf (a : Int) = some k → s.lineBusy (lineOf k) = true →
          exec (.cacheEvict f) s = .next s.hold)
      ∧ (∃ t, exec (.cacheDemote f) s = .next t ∧ kept t ∧ (noWalk → ∀ d c, (t.core d c).l1 = (s.core d c).l1) ∧ onLines .any fun line =>
          unwalked line → (∀ c, kget t.cache.l2 (key line) = some c → c.level = 0) ∧ ∀ c, kget t.cache.llc (key line) = some c → c.level = 0)
      ∧ (∃ t, exec (.cacheIinv f) s = .next t ∧ kept t ∧ (noWalk → t.mem = s.mem) ∧ onLines .any fun line =>
          ∀ b ∈ (t.core s.g.die s.g.core).icache, lineOf b.1 ≠ line)))
  ∧ ∀ s : State,
    (∀ (die core : Nat) (va : Word) (leaf : Nat), va.toNat < 2 ^ 57 → s.walk die va.toNat = .ok leaf →
      let size := psSize (bits leaf 63 61)
      ∃ t, exec (.walkComplete die core va) s = .next t
        ∧ (∃ e, (t.core die core).tlb.head? = some e ∧ (t.die die).tlb.head? = some e ∧ e.dev = die ∧ e.leaf = BitVec.ofNat 64 leaf
            ∧ e.size = size ∧ e.base ≤ va.toNat ∧ va.toNat < e.base + size)
        ∧ t = { s with cores := t.cores, dies := t.dies, mem := t.mem, cache := t.cache, side := t.side }
        ∧ (s.Sound → ∀ k, t.cohByte k = s.cohByte k))
    ∧ ∀ line, exec (.uncorrectableError line) s = .next { s with poison := kset s.poison line (BitVec.allOnes 128) }

/-- A peer store is performed at its home die and acknowledged; where nothing is leased the storing die then has the line in its L2, modified
and to itself; one that the home die refuses writes nothing, and its refusal is recorded against the group and fails the launch (R48, R191,
R192, R203, R329, R330, R403).
The model's part: arrival by events and turns is the model's (log entries 36 and 38), and so is that the launch fails when the record is made
(log entry 18). -/
def Obligations.PeerStores : Prop :=
  ∀ (s : State) (id : Nat) (p : PeerStore), s.Sound → s.fab.stores.find? (fun p => decide (p.id = id)) = some p → (s.die p.dev).dead = false →
    (∀ k, s.storeHome p.dev p.handle p.ofs .w p.secure p.gone = .ok (some k) → s.storeBehind p = false →
      (∀ line ∈ linesOf k p.bytes.length, s.lineTaken line = false) → p.bytes.map (·.1) = List.range p.bytes.length →
      ∃ t, exec (.peerStoreAck id) s = .next t ∧ t.fab.stores = s.fab.stores.filter (fun q => decide (q.id ≠ id))
        ∧ (∀ b ∈ p.bytes, t.cohByte (k + b.1) = b.2) ∧ (∀ j, j < k ∨ k + p.bytes.length ≤ j → t.cohByte j = s.cohByte j)
        ∧ (p.dev ≠ dieOfKey k → (∀ line, s.leased line = false) → (kget t.cache.l2 (cacheKey p.dev (lineOf k))).isSome = true ∧
            kget t.cache.dir (lineOf k) = some { st := .m, owner := some p.dev, sharers := 1#8 <<< p.dev })
        ∧ t = { s with
            cores := t.cores, mem := t.mem, poison := t.poison, cache := t.cache, side := t.side, dies := t.dies
            fab := { s.fab with stores := t.fab.stores } })
    ∧ ∀ r, s.storeHome p.dev p.handle p.ofs .w p.secure p.gone = .error r → ∃ t, exec (.homeRefusal id) s = .next t
        ∧ t.fab.stores = s.fab.stores.filter (fun q => decide (q.id ≠ id)) ∧ t.mem = s.mem ∧ t.cores = s.cores
        ∧ (∀ l, s.launch? p.launch = some l → ∃ l', t.launch? p.launch = some l' ∧ l'.failed = true)
        ∧ ∀ g, s.group? p.owner = some g → g.life ≠ .ended → g.isEnding = false → g.pend.length < 4 → ∃ g' q, t.group? p.owner = some g' ∧
            g' = { g with pend := g.pend ++ [q] } ∧ q.imp = true ∧ q.cause = 0x40 ∧ q.detail = r.detail ∧ q.addr = p.addr

/-! ## Queues and barriers -/

/-- Named queues of the own team or of one at a cluster position: send, try, receive, allowance, set-up and QDEPTH, with the ring
in the team's scratchpad; a value sent to a queue on which a group is blocked reaches that group, and an allowance releases as many held
senders, oldest first, as it and the ring have room for; a queue that is not set up traps
QINIT; while the core of the queue's team is halted nothing is sent, a sender being held and QTRYS giving 0 (R262-R269, R339). -/
def Obligations.Queues : Prop :=
  ∀ (f : Fields) (s : State) (i : Nat), Executes .c false (dab f) f s → s.qTeam f = some i → (s.team? s.g.gang i).isSome = true →
    let q := f.modN % 16
    let m := s.team s.g.gang i
    let x := m.queue q
    let u := s.flushCore s.g.die s.g.core
    let slot (n : Nat) : Nat := 8 * x.base.toNat + 8 * (n % x.slots)
    let front : Word := BitVec.ofNat 64 (rdLE m.spad (8 * x.base.toNat + 8 * x.head) 8)
    let sent : Team := { m with
      spad := bsetMany m.spad (slot (x.head + x.count)) (leBytes (s.va f).toNat 8)
      queues := m.queues.set q { x with count := x.count + 1, alw := x.alw - 1 } }
    let taken : Team := { m with queues := m.queues.set q { x with
      head := (x.head + 1) % x.slots, count := x.count - 1, alw := if x.refill then min (x.alw + 1) 65535 else x.alw } }
    let notSetUp (r : State) : State := r.takeTrap { cause := 0x20, info := BitVec.ofNat 32 q }
    let others (t : State) : Prop := (∀ k, k ≠ teamKey s.g.gang i → kget t.teams k = kget s.teams k) ∧ t.rest = s.rest
    let free : Prop := x.init = true ∧ x.senders = [] ∧ x.receivers = []
    let still : Prop := s.spadStopped s.g.gang i = true
    q < m.queues.length → s.g.wait = .run →
    (free → ¬ still → x.count < x.slots → 0 < x.alw → s.storesOut s.g.uid = false →
      (∃ t, exec (.qsend f) s = .next t ∧ t.team s.g.gang i = sent ∧ t.g = { s.g with pc := s.g.pc + 12, wait := .run } ∧ others t)
      ∧ ∃ t, exec (.qtrys f) s = .next t ∧ t.team s.g.gang i = sent ∧ t.g = ((s.putD f 1).advance).g ∧ others t)
    ∧ (free → (x.slots ≤ x.count ∨ x.alw = 0 ∨ still) → s.storesOut s.g.uid = false →
      (∃ t, exec (.qsend f) s = .next t ∧ t.team s.g.gang i = { m with queues := m.queues.set q { x with senders := [(s.g.uid, s.va f)] } }
        ∧ t.g = { s.g with wait := .held 1 s.now } ∧ others t)
      ∧ exec (.qtrys f) s = .next ((u.putD f 0).advance))
    ∧ (∀ r g, ¬ still → x.init = true → x.senders = [] → x.receivers = [r] → x.count = 0 → 0 < x.slots → 0 < x.alw → s.storesOut s.g.uid = false →
        r ≠ s.g.uid → s.group? r = some g → ∃ t g', exec (.qsend f) s = .next t ∧ t.group? r = some g'
          ∧ g' = { g with wait := .ready (BitVec.ofNat 64 (rdLE (bsetMany m.spad (slot x.head) (leBytes (s.va f).toNat 8))
              (8 * x.base.toNat + 8 * x.head) 8)) } ∧ (t.queue i q).count = 0 ∧ (t.queue i q).receivers = [])
    ∧ (free → 0 < x.count →
      (∃ t, exec (.qrecv f) s = .next t ∧ t.team s.g.gang i = taken ∧ t.g = ((s.putD f front).advance).g ∧ others t)
      ∧ ∃ t, exec (.qtryr f) s = .next t ∧ t.team s.g.gang i = taken ∧ others t
          ∧ t.g = ({ s with g := (s.putD f front).g.put f.b 1 }.advance).g)
    ∧ (free → x.count = 0 →
      (∃ t, exec (.qrecv f) s = .next t ∧ t.team s.g.gang i = { m with queues := m.queues.set q { x with receivers := [s.g.uid] } }
        ∧ t.g = { s.g with wait := .blocked .qrecv q 0 s.now } ∧ others t)
      ∧ exec (.qtryr f) s = .next ({ s with g := s.g.put f.b 0 }.advance))
    ∧ (∀ v, exec (.qrecv f) { s with g := { s.g with wait := .ready v } } =
        .next ((({ s with g := { s.g with wait := .ready v } }.putD f v).acquireG).advance))
    ∧ (free → ∃ t, exec (.qallow f) s = .next t ∧ t.g = { s.g with pc := s.g.pc + 12, wait := .run } ∧ others t ∧ t.team s.g.gang i =
        { m with queues := m.queues.set q { x with alw := min (x.alw + f.immN / 65536 + (s.va f).toNat) 65535 } })
    ∧ (¬ still → x.init = true → x.receivers = [] → x.count ≤ x.slots → x.slots ≤ 64 →
      let alw := min (x.alw + f.immN / 65536 + (s.va f).toNat) 65535
      let k := min x.senders.length (min (x.slots - x.count) alw)
      ∃ t, exec (.qallow f) s = .next t ∧ t.g = { s.g with pc := s.g.pc + 12, wait := .run }
        ∧ (∀ k, k ≠ teamKey s.g.gang i → kget t.teams k = kget s.teams k)
        ∧ t.queue i q = { x with senders := x.senders.drop k, count := x.count + k, alw := alw - k }
        ∧ (∀ j, j < k → rdLE (t.team s.g.gang i).spad (slot (x.head + x.count + j)) 8 = (x.senders.getD j (0, 0)).2.toNat)
        ∧ ∀ e ∈ x.senders.take k, ∀ g, e.1 ≠ s.g.uid → s.group? e.1 = some g → ∃ g', t.group? e.1 = some g' ∧ g' = { g with wait := .ready 0 })
    ∧ (x.senders = [] → x.receivers = [] → 8 ≤ f.immN % 128 → f.immN % 128 ≤ 64 → (s.va f).toNat % 8 = 0 →
        (s.va f).toNat + 8 * (f.immN % 128) ≤ m.window → ∃ t, exec (.qallowInit f) s = .next t
          ∧ t.g = { s.g with pc := s.g.pc + 12, wait := .run } ∧ others t ∧ t.team s.g.gang i = { m with queues := m.queues.set q {
              base := BitVec.ofNat 15 ((s.va f).toNat / 8), slots := f.immN % 128, head := 0, count := 0, alw := f.immN / 65536,
              refill := f.imm.getLsbD 14, init := true, senders := [], receivers := [] } })
    ∧ (∃ v, exec (.qdepth f) s = .next (s.putD f v).advance ∧ v.extractLsb' 0 15 = x.base ∧ v.getLsbD 26 = x.init
        ∧ v.getLsbD 27 = x.refill ∧ v.extractLsb' 28 7 = BitVec.ofNat 7 x.slots ∧ v.extractLsb' 35 7 = BitVec.ofNat 7 x.count
        ∧ v.extractLsb' 42 6 = BitVec.ofNat 6 x.head ∧ v.extractLsb' 48 16 = BitVec.ofNat 16 x.alw
        ∧ v.extractLsb' 16 5 = BitVec.ofNat 5 (min x.receivers.length 31) ∧ v.extractLsb' 21 5 = BitVec.ofNat 5 (min x.senders.length 31))
    ∧ (x.init = false → exec (.qrecv f) s = .next (notSetUp s) ∧ exec (.qtryr f) s = .next (notSetUp s)
        ∧ exec (.qallow f) s = .next (notSetUp s)
        ∧ (s.storesOut s.g.uid = false → exec (.qsend f) s = .next (notSetUp u) ∧ exec (.qtrys f) s = .next (notSetUp u)))

/-- Team barriers: BEXP sets or raises the count, BARV arrives after its release and gives the phase, the last arrival completes the phase
with its fault history, BWAIT passes a complete phase or blocks, BTEST tells. Network barriers of a gang: NARR arrives once in a generation
and gives it, the last member's arrival completes it and the next members take over; an early arrival is held, a rank that is no member
traps; NWAIT; NJOIN and NLEAVE, the latter of which makes its arrival and may so complete the generation (R270-R280). -/
def Obligations.Barriers : Prop :=
  (∀ (f : Fields) (s : State), Executes .c false (dab f) f s → (s.team? s.g.gang s.g.team).isSome = true →
    let k := f.modN % 16
    let b := s.bar s.g.gang s.g.team k
    let n := (s.va f).toNat
    let p := (s.va f).setWidth 32
    let u := s.flushCore s.g.die s.g.core
    let complete : Prop := 1 ≤ (b.ph - p).toNat ∧ (b.ph - p).toNat ≤ 2 ^ 31
    let back := (b.ph - 1 - p).toNat
    let bad (c : BitVec 8) (r : State) : Res := .next (r.takeTrap { cause := c, info := BitVec.ofNat 32 k })
    let becomes (t : State) (x : Bar) (r : State) : Prop :=
      t = { r with g := t.g, teams := kset s.teams (teamKey s.g.gang s.g.team) (s.myTeam.setBar k x) }
    (f.mod.getLsbD 4 = true → n < 2 ^ 20 → ∃ t, exec (.bexp f) s = .next t ∧ t.g = { s.g with pc := s.g.pc + 12, wait := .run }
      ∧ becomes t { b with members := BitVec.ofNat 20 n, pend := BitVec.ofNat 20 n, flt := false, sflt := false } s)
    ∧ (f.mod.getLsbD 4 = true → 2 ^ 20 ≤ n → exec (.bexp f) s = bad 0x24 s)
    ∧ (f.mod.getLsbD 4 = false → b.members ≠ 0 → b.pend.toNat + n < 2 ^ 20 → ∃ t, exec (.bexp f) s = .next t
      ∧ t.g = { s.g with pc := s.g.pc + 12, wait := .run } ∧ becomes t { b with pend := BitVec.ofNat 20 (b.pend.toNat + n) } s)
    ∧ (f.mod.getLsbD 4 = false → b.members ≠ 0 → 2 ^ 20 ≤ b.pend.toNat + n → exec (.bexp f) s = bad 0x24 s)
    ∧ (f.mod.getLsbD 4 = false → b.members = 0 → exec (.bexp f) s = bad 0x23 s)
    ∧ (s.storesOut s.g.uid = false →
      (b.members = 0 → exec (.barv f) s = bad 0x23 u)
      ∧ (b.members ≠ 0 → ∃ t, exec (.barv f) s = .next t ∧ t.g = ((s.putD f (b.ph.setWidth 64)).advance).g
        ∧ (b.pend ≠ 1 → becomes t { b with pend := b.pend - 1 } u)
        ∧ (b.pend = 1 → becomes t { b with
            ph := b.ph + 1, pend := b.members, flt := false, sflt := b.sflt || b.flt,
            fhist := BitVec.ofNat 8 (2 * b.fhist.toNat + if b.flt then 1 else 0) } u)))
    ∧ (complete → exec (.bwait f) s = .next
        ((s.putD f (if (if back < 8 then b.fhist.getLsbD back else b.sflt) then 1 else 0)).acquireG.advance))
    ∧ (¬ complete → s.g.wait = .run → exec (.bwait f) s =
        .next { s with g := { s.g with wait := .blocked .bwait k (p.setWidth 64) s.now } })
    ∧ ∃ v t, exec (.btest f) s = .next t ∧ t.g = ((s.putD f v).advance).g ∧ (v.getLsbD 0 = true ↔ b.members ≠ 0)
        ∧ (v.getLsbD 1 = true ↔ complete) ∧ v.getLsbD 2 = b.flt ∧ v.getLsbD 3 = b.sflt ∧ v.extractLsb' 4 8 = b.fhist
        ∧ v.extractLsb' 12 20 = b.pend ∧ v.extractLsb' 32 32 = b.ph ∧ t.teams = s.teams ∧ (¬ complete → t.cores = s.cores))
  ∧ (∀ (f : Fields) (s : State) (k : Gang), Executes .c false (dab f) f s → s.gang? s.g.gang = some k → s.g.wait = .run → s.g.rank < 128 →
    let n := f.modN % 16
    let b := k.nets.getD n {}
    let r : BitVec 128 := 1#128 <<< s.g.rank
    let p := (s.va f).setWidth 32
    let u := s.flushCore s.g.die s.g.core
    let complete : Prop := 1 ≤ (b.gen - p).toNat ∧ (b.gen - p).toNat ≤ 2 ^ 31
    let becomes (x : NetBar) (r : State) : State := { r with gangs := kset s.gangs s.g.gang { k with nets := k.nets.set n x } }
    let member := b.memb.getLsbD s.g.rank = true
    let arrived := b.arr.getLsbD s.g.rank = true
    n < k.nets.length → b.held = [] →
    (s.storesOut s.g.uid = false →
      (member → ¬ arrived → b.arr ||| r ≠ b.memb →
        exec (.narr f) s = .next (((becomes { b with arr := b.arr ||| r } u).putD f (b.gen.setWidth 64)).advance))
      ∧ (member → ¬ arrived → b.arr ||| r = b.memb → exec (.narr f) s = .next
          (((becomes { memb := b.next, next := b.next, arr := 0, gen := b.gen + 1, held := [] } u).putD f (b.gen.setWidth 64)).advance))
      ∧ ((¬ member ∨ arrived) → b.next.getLsbD s.g.rank = true → exec (.narr f) s = .next
          { becomes { b with held := [(s.g.rank, s.g.uid)] } u with g := { s.g with wait := .held 1 s.now } })
      ∧ ((¬ member ∨ arrived) → b.next.getLsbD s.g.rank = false → exec (.narr f) s =
          .next (u.takeTrap { cause := 0x25, info := BitVec.ofNat 32 n })))
    ∧ (complete → exec (.nwait f) s = .next s.acquireG.advance)
    ∧ (¬ complete → exec (.nwait f) s = .next { s with g := { s.g with wait := .blocked .nwait n (p.setWidth 64) s.now } })
    ∧ (let turns (next : BitVec 128) : State := (becomes { memb := next, next := next, arr := 0, gen := b.gen + 1, held := [] } s).advance
      (b.memb ≠ 0 → b.arr ≠ b.memb → exec (.njoin f) s = .next (becomes { b with next := b.next ||| r } s).advance)
      ∧ (b.memb = 0 → b.arr ≠ r → exec (.njoin f) s = .next (becomes { b with next := b.next ||| r, memb := r } s).advance)
      ∧ ((b.memb ≠ 0 ∧ b.arr = b.memb ∨ b.memb = 0 ∧ b.arr = r) → exec (.njoin f) s = .next (turns (b.next ||| r)))
      ∧ (¬ member → b.arr ≠ b.memb ∨ b.memb = 0 → exec (.nleave f) s = .next (becomes { b with next := b.next &&& ~~~r } s).advance)
      ∧ (member → b.arr ||| r ≠ b.memb → exec (.nleave f) s =
          .next (becomes { b with next := b.next &&& ~~~r, arr := b.arr ||| r } s).advance)
      ∧ ((member ∧ b.arr ||| r = b.memb ∨ ¬ member ∧ b.memb ≠ 0 ∧ b.arr = b.memb) → exec (.nleave f) s = .next (turns (b.next &&& ~~~r)))))

/-! ## The matrix engine -/

/-- MTILE, MLOOP, MBATCH, WLOAD, ACLD and ACST check their shape and bounds at issue and enter the core's list with the operands as
they stand, on the team's own engine or on a free one, which the team takes; where another team holds the engine, or 16 operations are
incomplete, the instruction is held. A scalar instruction that would write, with whatever value, a source byte which an incomplete product of
the group has still to read is held and does nothing; any other completes (R104, R281, R287, R288, R292-R296, R299).
The model's part: when operations take effect is the model's (log entry 26). -/
def Obligations.MatrixIssue : Prop :=
  ∀ (f : Fields) (s : State), s.g.wait = .run →
    let c := s.core s.g.die s.g.core
    let team := (s.g.gang, s.g.team)
    let row := f.immN / 256 % 256
    let col := f.immN % 256
    let shape := (s.vb f).toNat
    let width := match f.modN / 32 with | 9 => 16 | 10 => 16 | 11 => 8 | 12 => 8 | 13 => 6 | 14 => 6 | _ => 4
    let units := match f.modN % 4 with | 0 => 2 | 1 => 3 | 2 => 4 | _ => 8
    let block := match f.modN % 4 with | 0 => 16 | 1 => 24 | 2 => 32 | _ => 64
    let esize := typeWidth (8 + f.modN % 4) / 8
    let rows := s.g.tsh.toNat / 2 ^ 16 % 256 + 1
    let rowBytes := 16 * (s.g.tsh.toNat / 256 % 256 + 1)
    let kcnt := f.immN / 2 ^ 16 % 256 + 1
    let wb := f.immN / 2 ^ 24
    let enters (i : Instr) (ok : MOp → Prop) : Prop :=
      (c.engine = some team → c.mops.length < 16 → ∃ t m, exec i s = .next t ∧ ok m ∧ m.owner = s.g.uid ∧ m.iaddr = s.g.pc
        ∧ m.mod = f.mod ∧ m.imm = f.imm ∧ m.kpos = 0 ∧ m.done = false
        ∧ t = { s with
            g := { s.g with pc := s.g.pc + 12, wait := .run }, fresh := s.fresh + 1
            cores := kset s.cores (64 * s.g.die + s.g.core) { c with mops := c.mops ++ [m] } })
      ∧ (c.engine = none → s.myTeam.saved = none → ∃ t m, exec i s = .next t ∧ ok m ∧ m.owner = s.g.uid
        ∧ (t.core s.g.die s.g.core).engine = some team ∧ (t.core s.g.die s.g.core).mops = [m] ∧ (t.core s.g.die s.g.core).acc = []
        ∧ t.g = { s.g with pc := s.g.pc + 12, wait := .run })
      ∧ (∀ other, c.engine = some other → other ≠ team → ∃ t, exec i s = .next t ∧ t.g = { s.g with wait := .held 0 s.now }
        ∧ team ∈ (t.core s.g.die s.g.core).engineWait ∧ (t.core s.g.die s.g.core).mops = c.mops)
      ∧ (c.engine = some team → 16 ≤ c.mops.length → exec i s = .next { s with g := { s.g with wait := .held 0 s.now } })
    let misaligned (i : Instr) : Prop := exec i s = .next (s.takeTrap { cause := 0x15, addr := s.va f })
    let traps (i : Instr) (n : BitVec 8) : Prop := exec i s = .next (s.takeTrap { cause := n })
    let prod (k : MKind) (m : MOp) : Prop := m.kind = k ∧ m.regs = s.g.regs ∧ m.tile = s.g.base f.a ∧ m.rows = rows ∧ m.rlen = rowBytes
    (Executes .c false (prefs .mtile f) f s →
      ((rowBytes < 4 * width ∨ 128 < rows) → traps (.mtile f) 0x29)
      ∧ (4 * width ≤ rowBytes → rows ≤ 128 → 256 < row + rows → traps (.mtile f) 0x28)
      ∧ (4 * width ≤ rowBytes → rows ≤ 128 → row + rows ≤ 256 → 256 < wb + units → traps (.mtile f) 0x2A)
      ∧ (4 * width ≤ rowBytes → rows ≤ 128 → row + rows ≤ 256 → wb + units ≤ 256 → enters (.mtile f) (prod .mtile)))
    ∧ (Executes .c false (prefs .mloop f) f s →
      ((rowBytes < 4 * width ∨ 128 < rows) → traps (.mloop f) 0x29)
      ∧ (4 * width ≤ rowBytes → rows ≤ 128 → 256 < row + rows → traps (.mloop f) 0x28)
      ∧ (4 * width ≤ rowBytes → rows ≤ 128 → row + rows ≤ 256 → 256 < wb + kcnt * units → traps (.mloop f) 0x2A)
      ∧ (4 * width ≤ rowBytes → rows ≤ 128 → row + rows ≤ 256 → wb + kcnt * units ≤ 256 → enters (.mloop f) (prod .mloop)))
    ∧ (Executes .c false (prefs .mbatch f) f s →
      ((rowBytes < 4 * width ∨ rows ≠ 32 ∨ 256 < col + 128) → traps (.mbatch f) 0x29)
      ∧ (4 * width ≤ rowBytes → rows = 32 → col + 128 ≤ 256 →
        (256 < row + 128 → traps (.mbatch f) 0x28)
        ∧ (row + 128 ≤ 256 → 256 < wb + kcnt * (4 * units) → traps (.mbatch f) 0x2A)
        ∧ (row + 128 ≤ 256 → wb + kcnt * (4 * units) ≤ 256 → enters (.mbatch f) (prod .mbatch))))
    ∧ (Executes .c false (dab f) f s →
      (shape % 256 < 128 → (s.va f).toNat % 16 = 0 → shape / 2 ^ 32 % block = 0 → f.immN % 256 + (shape / 256 % 4096 + 1) * units ≤ 256 →
        enters (.wload f) fun m => m.kind = .wload ∧ m.addr = s.va f ∧ m.shape = s.vb f)
      ∧ (128 ≤ shape % 256 → traps (.wload f) 0x29)
      ∧ (shape % 256 < 128 → ((s.va f).toNat % 16 ≠ 0 ∨ shape / 2 ^ 32 % block ≠ 0) → misaligned (.wload f))
      ∧ (shape % 256 < 128 → (s.va f).toNat % 16 = 0 → shape / 2 ^ 32 % block = 0 →
        256 < f.immN % 256 + (shape / 256 % 4096 + 1) * units → traps (.wload f) 0x2A)
      ∧ (row + (shape % 256 + 1) ≤ 256 → col + (shape / 256 % 256 + 1) ≤ 256 →
        ((s.va f).toNat % esize ≠ 0 ∨ shape / 2 ^ 32 % esize ≠ 0) → misaligned (.acld f) ∧ misaligned (.acst f))
      ∧ (row + (shape % 256 + 1) ≤ 256 → col + (shape / 256 % 256 + 1) ≤ 256 → (s.va f).toNat % esize = 0 → shape / 2 ^ 32 % esize = 0 →
        enters (.acld f) (fun m => m.kind = .acld ∧ m.addr = s.va f ∧ m.shape = s.vb f)
        ∧ enters (.acst f) fun m => m.kind = .acst ∧ m.addr = s.va f ∧ m.shape = s.vb f)
      ∧ ((256 < row + (shape % 256 + 1) ∨ 256 < col + (shape / 256 % 256 + 1)) → traps (.acld f) 0x28 ∧ traps (.acst f) 0x28))
    ∧ (s.g.life = .active → executed .c f s.g = true → s.g.regbound (dab f s.g) = none → Memory.wf s.g.regs = true → f.d.isView = false →
      f.d.isTile = false → ∀ i ∈ [Instr.sadd f, .ssub f, .smul f, .sand f, .sor f, .sxor f, .sshl f, .sshr f, .ssra f, .smin f, .smax f,
          .spopc f, .sclz f, .smov f, .sli f],
        ∀ t, exec i { s with cores := [], teams := [] } = .next t →
          let written (b : Nat) : Prop := f.d.isScalar = true ∧ s.g.ofs f.d ≤ b ∧ (b : Int) < s.g.ofs f.d + 8
          ((∀ r ∈ s.unread s.g, ∀ b, r.1 ≤ b → b < r.1 + r.2 → ¬ written b) → exec i s = .next { s with g := t.g })
          ∧ ((∃ r ∈ s.unread s.g, ∃ b, r.1 ≤ b ∧ b < r.1 + r.2 ∧ written b) →
              exec i s = .next { s with g := { s.g with wait := .held 0 s.now } }))

/-- One K-step of a tile product: each position of its rectangle takes the sum of 32 products, rounded once, and added to what it held
unless it is the first step with ZA; every other position stays; a missing slice ends the product at MSLICE. A product whose steps are done
leaves the list; a K-step of MBATCH does the same for its 16 blocks of 32 rows and columns; a WLOAD of one 16-bit block fills its slice; an
ACST of one FP32 element writes it, rounded by RND, an ACLD reads it (R137, R283, R287, R293-R296, R299).
The model's part: when operations take effect is the model's (log entry 26). -/
def Obligations.TileProductSteps : Prop :=
  (∀ (s : State) (die core : Nat) (m : MOp),
    let c := s.core die core
    c.current = some m → m.kind = .mtile ∨ m.kind = .mloop → c.canRun m = true → (∀ e ∈ c.slices, e.2.full = true) →
    (∀ sl, m.stepSlices c = some [sl] → accRow m.imm + m.rows ≤ 256 → sl.nc ≤ 128 → ∃ t, exec (.kStep die core) s = .next t
      ∧ (∀ i j, i < m.rows → j < sl.nc →
          let q := dot32 (m.aElem (m.tile + m.kpos * (m.rows * m.rlen)) (m.scale + 256 * m.kpos) i i) (sl.bElem j)
          (t.core die core).accAt (accRow m.imm + i) (accCol m.imm + j) =
            if m.za && m.kpos = 0 then q % 2 ^ 32
            else fp32.rne (FV.add .rne (fp32.decode (c.accAt (accRow m.imm + i) (accCol m.imm + j))) (fp32.decode q)) % 2 ^ 32)
      ∧ (∀ x y, y < 256 → (x < accRow m.imm ∨ accRow m.imm + m.rows ≤ x ∨ y < accCol m.imm ∨ accCol m.imm + sl.nc ≤ y) →
          (t.core die core).accAt x y = c.accAt x y)
      ∧ (t.core die core).mops = c.mops.map (fun x => if x.id = m.id then
          { x with kpos := x.kpos + 1, n := sl.nc, done := decide (x.kcnt ≤ x.kpos + 1) } else x)
      ∧ t = { s with cores := t.cores })
    ∧ (m.stepSlices c = none → ∃ t, exec (.kStep die core) s = .next t ∧ (t.core die core).acc = c.acc
      ∧ (t.core die core).mops = c.mops.map (fun x => if x.id = m.id then { x with fault := true, done := true } else x)
      ∧ ∀ g, s.group? m.owner = some g → ∀ l, s.launch? g.launch = some l → ∃ l', t.launch? g.launch = some l' ∧ l'.failed = true))
  ∧ (∀ (s : State) (die core : Nat) (m : MOp) (bs : List Slice),
    let c := s.core die core
    c.current = some m → m.kind = .mbatch → c.canRun m = true → (∀ e ∈ c.slices, e.2.full = true) → m.stepSlices c = some bs →
    accRow m.imm + 128 ≤ 256 → m.rows = 32 → ∃ t, exec (.kStep die core) s = .next t
      ∧ (∀ b i j sl, b < 16 → i < 32 → j < 32 → bs[b / 4]? = some sl →
          let x := accRow m.imm + 32 * (b / 4) + i
          let y := accCol m.imm + 32 * (b % 4) + j
          let q := dot32 (m.aElem (m.tile + (16 * m.kpos + b) * (32 * m.rlen)) (m.scale + 768 * m.kpos) i (32 * b + i)) (sl.bElem (32 * (b % 4) + j))
          (t.core die core).accAt x y = if m.za && m.kpos = 0 then q % 2 ^ 32
            else fp32.rne (FV.add .rne (fp32.decode (c.accAt x y)) (fp32.decode q)) % 2 ^ 32)
      ∧ (∀ x y, y < 256 → (x < accRow m.imm ∨ accRow m.imm + 128 ≤ x ∨ y < accCol m.imm ∨ accCol m.imm + 128 ≤ y) →
          (t.core die core).accAt x y = c.accAt x y)
      ∧ t = { s with cores := t.cores })
  ∧ (∀ (s : State) (die core id : Nat) (m : MOp) (g : Group), s.Sound →
    let c := s.core die core
    c.mops.find? (fun m => decide (m.id = id)) = some m → s.group? m.owner = some g → g.die = die →
    s.teamEnded g.gang g.team = false →
    let ends (t : State) : Prop := exec (.matrixOpComplete die core id) s = .next t
    let place (cls : Nat) (need : Need) (n : Nat) (k : Nat) : Prop := ∃ x, s.translate die none (s.secure die) need cls m.addr.toNat = .ok x ∧
      x.tgt = 0 ∧ k = memKey die x.ofs ∧ m.addr.toNat % 128 + n ≤ 128
    (m.kind.product = true → m.done = true → ∃ t, ends t ∧ (∀ x ∈ (t.core die core).mops, x.id ≠ id) ∧ t.mem = s.mem
      ∧ ∃ g', t.group? m.owner = some g' ∧ g' = { g with mflt := if m.fault then min (g.mflt + 1) 255 else g.mflt })
    ∧ (m.kind = .wload → c.canRun m = true → m.bcl = 3 → m.mod.toNat / 32 = 9 ∨ m.mod.toNat / 32 = 10 → m.shape.toNat % 2 ^ 20 = 0 →
        ∀ k, place (m.mod.toNat / 4 % 8) .r 64 k → s.anyBad k 64 = false → s.readHeld die (lineOf k) = false → ∃ t sl, ends t ∧
          kget (t.core die core).slices m.wboff = some sl ∧ sl.fmt = BitVec.ofNat 5 (m.mod.toNat / 32) ∧ sl.nc = 1
          ∧ (∀ i, i < 64 → bget sl.data i = bget s.mem (k + i)) ∧ (∀ x ∈ (t.core die core).mops, x.id ≠ id) ∧
          ∀ j, t.cohByte j = s.cohByte j)
    ∧ (m.kind = .acst → c.canRun m = true → m.mod.toNat % 4 = 0 → m.shape.toNat % 2 ^ 16 = 0 →
        ∀ k, place (m.mod.toNat / 64 % 8) .w 4 k → (∀ line, s.lineTaken line = false) → ∃ t, ends t
          ∧ (let v := fp32.fround (RM.ofCode (m.mod.toNat / 16 % 4)) (m.mod.getLsbD 3) (m.mod.getLsbD 2)
              (fp32.read (m.mod.getLsbD 2) (c.accAt (accRow m.imm) (accCol m.imm)))
            ∀ i, i < 4 → t.cohByte (k + i) = BitVec.ofNat 8 (v / 256 ^ i))
          ∧ (∀ j, j < k ∨ k + 4 ≤ j → t.cohByte j = s.cohByte j) ∧ ∀ x ∈ (t.core die core).mops, x.id ≠ id)
    ∧ (m.kind = .acld → c.canRun m = true → m.mod.toNat % 4 = 0 → m.shape.toNat % 2 ^ 16 = 0 →
        ∀ k, place (m.mod.toNat / 64 % 8) .r 4 k → s.anyBad k 4 = false → s.readHeld die (lineOf k) = false → ∃ t, ends t
          ∧ (t.core die core).accAt (accRow m.imm) (accCol m.imm) = widen 8 (rdLE s.mem k 4) % 2 ^ 32
          ∧ (∀ x y, y < 256 → (x ≠ accRow m.imm ∨ y ≠ accCol m.imm) → (t.core die core).accAt x y = c.accAt x y) ∧
          ∀ j, t.cohByte j = s.cohByte j))

/-- ACLR clears a rectangle, ACMOV moves a row or column of 64 between the accumulator and a view, MSYNC joins and reports faults and
may free the engine, MSTAT reads the state, MSPLIT computes a block's place (R282, R297, R298, R300-R302).
The model's part: when operations take effect is the model's (log entry 26). -/
def Obligations.AccumulatorAndJoin : Prop :=
  ∀ (f : Fields) (s : State),
    let c := s.core s.g.die s.g.core
    let row := f.immN / 256 % 256
    let col := f.immN % 256
    let nr := f.immN / 2 ^ 16 % 256 + 1
    let nc := f.immN / 2 ^ 24 + 1
    let mine := c.engine = some (s.g.gang, s.g.team)
    let idle := c.mops.length < 16 ∧ ∀ m ∈ c.mops, m.kind = .wload ∨ m.done = true
    let onlyAcc (t : State) : Prop := t = { s with
      g := { s.g with pc := s.g.pc + 12, wait := .run }
      cores := kset s.cores (64 * s.g.die + s.g.core)
        { c with acc := (t.core s.g.die s.g.core).acc, bands := (t.core s.g.die s.g.core).bands } }
    let acc (t : State) := (t.core s.g.die s.g.core).accAt
    (Executes .c false (dab f) f s →
      ((256 < row + nr ∨ 256 < col + nc) → exec (.aclr f) s = .next (s.takeTrap { cause := 0x28 }))
      ∧ (row + nr ≤ 256 → col + nc ≤ 256 → mine → idle → ∃ t, exec (.aclr f) s = .next t ∧ onlyAcc t ∧ ∀ x y, y < 256 →
          acc t x y = if row ≤ x ∧ x < row + nr ∧ col ≤ y ∧ y < col + nc then 0 else c.accAt x y)
      ∧ (row + nr ≤ 256 → col + nc ≤ 256 → mine → ¬ idle → exec (.aclr f) s = .next s.hold)
      ∧ (mine → s.myMops = [] → s.g.wait = .run → ∃ t, exec (.msync f) s = .next t ∧
          let freed := f.mod.getLsbD 0 && c.mops.isEmpty
          t.g = (({ s with g := { s.g with mflt := 0 } }.putD f
            (BitVec.ofNat 64 (256 * s.g.mflt + (if freed then 2 else 0) + if s.g.mflt = 0 then 0 else 1))).advance).g
          ∧ (freed = true → c.engineWait = [] → (t.core s.g.die s.g.core).engine = none ∧ (t.core s.g.die s.g.core).acc = [])
          ∧ (freed = false → (t.core s.g.die s.g.core).engine = c.engine ∧ (t.core s.g.die s.g.core).acc = c.acc))
      ∧ (mine → s.myMops ≠ [] → s.g.wait = .run →
          exec (.msync f) s = .next { s with g := { s.g with wait := .blocked .msync 0 0 s.now } })
      ∧ (∃ v, exec (.mstat f) s = .next (s.putD f v).advance ∧ (v.getLsbD 0 = true ↔ mine)
          ∧ (v.getLsbD 1 = true ↔ (s.g.gang, s.g.team) ∈ c.engineWait) ∧ (v.getLsbD 2 = true ↔ s.g.mflt ≠ 0)
          ∧ (s.myMops.length ≤ 16 → v.extractLsb' 32 8 = BitVec.ofNat 8 s.myMops.length)
          ∧ ((∀ m ∈ s.myMops, m.kind.product = false) → v.extractLsb' 16 16 = 0)
          ∧ ∀ before m after, s.myMops = before ++ m :: after → (∀ b ∈ before, b.kind.product = false) → m.kind.product = true →
              v.extractLsb' 16 16 = BitVec.ofNat 16 m.kpos)
      ∧ (let rb := (s.va f).toNat % 256
         let cb := (s.va f).toNat / 256 % 256
         let i := s.g.srcs.team
         ((rb = 0 ∨ cb = 0 ∨ 32 < rb * cb) → exec (.msplit f) s = .next (s.takeTrap { cause := 0x29 }))
         ∧ (0 < rb → 0 < cb → rb * cb ≤ 32 → exec (.msplit f) s = .next (s.putD f
            (if rb * cb ≤ i then BitVec.allOnes 64 else BitVec.ofNat 64 (256 * (i / cb) + 2 ^ 32 * (256 * (i % cb))))).advance)))
    ∧ (let wt := 8 + f.modN % 4
       let w := typeWidth wt
       let down := f.mod.getLsbD 5
       let at_ (l : Nat) : Nat × Nat := if down then (row + l, col) else (row, col + l)
       let fits : Prop := if down then row + 64 ≤ 256 else col + 64 ≤ 256
       let on (l : Nat) : Prop := (s.g.mask 0).getLsbD l = true
       Executes .c false (vrefs f w w 8) f s → f.modN % 4 ≠ 3 → mine → (fits → ¬ idle → exec (.acmov f) s = .next s.hold) ∧
        (idle → (¬ fits → exec (.acmov f) s = .next (s.takeTrap { cause := 0x28 }))
        ∧ (fits → f.d.isView = false → ∃ t, exec (.acmov f) s = .next t ∧ onlyAcc t
          ∧ (∀ l, l < 64 → on l → acc t (at_ l).1 (at_ l).2 = fp32.rne ((fmtOf wt).decode (s.g.elem f.imm f.a w l)) % 2 ^ 32)
          ∧ ∀ x y, y < 256 → (∀ l, l < 64 → on l → (x, y) ≠ at_ l) → acc t x y = c.accAt x y)
        ∧ (fits → f.d.isView = true → ∃ t, exec (.acmov f) s = .next t
          ∧ (∀ l, l < 64 → on l → t.g.elem f.imm f.d w l =
              (fmtOf wt).fround (RM.ofCode f.rnd) f.sat false (fp32.decode (c.accAt (at_ l).1 (at_ l).2)) % 2 ^ w)
          ∧ (∀ l, l < 64 → ¬ on l → t.g.elem f.imm f.d w l = s.g.elem f.imm f.d w l)
          ∧ (∀ b, b < s.g.base f.d ∨ s.g.base f.d + 8 * w ≤ b → bget t.g.regs b = bget s.g.regs b)
          ∧ t = { s with g := { s.g with regs := t.g.regs, pc := s.g.pc + 12, wait := .run } })))

/-! ## Scheduling -/

/-- TENQ and GENQ send the 32-byte record that the address holds, TDEP adds to a token or takes one away, RETIRE and CHAIN end the
group after their release, a pending fault first, CHAIN leaving its successor at the core; neither RETIRE nor CHAIN may stand in a message
handler, and a record, token, task type or inherited range that is not allowed is a trap (R108, R308, R309, R318-R321, R419, R424). -/
def Obligations.SchedulingInstructions : Prop :=
  ∀ (f : Fields) (s : State), s.Sound → Executes .c false (dab f) f s →
    let u := s.flushCore s.g.die s.g.core
    let on := { s.g with pc := s.g.pc + 12, wait := .run }
    let tok := f.immN % 4096
    let n := f.immN / 4096
    let traps (i : Instr) (r : FRec) (x : State) : Prop := exec i s = .next (x.takeTrap r)
    (s.storesOut s.g.uid = false → ∀ x, u.checkElem .r 0 32 0 (s.va f).toNat = .ok x →
      let r := leVal ((List.range 32).map fun i => u.see s.g.die s.g.core (memKey s.g.die x.ofs + i))
      let dest := if recDie r = 15 then s.g.die else recDie r
      u.anyBad (memKey s.g.die x.ofs) 32 = false → u.loadHeld 32 ⟨0, (s.va f).toNat, x⟩ = false →
        (u.badRecord false r = true → traps (.tenq f) { cause := 0x2C } u) ∧ (u.badRecord true r = true → traps (.genq f) { cause := 0x2C } u)
        ∧ ((s.die s.g.die).dead = false → (s.die dest).dead = false → (dest = s.g.die → s.held dest +
            (s.fab.recs.filter fun r => decide (r.toDie = dest) && decide (r.fromDie = dest)).length < 16384) →
          let sends (i : Instr) (gang : Bool) : Prop := ∃ t, exec i s = .next t ∧ t.g = on ∧ (∀ k, t.cohByte k = s.cohByte k)
            ∧ t.fab.recs = s.fab.recs ++ [{
                id := s.fresh, owner := s.g.uid, record := BitVec.ofNat 256 r, gang := gang, launch := s.g.launch, job := s.g.job
                fromDie := s.g.die, toDie := dest }]
          (u.badRecord false r = false → sends (.tenq f) false) ∧ (u.badRecord true r = false → sends (.genq f) true)))
    ∧ (tok = 0 → traps (.tdepAdd f) { cause := 0x2C } s ∧ traps (.tdepDone f) { cause := 0x2C } s)
    ∧ (tok ≠ 0 →
      (s.token s.g.die tok + n < 2 ^ 20 → ∃ t, exec (.tdepAdd f) s = .next t ∧ t.g = on
        ∧ t.token s.g.die tok = s.token s.g.die tok + n ∧ (∀ d k, (d, k) ≠ (s.g.die, tok) → t.token d k = s.token d k)
        ∧ t = { s with g := t.g, devs := t.devs })
      ∧ (2 ^ 20 ≤ s.token s.g.die tok + n → traps (.tdepAdd f) { cause := 0x2E, info := BitVec.ofNat 32 tok } s)
      ∧ (n = 0 → s.storesOut s.g.uid = false →
        (s.token s.g.die tok = 0 → traps (.tdepDone f) { cause := 0x2D, info := BitVec.ofNat 32 tok } u)
        ∧ (s.token s.g.die tok ≠ 0 → ∃ t, exec (.tdepDone f) s = .next t ∧ t.g = on
          ∧ t.token s.g.die tok = s.token s.g.die tok - 1 ∧ (∀ d k, (d, k) ≠ (s.g.die, tok) → t.token d k = s.token d k)
          ∧ (s.token s.g.die tok = 1 → ∀ e ∈ t.tasks, e.2.die = s.g.die → e.2.life = .waiting → t.insClear s.g.die e.2.record = false))))
    ∧ (s.g.handler.isSome = true → traps (.retire f) { cause := 0x44, detail := 3 } s ∧ traps (.chain f) { cause := 0x44, detail := 4 } s)
    ∧ (s.g.handler = none →
      let start := (s.vb f).toNat % 2 ^ 32
      let len := (s.vb f).toNat / 2 ^ 32
      let entry := s.typeEntry s.g.die (f.immN % 256)
      ((∀ ty, entry = some ty → ty.valid = false ∨ ty.gangs ≠ 1 ∨ ty.groups ≠ 1) → traps (.chain f) { cause := 0x2C } s)
      ∧ ∀ ty, entry = some ty → ty.valid = true → ty.gangs = 1 → ty.groups = 1 → 0 < len →
          (s.g.alloc < start + len ∨ 1024 * ty.regs < start + len) →
          traps (.chain f) { cause := 0x03, detail := 2, info := BitVec.ofNat 32 start } s)
    ∧ (s.g.handler = none → s.storesOut s.g.uid = false →
      (∀ r rs, s.g.pend = r :: rs →
        traps (.retire f) r { s with g := { s.g with pend := rs, povf := s.g.povf && !rs.isEmpty } })
      ∧ (s.g.pend = [] → ∃ t, exec (.retire f) s = .next t ∧ t.g.life = .ended ∧ t.g.uid = s.g.uid ∧ t.rest.length = s.rest.length
          ∧ (∀ k, t.cohByte k = s.cohByte k) ∧ ∀ d k l, kget (t.die d).locks k = some l → l.holder ≠ s.g.uid)
      ∧ (s.g.pend = [] → ∀ ty, s.typeEntry s.g.die (f.immN % 256) = some ty → ty.valid = true → ty.gangs = 1 → ty.groups = 1 →
          let start := (s.vb f).toNat % 2 ^ 32
          let len := (s.vb f).toNat / 2 ^ 32
          (len = 0 ∨ (start + len ≤ s.g.alloc ∧ start + len ≤ 1024 * ty.regs)) →
          ∃ t c, exec (.chain f) s = .next t ∧ t.g.life = .ended ∧ (t.core s.g.die s.g.core).chains = (s.core s.g.die s.g.core).chains ++ [c]
            ∧ c.pred = s.g.uid ∧ c.start = start ∧ c.bytes = bytesAt s.g.regs start len
            ∧ ∃ k, t.task? c.task = some k ∧ k.ttype = ty ∧ k.arg = s.va f ∧ k.launch = s.g.launch ∧ k.life = .placed))

/-- A record that reaches a ready die with room becomes a task: counted as outstanding, with the next ordinal, its output tokens
raised, ready when its input tokens read zero; a bad type or a full token rejects it and fails the launch; a launch whose die has been
declared dead counts no task (R44, R307, R310, R312, R406).
The model's part: what a dead launch still accepts is the model's reading (log entry 42). -/
def Obligations.RecordAcceptance : Prop :=
  ∀ (s : State) (id : Nat) (r : InRec), s.fab.recs.find? (fun r => decide (r.id = id)) = some r →
    (s.fab.recs.any fun q => decide (q.id < r.id) && decide (q.owner = r.owner) && decide (q.toDie = r.toDie)) = false →
    s.dieReady r.toDie = true → s.lovageFull r.toDie = false →
    let v := r.record.toNat
    let entry := s.typeEntry r.toDie (recType v)
    let outs := recOuts v
    let rejected (cause : BitVec 8) : Prop := ∃ t, exec (.recordAcceptance id) s = .next t ∧ t.tasks = s.tasks ∧ (∀ q ∈ t.fab.recs, q.id ≠ id)
      ∧ (t.dev r.toDie).flhead = (s.dev r.toDie).flhead + 1 ∧ (∀ d k, t.token d k = s.token d k)
      ∧ (∃ e, kget (t.dev r.toDie).log ((s.dev r.toDie).flhead.toNat % 256) = some e ∧ e.extractLsb' 29 8 = cause)
      ∧ ∀ l, s.launch? r.launch = some l → ∃ l', t.launch? r.launch = some l' ∧ l'.failed = true
    (entry = none → rejected 0x6A) ∧ ∀ ty, entry = some ty → ((ty.under r.gang v).valid = false → rejected 0x6A)
      ∧ ((ty.under r.gang v).valid = true →
        ((∃ k ∈ outs, 2 ^ 20 ≤ s.token r.toDie k + occurs k outs) → rejected 0x6B)
        ∧ ((∀ k ∈ outs, s.token r.toDie k + occurs k outs < 2 ^ 20) → ∃ t k, exec (.recordAcceptance id) s = .next t
          ∧ (∀ q ∈ t.fab.recs, q.id ≠ id) ∧ t.task? s.fresh = some k ∧ k.launch = r.launch ∧ k.die = r.toDie ∧ k.record = r.record
          ∧ k.ttype = ty.under r.gang v ∧ k.life = (if t.insClear r.toDie r.record then .ready else .waiting)
          ∧ (∀ j, t.token r.toDie j = s.token r.toDie j + occurs j outs)
          ∧ ∀ l, s.launch? r.launch = some l → k.ordinal = l.ordinal ∧ ∃ l', t.launch? r.launch = some l' ∧ l'.ordinal = l.ordinal + 1
              ∧ l'.outstanding = if l.dead then l.outstanding else l.outstanding + 1))

/-- A gang is placed whole, at once, on cores that can take it: every group waiting for a slot at the entry address with its argument
in s0, 64 lanes enabled and the rest of its masks, its index registers, ECAUSE, ESCR0 and ESCR1 and its allocation zero; an offer of a saved gang is RESTORE's; an
unplaceable oldest offer of level 11 reserves the die, and a standing reservation stays; the first CHAIN successor of a core whose demand
can be granted takes its predecessor's place, with the bytes handed over above s0's and the rest zero (R26, R33, R107, R108, R313, R314,
R321, R326, R327).
The model's part: a plan of TEAM 0 is the model's (log entry 33), that a task's gangs start in ascending order (log entry 42), where an
allocation finds room (log entry 62), and that EPC is zero at placement, to which the spec gives no value (log entry 3). -/
def Obligations.Placement : Prop :=
  ∀ (s : State) (die : Nat),
    let fresh (k : Task) (l : Option Launch) (g : Group) : Prop := g.life = .waiting ∧ g.pc = k.ttype.entry ∧ g.conds = 1
      ∧ (∀ i, 1 ≤ i → i < 8 → g.mask i = 0)
      ∧ g.xs = Vector.replicate 4 0 ∧ g.vb = 512 ∧ g.tb = 512 ∧ g.tsh = 0x7F0000 ∧ g.priv = false ∧ g.alloc = 1024 * k.ttype.regs
      ∧ g.launch = k.launch ∧ g.waitSince = s.now ∧ g.evq = [] ∧ g.pend = [] ∧ g.die = k.die
      ∧ g.layout = ((l.map (·.layout)).getD 0) ∧ g.job = k.job ∧ g.wait = .run ∧ g.tickets = [] ∧ g.last = 0
      ∧ g.mflt = 0 ∧ g.epc = 0 ∧ g.ecause = 0 ∧ g.escr0 = 0 ∧ g.escr1 = 0
    let argByte (k : Task) (b : Nat) : Byte := if b < 8 then BitVec.ofNat 8 (k.arg.toNat / 256 ^ b) else 0
    let granted (core : Nat) (c : Chain) (k : Task) : Prop := s.task? c.task = some k ∧
      (let v := (s.modGroup c.pred fun g => { g with handed := true }).modCore die core fun x => { x with chains := [] }
       1 ≤ v.fit die core k.ttype ∧ v.admitted die k.ttype.ecls 1 0 = true)
    (∀ sizes o p k, s.nextOffer die sizes = some (o, p) → o.restore = false → s.task? o.id = some k → ∃ t new, exec (.gangPlacement die sizes) s = .next t
      ∧ t.g = s.g ∧ t.rest = s.rest ++ new ∧ new.length = (p.map (·.2)).sum
      ∧ (∀ g ∈ new, fresh k (s.launch? k.launch) g ∧ g.sreg 0 = k.arg ∧ g.gang = s.fresh ∧ g.task = o.id ∧ g.core ∈ p.map (·.1)
          ∧ (∀ b, bget g.regs b = argByte k b) ∧ (k.batch = none → g.mask 0 = BitVec.allOnes 64))
      ∧ new.map (·.rank) = List.range new.length
      ∧ ∃ q, t.gang? s.fresh = some q ∧ q.task = o.id ∧ q.die = k.die ∧ q.life = .live ∧ q.handle ≠ 0 ∧ q.ttype = k.ttype)
    ∧ (∀ sizes o p, s.nextOffer die sizes = some (o, p) → o.restore = true → exec (.gangPlacement die sizes) s = .next s)
    ∧ (∀ o, s.reservedFor die = none → s.reserves die = some o → ∃ t, exec (.agingReservation die) s = .next t
        ∧ (t.die die).reserved = some o.id ∧ t = { s with dies := t.dies })
    ∧ (s.reservedFor die ≠ none → exec (.agingReservation die) s = .next s)
    ∧ ∀ core before c after k, core < 40 → (s.core die core).chains = before ++ c :: after → c ∉ before → c ∉ after →
        (∀ b ∈ before, ∃ kb, s.task? b.task = some kb ∧ ¬ granted core b kb) → granted core c k → k.die = die →
        ∃ t g, exec (.chainSuccessorPlacement die core) s = .next t ∧ t.rest.getLast? = some g ∧ t.rest.length = s.rest.length + 1
          ∧ fresh k (s.launch? k.launch) g ∧ g.core = core ∧ (t.core die core).chains = before ++ after
          ∧ ∀ b, bget g.regs b = if c.start ≤ b ∧ b < c.start + c.bytes.length then c.bytes.getD (b - c.start) 0 else argByte k b

/-- A free active slot goes to a group that waits for one and is not blocked, a higher priority level first and then the longest wait,
unless one has waited towards the bound; DEACTIVATION puts an active group back among the waiting, a held one too, which stays held
(R35, R37, R42, R267).
The model's part: from 32,768 cycles on the longest wait goes first, which is the model's choice within the bound (log entry 45), and a PRIO
above 11 counts as 11 (log entry 64). -/
def Obligations.ActiveSlots : Prop :=
  ∀ (s : State),
    (∀ die core, (s.activeOn die core).length < 8 → s.slotWaiters die core ≠ [] →
      ∃ g ∈ s.slotWaiters die core, exec (.activation die core) s = .next (s.modGroup g.uid fun g => { g with life := .active })
        ∧ ((∀ h ∈ s.slotWaiters die core, s.now - h.waitSince < 32768) → ∀ h ∈ s.slotWaiters die core,
            s.prioOf h ≤ s.prioOf g ∧ (s.prioOf h = s.prioOf g → g.waitSince ≤ h.waitSince))
        ∧ ∀ h ∈ s.slotWaiters die core, 32768 ≤ s.now - h.waitSince → 32768 ≤ s.now - g.waitSince ∧ g.waitSince ≤ h.waitSince)
    ∧ (∀ die core, (8 ≤ (s.activeOn die core).length ∨ s.slotWaiters die core = []) → exec (.activation die core) s = .next s)
    ∧ ∀ uid g, s.group? uid = some g →
      (g.life = .active → exec (.deactivation uid) s = .next (s.modGroup uid fun g => { g with life := .waiting, waitSince := s.now }))
      ∧ (g.life ≠ .active → exec (.deactivation uid) s = .next s)

/-- A gang retires when all its groups have ended and nothing of it is busy; a task retires with its last gang, takes its output
tokens down by one each, and the launch's count falls by one (R44, R47, R310, R320). -/
def Obligations.Retirement : Prop :=
  ∀ (s : State) (id : Nat),
    (∀ k, s.gang? id = some k → (∀ g ∈ s.groups, g.gang = id → g.life = .absent ∨ g.life = .ended) → s.gangBusy id = false → ∃ t,
      exec (.gangRetire id) s = .next t ∧ t.gang? id = none ∧ (∀ g ∈ t.rest, g.gang ≠ id) ∧ (s.g.gang ≠ id → t.g = s.g)
      ∧ (∀ e ∈ t.teams, e.1 / 32 = id → e.2.rtrav.isSome = true)
      ∧ ∀ x, s.task? k.task = some x → ∃ x', t.task? k.task = some x' ∧ x' = { x with gangsRetired := x.gangsRetired + 1 })
    ∧ ∀ x, s.task? id = some x → x.life = .placed → x.ttype.gangs ≤ x.gangsRetired → s.taskBusy id = false → ∃ t,
      exec (.taskRetire id) s = .next t ∧ t.task? id = none
      ∧ ((∀ k ∈ recOuts x.record.toNat, occurs k (recOuts x.record.toNat) ≤ s.token x.die k) →
          ∀ k, t.token x.die k = s.token x.die k - occurs k (recOuts x.record.toNat))
      ∧ ∀ l, s.launch? x.launch = some l → l.dead = false → 0 < l.outstanding → ∃ l', t.launch? x.launch = some l'
          ∧ l'.outstanding = l.outstanding - 1 ∧ (l.outstanding = 1 → l'.zeroWave = some s.hub.waveNum ∧ t.hub.waveReq = s.hub.waveReq + 1)

/-- A launch whose steps hold closes the posted writes of each link it touched and is complete: the completion word takes the
sequence value with bit 63 for a failure, at its own address, and the launch is gone; while its line is leased the store waits (R46-R48,
R236).
The model's part: a link-down and a dead die are the model's readings (log entries 42 and 47). -/
def Obligations.LaunchCompletion : Prop :=
  ∀ (s : State) (id : Nat) (l : Launch), s.Sound → s.launch? id = some l → l.settled = true → s.opsDone id = true →
    (∀ link ∈ l.links, ∃ t, exec (.flushReadComplete id link) s = .next t ∧ (link = 8 → t.fab.posted = [])
      ∧ ∃ l', t.launch? id = some l' ∧ l' = { l with links := l.links.filter fun k => decide (k ≠ link) })
    ∧ (l.links = [] → l.stats = 0 → l.noWord = false → l.reach = 0 → l.dead = false → ∀ x,
        s.translate l.dev none (s.secure l.dev) .w 0 l.cwaddr.toNat = .ok x → x.tgt = 0 → l.cwaddr.toNat % 8 = 0 →
        let k := memKey l.dev x.ofs
        let v := l.seq.toNat % 2 ^ 63 + if l.failed then 2 ^ 63 else 0
        ((∃ line ∈ linesOf k 8, s.lineTaken line = true) → exec (.launchComplete id) s = .next s)
        ∧ ((∀ line ∈ linesOf k 8, s.lineTaken line = false) → ∃ t, exec (.launchComplete id) s = .next t ∧ t.launch? id = none ∧ (∀ i, i < 8 → t.cohByte (k + i) = BitVec.ofNat 8 (v / 256 ^ i))
          ∧ (∀ j, j < k ∨ k + 8 ≤ j → t.cohByte j = s.cohByte j) ∧ t.g = s.g ∧ t.rest = s.rest))
    ∧ (l.links = [] → l.stats = 0 → l.noWord = false → l.reach = 2 → l.dead = false → l.cut = false → s.linkUp = true → ∀ x,
        s.translate l.dev none (s.secure l.dev) .w 3 l.cwaddr.toNat = .ok x → x.tgt = 1 →
        ∃ t, exec (.launchComplete id) s = .next t ∧ t.launch? id = none ∧ (∀ k, t.cohByte k = s.cohByte k)
          ∧ t.fab.posted = s.fab.posted ++
              [{ dev := l.dev, job := l.job, addr := x.ofs, launch := id
                 bytes := leBytes (l.seq.toNat % 2 ^ 63 + if l.failed then 2 ^ 63 else 0) 8 }]
              ++ (if l.irq then [{ dev := l.dev, job := l.job, addr := l.vec, bytes := [], launch := id }] else []))

/-! ## Eviction, context images and system instructions -/

/-- An eviction request notes the gang's groups where TVEC sets PN, and is turned away where the image would not fit; 65,536 cycles
end the wait for PREACK; EVICTION saves the gang once its groups have answered and can stop and the image's lines are free;
a gang that hardware saved is queued with what its image holds, and placed when its offer is next (R333, R334, R338, R346, R462).
The model's part: the places of an image's parts and delivery of PRENOTE are the model's (log entries 20, 22, 25, 32 and 34), as are that an
eviction is given up where all groups have ended by then (log entry 25), and what an unreadable save area restores (log entry 34). -/
def Obligations.EvictionAndRestore : Prop :=
  ∀ (s : State) (gid : Nat) (k : Gang), s.Sound → s.gang? gid = some k →
    let gs := s.groupsOf gid
    (k.life = .live → s.saveSpace k.die (s.imageSize gid) ≠ none → ∃ t, exec (.evictionRequest gid) s = .next t
      ∧ t.gang? gid = some { k with
          life := .evicting, evictAt := some s.now, noted := (s.mr (offTVEC k.die)).getLsbD 62, image := none, saver := none }
      ∧ ((s.mr (offTVEC k.die)).getLsbD 62 = true → ∀ g ∈ t.groups, g.gang = gid → (g.life = .active ∨ g.life = .waiting) →
          g.preq = true ∧ g.packed = false)
      ∧ t = { s with gangs := t.gangs, g := t.g, rest := t.rest })
    ∧ (k.life ≠ .live ∨ s.saveSpace k.die (s.imageSize gid) = none → exec (.evictionRequest gid) s = .next s)
    ∧ (k.life = .evicting → k.noted = true → 65536 ≤ s.now - k.evictAt.getD 0 → ∃ t, exec (.prenoteTimeout gid) s = .next t
      ∧ t.gang? gid = some { k with noted := false } ∧ t = { s with gangs := t.gangs })
    ∧ (k.life ≠ .evicting ∨ k.noted = false ∨ s.now - k.evictAt.getD 0 < 65536 → exec (.prenoteTimeout gid) s = .next s)
    ∧ (∀ f, Executes .c true (dab f) f s → s.g.gang = gid →
        (k.life = .evicting → exec (.preack f) s =
          .next { s with g := { s.g with packed := true, pnote := false, pc := s.g.pc + 12, wait := .run } })
        ∧ (k.life ≠ .evicting → exec (.preack f) s = .next { s with g := { s.g with pc := s.g.pc + 12, wait := .run } }))
    ∧ (k.life = .evicting → s.cannotStop gid = false → (k.noted = true → ∀ g ∈ gs, g.packed = true ∨ g.life = .ended) →
        ((∀ g ∈ gs, g.life = .ended) → ∃ t, exec (.eviction gid) s = .next t
          ∧ t.gang? gid = some { k with life := .live, evictAt := none, noted := false, image := none, saver := none } ∧ t = { s with gangs := t.gangs })
        ∧ ∀ q image, (∃ g ∈ gs, g.life ≠ .ended) → s.quiesceGang gid = some q →
          (k.image = some image ∨ k.image = none ∧ ∃ a, q.saveSpace k.die (q.imageSize gid) = some a
            ∧ image = (q.mr (offSAVEBASE k.die) + BitVec.ofNat 64 a, true)) →
          (q.vaBusy k.die true image.1.toNat (q.imageSize gid) = true → exec (.eviction gid) s = .next s)
          ∧ (q.vaBusy k.die true image.1.toNat (q.imageSize gid) = false → ∃ t, exec (.eviction gid) s = .next t
            ∧ (∀ g ∈ t.groups, g.gang = gid → g.life = .saved ∨ g.life = .ended ∨ g.life = .absent)
            ∧ (∀ k', t.gang? gid = some k' → k'.life = .saved ∧ k'.image = some image)
            ∧ ∀ u since g, k.saver = some (u, since) → q.group? u = some g → g.gang ≠ gid → g.wait = .held 1 since →
                ∃ g', t.group? u = some g' ∧ g' = { g with wait := .ready (BitVec.ofNat 64 (q.imageSize gid)) }))
    ∧ ((k.noted = true ∧ ∃ g ∈ gs, g.packed = false ∧ g.life ≠ .ended) → exec (.eviction gid) s = .next s)
    ∧ (k.life ≠ .evicting ∨ s.cannotStop gid = true → exec (.eviction gid) s = .next s)
    ∧ (∀ a, k.life = .saved → k.image = some (a, true) → s.vaBusy k.die false a.toNat (s.imageSize gid) = true →
      exec (.restore gid) s = .next s)
    ∧ (∀ a, k.life = .saved → k.image = some (a, true) → s.vaBusy k.die false a.toNat (s.imageSize gid) = false →
      (s.vaReadable k.die a.toNat (s.imageSize gid) = false → ∃ t, exec (.restore gid) s = .next t
        ∧ t.gang? gid = some { k with life := .restoring, restoreAt := some s.now } ∧ t = { s with gangs := t.gangs })
      ∧ (s.vaReadable k.die a.toNat (s.imageSize gid) = true → ∃ t k', exec (.restore gid) s = .next t
        ∧ t = { ((s.vaTouch k.die a.toNat (s.imageSize gid)).loadImage gid (s.vaBytes k.die a.toNat (s.imageSize gid))) with gangs := t.gangs }
        ∧ t.gang? gid = some k' ∧ k'.life = .restoring ∧ k'.restoreAt = some s.now ∧ k'.image = k.image ∧ k'.handle = k.handle))
    ∧ ∀ o p, k.life = .restoring → s.nextOffer k.die [] = some (o, p) → o.restore = true → o.id = gid →
      ∃ t, exec (.restore gid) s = .next t
        ∧ t.gang? gid = some { k with life := .live, evictAt := none, restoreAt := none, image := none }
        ∧ ∀ g ∈ gs, s.group? g.uid = some g → ∃ g' ∈ t.groups, g'.uid = g.uid ∧ g'.life = (if g.life = .ended then .ended else .waiting)
          ∧ g'.regs = g.regs ∧ g'.pc = g.pc ∧ g'.wait = g.wait ∧ g'.masks = g.masks

/-- CTXSAVE gives the image's size for a null address, else asks for the eviction, waits until the image is written and then gives its
size; CTXLOAD checks the image's header and queues the gang, waiting for lines that are held; both take the page fault of a range they cannot
use, and CTXLOAD takes POISON where the image is poisoned (R193, R335, R348, R405, R456).
The model's part: an image whose handle names no saved gang fails check 4 (log entry 24). -/
def Obligations.ContextInstructions : Prop :=
  ∀ (f : Fields) (s : State), Executes .c true (dab f) f s →
    let h : BitVec 32 := (s.vb f).setWidth 32
    let a := (s.va f).toNat
    let bad : Res := .next (s.takeTrap { cause := 0x09, detail := 0 })
    (s.g.wait = .run → s.liveGang h = none → exec (.ctxsave f) s = bad)
    ∧ (∀ gid k, s.g.wait = .run → s.liveGang h = some (gid, k) →
      (gid = s.g.gang → exec (.ctxsave f) s = bad)
      ∧ (gid ≠ s.g.gang → f.a = .zero → exec (.ctxsave f) s = .next (s.putD f (BitVec.ofNat 64 (s.imageSize gid))).advance)
      ∧ (gid ≠ s.g.gang → f.a ≠ .zero → a % 256 ≠ 0 →
          exec (.ctxsave f) s = .next (s.takeTrap { cause := 0x15, addr := BitVec.ofNat 64 a }))
      ∧ (gid ≠ s.g.gang → f.a ≠ .zero → a % 256 = 0 →
        (∀ r, s.rangeFault .w a (s.imageSize gid) = some r → exec (.ctxsave f) s = .next (s.takeTrap r))
        ∧ (s.rangeFault .w a (s.imageSize gid) = none → s.gang? gid = some k →
          (k.life = .evicting → exec (.ctxsave f) s = .next { s with g := { s.g with wait := .held 0 s.now } })
          ∧ (k.life = .live → ∃ t, exec (.ctxsave f) s = .next t ∧ t.g.wait = .held 1 s.now ∧ t.g.pc = s.g.pc ∧ t.g.regs = s.g.regs
            ∧ t.mem = s.mem ∧ t.gang? gid = some { k with
                life := .evicting, evictAt := some s.now, noted := (s.mr (offTVEC k.die)).getLsbD 62, image := some (s.va f, false)
                saver := some (s.g.uid, s.now) }))))
    ∧ (∀ since gid k, s.g.wait = .held 1 since → (s.gangs.find? fun k => k.2.die = s.g.die && k.2.handle = h) = some (gid, k) →
      k.life = .evicting → exec (.ctxsave f) s = .next s)
    ∧ (∀ v, s.g.wait = .ready v → exec (.ctxsave f) s = .next (s.putD f v).advance)
    ∧ (∀ r, s.rangeFault .r a 256 = some r → exec (.ctxload f) s = .next (s.takeTrap r))
    ∧ (s.rangeFault .r a 256 = none → ∀ r, s.rangePoison a 256 = some r → exec (.ctxload f) s = .next (s.takeTrap r))
    ∧ (s.rangeFault .r a 256 = none → s.rangePoison a 256 = none → s.vaBusy s.g.die false a 256 = true → exec (.ctxload f) s = .next s.hold)
    ∧ (s.rangeFault .r a 256 = none → s.rangePoison a 256 = none → s.vaBusy s.g.die false a 256 = false →
      let m := s.vaBytes s.g.die a 256
      let size := rdLE m 4 4
      let id := BitVec.ofNat 32 (rdLE m 72 4)
      let ctxbad (n : BitVec 8) : Prop := exec (.ctxload f) s = .next (s.takeTrap { cause := 0x0B, detail := n })
      (rdLE m 0 1 ≠ 1 → ctxbad 1)
      ∧ (rdLE m 0 1 = 1 → (rdLE m 1 1 ≠ s.g.die → ctxbad 2) ∧ (rdLE m 1 1 = s.g.die → (size % 256 ≠ 0 → ctxbad 3)
        ∧ (size % 256 = 0 → 1280 ≤ size →
          (∀ e ∈ s.gangs, e.2.die = s.g.die → e.2.handle = id → e.2.life ≠ .saved) → ctxbad 4)
        ∧ ∀ gid k, (s.gangs.find? fun k => k.2.die = s.g.die && k.2.handle = id && decide (k.2.life = .saved)) = some (gid, k) →
          s.gang? gid = some k → s.g.gang ≠ gid → (size ≠ s.imageSize gid → ctxbad 3)
          ∧ (size = s.imageSize gid → size % 256 = 0 → 1280 ≤ size →
              (∃ e ∈ s.gangs, e.2.die = s.g.die ∧ e.2.handle = id ∧ e.2.life ≠ .saved) → ctxbad 4)
          ∧ (size = s.imageSize gid → size % 256 = 0 → 1280 ≤ size →
              (∀ e ∈ s.gangs, e.2.die = s.g.die → e.2.handle = id → e.2.life = .saved) →
            (∀ r, s.rangeFault .r a size = some r → exec (.ctxload f) s = .next (s.takeTrap r))
            ∧ (s.rangeFault .r a size = none → ∀ r, s.rangePoison a size = some r → exec (.ctxload f) s = .next (s.takeTrap r))
            ∧ (s.rangeFault .r a size = none → s.rangePoison a size = none → s.vaBusy s.g.die false a size = false → rdLE m 8 16 = k.ttype.raw.toNat →
              (k.ttype.valid = false → ctxbad 5)
              ∧ (k.ttype.valid = true → (s.sizesAgree gid k.ttype (s.vaBytes s.g.die a size) = false → ctxbad 6)
                ∧ (s.sizesAgree gid k.ttype (s.vaBytes s.g.die a size) = true → ∃ t, exec (.ctxload f) s = .next t
                  ∧ (∀ k', t.gang? gid = some k' → k'.life = .restoring ∧ k'.restoreAt = some s.now)
                  ∧ (s.Sound → ∀ k, t.cohByte k = s.cohByte k)
                  ∧ t.g.pc = s.g.pc + 12)))))))

/-- WAITI waits until FLHEAD differs from A, or for its limit, and gives FLHEAD; HALTD halts, queries and resumes a core of the die and
gives its counts; TLBINV writes the core back and drops the translations it names from the die, none for a length of 0 (R345, R347,
R349). -/
def Obligations.SystemInstructions : Prop :=
  ∀ (f : Fields) (s : State), (Executes .c true (dab f) f s →
    let now := s.flhead
    let n := (s.vb f).toNat
    let c := (s.va f).toNat
    (now ≠ (s.va f).setWidth 32 → exec (.waiti f) s = .next (s.putD f (now.setWidth 64)).advance)
    ∧ (now = (s.va f).setWidth 32 → s.g.wait = .run →
        exec (.waiti f) s = .next { s with g := { s.g with wait := .held (if n = 0 then 0 else n + 2) s.now } })
    ∧ (∀ v, n ≠ 0 → s.g.wait = .ready v → exec (.waiti f) s = .next (s.putD f (now.setWidth 64)).advance)
    ∧ (let sysarg : Res := .next (s.takeTrap { cause := 0x09, detail := 4 })
      (f.immN % 4 = 3 → exec (.haltdHalt f) s = sysarg)
      ∧ (f.immN % 4 ≠ 3 → 39 < c ∨ c = s.g.core → exec (.haltdHalt f) s = sysarg)
      ∧ (39 < c → exec (.haltdQuery f) s = sysarg ∧ exec (.haltdResume f) s = sysarg)
      ∧ (c ≤ 39 → s.coreEvicting s.g.die c = false →
        let k := s.core s.g.die c
        let counts := BitVec.ofNat 64 (k.copies.length + k.mops.length * 2 ^ 16 + s.travCount s.g.die c * 2 ^ 24)
        let acts (i : Instr) (halted : Bool) : Prop := ∃ t, exec i s = .next t ∧ t = { (s.putD f counts).advance with cores := t.cores }
          ∧ t.core s.g.die c = { k with halted := halted } ∧ ∀ n, n ≠ 64 * s.g.die + c → kget t.cores n = kget s.cores n
        (f.immN % 4 ≠ 3 → c ≠ s.g.core → acts (.haltdHalt f) true) ∧ acts (.haltdQuery f) k.halted
        ∧ (∃ t, exec (.haltdResume f) s = .next t ∧ (t.core s.g.die c).halted = false)
        ∧ ((∀ e ∈ s.teams, e.2.die = s.g.die → e.2.core = c → ∀ q, q < 16 → ((s.team (e.1 / 32) (e.1 % 32)).queue q).senders = []) →
            acts (.haltdResume f) false)))
    ∧ (s.storesOut s.g.uid = false →
      let u := s.flushCore s.g.die s.g.core
      let kept (e : TlbEntry) : Prop :=
        e.dev ≠ s.g.die ∨ f.imm.getLsbD 0 = false ∧ (n % 2 ^ 32 = 0 ∨ c + n % 2 ^ 32 ≤ e.base ∨ e.base + e.size ≤ c)
      ∃ t, exec (.tlbinv f) s = .next t ∧ t = { u with g := { s.g with pc := s.g.pc + 12, wait := .run }, dies := t.dies, cores := t.cores }
        ∧ (∀ e, e ∈ (t.die s.g.die).tlb ↔ e ∈ (s.die s.g.die).tlb ∧ kept e)
        ∧ (∀ x ∈ t.cores, x.1 / 64 = s.g.die → ∀ e ∈ x.2.tlb, kept e) ∧ t.cores.map (·.1) = u.cores.map (·.1)))
  ∧ ∀ uid g arg since, s.group? uid = some g → g.wait = .held arg since →
    (2 < arg → arg - 2 ≤ s.now - since → exec (.waitiTimeout uid) s = .next (s.modGroup uid fun g => { g with wait := .ready 0 }))
    ∧ (arg ≤ 2 ∨ s.now - since < arg - 2 → exec (.waitiTimeout uid) s = .next s)

/-! ## Dill engines -/

/-- XCOPY checks its card and queues it at the open engine with the fewest jobs under the next ticket; XWAIT waits until a ticket's job
is complete and XSTAT does not, both giving its word; CRCV gives a page's CRC and compares or writes its entry (R355, R360, R361,
R363).
The model's part: the word of a ticket never given is the model's (log entry 30). -/
def Obligations.CopyEngineInstructions : Prop :=
  ∀ (f : Fields) (s : State), s.Sound →
    (Executes .c false (dab f) f s → s.storesOut s.g.uid = false →
      (s.g.tickets.filter fun t => !t.done).length < 8 → (∀ t ∈ s.g.tickets, t.num = s.g.last - 7 → t.done = true) →
      let u := s.flushCore s.g.die s.g.core
      let ks := if f.modN % 8 < 4 then [4 * s.g.die + f.modN % 8] else [4 * s.g.die, 4 * s.g.die + 1, 4 * s.g.die + 2, 4 * s.g.die + 3]
      let len (k : Nat) := (s.dill k).queue.length
      let isOpen (k : Nat) : Prop := s.dillReady k = true ∧ s.worldPending (dillBlock k) = false ∧ len k < 64
      (f.modN % 8 < 4 → ∃ k ∈ ks, isOpen k) →
      (∀ r, u.checkElem .r 0 64 0 (s.va f).toNat = .error r → exec (.xcopy f) s = .next (u.takeTrap r))
      ∧ ∀ x, u.checkElem .r 0 64 0 (s.va f).toNat = .ok x → x.tgt = 0 → u.anyBad (memKey s.g.die x.ofs) 64 = false →
        u.loadHeld 64 ⟨0, (s.va f).toNat, x⟩ = false →
        let c := leVal ((List.range 64).map fun i => u.see s.g.die s.g.core (memKey s.g.die x.ofs + i))
        let fits (k : Nat) : Prop := isOpen k ∧ s.routValid k (cardRout c) = true
        let n : BitVec 32 := if s.g.last = BitVec.allOnes 32 then 1 else s.g.last + 1
        let ts := s.g.tickets ++ [{ num := n }]
        (s.cardBad ks c = true → exec (.xcopy f) s = .next (u.takeTrap { cause := 0x30 }))
        ∧ (s.cardBad ks c = false → (∃ k ∈ ks, fits k) → ∃ t k j, exec (.xcopy f) s = .next t
          ∧ t.g = (({ s with g := { s.g with last := n, tickets := ts.drop (ts.length - 8) } }.putD f (n.setWidth 64)).advance).g
          ∧ k ∈ ks ∧ fits k ∧ (∀ i ∈ ks, fits i → len k < len i ∨ len k = len i ∧ k ≤ i)
          ∧ (t.dill k).queue = (s.dill k).queue ++ [j] ∧ j.card.toNat = c ∧ j.cardAddr = s.va f ∧ j.ticket = n ∧ j.owner = s.g.uid
          ∧ j.dev = s.g.die ∧ j.iaddr = s.g.pc ∧ j.transfer = none ∧ (∀ i, i ≠ k → t.dill i = s.dill i)
          ∧ (∀ i, t.cohByte i = s.cohByte i) ∧ t.rest = s.rest))
    ∧ (Executes .c false (dab f) f s →
      (8 ≤ (s.g.tickets.filter fun t => !t.done).length ∨ ∃ t ∈ s.g.tickets, t.num = s.g.last - 7 ∧ t.done = false) →
      exec (.xcopy f) s = .next s.hold)
    ∧ (Executes .c false (dab f) f s →
      let t : BitVec 32 := (s.va f).setWidth 32
      let ago := (s.g.last - t).toNat
      let gives (w : Word) : Prop := exec (.xwait f) s = .next ((s.putD f w).acquireG).advance
        ∧ exec (.xstat f) s = .next ((s.putD f w).acquireG).advance
      (t = 0 ∨ 2 ^ 31 ≤ ago →
        exec (.xwait f) s = .next (s.takeTrap { cause := 0x31 }) ∧ exec (.xstat f) s = .next (s.takeTrap { cause := 0x31 }))
      ∧ (t ≠ 0 → ago < 2 ^ 31 → (8 ≤ ago → gives 0x30000)
        ∧ (ago < 8 → ∀ k, s.g.tickets.find? (fun k => decide (k.num = t)) = some k →
          (k.done = true → gives (BitVec.ofNat 64 (k.outlen.toNat * 2 ^ 32 + 2 ^ 16 + k.ecode.toNat * 2 ^ 8)))
          ∧ (k.done = false → exec (.xstat f) s = .next (s.putD f 0).advance
            ∧ (s.g.wait = .run → exec (.xwait f) s =
                .next { s with g := { s.g with wait := .blocked .xwait 0 (t.setWidth 64) s.now } })))))
    ∧ (Executes .c false (fun _ => [⟨0, f.d, 8⟩, ⟨1, f.a, 8⟩, ⟨2, f.b, 8⟩, ⟨3, f.c, 8⟩]) f s →
      let a := (s.va f).toNat
      let b := (s.vb f).toNat
      let upd := f.mod.getLsbD 0
      let need : Need := if upd then .rw else .r
      let unaligned (p : Nat) : Res := .next (s.takeTrap { cause := 0x15, addr := BitVec.ofNat 64 p })
      (a % 4096 ≠ 0 → exec (.crcv f) s = unaligned a)
      ∧ (a % 4096 = 0 → b % 16 ≠ 0 → exec (.crcv f) s = unaligned b)
      ∧ ∀ xa xb, a % 4096 = 0 → b % 16 = 0 → s.checkElem .r 0 1 0 a = .ok xa → s.checkElem need 0 1 0 b = .ok xb →
        xa.tgt = 0 → xb.tgt = 0 →
        let ka := memKey s.g.die xa.ofs
        let kb := memKey s.g.die xb.ofs
        let seen (k n : Nat) := (List.range n).map fun i => s.see s.g.die s.g.core (k + i)
        let len := leVal (seen (kb + 8) 4)
        let n := if 1 ≤ len ∧ len ≤ 4096 then len else 4096
        let crc := crc64 (seen ka n)
        s.anyBad kb 16 = false → s.anyBad ka n = false → s.loadHeld 16 ⟨0, b, xb⟩ = false → s.loadHeld n ⟨0, a, xa⟩ = false →
        (upd = true → s.leaseBusy 16 ⟨0, b, xb⟩ = false) → ∃ t, exec (.crcv f) s = .next t
          ∧ t.g = (((s.setG (s.g.put f.c
              (if upd = true ∨ 1 ≤ len ∧ len ≤ 4096 ∧ leVal (seen kb 8) = crc.toNat then 1 else 0))).putD f crc).advance).g
          ∧ t.rest = s.rest ∧ (upd = false → ∀ k, t.cohByte k = s.cohByte k)
          ∧ (upd = true → (∀ i, i < 16 → t.cohByte (kb + i) = (leBytes crc.toNat 8 ++ leBytes n 4 ++ leBytes 0 4).getD i 0)
            ∧ ∀ k, k < kb ∨ kb + 16 ≤ k → t.cohByte k = s.cohByte k))

/-- The oldest job of a ready idle engine starts, a loaded routine at its entry. A COPY between two lines writes its bytes to the destination and DONE, the cause 0
and the length to its card, completes its ticket and leaves the engine; EXPAND and COMPRESS do so with what they make of the source, CHK
ends a job whose source does not match its entry with CRCMIS before it writes, GEN writes the entry of what was written and CRCGEN that of
the source; a smaller DCAP ends a job with XCAP and a stream that is none with XFMT; a loaded routine executes its core's instructions one by one, is
complete behind the last of its LEN words, and ends past its limit, or at a word that is no instruction of its core, with XROUT and the number of
bytes it had written. A write of routine memory takes effect at once, or is kept while a job runs and takes effect at that job's end; one of the
routine table extends MEAS3. COMPRESS and DECOMPRESS are inverse, and the CRC is CRC-64/XZ (R351-R358, R360, R460).
The model's part: that a loaded routine is complete there, and which stream COMPRESS writes (log entry 28); what MEAS3 takes of a table write (log
entry 59). -/
def Obligations.CopyEngineJobs : Prop :=
  (∀ (s : State) (e : Nat) (ch : List Byte) (ec : BitVec 8), s.Sound →
    let d := s.dill e
    (∀ j js, d.running = false → d.queue = j :: js → s.dillReady e = true →
      exec (.dillJobStart e) s = .next (s.modDill e fun d => { d with
        running := true, got := 0, wrote := 0, seen := [], block := []
        rv := { d.rv with pc := BitVec.ofNat 32 (4 * bits (s.mrN (offDXRT e (cardRout j.card.toNat))) 13 0) } }))
    ∧ (d.running = true ∨ d.queue = [] ∨ s.dillReady e = false → exec (.dillJobStart e) s = .next s)
    ∧ (d.running = false → exec (.dillJobComplete e ch ec) s = .next s ∧ exec (.routineTimeLimit e ch) s = .next s)
    ∧ (∀ im i v, d.running = true → exec (.dxrtWrite e im i v) s = .next (s.modDill e fun d => { d with held := d.held ++ [(im, i, v)] }))
    ∧ (∀ i v, d.running = false →
        (∃ t, exec (.dxrtWrite e true i v) s = .next t ∧ t = { s with dills := t.dills }
          ∧ (∀ b, b < 4 → bget (t.dill e).imem (4 * (i % 16384) + b) = v.extractLsb' (8 * b) 8)
          ∧ ∀ a, a < 4 * (i % 16384) ∨ 4 * (i % 16384) + 4 ≤ a → bget (t.dill e).imem a = bget d.imem a)
        ∧ (4 ≤ i → i < 64 → e < 34 → ∃ t, exec (.dxrtWrite e false i v) s = .next t ∧ t = { s with mreg := t.mreg }
          ∧ t.mr (offDXRT e i) = v &&& 0x8000FFFFFFFF3FFF ∧ t.mr offMEASSEQ = s.mr offMEASSEQ + 1
          ∧ (let h := shake256 (((List.range 8).flatMap fun j => leBytes (s.mrN (offMEAS 3 j)) 8) ++
                shake256 (leBytes e 4 ++ leBytes i 4 ++ leBytes v.toNat 8))
             ∀ j, j < 8 → t.mr (offMEAS 3 j) = BitVec.ofNat 64 (leVal ((h.drop (8 * j)).take 8)))
          ∧ ∀ o, o ≠ offDXRT e i → o ≠ offMEASSEQ → (∀ j, j < 8 → o ≠ offMEAS 3 j) → t.mr o = s.mr o)
        ∧ (i < 4 → exec (.dxrtWrite e false i v) s = .next s))
    ∧ (∀ j js, d.running = true → d.queue = j :: js → s.jobHeld e j = true → exec (.dillJobComplete e ch ec) s = .next s)
    ∧ ∀ j js, e < 34 → d.running = true → d.queue = j :: js → s.jobHeld e j = false →
      let c := j.card.toNat
      let n := cardSlen c
      let leaves (t : State) : Prop := (t.dill e).queue = js ∧ (t.dill e).running = false ∧ (t.dill e).held = []
        ∧ ∀ i v, (d.held = [(true, i, v)] → ∀ b, b < 4 → bget (t.dill e).imem (4 * (i % 16384) + b) = v.extractLsb' (8 * b) 8)
          ∧ (d.held = [(false, i, v)] → 4 ≤ i → i < 64 → t.mr (offDXRT e i) = v &&& 0x8000FFFFFFFF3FFF)
      let ended (t : State) (code : BitVec 8) (len : Nat) : Prop := leaves t ∧ ∀ g, s.group? j.owner = some g →
        ∃ g', t.group? j.owner = some g' ∧ g'.tickets = g.tickets.map fun x =>
          if x.num = j.ticket then { x with done := true, ecode := code, outlen := BitVec.ofNat 32 len } else x
      (4 ≤ cardRout c → bits (s.mrN (offDXRT e (cardRout c))) 47 32 ≠ 0 →
        ∃ t, exec (.routineTimeLimit e ch) s = .next t ∧ ended t 0x35 d.wrote)
      ∧ (4 ≤ cardRout c → s.routineOver e (cardRout c) = true → d.block = [] → ∃ t, exec (.dillJobComplete e ch ec) s = .next t ∧ ended t 0 d.wrote)
      ∧ (4 ≤ cardRout c → s.routineOver e (cardRout c) = false → exec (.dillJobComplete e ch ec) s = .next s
        ∧ (s.routineNext e (cardRout c) = none → ended (s.routineStep e) 0x35 d.wrote)
        ∧ ∀ x m, s.routineNext e (cardRout c) = some (x, m) → s.routineStep e = s.modDill e fun d => { d with rv := x, stream := m })
      ∧ (d.got = 0 → d.wrote = 0 → d.seen = [] → d.block = [] →
      (cardRout c = 0 → cardDcap c < n → ∃ t, exec (.dillJobComplete e ch ec) s = .next t ∧ ended t 0x33 0)
      ∧ (cardRout c = 0 → c.testBit 8 = false → c.testBit 9 = false → j.transfer = none → 0 < n → n ≤ cardDcap c →
        cardSrc c % 128 + n ≤ 128 → cardDst c % 128 + n ≤ 128 → j.cardAddr.toNat % 64 = 0 →
        ∀ xs xd xc, s.translateAny j.dev (s.secure j.dev) .r (cardSrc c) = .ok xs → xs.tgt = 0 →
          let ks := memKey j.dev xs.ofs
          let kd := memKey j.dev xd.ofs
          let kc := memKey j.dev xc.ofs
          let (bs, r) := (s.jobFill j false false (cardSrc c)).agentRead j.dev j.owner j.launch (.home ks) n { evp := 3 }
          let u := (r.jobFill j true false (cardDst c)).agentWrite j.dev j.job j.owner j.launch (.home kd) bs { evp := 3 }
          s.anyBad ks n = false → r.translateAny j.dev (r.secure j.dev) .w (cardDst c) = .ok xd → xd.tgt = 0 →
          u.translateAny j.dev (u.secure j.dev) .w (j.cardAddr.toNat + 48) = .ok xc → xc.tgt = 0 →
          ∃ t, exec (.dillJobComplete e ch ec) s = .next t ∧ ended t 0 n
            ∧ (∀ i, i < 8 → t.cohByte (kc + i) = ([1, 0, 0, 0] ++ leBytes n 4).getD i 0)
            ∧ (∀ i, i < n → (kd + i < kc ∨ kc + 8 ≤ kd + i) → t.cohByte (kd + i) = bget s.mem (ks + i))
            ∧ ∀ k, (k < kd ∨ kd + n ≤ k) → (k < kc ∨ kc + 8 ≤ k) → t.cohByte k = s.cohByte k)
      ∧ (cardRout c < 4 → j.transfer = none → 0 < n → cardSrc c % 128 + n ≤ 128 → cardSide c % 16 = 0 → j.cardAddr.toNat % 64 = 0 →
        let chk := c.testBit 8
        let gen := c.testBit 9 || decide (cardRout c = 3)
        let maps (need : Need) (va : Nat) (x : Xl) : Prop := x.tgt = 0 ∧ tlbFind (s.die j.dev).tlb j.dev va = some x.leaf ∧ ∀ v : State, v.mreg = s.mreg → v.dies = s.dies → v.devs = s.devs →
          v.translateAny j.dev (v.secure j.dev) need va = .ok x
        ∀ xs xc xe xd, maps .r (cardSrc c) xs → maps .w (j.cardAddr.toNat + 48) xc →
          (chk = true → maps .r (cardSide c) xe) → (gen = true → maps .w (cardSide c) xe) →
        let ks := memKey j.dev xs.ofs
        let kc := memKey j.dev xc.ofs
        let ke := memKey j.dev xe.ofs
        let kd := memKey j.dev xd.ofs
        let r := (s.agentRead j.dev j.owner j.launch (.home ks) n { evp := 3 }).2
        let src := bytesAt s.mem ks n
        let entry := bytesAt r.mem ke 16
        let apart (a m b l : Nat) : Prop := a + m ≤ b ∨ b + l ≤ a
        let matching : Prop := chk = true → leVal ((entry.drop 8).take 4) = n ∧ leVal (entry.take 8) = (crc64 src).toNat
        let wrote (t : State) (k : Nat) (bs : List Byte) : Prop := ∀ i, i < bs.length → t.cohByte (k + i) = bs.getD i 0
        let card (t : State) (ec : BitVec 8) (len : Nat) : Prop := ended t ec len ∧ wrote t kc ([1, ec, 0, 0] ++ leBytes len 4)
        let only (t : State) (ranges : List (Nat × Nat)) : Prop :=
          ∀ k, (k < kc ∨ kc + 8 ≤ k) → (∀ q ∈ ranges, k < q.1 ∨ q.1 + q.2 ≤ k) → t.cohByte k = s.cohByte k
        s.anyBad ks n = false → (chk = true → r.anyBad ke 16 = false) →
        (chk = true → ¬ matching → cardRout c ≠ 2 → (cardRout c = 0 → n ≤ cardDcap c) → ∃ t,
          exec (.dillJobComplete e ch ec) s = .next t ∧ card t 0x34 0 ∧ only t [])
        ∧ (matching → cardRout c = 1 → brsBadHeader src = true → ∃ t,
          exec (.dillJobComplete e ch ec) s = .next t ∧ card t 0x32 0 ∧ only t [])
        ∧ (matching → cardRout c = 1 → brsBadHeader src = false → 8 ≤ n → cardDcap c < brsUlen src → ∃ t,
          exec (.dillJobComplete e ch ec) s = .next t ∧ card t 0x33 0 ∧ only t [])
        ∧ (matching → cardRout c = 3 → apart ke 16 kc 8 → ∃ t, exec (.dillJobComplete e ch ec) s = .next t
          ∧ card t 0 1 ∧ wrote t ke (leBytes (crc64 src).toNat 8 ++ leBytes n 4 ++ leBytes 0 4) ∧ only t [(ke, 16)])
        ∧ ∀ out, matching → maps .w (cardDst c) xd → 0 < out.length → cardDst c % 128 + out.length ≤ 128 →
          out.length ≤ cardDcap c →
          (cardRout c = 0 ∧ out = src ∨ cardRout c = 1 ∧ brsUlen src ≤ cardDcap c ∧ brsExpand src = { out := out } ∨
            cardRout c = 2 ∧ out = brsCompress src) →
          apart kd out.length kc 8 → (gen = true → apart ke 16 kc 8 ∧ apart ke 16 kd out.length) →
          ∃ t, exec (.dillJobComplete e ch ec) s = .next t ∧ card t 0 out.length ∧ wrote t kd out
            ∧ (gen = true → wrote t ke (leBytes (crc64 out).toNat 8 ++ leBytes out.length 4 ++ leBytes 0 4))
            ∧ only t ((kd, out.length) :: if gen then [(ke, 16)] else []))))
  ∧ (∀ src : List Byte, src.length < 2 ^ 32 →
      brsExpand (brsCompress src) = { out := src } ∧ (brsCompress src).length ≤ 8 + src.length + (src.length + 127) / 128)
  ∧ crc64 [0x31, 0x32, 0x33, 0x34, 0x35, 0x36, 0x37, 0x38, 0x39] = 0x995DC9BBDF1939FA

/-! ## Beams -/

/-- The beam pool: BQUOTA reserves entries, BMAKE builds a beam for each lane in the lowest free slots, from a descriptor or from raw
records, BPOP gives the finished slots in order, BFREE frees; BCOV and BFOOT read records and cells, NODEWR writes a node whole, or is
held while the line is another's. A raw record's BREC has its lane in INFO and in LANE (R213, R327, R366, R368, R388, R389, R391, R392,
R397-R399).
The model's part: readings of log entries 6 and 53. -/
def Obligations.BeamPool : Prop :=
  ∀ (f : Fields) (s : State), s.Sound →
    let me := s.myTeam
    let bpool : FRec := { cause := 0x38, info := BitVec.ofNat 32 me.quota }
    let seen (k n : Nat) := leVal ((List.range n).map fun i => s.see s.g.die s.g.core (k + i))
    let lanes := laneList (s.g.lanes f)
    let key (a : LaneAcc) := memKey s.g.die a.x.ofs
    let on (i : Instr) (m : Team) : Prop := exec i s = .next (s.modMyTeam fun _ => m).advance
    let traps (i : Instr) (r : FRec) : Prop := exec i s = .next (s.takeTrap r)
    let read (t : State) : State := { s with cores := t.cores, mem := t.mem, cache := t.cache, side := t.side, dies := t.dies, teams := t.teams }
    let held (i : Instr) : Prop := exec i s = .next { s with g := { s.g with wait := .held 0 s.now } }
    (Executes .c false (dab f) f s →
      let q := (s.va f).toNat
      (1024 < q → traps (.bquota f) bpool)
      ∧ (q ≤ 1024 → me.trav = none → (∃ p ∈ me.pool, q ≤ p.1) → traps (.bquota f) bpool)
      ∧ (q ≤ 1024 → me.trav ≠ none → s.g.wait = .run → held (.bquota f))
      ∧ (q ≤ 1024 → me.trav = none → (∀ p ∈ me.pool, p.1 < q) → (q ≤ me.quota ∨ q ≤ s.poolRoom) → on (.bquota f) { me with quota := q })
      ∧ (q ≤ 1024 → me.trav = none → (∀ p ∈ me.pool, p.1 < q) → me.quota < q → s.poolRoom < q → s.g.wait = .run → held (.bquota f))
      ∧ (∀ k ks r, me.doneOrder = k :: ks → kget me.pool k = some r → exec (.bpop f) s = .next
          ((s.modMyTeam fun _ => { me with doneOrder := ks, pool := kset me.pool k (setState r 3) }).putD f (BitVec.ofNat 64 k)).advance)
      ∧ (me.doneOrder = [] → me.trav ≠ none → s.g.wait = .run →
          exec (.bpop f) s = .next { s with g := { s.g with wait := .blocked .bpop 0 0 s.now } })
      ∧ (me.doneOrder = [] → me.trav = none → exec (.bpop f) s = .next (s.putD f (BitVec.allOnes 64)).acquireG.advance)
      ∧ (kget me.pool q = none → traps (.bfree f) bpool)
      ∧ (∀ r, kget me.pool q = some r →
          (bits r.toNat 1963 1962 = 1 ∨ me.quota ≤ q → traps (.bfree f) bpool)
          ∧ (bits r.toNat 1963 1962 ≠ 1 → q < me.quota →
            on (.bfree f) { me with pool := kdel me.pool q, doneOrder := me.doneOrder.filter fun j => decide (j ≠ q) }))
      ∧ on (.bfreeAll f) { me with pool := me.pool.filter fun p => decide (bits p.2.toNat 1963 1962 = 1), doneOrder := [] })
    ∧ (let shared (i : Instr) (made : Prop) : Prop :=
        (me.quota < lanes.length → traps i bpool)
        ∧ (lanes.length ≤ me.quota → me.freeSlots < lanes.length → s.g.wait = .run → held i)
        ∧ (lanes.length ≤ me.quota → lanes.length ≤ me.freeSlots → f.d.isView = true → (s.team? s.g.gang s.g.team).isSome = true → made)
      let makes (i : Instr) (beam : Nat → Option Beam) : Prop := ∃ (t : State) (slot : Nat → Nat), exec i s = .next t
        ∧ TakesLanes f 32 slot (read t) t ∧ (∀ k, t.cohByte k = s.cohByte k)
        ∧ (∀ l ∈ lanes, beam l = none → slot l = 0xFFFFFFFF)
        ∧ (∀ l ∈ lanes, ∀ b, beam l = some b → slot l < me.quota ∧ kget me.pool (slot l) = none
          ∧ kget t.myTeam.pool (slot l) = some (b.record 0)
          ∧ ∀ j, j < slot l → kget me.pool j ≠ none ∨ ∃ l' ∈ lanes, l' < l ∧ beam l' ≠ none ∧ slot l' = j)
        ∧ ∀ k r, kget me.pool k = some r → kget t.myTeam.pool k = some r
      (Executes .m false (fun _ => [⟨0, f.d, 256⟩, ⟨1, f.a, 768⟩, ⟨2, f.b, 8⟩]) f s → shared (.bmake f)
        (∀ x, s.checkElem .r 0 64 0 (s.vb f).toNat = .ok x → x.tgt = 0 → s.anyBad (memKey s.g.die x.ofs) 64 = false →
          s.loadHeld 64 ⟨0, (s.vb f).toNat, x⟩ = false →
          let d := seen (memKey s.g.die x.ofs) 64
          let near := recWord d 13
          let word (l j : Nat) := rdBits s.g.regs (s.g.base f.a + 256 * j) (32 * l) 32
          let fits : Prop := bits d 511 449 = 0 ∧ fin32 near = true ∧ 0 < (f32q near).num
          (¬fits → traps (.bmake f) { cause := 0x39 })
          ∧ (fits → makes (.bmake f) fun l =>
              makeBeam ((List.range (if bit d 448 then 4 else 3)).map fun i => recWords d (3 * i) 3) near [word l 0, word l 1, word l 2]
                ((recWord d 12 + l) % 2 ^ 32) (s.g.ident l).toNat)))
      ∧ (Executes .m false (fun _ => [⟨0, f.d, 256⟩, ⟨2, f.b, 8⟩]) f s → shared (.bmakeRaw f)
        (∀ xs, s.checkLanes .r 0 256 (fun l => (s.vb f).toNat + 256 * l) lanes = .ok xs → (∀ a ∈ xs, a.x.tgt = 0) →
          s.firstPoison .r 256 xs = none → xs.any (s.loadHeld 256) = false →
          let beam (a : LaneAcc) : Beam := (Beam.ofRecord (seen (key a) 256)).withOmega
          let bad (a : LaneAcc) : Prop := rawBad (seen (key a) 256) = true ∨ (f32q (beam a).om).isZero = true
          (∀ before a after, xs = before ++ a :: after → (∀ b ∈ before, ¬bad b) → bad a →
            traps (.bmakeRaw f) { cause := 0x39, info := BitVec.ofNat 32 a.lane, lane := BitVec.ofNat 6 a.lane })
          ∧ ((∀ a ∈ xs, ¬bad a) → makes (.bmakeRaw f) fun l => (xs.find? fun a => decide (a.lane = l)).map beam))))
    ∧ (Executes .m false (vrefs f 32 8 32) f s → f.d.isView = true →
      let slot (l : Nat) := s.g.elem f.imm f.b 32 l
      (∀ before l after, lanes = before ++ l :: after → (∀ m ∈ before, slot m < me.quota) → me.quota ≤ slot l →
        traps (.bcov f) { bpool with lane := BitVec.ofNat 6 l })
      ∧ ((∀ l ∈ lanes, slot l < me.quota) → ∃ t, exec (.bcov f) s = .next t
        ∧ TakesLanes f 32 (fun l => ((me.shown (slot l)).map fun r => recWord r.toNat (f.immN % 64)).getD 0) s t)
      ∧ ∀ xs, s.checkLanes .r 1 8 (fun l => (s.va f).toNat + 8 * (slot l : Nat)) lanes = .ok xs → (∀ a ∈ xs, a.x.tgt = 0) →
        s.firstPoison .r 8 xs = none → xs.any (s.loadHeld 8) = false → ∃ t, exec (.bcovCell f) s = .next t ∧ (∀ k, t.cohByte k = s.cohByte k)
          ∧ TakesLanes f 32 (fun l => ((xs.find? fun a => decide (a.lane = l)).map fun a =>
              fp32.rne (FV.ofQ false ⟨seen (key a) 8, 2 ^ 48⟩)).getD 0) (read t) t)
    ∧ (Executes .m false (vrefs f 32 32 32) f s → f.d.isView = true → ∃ t, exec (.bfoot f) s = .next t
        ∧ TakesLanes f 32 (fun l =>
            let slot := s.g.elem f.imm f.a 32 l
            footValue (if slot < me.quota then me.shown slot else none) (s.g.elem f.imm f.b 32 l)) s t)
    ∧ (Executes .c false (fun _ => [⟨1, f.a, 8⟩, ⟨2, f.b, 64⟩]) f s → ∀ x, s.checkElem .w 0 64 0 (s.va f).toNat = .ok x → x.tgt = 0 →
        (s.leaseBusy 64 ⟨0, (s.va f).toNat, x⟩ = true → ∃ t, exec (.nodewr f) s = .next t ∧ t.g.pc = s.g.pc ∧ t.g.regs = s.g.regs
          ∧ t.g.isHeld = true ∧ ∀ k, t.cohByte k = s.cohByte k)
        ∧ (s.leaseBusy 64 ⟨0, (s.va f).toNat, x⟩ = false →
          let k := memKey s.g.die x.ofs
          ∃ t, exec (.nodewr f) s = .next t ∧ t.g = { s.g with pc := s.g.pc + 12, wait := .run } ∧ t.rest = s.rest
            ∧ (∀ i, i < 64 → t.cohByte (k + i) = bget s.g.regs (s.g.base f.b + i)) ∧ ∀ j, j < k ∨ k + 64 ≤ j → t.cohByte j = s.cohByte j))

/-- BTRAV takes the team's live beams and RAYTRAV a range of rays under a checked descriptor; both are held while an earlier one of the
team runs or a world change is pending at its engine; RAYMK claims places in the ray pool and
writes a record for each lane. A beam that ends clear covers its tag's cell, or is done, or is reflected; one that meets a leaf makes
room for its pieces, which stand first in the list; a piece without a slot becomes rays, or is counted as lost; a ray's result goes to its
record, and a clear one's weight to its cell; a traversal ends at its last beam or ray, or at a
fault (R371-R373, R375-R378, R380, R390, R395, R396, R457).
The model's part: readings of log entries 6, 51, 52 and 56; a pending record's THIT, a lost ray's THIT, a RAYMK of no lanes and a torn node are
log entry 53's. -/
def Obligations.Traversals : Prop :=
  (∀ (f : Fields) (s : State), s.Sound →
    let me := s.myTeam
    let lanes := laneList (s.g.lanes f)
    let on := { s.g with pc := s.g.pc + 12, wait := .run }
    let same (t : State) : Prop := t.g = on ∧ t.rest = s.rest ∧ ∀ k, t.cohByte k = s.cohByte k
    let desc (v : State) (va : Nat) (i : Instr) (then_ : Nat → State → Prop) : Prop :=
      (va % 64 ≠ 0 → exec i s = .next (v.takeTrap { cause := 0x39 }))
      ∧ ∀ x, va % 64 = 0 → v.checkElem .r 0 64 0 va = .ok x → x.tgt = 0 → v.anyBad (memKey s.g.die x.ofs) 64 = false →
        v.loadHeld 64 ⟨0, va, x⟩ = false →
        let d := leVal ((List.range 64).map fun i => v.see s.g.die s.g.core (memKey s.g.die x.ofs + i))
        (dscBad d = true → exec i s = .next (v.takeTrap { cause := 0x39 }))
        ∧ (dscBad d = false → then_ d (v.loadTouch ownHint 64 ⟨0, va, x⟩))
    let starts (v : Trav) (d : Nat) : Prop := v.desc.toNat = d ∧ v.owner = s.g.uid ∧ v.launch = s.g.launch ∧ v.id = s.fresh
      ∧ v.ck.toNat = f.immN / 16 % 4 ∧ v.bar = f.immN % 16 ∧ v.tag.toNat = f.immN / 256 % 256 ∧ v.lost = 0 ∧ v.request = none
    (Executes .c false (dab f) f s → s.g.wait = .run →
      let held : State := { s with g := { s.g with wait := .held 0 s.now } }
      let waits (earlier : Option Trav) : Prop := earlier ≠ none ∨ s.beamPending = true ∨ s.evqRoom (f.immN / 16 % 4) = false
      (waits me.trav → exec (.btrav f) s = .next held) ∧ (waits me.rtrav → exec (.raytrav f) s = .next held))
    ∧ (Executes .c false (dab f) f s → s.evqRoom (f.immN / 16 % 4) = true → s.beamPending = false → s.storesOut s.g.uid = false →
      (s.team? s.g.gang s.g.team).isSome = true →
      let u := s.flushCore s.g.die s.g.core
      (me.trav = none → desc u (s.va f).toNat (.btrav f) fun d _ => ∃ t v, exec (.btrav f) s = .next t ∧ same t ∧ starts v d
        ∧ (let live := (me.pool.filter fun p => decide (bits p.2.toNat 1963 1962 = 0)).map (·.1)
          v.work = live ∧ t.myTeam = { me with
            trav := some v, pool := me.pool.map fun p => if live.contains p.1 then (p.1, setState p.2 1) else p }))
      ∧ (me.rtrav = none → desc u (s.va f).toNat (.raytrav f) fun d r =>
        let lo := (s.vb f).toNat % 2 ^ 32
        let n := (s.vb f).toNat / 2 ^ 32
        (dscRpc d < lo + n → exec (.raytrav f) s = .next (r.takeTrap { cause := 0x3B, info := BitVec.ofNat 32 n }))
        ∧ (lo + n ≤ dscRpc d → ∃ t v, exec (.raytrav f) s = .next t ∧ same t ∧ starts v d ∧ v.ray = lo ∧ v.rayEnd = lo + n
          ∧ t.myTeam = { me with rtrav := some v })))
    ∧ (Executes .m false (fun _ => [⟨0, f.d, 256⟩, ⟨1, f.a, 2048⟩, ⟨2, f.b, 8⟩]) f s → f.d.isView = true →
        desc s (s.vb f).toNat (.raymk f) fun d r =>
        let n := lanes.length
        let place (l : Nat) := (lanes.filter fun k => decide (k < l)).length
        let word (l j : Nat) := rdBits s.g.regs (s.g.base f.a + 256 * j) (32 * l) 32
        (lanes = [] → ∃ t, exec (.raymk f) s = .next t ∧ same t)
        ∧ (lanes ≠ [] → ∀ x, r.checkElem .rw 1 8 0 (dscRhead d) = .ok x → x.tgt = 0 → r.anyBad (memKey s.g.die x.ofs) 8 = false →
            r.leaseBusy 8 ⟨lanes.headD 0, dscRhead d, x⟩ = false →
          let kh := memKey s.g.die x.ofs
          let old := leVal ((List.range 8).map fun i => s.cohByte (kh + i))
          (dscRpc d < old + n → exec (.raymk f) s = .next (r.takeTrap { cause := 0x3B, info := BitVec.ofNat 32 n }))
          ∧ (old + n ≤ dscRpc d → ∀ xs, r.checkLanes .w 1 64 (fun l => dscRpb d + 64 * (old + place l : Nat)) lanes = .ok xs →
              (∀ a ∈ xs, a.x.tgt = 0 ∧ r.leaseBusy 64 a = false) →
            let key (a : LaneAcc) := memKey s.g.die a.x.ofs
            ∃ t, exec (.raymk f) s = .next t
              ∧ TakesLanes f 32 (fun l => old + place l) { s with
                  cores := t.cores, mem := t.mem, cache := t.cache, side := t.side, poison := t.poison, dies := t.dies, free := s.free + 64 } t
              ∧ (∀ a ∈ xs, ∀ i, i < 64 → (∀ b ∈ xs, a.lane < b.lane → key a + i < key b ∨ key b + 64 ≤ key a + i) →
                  t.cohByte (key a + i) = (rayRecord [word a.lane 0, word a.lane 1, word a.lane 2] [word a.lane 3, word a.lane 4,
                    word a.lane 5] (word a.lane 6) (word a.lane 7) ((f.immN + a.lane) % 2 ^ 32) 0xFFFFFFFF 0
                    ((Config.freeValue (s.free + a.lane)).toNat % 2 ^ 32) 0xFFFFFFFF (s.g.ident a.lane).toNat).getD i 0)
              ∧ ∀ k, (∀ a ∈ xs, k < key a ∨ key a + 64 ≤ k) → t.cohByte k =
                  if kh ≤ k ∧ k < kh + 8 then BitVec.ofNat 8 ((old + n) / 256 ^ (k - kh)) else s.cohByte k))))
  ∧ (∀ (s : State) (gang team slot : Nat) (v : Trav) (ws : List Nat) (r : BitVec 2048), s.Sound → s.trav? gang team false = some v →
    s.travRuns gang team v = true → v.work = slot :: ws → kget (s.team gang team).pool slot = some r → v.request = none →
    let at_ := s.siteOf gang team
    let b := Beam.ofRecord r.toNat
    let pool (t : State) := (t.team gang team).pool
    let left (t : State) (work : List Nat) : Prop := ∃ x, t.trav? gang team false = some x ∧ x.work = work
    let ends (p : State → Prop) : Prop := ∃ t, exec (.beamEndsClear gang team) s = .next t ∧ p t
    let finished (b : Beam) (t : State) : Prop := left t ws ∧ kget (pool t) slot = some (b.record 2)
      ∧ (t.team gang team).doneOrder = (s.team gang team).doneOrder ++ [slot]
    (∀ u v', walkBeam at_ b s v = .clear u v' →
      (b.rcv = true ∨ b.mdep = true → ends (finished b))
      ∧ (b.rcv = false → b.mdep = false → b.mirr = true → (b.depth = 7 → ends (finished { b with mdep := true }))
        ∧ (b.depth ≠ 7 → ends fun t => left t (slot :: ws) ∧ kget (pool t) slot = some ((reflect b (dscMfar v.desc.toNat)).record 1)))
      ∧ (b.rcv = false → b.mdep = false → b.mirr = false →
        ∀ k, u.beamPlace at_.die at_.core .rw (dscCovb v.desc.toNat + 8 * b.tag : Nat) 8 = .home k → k % 8 = 0 → u.lineTaken (lineOf k) = false →
          u.beamLost at_.die k = false →
          let sum := (leVal ((List.range 8).map fun i => s.cohByte (k + i)) : Int) + coverOf b.w
          ends fun t => left t ws ∧ kget (pool t) slot = none ∧ ∀ j, t.cohByte j =
            if k ≤ j ∧ j < k + 8 then BitVec.ofNat 8 ((sum % 2 ^ 64).toNat / 256 ^ (j - k)) else s.cohByte j))
    ∧ ∀ u v' m, walkBeam at_ b s v = .hit u v' m →
      let ps := pieces b m false
      ((∀ p ∈ ps, p.planes.length ≤ 12) → ps.length + (kdel (s.team gang team).pool slot).length ≤ (s.team gang team).quota →
        ∃ t ks, exec (.beamSplit gang team) s = .next t ∧ left t (ks ++ ws) ∧ ks.length = ps.length
          ∧ ∀ i, i < ps.length → kget (pool t) (ks.getD i 0) = (ps[i]?).map (·.record 1))
      ∧ ∀ p, ps = [p] → 12 < p.planes.length →
        let v1 := { v' with work := ws, taken := kdel v'.taken slot }
        let u1 := u.modTeam gang team fun x => x.drop slot
        let d := v.desc.toNat
        let pts := match strataOf p.far ((p.exact.getD 1 ⟨⟨.zero, .zero, .zero⟩, .zero⟩).n) with
          | [] => [meanOf p.far]
          | ps => ps
        let w := fp32.rne (FV.ofQ false ((f32q p.w).div ⟨(pts.length : Nat), 1⟩))
        ∀ kh, u1.beamPlace at_.die at_.core .rw (dscRhead d) 8 = .home kh → kh % 8 = 0 → u1.lineTaken (lineOf kh) = false →
          u1.beamLost at_.die kh = false →
          let old := leVal ((List.range 8).map fun i => s.cohByte (kh + i))
          let splits (q : State → Trav → Prop) : Prop := ∃ t x, exec (.beamSplit gang team) s = .next t
            ∧ t.trav? gang team false = some x ∧ x.work = ws ∧ kget (pool t) slot = none ∧ q t x
          (dscRpc d < old + pts.length → splits fun t x => x.lost = v.lost + 1 ∧ ∀ j, t.cohByte j = s.cohByte j)
          ∧ (old + pts.length ≤ dscRpc d →
            let u2 := (u1.revoke (lineOf kh) (BitVec.allOnes 32) none).beamTouch at_.die at_.core .rw v.launch (dscRhead d) kh
            ∀ ls u4 v4, leavesFrom at_ 64 0 [] (u2.homeWrite kh (leBytes (old + pts.length) 8)) v1 = .ok (ls, u4, v4) →
            let flags := (if p.mirr then 4 else 0) + (if p.rcv then 8 else 0)
            let dir (i : Nat) := roundVec ((pts.getD i (vecOf p.o)).sub (vecOf p.o))
            let traced (i : Nat) := traceRay v.desc ls p.o (dir i) 0x3F800000 w p.hit
            let ray (i : Nat) := rayRecord p.o (dir i) 0x3F800000 w p.tag p.hit ((traced i).1 + flags) (traced i).2.1 (traced i).2.2 p.pay
            (∀ i, i < pts.length → (traced i).1 ≠ 1 ∨ flags ≠ 0) →
            ∀ (us : Nat → State) (kr : Nat → Nat), us 0 = u4 → (∀ i, i < pts.length →
                (us i).beamPlace at_.die at_.core .w (dscRpb d + 64 * (old + i) : Nat) 64 = .home (kr i)
                ∧ (linesOf (kr i) 64).any (us i).lineTaken = false ∧ (us i).beamLost at_.die (kr i) = false
                ∧ us (i + 1) = ((us i).homeWrite (kr i) (ray i)).beamTouch at_.die at_.core .w v.launch (dscRpb d + 64 * (old + i)) (kr i)) →
              (∀ i j, i < j → j < pts.length → kr i + 64 ≤ kr j ∨ kr j + 64 ≤ kr i) →
              splits fun t x => x.lost = v.lost
                ∧ (∀ i j, i < pts.length → j < 64 → t.cohByte (kr i + j) = (ray i).getD j 0)
                ∧ ∀ j, (∀ i, i < pts.length → j < kr i ∨ kr i + 64 ≤ j) → t.cohByte j =
                    if kh ≤ j ∧ j < kh + 8 then BitVec.ofNat 8 ((old + pts.length) / 256 ^ (j - kh)) else s.cohByte j))
  ∧ (∀ (s : State) (gang team : Nat) (v : Trav), s.Sound → s.trav? gang team true = some v → s.travRuns gang team v = true → v.ray < v.rayEnd →
    let at_ := s.siteOf gang team
    let va := dscRpb v.desc.toNat + 64 * v.ray
    let v1 := { v with ray := v.ray + 1 }
    ∀ k, s.beamPlace at_.die at_.core .rw va 64 = .home k → s.beamLost at_.die k = false → s.readHeld at_.die (lineOf k) = false →
      let r := rdLE s.mem k 64
      let u := s.beamTouch at_.die at_.core .rw v.launch va k
      let traced (p : State → Prop) : Prop := ∃ t x, exec (.rayTrace gang team) s = .next t ∧ t.trav? gang team true = some x
        ∧ x.ray = v.ray + 1 ∧ p t
      (recWord r 10 % 4 ≠ 0 → traced fun t => ∀ j, t.cohByte j = s.cohByte j)
      ∧ (recWord r 10 % 4 = 0 → ∀ ls u2 v2, (if dscNn v.desc.toNat = 0 then ls = [] ∧ u2 = u ∧ v2 = v1
            else leavesFrom at_ 64 0 [] u v1 = .ok (ls, u2, v2)) →
          ∀ st th prim k2, traceRay v.desc ls (recWords r 0 3) (recWords r 3 3) (recWord r 6) (recWord r 7) (recWord r 9) = (st, th, prim) →
            u2.beamPlace at_.die at_.core .w (va + 40) 12 = .home k2 → (linesOf k2 12).any u2.lineTaken = false → u2.beamLost at_.die k2 = false →
            let result := leBytes (st + 4 * (recWord r 10 / 4)) 4 ++ leBytes th 4 ++ leBytes prim 4
            let u3 := (u2.homeWrite k2 result).beamTouch at_.die at_.core .w v.launch (va + 40) k2
            ((st ≠ 1 ∨ bits (recWord r 10) 3 2 ≠ 0) →
              traced fun t => ∀ j, t.cohByte j = if k2 ≤ j ∧ j < k2 + 12 then result.getD (j - k2) 0 else s.cohByte j)
            ∧ (st = 1 → bits (recWord r 10) 3 2 = 0 → v.request = none →
              ∀ k3, u3.beamPlace at_.die at_.core .rw (dscCovb v.desc.toNat + 8 * recWord r 8 : Nat) 8 = .home k3 → k3 % 8 = 0 →
                u3.lineTaken (lineOf k3) = false → u3.beamLost at_.die k3 = false → k3 + 8 ≤ k2 ∨ k2 + 12 ≤ k3 →
                let sum := (leVal ((List.range 8).map fun i => s.cohByte (k3 + i)) : Int) + coverOf (recWord r 7)
                traced fun t => ∀ j, t.cohByte j =
                  if k2 ≤ j ∧ j < k2 + 12 then result.getD (j - k2) 0
                  else if k3 ≤ j ∧ j < k3 + 8 then BitVec.ofNat 8 ((sum % 2 ^ 64).toNat / 256 ^ (j - k3)) else s.cohByte j)))
  ∧ ∀ (s : State) (gang team : Nat) (ray : Bool) (v : Trav), s.Sound → s.trav? gang team ray = some v →
    (s.standing gang = true → (if ray then v.rayEnd ≤ v.ray else v.work = []) → ∃ t, exec (.traversalComplete gang team ray) s = .next t
      ∧ t.trav? gang team ray = none ∧ (v.request = none → v.lost = 0 → v.ck = 2 → ∀ g, s.group? v.owner = some g →
          ∃ g', t.group? v.owner = some g' ∧ g'.evq = g.evq ++ [1#1 ++ 0#15 ++ 0#32 ++ 0#7 ++ BitVec.ofBool v.bnode ++ v.tag]))
    ∧ ((if ray then v.ray < v.rayEnd else v.work ≠ []) → exec (.traversalComplete gang team ray) s = .next s)
    ∧ ∀ u v' p va, s.nextStep gang team ray v = .split (.fault u v' p va) ∨ s.nextStep gang team ray v = .clear (.fault u v' p va)
        ∨ s.nextStep gang team ray v = .ray (.fault u v' p va) → ∃ t, exec (.traversalFault gang team ray) s = .next t
      ∧ t.trav? gang team ray = none ∧ ∀ l, s.launch? v.launch = some l → ∃ l', t.launch? v.launch = some l' ∧ l'.failed = true

/-- BEMIT checks its record's registers, releases and sends the record into the render graph, or is held while the die's record store is
full; a fixed-function node's record has 64 bytes, whose rest a smaller RSZ leaves free; BRECV reads a regrouped task's records. A shader node's records become one task, the
rasteriser sends a triangle's blocks on, the binner holds a window of one state and replays it tile by tile as one flush, the blender blends
a pixel in its turn, and a beam request starts a traversal (R39-R41, R65, R383-R386, R393, R394).
The model's part: readings of log entries 53, 54 and 55, and a fixed-function node whose RSZ is not 3 (log entry 65). -/
def Obligations.RenderGraph : Prop :=
  (∀ (f : Fields) (s : State), s.Sound →
    (Executes .c false (fun _ => []) f s → ∀ r, s.g.regbound [⟨1, f.a, s.emitBytes f⟩] = some r →
      exec (.bemit f) s = .next (s.takeTrap r))
    ∧ (Executes .c false (fun _ => [⟨1, f.a, s.emitBytes f⟩]) f s → s.storesOut s.g.uid = false → (s.die s.g.die).dead = false →
      let u := s.flushCore s.g.die s.g.core
      let node := f.immN % 256
      let n := u.graphNode s.g.die node
      let size := match n with | some n => 16 * (n.rsz + 1) | none => 16
      (∀ r, s.g.regbound [⟨1, f.a, size⟩] = some r → exec (.bemit f) s = .next (u.takeTrap r))
      ∧ (s.g.regbound [⟨1, f.a, size⟩] = none →
        let data : BitVec 512 := BitVec.ofNat 512 (leVal (bytesAt s.g.regs (s.g.base f.a) size))
        let bad : Prop := exec (.bemit f) s = .next (u.takeTrap { cause := 0x3C, info := BitVec.ofNat 32 node })
        let sends (d : BitVec 512) (dies : List Nat) : Prop := ∃ t new, exec (.bemit f) s = .next t ∧ t.fab.graph = s.fab.graph ++ new
          ∧ new.map (·.die) = dies ∧ (∀ r ∈ new, r.node = node ∧ r.fromDie = s.g.die ∧ r.data = d ∧ r.launch = s.g.launch
            ∧ r.flush = s.g.flushOf d.toNat ∧ r.job = s.g.job ∧ r.remote = decide (r.die ≠ s.g.die))
          ∧ t.g = { s.g with pc := s.g.pc + 12, wait := .run } ∧ t.rest = s.rest ∧ ∀ k, t.cohByte k = s.cohByte k
        (n = none → bad)
        ∧ ∀ m, n = some m → ∃ x : BitVec 512, (m.kind = 0 ∨ m.rsz = 3 → x = data)
          ∧ x.toNat % 2 ^ (8 * size) = data.toNat % 2 ^ (8 * size)
          ∧ (u.gnodeBad m x.toNat = false → u.recordsFull s.g.die = true → s.g.wait = .run →
            exec (.bemit f) s = .next { u with g := { s.g with wait := .held 0 s.now } })
          ∧ (m.kind ≠ 2 → u.recordsFull s.g.die = false → sends x [s.g.die])
          ∧ (m.kind = 2 → ((∃ d ∈ binDies x.toNat, d ≠ s.g.die ∧ s.holdsHandle s.g.die d = false) → bad)
            ∧ ((∀ d ∈ binDies x.toNat, (d = s.g.die ∨ s.holdsHandle s.g.die d = true) ∧ (s.die d).dead = false) →
                u.recordsFull s.g.die = false → sends x (binDies x.toNat)))))
    ∧ (Executes .c false (fun _ => [⟨0, f.d, 256⟩]) f s → f.d.isView = true →
      (s.g.batch = none → exec (.brecv f) s = .next (s.takeTrap { cause := 0x39 }))
      ∧ ∀ size recs, s.g.batch = some (size, recs) → ∃ t, exec (.brecv f) s = .next t
        ∧ t = { s with g := { s.g with pc := s.g.pc + 12, wait := .run, regs := t.g.regs } }
        ∧ (∀ l, l < 64 → t.g.elem f.imm f.d 32 l = if (s.g.mask 0).getLsbD l = false then s.g.elem f.imm f.d 32 l
            else if 4 * (f.immN % 16) < size then recWord (recs.getD l (0, 0)).2.toNat (f.immN % 16) else 0)
        ∧ ∀ b, b < s.g.base f.d ∨ s.g.base f.d + 256 ≤ b → bget t.g.regs b = bget s.g.regs b))
  ∧ ∀ (s : State), s.Sound →
    (∀ die node count n r0 rs ty, s.graphNode die node = some n → n.kind = 0 → (s.atNode die node).take count = r0 :: rs →
      0 < count → count ≤ 64 → rs.length + 1 = count → (∀ r ∈ rs, r.launch = r0.launch) → s.dieReady die = true → s.lovageFull die = false →
      s.typeEntry die n.type = some ty → ty.valid = true → ∃ t k, exec (.regrouping die node count) s = .next t
        ∧ t.task? s.fresh = some k ∧ k.batch = some (16 * (n.rsz + 1), (r0 :: rs).map fun r => (r.flush, r.data)) ∧ k.ttype = ty.single ∧ k.life = .ready
        ∧ k.launch = r0.launch ∧ k.die = die ∧ k.arg = n.arg
        ∧ t.fab.graph = s.fab.graph.filter fun r => !((r0 :: rs).map (·.id)).contains r.id)
    ∧ (∀ id r n q, s.nodeRec id 1 = some (r, n) → s.graphNode r.die n.next = some q → q.kind ≠ 2 → (s.die r.die).dead = false → ∃ t new,
        exec (.rasteriser id) s = .next t ∧ t.fab.graph = (s.fab.graph.filter fun x => decide (x.id ≠ id)) ++ new
        ∧ (q.kind = 0 ∨ q.rsz = 3 → new.map (·.data) = blocksOf r.data.toNat)
        ∧ new.map (fun x => x.data.toNat % 2 ^ (8 * q.size)) = (blocksOf r.data.toNat).map (fun x => x.toNat % 2 ^ (8 * q.size))
        ∧ ∀ x ∈ new, x.die = r.die ∧ x.node = n.next ∧ x.launch = r.launch ∧ x.job = r.job ∧ x.flush / 2 = r.flush / 2
          ∧ (x.flush = 0 ↔ r.flush = 0))
    ∧ (∀ id r n, s.nodeRec id 2 = some (r, n) →
        let w := (s.die r.die).binner
        let prim := recWord r.data.toNat 9
        (prim = 0xFFFFFFFF → (∀ e ∈ w, ∃ p q, s.graphNode r.die e.2.2.1 = some p ∧ s.graphNode r.die p.next = some q ∧ q.kind ≠ 2
            ∧ (q.kind = 0 ∨ q.rsz = 3)) →
          ∃ t new, exec (.binnerRecord id) s = .next t ∧ (t.die r.die).binner = []
            ∧ t.fab.graph = (s.fab.graph.filter fun x => decide (x.id ≠ id)) ++ new ∧ (∀ x ∈ new, x.flush = 2 * s.fresh ∧ x.die = r.die)
            ∧ new.map (·.data) = (tilesOn r.die (w.map fun e => e.2.1.toNat)).flatMap fun b =>
                (w.filter fun e => overTile e.2.1.toNat b.1 b.2).map (·.2.1))
        ∧ (prim ≠ 0xFFFFFFFF → w.length < 4095 → (∀ e, w.getLast? = some e → recWord e.2.1.toNat 10 = recWord r.data.toNat 10) →
          ∃ t, exec (.binnerRecord id) s = .next t ∧ (t.die r.die).binner = w ++ [(r.launch, r.data, r.node, r.job)]
            ∧ t.fab.graph = s.fab.graph.filter fun x => decide (x.id ≠ id)))
    ∧ (∀ id r n, (s.fab.graph.find? fun r => decide (r.id = id)) = some r → s.graphNode r.die r.node = some n → n.kind = 4 →
        s.blendTurn r = true → s.blendLeased r.die r.data.toNat = false →
        let d := r.data.toNat
        ∀ i ks, i < 64 → blkMask d = 2 ^ i → blkOp d ≤ 2 → blkBase d ≠ 0 →
          s.pixelPlace r.die (blkBase d + (8 * (recWord d 0 / 2 ^ 16) + i / 8) * blkPitch d + 16 * (8 * (recWord d 0 % 2 ^ 16) + i % 8))
            = .ok ks → ks.Nodup →
          let dst := recWords (leVal (ks.map s.cohByte)) 0 4
          let out := (blend (blkOp d) (recWords d 6 4) dst).flatMap fun w => leBytes w 4
          ∃ t, exec (.blender id) s = .next t ∧ (∀ j, j < 16 → t.cohByte (ks.getD j 0) = out.getD j 0)
            ∧ (∀ k, k ∉ ks → t.cohByte k = s.cohByte k) ∧ t.fab.graph = s.fab.graph.filter fun x => decide (x.id ≠ id))
    ∧ ∀ id r n dsc, s.nodeRec id 3 = some (r, n) → s.nodeDesc r.die n = some dsc → s.team? 0 r.die = none →
        let core := (Config.freeValue s.free).toNat % 40
        let d := r.data.toNat
        s.unreserved r.die core (teamKey 0 r.die) ≠ 0 → s.worldPending (42 + 10 * r.die + core / 4) = false → fin32 (dscNear dsc) = true → 0 < (f32q (dscNear dsc)).num →
        ∀ b, makeBeam (reqVerts d) (dscNear dsc) (recWords d 0 3) (recWord d 15) 0 = some b → ∃ t m v,
          exec (.beamRequest id) s = .next t ∧ t.team? 0 r.die = some m ∧ m.die = r.die ∧ m.core = core ∧ m.pool = [(0, b.record 1)]
          ∧ m.trav = some v ∧ v.work = [0] ∧ v.desc = BitVec.ofNat 512 dsc ∧ v.launch = r.launch
          ∧ v.request = some (r.node, BitVec.ofNat 32 (recWord d 15))
          ∧ t.fab.graph = s.fab.graph.filter fun x => decide (x.id ≠ id)

/-! ## Messages and the fabric -/

/-- MSEND checks its target word and sends a 64-byte message, or is held while 16 of its core await injection; a message arrives at its
target's die or is dropped, and is delivered to a group of a core that is not halted, which waits: its handler runs with the message in its view and the return address in s63. WAITQ takes a pending message, or
asks for a wave and waits, until its job is quiet; MRET leaves the handler; QUIETST reads the status word; a lost packet is counted (R78, R339,
R407-R411, R417-R421).
The model's part: counting and waves are the model's (log entry 39), and MRET reports a bad target before a missing handler (log entry 64). -/
def Obligations.Messages : Prop :=
  (∀ (f : Fields) (s : State), s.Sound →
    let on := { s.g with pc := s.g.pc + 12, wait := .run }
    let u := s.flushCore s.g.die s.g.core
    let counts (t : State) (d j : Nat) := (kget t.hub.counts (64 * d + j)).getD {}
    let same (t : State) : Prop := t.rest = s.rest ∧ ∀ k, t.cohByte k = s.cohByte k
    let job := s.g.handler.getD s.g.job
    (Executes .c false (fun _ => [⟨1, f.a, 8⟩, ⟨2, f.b, 48⟩]) f s →
      let w := (s.va f).toNat
      let d := bits w 43 40
      let dest := if d = 15 then s.g.die else d
      let bad (n : BitVec 8) : Prop := exec (.msend f) s = .next (s.takeTrap { cause := 0x43, detail := n })
      (bits w 63 52 ≠ 0 ∨ w.testBit 39 = true → bad 1)
      ∧ (bits w 63 52 = 0 → w.testBit 39 = false → s.g.die < 8 →
        (8 ≤ d → d ≤ 14 → bad 2)
        ∧ (d ≤ 7 → d ≠ s.g.die → (s.holdsHandle s.g.die d = false → bad 3)
          ∧ (s.holdsHandle s.g.die d = true → w % 2 ^ 32 = 0 → bad 4))
        ∧ (d = 15 ∨ d = s.g.die ∨ (d ≤ 7 ∧ s.holdsHandle s.g.die d = true ∧ w % 2 ^ 32 ≠ 0) → s.storesOut s.g.uid = false →
          (16 ≤ s.awaiting s.g.die s.g.core → s.g.wait = .run → exec (.msend f) s = .next { u with g := { s.g with wait := .held 0 s.now } })
          ∧ (s.awaiting s.g.die s.g.core < 16 → job < 64 → (s.die s.g.die).dead = false → (s.die dest).dead = false → ∃ t m, exec (.msend f) s = .next t ∧ t.g = on ∧ same t
          ∧ t.fab.msgs = s.fab.msgs ++ [m] ∧ m.die = dest ∧ m.rank = bits w 38 32 ∧ m.arrived = false ∧ m.sender = s.g.uid
          ∧ (∀ k, s.gang? s.g.gang = some k → m.gang = (if w % 2 ^ 32 = 0 then k.handle else BitVec.ofNat 32 w)
              ∧ m.bits.extractLsb' 0 32 = k.handle)
          ∧ m.bits.extractLsb' 32 7 = BitVec.ofNat 7 s.g.rank ∧ m.bits.extractLsb' 40 4 = BitVec.ofNat 4 s.g.die
          ∧ m.bits.extractLsb' 44 6 = BitVec.ofNat 6 s.g.core ∧ m.bits.extractLsb' 50 6 = BitVec.ofNat 6 job
          ∧ m.bits.extractLsb' 56 8 = BitVec.ofNat 8 (bits w 51 44)
          ∧ (∀ i, i < 48 → m.bits.extractLsb' (128 + 8 * i) 8 = bget s.g.regs (s.g.base f.b + i))
          ∧ (counts t s.g.die job).inj = (counts s s.g.die job).inj + 1))))
    ∧ (Executes .c false (dab f) f s →
      (validTarget (s.g.sreg 63).toNat = false → exec (.mret f) s = .next (s.takeTrap { cause := 0x04 }))
      ∧ (validTarget (s.g.sreg 63).toNat = true → s.g.handler = none → exec (.mret f) s = .next (s.takeTrap { cause := 0x44, detail := 1 }))
      ∧ (∀ j, validTarget (s.g.sreg 63).toNat = true → s.g.handler = some j → s.storesOut s.g.uid = false → ∃ t, exec (.mret f) s = .next t
          ∧ same t ∧ t.g = { s.g with pc := s.g.sreg 63, wait := .run, handler := none }
          ∧ (counts t s.g.die j).cons = (counts s s.g.die j).cons + 1)
      ∧ (let w := (kget s.hub.status s.g.job).getD 0
        ∃ t, exec (.quietst f) s = .next t ∧ same t ∧
          ((∃ x ∈ s.hub.waves, s.hub.waveDone ≤ x.num) → t.g = ((s.putD f (w ||| 2)).advance).g)
          ∧ ((∀ x ∈ s.hub.waves, x.num < s.hub.waveDone) → t.g = ((s.putD f w).advance).g)))
    ∧ (Executes .c false (fun _ => [⟨0, f.d, 8⟩, ⟨1, f.a, 64⟩]) f s →
      let view := s.g.base f.a
      (s.g.handler.isSome = true → exec (.waitq f) s = .next (s.takeTrap { cause := 0x44, detail := 2 }))
      ∧ (s.g.handler = none → s.g.wait = .run → s.storesOut s.g.uid = false →
        (∀ r rs, s.g.pend = r :: rs → exec (.waitq f) s =
          .next (State.takeTrap { s with g := { s.g with pend := rs, povf := s.g.povf && !rs.isEmpty } } r))
        ∧ (s.g.pend = [] →
          (s.msgsOf s.g = [] → (∀ q, kget s.hub.quiet s.g.job = some q → q.1 < s.hub.waveNum) → ∃ t, exec (.waitq f) s = .next t ∧ same t
            ∧ t.g = { s.g with wait := .blocked .waitq 0 (BitVec.ofNat 64 view) s.hub.waveNum } ∧ t.hub.waveReq = s.hub.waveReq + 1)
          ∧ ∀ m ms h, s.msgsOf s.g = m :: ms → u.handlerEntry s.g.die m.hnd = some h → ∃ t, exec (.waitq f) s = .next t ∧ same t
            ∧ t.g.pc = h ∧ t.g.wait = .run ∧ t.g.handler = some m.job ∧ t.g.sreg 63 = s.g.pc
            ∧ (∀ i, i < 64 → (view + i < 504 ∨ 512 ≤ view + i) → bget t.g.regs (view + i) = m.bits.extractLsb' (8 * i) 8)
            ∧ (∀ b, (b < view ∨ view + 64 ≤ b) → (b < 504 ∨ 512 ≤ b) → bget t.g.regs b = bget s.g.regs b)
            ∧ t.fab.msgs = s.fab.msgs.filter fun x => decide (x.id ≠ m.id)))
      ∧ ∀ n a since q, s.g.handler = none → s.g.wait = .blocked .waitq n a since → s.msgsOf s.g = [] →
        kget s.hub.quiet s.g.job = some q →
        (since ≤ q.1 → ∃ t, exec (.waitq f) s = .next t ∧ same t ∧ t.g = ((s.putD f (BitVec.ofNat 64 (q.2.toNat * 2 ^ 16 + 1
            + (if s.hub.deadFlag.getLsbD s.g.job then 8 else 0) + if q.2 = 0 then 0 else 4))).advance).g)
        ∧ (q.1 < since → exec (.waitq f) s = .next s)))
  ∧ ∀ (s : State) (id : Nat) (m : Msg), s.Sound → s.fab.msgs.find? (fun m => decide (m.id = id)) = some m →
    (m.arrived = true → exec (.messageArrival id) s = .next s)
    ∧ (m.arrived = false → s.msgBehind m false = true ∨ 4096 ≤ (s.stored m.die).length → exec (.messageArrival id) s = .next { s with
        fab := { s.fab with msgs := s.fab.msgs.map fun x => if x.id = id then { x with injected := true } else x } })
    ∧ (m.arrived = false → s.msgBehind m false = false → (s.stored m.die).length < 4096 →
      (s.msgTarget m = none → ∃ t, exec (.messageArrival id) s = .next t ∧ t.fab.msgs = s.fab.msgs.filter fun x => decide (x.id ≠ id))
      ∧ ((s.msgTarget m).isSome = true → ∃ t, exec (.messageArrival id) s = .next t
        ∧ t.fab.msgs = s.fab.msgs.map fun x => if x.id = id then { x with injected := true, arrived := true } else x))
    ∧ (∀ g n view since, s.msgTarget m = some g → s.group? g.uid = some g → g.wait = .blocked .waitq n view since → m.arrived = true →
      s.msgBehind m true = false → (g.life = .active ∨ g.life = .waiting) →
      (s.canDeliver g view.toNat = false → exec (.messageDelivery id) s = .next s)
      ∧ ((s.core g.die g.core).halted = true → s.canDeliver g view.toNat = false)
      ∧ (s.canDeliver g view.toNat = true → ∀ h, s.handlerEntry g.die m.hnd = some h → ∃ t g', exec (.messageDelivery id) s = .next t ∧ t.group? g.uid = some g'
        ∧ g'.pc = h ∧ g'.wait = .run ∧ g'.handler = some m.job ∧ g'.sreg 63 = g.pc ∧ g'.masks = g.masks
        ∧ (∀ i, i < 64 → (view.toNat + i < 504 ∨ 512 ≤ view.toNat + i) →
            bget g'.regs (view.toNat + i) = m.bits.extractLsb' (8 * i) 8)
        ∧ t.fab.msgs = s.fab.msgs.filter fun x => decide (x.id ≠ id))
      ∧ (s.canDeliver g view.toNat = true → s.handlerEntry g.die m.hnd = none → ∃ t, exec (.messageDelivery id) s = .next t ∧ t.group? g.uid = some g
        ∧ t.fab.msgs = s.fab.msgs.filter fun x => decide (x.id ≠ id)))
    ∧ ∀ p, (∀ j, s.packetJob p = some j → ∃ t, exec (.packetLoss p) s = .next t
        ∧ (∀ x ∈ t.fab.msgs, x.arrived = true ∨ x.id ≠ p) ∧ (∀ x ∈ t.fab.recs, x.id ≠ p) ∧ (∀ x ∈ t.fab.graph, x.id ≠ p)
        ∧ ((kget t.hub.counts (512 + j)).getD {}).lost = ((kget s.hub.counts (512 + j)).getD {}).lost + 1)
      ∧ (s.packetJob p = none → exec (.packetLoss p) s = .next s)

/-- HIMPORT makes a handle from a valid export entry; HREVOKE ends handles, and waits until no store sent under them is out; a link sleeps after
its idle time and wakes; a Sorrel wave takes two passes
over the counting points and declares a job quiet when nothing moved between them; a die that has answered no packet for DEADT is dead: it
is logged at every logical device, what it had to itself of another's memory is poisoned, it takes its packets and its launches with it, and
its readiness bits are clear (R401, R402, R404-R406, R412-R415, R422, R423, R456).
The model's part: waves, losses and dead dies are the model's (log entries 39 to 42). -/
def Obligations.Fabric : Prop :=
  (∀ (f : Fields) (s : State), s.Sound → Executes .c false (dab f) f s → s.storesOut s.g.uid = false →
    let u := s.flushCore s.g.die s.g.core
    let on := { s.g with pc := s.g.pc + 12, wait := .run }
    let handle (t : State) (d h : Nat) := kget (t.dev d).handles h
    let w := (s.va f).toNat
    let die := bits w 19 16
    let h := w % 2 ^ 12
    let exp := bits w 27 20
    let no (n : BitVec 8) : Prop := exec (.himport f) s = .next (u.takeTrap { cause := 0x42, detail := n, info := BitVec.ofNat 32 exp })
    let wellFormed : Prop := bits w 63 50 = 0 ∧ bits w 31 28 = 0 ∧ bits w 15 12 = 0 ∧ die < 8 ∧ die ≠ s.g.die
    (¬wellFormed → no 1)
    ∧ (wellFormed → (s.die s.g.die).dead = true → s.g.wait = .run →
        exec (.himport f) s = .next { u with g := { s.g with wait := .held 0 s.now } })
    ∧ (wellFormed → (s.die s.g.die).dead = false → (u.exportEntry die exp u.gSecure = none → no 2) ∧ ∀ e, u.exportEntry die exp u.gSecure = some e →
      let admitted : Prop := e.testBit (240 + s.g.die) = true ∧ bits e 239 224 = bits w 47 32
      let r := w.testBit 48
      let wr := w.testBit 49
      let allowed : Prop := (r || wr) = true ∧ (r = true → e.testBit 248 = true) ∧ (wr = true → e.testBit 249 = true)
      (¬admitted → no 3) ∧ (admitted → ¬allowed → no 4)
      ∧ (admitted → allowed → (h = 0 ∨ (∃ x, handle s s.g.die h = some x ∧ x.valid = true) → no 5)
        ∧ (h ≠ 0 → (∀ x, handle s s.g.die h = some x → x.valid = false) → ∃ t, exec (.himport f) s = .next t
          ∧ handle t s.g.die h = some {
              exporter := die, index := exp, base := BitVec.ofNat 64 e, len := BitVec.ofNat 64 (bits e 127 64), r := r, w := wr }
          ∧ (∀ d k, (d, k) ≠ (s.g.die, h) → handle t d k = handle s d k)
          ∧ t.g = ((s.putD f (BitVec.ofNat 64 (bits e 127 64))).advance).g ∧ t.rest = s.rest ∧ ∀ k, t.cohByte k = s.cohByte k)))
    ∧ (s.g.wait = .run → s.fab.stores = [] → (∀ w ∈ s.fab.stamped, w.isOpen = false) → (∀ g ∈ s.rest, ∀ a b c d, g.wait ≠ .sending a b c d) →
      (∀ x, handle s s.g.die h = some x → x.valid = true → ∃ t, exec (.hrevoke f) s = .next t ∧ t.g = on ∧ t.rest = s.rest
        ∧ handle t s.g.die h = some { x with valid := false } ∧ (∀ d k, (d, k) ≠ (s.g.die, h) → handle t d k = handle s d k)
        ∧ (∀ k, t.cohByte k = s.cohByte k)
        ∧ ∀ e ∈ (t.die s.g.die).tlb, e.dev = s.g.die → bits e.leaf.toNat 60 59 = 2 → bits e.leaf.toNat 58 47 ≠ h)
      ∧ ((s.die s.g.die).dead = false → ∃ t, exec (.hrevokeExp f) s = .next t ∧ t.g = on ∧ t.rest = s.rest ∧ (∀ k, t.cohByte k = s.cohByte k)
        ∧ ∀ d k x, d < 8 → handle s d k = some x → (∀ y ∈ (s.dev d).handles, y.1 = k → y.2 = x) → handle t d k =
          some { x with valid := x.valid && !(decide (x.exporter = s.g.die) && decide (x.index = w % 256)) }))
    ∧ (s.g.wait = .run → ∀ x, handle s s.g.die h = some x → x.valid = true →
        (∃ p ∈ s.fab.stores, p.dev = s.g.die ∧ p.handle = h ∧ p.gone = none) ∨
          (∃ w ∈ s.fab.stamped, w.isOpen = true ∧ w.die = s.g.die ∧ w.handle = h ∧ w.gone = none) → ∃ t, exec (.hrevoke f) s = .next t
        ∧ t.g = { s.g with wait := .held 1 s.now })
    ∧ (s.g.wait = .run → s.goneOut s.g.uid = false → (∀ x, handle s s.g.die h = some x → x.valid = false) → exec (.hrevoke f) s = .next u.advance)
    ∧ ∀ since, s.g.wait = .held 1 since → ∀ i ∈ [Instr.hrevoke f, .hrevokeExp f],
        exec i s = .next (if s.goneOut s.g.uid then s else s.advance))
  ∧ (∀ (s : State) (die : Nat),
    (let idle : Nat := bits (s.mrN offFABCFG) 31 16;
      (die < 8 → idle ≠ 0 → (s.die die).lastPacket + 1700 * idle ≤ s.now →
        exec (.linkSleep die) s = .next (s.modDie die fun d => { d with asleep := true }))
      ∧ (idle = 0 ∨ s.now < (s.die die).lastPacket + 1700 * idle → exec (.linkSleep die) s = .next s))
    ∧ (die < 8 → exec (.linkWake die) s = .next (s.modDie die fun d => { d with asleep := false, lastPacket := s.now }))
    ∧ ((s.die die).dead = true ∨ (s.die die).asked = none ∨
        (∃ t, (s.die die).asked = some t ∧ s.now < t + 1700 * bits (s.mrN offFABCFG) 47 32) → exec (.deadDie die) s = .next s)
    ∧ (∀ c, die < 8 → (s.die die).dead = false → (s.die die).asked = some c → c + 1700 * bits (s.mrN offFABCFG) 47 32 ≤ s.now → ∃ t, exec (.deadDie die) s = .next t ∧ (t.die die).dead = true
      ∧ (∀ n, n < 8 → (t.dev n).flhead = (s.dev n).flhead + 1 ∧ ∃ e, kget (t.dev n).log ((s.dev n).flhead.toNat % 256) = some e
          ∧ e.extractLsb' 29 8 = 0x70 ∧ e.extractLsb' 21 8 = BitVec.ofNat 8 die)
      ∧ (∀ id l, s.launch? id = some l → l.dev = die → ∃ l', t.launch? id = some l' ∧ l'.failed = true ∧ l'.dead = true ∧ l'.outstanding = 0)
      ∧ (∀ e ∈ s.cache.dir, e.2.owner = some die → kget t.poison e.1 = some (BitVec.allOnes 128))
      ∧ (∀ m ∈ t.fab.msgs, m.arrived = false → m.sdev ≠ m.die → m.sdev ≠ die ∧ m.die ≠ die)
      ∧ (∀ r ∈ t.fab.recs, r.fromDie ≠ r.toDie → r.fromDie ≠ die ∧ r.toDie ≠ die)
      ∧ (t.mr offRDYSTAT).getLsbD (2 + die) = false ∧ (∀ i, i < 4 → (t.mr offRDYSTAT).getLsbD (12 + 4 * die + i) = false)
      ∧ (∀ i, i < 8 → (t.mr offRDYMEM).getLsbD (8 * die + i) = false) ∧ t.hub.deadFlag = BitVec.allOnes 64))
  ∧ ∀ (s : State),
    (s.hub.waves.length < 4 → exec .waveStart s = .next { s with hub := { s.hub with
        waves := s.hub.waves ++ [{ num := s.hub.waveNum }], waveNum := s.hub.waveNum + 1, waveReq := s.hub.waveReq - 1 } })
    ∧ (4 ≤ s.hub.waves.length → exec .waveStart s = .next s)
    ∧ ∀ n w, s.hub.waves.find? (fun w => decide (w.num = n)) = some w →
      let live := (List.range 9).filter fun d => !(s.die d).dead
      let sums (act : List Nat) (j : Nat) : PassSum :=
        let c := live.map fun d => (kget s.hub.counts (64 * d + j)).getD {}
        { i := c.foldl (fun a c => a + c.inj) 0, c := c.foldl (fun a c => a + c.cons) 0, l := c.foldl (fun a c => a + c.lost) 0
          busy := live.any fun d => d < 8 && s.busy d j, act := act.contains j }
      (w.pass1 = none → ∃ t, exec (.wavePass n) s = .next t ∧ (∀ d, d < 8 → (t.die d).asleep = true → (s.die d).dead = true)
        ∧ t.hub.waves = s.hub.waves.map fun x => if x.num = n then { x with pass1 := some ((List.range 64).map (sums [])), act := [] } else x)
      ∧ ∀ ps, w.pass1 = some ps → ps.length = 64 → ∃ t, exec (.wavePass n) s = .next t
        ∧ t.hub.waves = (s.hub.waves.filter fun x => decide (x.num ≠ n)) ∧ t.hub.waveDone = n + 1
        ∧ ∀ j p, ps[j]? = some p →
          let q := sums w.act j
          let dead := s.hub.deadFlag.getLsbD j
          let quiet : Bool := (dead || p.i = p.c + p.l) && q.i = p.i && q.c = p.c && q.l = p.l && !p.busy && !q.busy && !q.act
          kget t.hub.status j = some (BitVec.ofNat 64 (q.l.toNat * 2 ^ 16 + (if quiet then 1 else 0) + (if q.l = 0 then 0 else 4)
            + if dead then 8 else 0))
          ∧ ∀ id l z, s.launch? id = some l → l.job = j → l.zeroWave = some z → z ≤ n → quiet = true →
            ∃ l', t.launch? id = some l' ∧ l'.quiet = true

/-! ## Time -/

/-- TIME and TWIDTH read the die's interval; LDAS gives a cell's value as of a stamp; STSC makes its checks once, waits for its release and
sends a cell's new value under the die's L; it
ends with its outcome, counted in the measurement registers, or with TCAP after CWCAP cycles; CWAIT waits until no stamp up to its own can
install any more, at most as long (R258, R431, R432, R434, R436-R439).
The model's part: when the wait begins and ends is the model's (log entry 44). -/
def Obligations.TimeInstructions : Prop :=
  (∀ (f : Fields) (s : State), s.Sound → Executes .c false (dab f) f s →
    let die := s.g.die
    let same (t : State) : Prop := t.rest = s.rest ∧ ∀ k, t.cohByte k = s.cohByte k
    let joined (b : Bool) : Prop := s.joinedNow die = b
    let width := min ((s.lOf die).toNat - (s.eOf die).toNat) (2 ^ 32 - 1)
    exec (.time f) s = .next (s.setG ((s.g.put f.d (s.eOf die)).put f.b (s.lOf die))).advance
    ∧ (joined true → exec (.twidth f) s = .next (s.putD f (BitVec.ofNat 64 width)).advance)
    ∧ (joined false → exec (.twidth f) s = .next (s.putD f (BitVec.ofNat 64 (width + 2 ^ 63))).advance)
    ∧ (∀ r, s.checkElem .r 2 32 0 (s.va f).toNat = .error r → exec (.ldas f) s = .next (s.takeTrap r))
    ∧ (∀ x, s.checkElem .r 2 32 0 (s.va f).toNat = .ok x → x.tgt = 0 → s.anyBad (memKey die x.ofs) 32 = false →
      s.readHeld die (lineOf (memKey die x.ofs)) = false →
      let word (i : Nat) := leVal ((List.range 8).map fun j => s.cohByte (memKey die x.ofs + 8 * i + j))
      let at_ := (s.vb f).toNat
      let gives (v : Nat) (found : Bool) : Prop := ∃ t, exec (.ldas f) s = .next t ∧ same t ∧
        t.g = ((s.setG ((s.g.put f.d (BitVec.ofNat 64 v)).put f.c (if found then 1 else 0))).advance).g
      (word 0 ≤ at_ → gives (word 1) true) ∧ (at_ < word 0 → word 2 ≤ at_ → gives (word 3) true)
      ∧ (at_ < word 0 → at_ < word 2 → gives (min (word 2) (word 0)) false))
    ∧ (s.myStamped s.g.uid = none →
      let sends (x : Xl) (since : Nat) : Prop := ∃ t w, exec (.stsc f) s = .next t ∧ same t
        ∧ t.fab.stamped = s.fab.stamped ++ [w] ∧ w.stamp = s.lOf die ∧ w.val = s.vb f ∧ w.owner = s.g.uid ∧ w.ofs = x.ofs
        ∧ w.handle = (if x.tgt = 2 then x.handle else 0) ∧ w.since = since ∧ w.outcome = 0 ∧ w.arrived = false
        ∧ t.g = { s.g with wait := .held 1 since }
      (∀ tgt ofs handle since, s.g.wait = .sending tgt ofs handle since →
        (s.storesOut s.g.uid = true → exec (.stsc f) s = .next s)
        ∧ (s.storesOut s.g.uid = false → sends ⟨tgt, ofs, handle, 0⟩ since))
      ∧ (s.g.wait = .run → (∀ r, s.checkElem .rw 1 32 0 (s.va f).toNat = .error r → exec (.stsc f) s = .next (s.takeTrap r))
      ∧ ∀ x, s.checkElem .rw 1 32 0 (s.va f).toNat = .ok x →
        (joined false → exec (.stsc f) s = .next (s.takeTrap { cause := 0x48, info := BitVec.ofNat 32 width }))
        ∧ (joined true → s.storesOut s.g.uid = false → sends x s.now)
        ∧ (joined true → s.storesOut s.g.uid = true → exec (.stsc f) s = .next { s with
            g := { s.g with wait := .sending x.tgt x.ofs x.handle s.now } })))
    ∧ (∀ w, s.myStamped s.g.uid = some w →
      let n := s.now - w.since
      let st := s.mrN (offTCWSTAT w.die)
      let ct := s.mrN (offTCWCNT w.die)
      let ends (t : State) (installed abandoned : Nat) : Prop := t.fab.stamped = (s.fab.stamped.filter fun x => decide (x.id ≠ w.id))
        ∧ bits (t.mrN (offTCWSTAT w.die)) 63 48 = min 65535 (max n (bits st 63 48))
        ∧ bits (t.mrN (offTCWSTAT w.die)) 47 0 = (bits st 47 0 + n) % 2 ^ 48
        ∧ bits (t.mrN (offTCWCNT w.die)) 63 48 = min 65535 (bits ct 63 48 + abandoned)
        ∧ bits (t.mrN (offTCWCNT w.die)) 47 0 = (bits ct 47 0 + installed) % 2 ^ 48
      (w.isOpen = true → exec (.stsc f) s = .next s)
      ∧ (w.outcome = 1 → ∃ t, exec (.stsc f) s = .next t ∧ ends t 1 0 ∧ same t ∧ t.g = ((s.putD f w.stamp).advance).g)
      ∧ (w.outcome = 2 → ∃ t, exec (.stsc f) s = .next t ∧ ends t 0 0 ∧ same t ∧ t.g = ((s.putD f w.stamp).advance).g)
      ∧ (w.outcome = 3 → ∃ u, exec (.stsc f) s = .next (u.takeTrap { cause := 0x49, info := w.stamp.setWidth 32 })
          ∧ ends u 0 1 ∧ u.g = s.g ∧ same u))
    ∧ (let t := s.va f
      let passed : Prop := (∀ d, d < 8 → (s.die d).dead = true ∨ t.toNat ≤ (s.die d).h.toNat) ∧
        ∀ w ∈ s.fab.stamped, w.outcome = 0 → s.now < w.since + s.cwcap → t.toNat < w.stamp.toNat
      (∀ v, s.g.wait = .ready v → exec (.cwait f) s = .next (s.putD f v).advance)
      ∧ (s.g.wait = .run → passed → exec (.cwait f) s = .next (s.putD f 0).advance)
      ∧ (s.g.wait = .run → ¬passed → 0 < s.cwcap →
          exec (.cwait f) s = .next { s with g := { s.g with wait := .blocked .cwait 0 t s.now } })))
  ∧ (∀ (s : State) (id : Nat) (w : Stamped), s.fab.stamped.find? (fun w => decide (w.id = id)) = some w →
      (w.isOpen = true → w.since + s.cwcap ≤ s.now → w.owner ≠ 0 → ∃ t, exec (.commitWaitCap id) s = .next t ∧ t.mem = s.mem
        ∧ t.fab = { s.fab with stamped := s.fab.stamped.map fun x => if x.id = id then { x with outcome := 3 } else x })
      ∧ (w.isOpen = false ∨ s.now < w.since + s.cwcap → exec (.commitWaitCap id) s = .next s))
  ∧ ∀ (s : State) (uid : Nat) (g : Group) (n : Nat) (t : Word) (since : Nat), s.group? uid = some g → g.wait = .blocked .cwait n t since →
    (s.cwcap ≤ s.now - since → exec (.cwaitCap uid) s = .next (s.modGroup uid fun g => { g with wait := .ready (BitVec.ofNat 64
        (min (s.now - since) (2 ^ 32 - 1) + if s.passed t.toNat && s.now - since ≤ s.cwcap then 0 else 2 ^ 63)) }))
    ∧ (s.now - since < s.cwcap → exec (.cwaitCap uid) s = .next s)

/-- A sync exchange refreshes a die's interval, whose bounds never fall; the horizon rises to the greatest value below every joined die's
E and every store in flight, and does not fall; its delivery installs what is due, which no store is once its cap has passed, and the
CWAITs whose wait is over take their results; PTM turns the
counter's rate by at most 100 ppm and never steps it (R426, R427, R430, R432, R439, R449).
The model's part: drift and the bound of 24 ns on an exchange are the model's reading (log entry 43), as are when a CWAIT's wait ends, bit 63
of its result, and that a delivery installs no store whose cap has passed (log entry 44). -/
def Obligations.Horizon : Prop :=
  (∀ (s : State) (die : Nat) (e l : Word),
    (die < 8 → e.toNat ≤ s.thyme.toNat → s.thyme.toNat ≤ l.toNat → l.toNat ≤ e.toNat + 24 → l ≠ BitVec.allOnes 64 → ∃ t,
      exec (.syncExchange die e l) s = .next t ∧ t = { s with dies := t.dies } ∧ (t.die die).e = e ∧ (t.die die).l = l
      ∧ (t.die die).syncAt = s.now ∧ (t.eOf die).toNat = max (s.eOf die).toNat e.toNat
      ∧ ((s.die die).l ≠ BitVec.allOnes 64 → (t.lOf die).toNat = max (s.lOf die).toNat l.toNat))
    ∧ (8 ≤ die ∨ s.thyme.toNat < e.toNat ∨ l.toNat < s.thyme.toNat ∨ e.toNat + 24 < l.toNat → exec (.syncExchange die e l) s = .next s))
  ∧ (∀ (s : State),
    let below (v : Nat) : Prop := (∀ d, d < 8 → s.joinedNow d = true → v < (s.eOf d).toNat)
      ∧ ∀ w ∈ s.fab.stamped, w.arrived = false → w.outcome = 0 → v < w.stamp.toNat
    ∃ t, exec .horizonAdvance s = .next t ∧ t = { s with dies := t.dies, hub := t.hub } ∧ t.hub = { s.hub with h := t.hub.h }
      ∧ s.hub.h.toNat ≤ t.hub.h.toNat ∧ (t.hub.h = s.hub.h ∨ below t.hub.h.toNat)
      ∧ ((∃ d, d < 8 ∧ s.joinedNow d = true) → ∀ v, below v → v ≤ t.hub.h.toNat)
      ∧ ((∀ d, d < 8 → s.joinedNow d = false) → t.hub.h = s.hub.h))
  ∧ (∀ (s : State) (die : Nat), s.Sound → die < 8 →
    let h : Word := if (s.die die).h.toNat < s.hub.h.toNat then s.hub.h else (s.die die).h
    let due (w : Stamped) : Bool := w.arrived && w.outcome = 0 && dieOfKey w.cell = die && decide (w.stamp.toNat ≤ h.toNat)
      && decide (s.now < w.since + s.cwcap)
    ∃ t, exec (.horizonDelivery die) s = .next t ∧ (t.die die).h = h
      ∧ t.groups = (s.groups.map fun g => match g.wait with
          | .blocked .cwait _ x since => if t.passed x.toNat = true ∨ s.cwcap ≤ s.now - since then
              { g with wait := .ready (BitVec.ofNat 64 (min (s.now - since) (2 ^ 32 - 1) +
                if t.passed x.toNat && s.now - since ≤ s.cwcap then 0 else 2 ^ 63)) } else g
          | _ => g)
      ∧ ((s.fab.stamped.any due) = false → (∀ k, t.cohByte k = s.cohByte k) ∧ t.fab = s.fab)
      ∧ ∀ w, s.fab.stamped.filter due = [w] → s.lineTaken (lineOf w.cell) = false → w.cell % 32 = 0 →
        (∀ i, i < 8 → t.cohByte (w.cell + i) = w.stamp.extractLsb' (8 * i) 8 ∧ t.cohByte (w.cell + 8 + i) = w.val.extractLsb' (8 * i) 8)
        ∧ (∀ i, i < 16 → t.cohByte (w.cell + 16 + i) = s.cohByte (w.cell + i))
        ∧ (∀ k, k < w.cell ∨ w.cell + 32 ≤ k → t.cohByte k = s.cohByte k)
        ∧ t.fab.stamped = (if w.owner = 0 then s.fab.stamped.filter fun x => decide (x.id ≠ w.id)
            else s.fab.stamped.map fun x => if x.id = w.id then { x with outcome := 1 } else x))
  ∧ (∀ (s : State) (id : Nat) (w : Stamped), s.fab.stamped.find? (fun w => decide (w.id = id)) = some w →
    (w.arrived = true ∨ w.outcome ≠ 0 → exec (.stampedStoreArrival id) s = .next s)
    ∧ (w.arrived = false → w.outcome = 0 → w.handle = 0 →
      let k := memKey w.die w.ofs
      let stood := s.fab.stamped.map fun x => if x.id = id then { x with arrived := true, cell := k, order := s.fresh } else x
      (∀ x ∈ stood, x.arrived = true → x.outcome = 0 → dieOfKey x.cell = dieOfKey k →
        (s.die (dieOfKey k)).h.toNat < x.stamp.toNat ∨ x.since + s.cwcap ≤ s.now) →
      ∃ t, exec (.stampedStoreArrival id) s = .next t ∧ t.fab = { s.fab with stamped := stood } ∧ t.mem = s.mem
        ∧ ((∀ n x c, s.g.wait ≠ .blocked .cwait n x c) → t.g = s.g)))
  ∧ ∀ (s : State) (ns : Nat),
    (s.linkUp = true → exec (.ptmExchange ns) s = .next { s with hub := { s.hub with
        thyme := s.thyme, thymeAt := s.now, rate := max (-100) (min 100 ((ns : Int) - s.thyme.toNat)) } })
    ∧ (s.linkUp = false → exec (.ptmExchange ns) s = .next s)

/-! ## Host queues and the platform -/

/-- The host writes queue registers over its link; the next entry of an enabled queue of a ready device starts its launch, is handed
to a host-facing engine, or is refused; LINK_DOWN clears readiness, disables the queues and cuts every launch's host writes; LINK_UP trains
the link (R29, R44, R46, R411, R444-R447, R450, R451, R456, R464).
The model's part: readings of log entries 29 (a transfer's launch counts zero from the start), 35, 36 (a read of the host follows posted
writes), 46 and 47. -/
def Obligations.HostQueues : Prop :=
  (∀ (s : State) (dev q : Nat) (v : Word),
    (s.linkUp = true → dev < 8 → q < 16 →
      exec (.hqctlWrite dev q v) s = .next (s.setMr (offHQ dev q 0x08) (v &&& 0xFC1F))
      ∧ (v.toNat < 2 ^ s.hqLog dev q → exec (.hqtailDoorbell dev q v) s = .next (s.setMr (offHQ dev q 0x10) v))
      ∧ (2 ^ s.hqLog dev q ≤ v.toNat → exec (.hqtailDoorbell dev q v) s = .next s))
    ∧ (s.linkUp = false → exec (.hqctlWrite dev q v) s = .next s ∧ exec (.hqtailDoorbell dev q v) s = .next s
        ∧ exec (.queueEntryFetch dev q) s = .next s)
    ∧ (dev < 8 → q < 16 → s.hqEn dev q = true → s.hqLog dev q ≠ 0 → s.mrN (offHQ dev q 0x18) ≠ s.mrN (offHQ dev q 0x10) →
        s.linkUp = true → s.dieReady dev = true →
      let p := s.flushPosted
      let head := s.mrN (offHQ dev q 0x18)
      let at_ := s.mrN (offHQ dev q 0x00) + 128 * head
      let e := rdLE p.mem (hostKey at_) 128
      let kind := bits e 457 456
      let bad : Prop := qEntryBad dev e = true ∨ layoutValid (bits e 255 192) = false
      let taken (t : State) (l : Launch) : Prop := (∃ id, t.launch? id = some l) ∧ l.dev = dev ∧ l.queue = q ∧ l.job = bits e 455 450
        ∧ l.seq.toNat = bits e 318 256 ∧ l.cwaddr.toNat = bits e 383 320 ∧ l.reach.toNat = bits e 449 448
        ∧ l.stats.toNat = bits e 447 384 ∧ l.layout.toNat = bits e 255 192 ∧ l.irq = e.testBit 458
        ∧ t.mrN (offHQ dev q 0x18) = (head + 1) % 2 ^ s.hqLog dev q ∧ t.g = s.g ∧ t.rest = s.rest ∧ t.mem = p.mem
      let runs (out : State → Launch → Prop) : Prop := ∃ t l, exec (.queueEntryFetch dev q) s = .next t ∧ taken t l ∧ out t l
      let refused (cause : BitVec 8) : Prop := runs fun t l => l.failed = true ∧ l.outstanding = 0 ∧ l.zeroWave.isSome = true
        ∧ t.fab.recs = s.fab.recs ∧ ∃ x, kget (t.dev dev).log ((s.dev dev).flhead.toNat % 256) = some x ∧ x.extractLsb' 29 8 = cause
      (kind ≠ 2 →
        (bad → refused 0x68)
        ∧ (¬bad → headerBad (p.wordOk dev e) e = true → refused 0x69)
        ∧ (¬bad → headerBad (p.wordOk dev e) e = false → runs fun t l => l.failed = false ∧ l.zeroWave = none ∧
            ∃ r id, t.fab.recs = s.fab.recs ++ [r] ∧ t.launch? id = some l ∧ r.launch = id ∧ r.record.toNat = bits e 767 512
              ∧ r.gang = decide (kind = 1) ∧ r.toDie = dev ∧ r.fromDie = dev ∧ r.owner = 0))
      ∧ (kind = 2 → ¬bad → headerBad (p.wordOk dev e) e = false →
        let card := bits e 1023 512
        (p.transferBad card = true → refused 0x30)
        ∧ ∀ k, p.transferBad card = false → p.leastDill ([32, 33].filter fun k => p.routValid k (cardRout card)) = some k →
          runs fun t l => l.failed = false ∧ l.zeroWave.isSome = true ∧ t.fab.recs = s.fab.recs ∧
            ∃ j, (t.dill k).queue = (s.dill k).queue ++ [j] ∧ j.card.toNat = card ∧ j.dev = dev ∧ j.owner = 0
              ∧ j.transfer = some (e.testBit 459) ∧ t.launch? j.launch = some l)))
  ∧ (∀ (s : State),
    (s.linkUp = false → exec .linkDown s = .next s)
    ∧ (s.linkUp = true → ∃ t, exec .linkDown s = .next t ∧ t.linkUp = false ∧ (t.mr offRDYSTAT).getLsbD 0 = false ∧ t.fab.posted = []
      ∧ t.mrN offHLSTAT / 2 ^ 32 = (s.mrN offHLSTAT / 2 ^ 32 + 1) % 2 ^ 32 ∧ (∀ dev q, dev < 8 → q < 16 → t.hqEn dev q = false)
      ∧ (∀ id l, s.launch? id = some l → ∃ l', t.launch? id = some l' ∧ l'.cut = true ∧ 8 ∉ l'.links)
      ∧ t.g = s.g ∧ t.rest = s.rest ∧ t.mem = s.mem))
  ∧ ∀ (s : State) (w : BitVec 4),
    (w.toNat ≤ 4 → ∃ t, exec (.linkUp w) s = .next t ∧ t.linkUp = true ∧ (t.mr offRDYSTAT).getLsbD 0 = true
      ∧ t.mrN offHLSTAT = s.mrN offHLSTAT / 2 ^ 32 * 2 ^ 32 + w.toNat * 16 + 1 ∧ (∀ dev q, dev < 8 → q < 16 → t.hqEn dev q = s.hqEn dev q)
      ∧ t = { s with mreg := t.mreg, fab := t.fab })
    ∧ (4 < w.toNat → exec (.linkUp w) s = .next s)

/-- A compute die's reset leaves it nothing but undefined memory; readiness bits change one at a time; firmware boots once and sets the
counter, when its image is signed under the fused key and is no older than the fused version, and is measured; a measurement is extended with
an object by SHAKE256; the power controller sets a die's budget, 0 from 110 degrees on (R12, R406, R426, R434,
R455, R456, R459-R461).
The model's part: readings of log entries 2, 42, 48, 49 and 59. -/
def Obligations.Platform : Prop :=
  (∀ (s : State) (die : Nat) (contents : List (Nat × Byte)), s.Sound →
    (8 ≤ die → exec (.computeDieReset die contents) s = .next s)
    ∧ (die < 8 → ∃ t, exec (.computeDieReset die contents) s = .next t
      ∧ (if s.g.die = die then t.g = {} else t.g = s.g) ∧ t.rest = s.rest.filter (fun g => decide (g.die ≠ die))
      ∧ (∀ e ∈ t.teams, e.2.die ≠ die) ∧ (∀ e ∈ t.tasks, e.2.die ≠ die) ∧ (∀ e ∈ t.cores, e.1 / 64 ≠ die) ∧ (∀ e ∈ t.dills, e.1 / 4 ≠ die)
      ∧ (t.die die).resetAt = s.now ∧ (t.die die).dead = false ∧ (t.die die).e = 0 ∧ (t.die die).l = BitVec.allOnes 64
      ∧ (∀ e ∈ t.cache.l2 ++ t.cache.llc, e.1 / 2 ^ 32 ≠ die)
      ∧ (t.die die).tlb = [] ∧ (t.die die).locks = [] ∧ t.worldInForce die = s.worldWritten die
      ∧ (∀ k, dieOfKey k ≠ die → bget t.mem k = bget s.mem k)
      ∧ (∀ c ∈ contents, c.1 < 2 ^ 35 → (∀ x ∈ contents, x.1 = c.1 → x.2 = c.2) → bget t.mem (memKey die c.1) = c.2)
      ∧ t.mrN (offTCWSTAT die) = 0 ∧ t.mrN (offTCWCNT die) = 0 ∧ (t.mr offRDYSTAT).getLsbD (2 + die) = false
      ∧ (∀ i, i < 8 → (t.mr offRDYMEM).getLsbD (8 * die + i) = false)
      ∧ ((s.die die).dead = true → ∀ e ∈ t.devs, ∀ h ∈ e.2.handles, h.2.exporter = die → h.2.valid = false)))
  ∧ (∀ (s : State) (mem : Bool) (i : Nat) (up : Bool),
    let off := if mem then offRDYMEM else offRDYSTAT
    let known : Prop := if mem then i < 64 else 2 ≤ i ∧ i < 44
    let dead : Prop := ∃ d, readyDie mem i = some d ∧ (s.die d).dead = true
    (known → up = false ∨ ¬dead → ∃ t, exec (.functionReady mem i up) s = .next t ∧ (t.mr off).getLsbD i = up
      ∧ (∀ j, j ≠ i → (t.mr off).getLsbD j = (s.mr off).getLsbD j) ∧ t = { s with mreg := t.mreg, fab := t.fab }
      ∧ ((s.mr off).getLsbD i ≠ up → s.linkUp = true → t.fab.posted = s.fab.posted ++
        [{ dev := 8, job := 64, addr := 63, bytes := [], launch := 0 }]))
    ∧ (¬known ∨ up = true ∧ dead → exec (.functionReady mem i up) s = .next s))
  ∧ (let extended (s t : State) (slot : Nat) (object : List Byte) : Prop := t.mr offMEASSEQ = s.mr offMEASSEQ + 1
      ∧ let m := (List.range 8).flatMap fun i => leBytes (s.mrN (offMEAS slot i)) 8
        ∀ i, i < 8 → t.mrN (offMEAS slot i) = leVal (((shake256 (m ++ shake256 object)).drop (8 * i)).take 8)
    (∀ (s : State) (image key sig : List Byte) (ns : Word),
      let signed : Bool := decide (BitVec.ofNat 512 (leVal (shake256 key)) = Config.fusedDigest) && mlDsa65 key image sig
      ((s.mr offRDYSTAT).getLsbD 1 = true → exec (.firmwareBoot image (key, sig) ns) s = .next s)
      ∧ ((s.mr offRDYSTAT).getLsbD 1 = false → ∃ t, exec (.firmwareBoot image (key, sig) ns) s = .next t ∧
          if signed = false then t = s.setMr offFWSTAT 1
          else if Config.imageVersion image < Config.fusedVersion then t = s.setMr offFWSTAT 2
          else t.mr offFWSTAT = 0 ∧ extended s t 0 image ∧ (t.mr offRDYSTAT).getLsbD 1 = true ∧ t.thyme = ns ∧ t.g = s.g ∧ t.rest = s.rest
            ∧ t.mem = s.mem))
    ∧ ∀ (s : State) (slot : Nat) (object : List Byte),
      (slot = 1 ∨ slot = 2 → ∃ t, exec (.measurementExtend slot object) s = .next t ∧ t = { s with mreg := t.mreg }
        ∧ extended s t slot object ∧ ∀ o, o ≠ offMEASSEQ → (∀ i, i < 8 → o ≠ offMEAS slot i) → t.mr o = s.mr o)
      ∧ (slot ≠ 1 → slot ≠ 2 → exec (.measurementExtend slot object) s = .next s))
  ∧ ∀ (s : State) (die : Nat) (pwr budget : BitVec 32) (temp : BitVec 16),
    (die < 8 → ∃ t, exec (.budgetControl die pwr temp budget) s = .next t ∧ t = { s with mreg := t.mreg }
      ∧ t.mr (offPWRSTAT die) = temp ++ 0#16 ++ pwr
      ∧ t.mrN (offLVBUD die) = (if 880 ≤ temp.toInt then 0 else budget.toNat)
      ∧ ∀ o, o ≠ offPWRSTAT die → o ≠ offLVBUD die → t.mr o = s.mr o)
    ∧ (8 ≤ die → exec (.budgetControl die pwr temp budget) s = .next s)

/-- Writes of the management space: format windows and residency ranges with their own checks, the compression region while the die is
not ready, worlds by the Bilbotum complex alone, the clamped configuration registers; a changed world takes effect when its block is idle
(R139, R142, R189, R214, R404, R428, R443, R454, R457, R463).
The model's part: readings of log entry 50, and of log entry 14 (a format window write waits for leases). -/
def Obligations.ManagementRegisters : Prop :=
  (∀ (s : State) (die w : Nat) (v : Word),
    let lines (t : State) (r : Word) : Prop := (∀ e ∈ t.side, lineIn die r e.1 = false)
      ∧ (∀ e ∈ t.cache.l2 ++ t.cache.llc, e.1 / 2 ^ 32 = die → lineIn die r (e.1 % 2 ^ 32) = false)
      ∧ (s.Sound → ∀ c ∈ t.cores, ∀ l ∈ c.2.l1, c.1 / 64 = die → lineIn die r l.1 = true → l.2.own = 0)
    let sets (i : Instr) (off : Nat) (v : Word) (p : State → Prop) : Prop := ∃ t, exec i s = .next t ∧ t.mr off = v
      ∧ (∀ o, o ≠ off → t.mr o = s.mr o) ∧ t = { s with mreg := t.mreg, cores := t.cores, mem := t.mem, side := t.side, cache := t.cache }
      ∧ (s.Sound → ∀ k, t.cohByte k = s.cohByte k) ∧ p t
    let enabled (v : Word) : Prop := v.getLsbD 0 = true
    let settled (t : State) : Prop := ∀ v : Level,
      (∀ e ∈ t.lines v, ∃ x ∈ s.lines v, e = match x.2.way with
        | some r => if x.1 / 2 ^ 32 = die ∧ (r = w ∨ t.wayOf v (128 * (x.1 % 2 ^ 32)) ≠ some r)
            then (x.1, { x.2 with level := min 6 x.2.level, way := none }) else x
        | none => x)
      ∧ ∀ set, let es := (t.lines v).filter fun e => decide (e.1 / 2 ^ 32 = die) && e.2.way.isNone && decide (v.setOf e.1 = set)
        (∀ e ∈ es, s.pinned e = false) → fitsWays (t.openWays v die) es = true
    let r := s.mr (offFWRNG die w);
    (die < 8 → w < 16 → s.rangeTaken die r = true ∨ s.rangeTaken die (v &&& 0x3FFFFFFFFFFF) = true →
      exec (.formatWindowWrite die w false v) s = .next s ∧ (s.rangeTaken die r = true → exec (.formatWindowWrite die w true v) s = .next s))
    ∧ (die < 8 → w < 16 → s.rangeTaken die r = false →
      (let x := v &&& 0xFFFFFFF3F;
        (enabled x → windowOk r x = false → sets (.formatWindowWrite die w true v) (offFWCTL die w) (x &&& ~~~1#64) (lines · r))
        ∧ (¬enabled x ∨ windowOk r x = true → sets (.formatWindowWrite die w true v) (offFWCTL die w) x (lines · r)))
      ∧ (let x := v &&& 0x3FFFFFFFFFFF
        s.rangeTaken die x = false → sets (.formatWindowWrite die w false v) (offFWRNG die w) x fun t => lines t r ∧ lines t x))
    ∧ (8 ≤ die ∨ 16 ≤ w → ∀ ctl, exec (.formatWindowWrite die w ctl v) s = .next s)
    ∧ (die < 8 → w < 8 →
      (let x := v &&& 0xFFFF01
        let r := s.mr (offRRNG die w)
        let ways (hi lo : Nat) := ((List.range 8).map fun k =>
          let c := if k = w then x else s.mr (offRRCTL die k)
          if c.getLsbD 0 then bits c.toNat hi lo else 0).sum
        let ok : Prop := bits r.toNat 22 0 ≤ bits r.toNat 45 23 ∧ ways 15 12 ≤ 8 ∧ ways 11 8 ≤ 8
        (enabled x → ¬ok → sets (.residencyRangeWrite die w true v) (offRRCTL die w) (x &&& ~~~1#64) settled)
        ∧ (¬enabled x ∨ ok → sets (.residencyRangeWrite die w true v) (offRRCTL die w) x settled))
      ∧ sets (.residencyRangeWrite die w false v) (offRRNG die w) (v &&& 0x3FFFFFFFFFFF) settled)
    ∧ (8 ≤ die ∨ 8 ≤ w → ∀ ctl, exec (.residencyRangeWrite die w ctl v) s = .next s)
    ∧ (die < 8 → s.dieReady die = false → exec (.cmpcfgWrite die v) s = .next (s.setMr (offCMPCFG die) (v &&& 0xFFF800001)))
    ∧ (8 ≤ die ∨ s.dieReady die = true → exec (.cmpcfgWrite die v) s = .next s))
  ∧ (∀ (s : State) (v : Word),
    (∀ reg, exec (.worldRegisterWrite reg v true) s = .next s)
    ∧ exec (.worldRegisterWrite 0 v false) s = .next (s.setMr (offWLD 0) (v &&& 0x3FFFFFFFFFF))
    ∧ exec (.worldRegisterWrite 1 v false) s = .next (s.setMr (offWLD 1) v)
    ∧ exec (.worldRegisterWrite 2 v false) s = .next (s.setMr (offWLD 2) (v &&& 0xFFFF))
    ∧ ∀ block, (block < 122 → s.worldPending block = true → s.blockIdle block = true → ∃ t, exec (.worldChangeEffect block) s = .next t
          ∧ t.worldInForce block = s.worldWritten block ∧ t.worldPending block = false
          ∧ (∀ b, b < 122 → b ≠ block → t.worldInForce b = s.worldInForce b)
          ∧ (block < 8 → ∀ c ∈ t.cores, c.1 / 64 = block → c.2.acc = [] ∧ c.2.bands = 0 ∧ c.2.slices = [])
          ∧ (8 ≤ block → block < 42 → (t.dill (engineOf block)).stream = [] ∧ (t.dill (engineOf block)).rv = {})
          ∧ (42 ≤ block → (∀ e ∈ t.teams, e.2.die = (block - 42) / 10 → e.2.core / 4 = (block - 42) % 10 → s.holdsPlace (e.1 / 32) = true →
              e.2.pool = [] ∧ e.2.doneOrder = []) ∧ ∀ e ∈ s.teams, s.holdsPlace (e.1 / 32) = false → e ∈ t.teams)
          ∧ t = { s with cores := t.cores, dies := t.dies, hub := t.hub, dills := t.dills, teams := t.teams })
        ∧ (122 ≤ block ∨ s.worldPending block = false ∨ s.blockIdle block = false → exec (.worldChangeEffect block) s = .next s))
  ∧ ∀ (s : State) (off : Nat) (v : Word) (host : Bool),
    let n := v.toNat
    let set (x : Nat) : Prop := exec (.registerWrite off v host) s = .next (s.setMr off (BitVec.ofNat 64 x))
    (host = true → s.linkUp = false → exec (.registerWrite off v host) s = .next s)
    ∧ (regKind off = .none ∨ regKind off = .ro → exec (.registerWrite off v host) s = .next s)
    ∧ (host = false ∨ s.linkUp = true →
      (off = offFABCFG → set (max 10 (bits n 47 32) * 2 ^ 32 + bits n 31 16 * 2 ^ 16 + max 500 (bits n 15 0)))
      ∧ (off = offTMCFG → ∃ t, exec (.registerWrite off v host) s = .next t
          ∧ t.mrN off = max 1024 (bits n 31 16) * 2 ^ 16 + max 50 (bits n 15 0) ∧ t = { s with mreg := t.mreg, dies := t.dies })
      ∧ ∀ d, d < 8 →
        (off = offLSCFG d → set (if n % 2 ^ 13 = 0 ∨ 4096 < n % 2 ^ 13 then 4096 else n % 2 ^ 13))
        ∧ (off = offPTBR d → exec (.registerWrite off v host) s = .next (s.setMr off (v &&& 0x7FFFFF001)))
        ∧ (off = offTVEC d → exec (.registerWrite off v host) s = .next (s.setMr off (v &&& 0xE1FFFFFFFFFFFFFF)))
        ∧ (off = offTTBR d ∨ off = offWGBR d ∨ off = offEXBR d ∨ off = offMHTB d →
            exec (.registerWrite off v host) s = .next (s.setMr off (v &&& 0x01FFFFFFFFFFF001)))
        ∧ (off = offLVBUD d → exec (.registerWrite off v host) s = .next (s.setMr off (v &&& 0xFFFFFFFF)))
        ∧ (off = offCMPCFG d → exec (.registerWrite off v host) s = exec (.cmpcfgWrite d v) s)
        ∧ (∀ w, w < 16 → (off = offFWRNG d w → exec (.registerWrite off v host) s = exec (.formatWindowWrite d w false v) s)
          ∧ (off = offFWCTL d w → exec (.registerWrite off v host) s = exec (.formatWindowWrite d w true v) s)))
end

