-- ==== Sys2Proof/Laws/Store.lean ====
section
/-! SUPPORT. Laws of sparse stores: read after write, and every write keeps the canonical form (addresses strictly rising,
no zero byte listed). -/

namespace Sys2Proof.Machine

set_option Elab.async false

variable {α : Type}

/-! ## Tables -/

@[simp] theorem kget_nil (k : Nat) : kget ([] : Table α) k = none := rfl

@[simp] theorem kget_kset_self (t : Table α) (k : Nat) (v : α) : kget (kset t k v) k = some v := by
  induction t with
  | nil => simp [kset, kget]
  | cons e t ih =>
    obtain ⟨j, w⟩ := e
    unfold kset
    split
    · simp [kget]
    · split
      · simp [kget]
      · rename_i h; simpa [kget, h] using ih

theorem kget_kset_of_ne (t : Table α) {j k : Nat} (v : α) (h : j ≠ k) : kget (kset t k v) j = kget t j := by
  have h' : k ≠ j := fun e => h e.symm
  induction t with
  | nil => simp [kset, kget, h']
  | cons e t ih =>
    obtain ⟨i, w⟩ := e
    unfold kset
    split
    · simp [kget, h']
    · split
      · rename_i hi; subst hi; simp [kget, h']
      · simp [kget, ih]

@[simp] theorem kget_kdel_self (t : Table α) (k : Nat) : kget (kdel t k) k = none := by
  induction t with
  | nil => rfl
  | cons e t ih =>
    obtain ⟨j, w⟩ := e
    unfold kdel
    split
    · exact ih
    · rename_i h; simpa [kget, h] using ih

theorem kget_kdel_of_ne (t : Table α) {j k : Nat} (h : j ≠ k) : kget (kdel t k) j = kget t j := by
  induction t with
  | nil => rfl
  | cons e t ih =>
    obtain ⟨i, w⟩ := e
    unfold kdel
    split
    · rename_i hi; subst hi; have : i ≠ j := fun e => h e.symm; simp [kget, this, ih]
    · simp [kget, ih]

/-! ## The order of keys -/

theorem risesFrom_mono {t : Table α} {lo hi : Nat} (h : risesFrom hi t = true) (hl : lo ≤ hi) : risesFrom lo t = true := by
  cases t with
  | nil => rfl
  | cons e t =>
    obtain ⟨k, v⟩ := e
    simp only [risesFrom, Bool.and_eq_true, decide_eq_true_eq] at h ⊢
    exact ⟨by omega, h.2⟩

theorem risesFrom_kset {t : Table α} {lo k : Nat} (v : α) (h : risesFrom lo t = true) (hk : lo ≤ k) :
    risesFrom lo (kset t k v) = true := by
  induction t generalizing lo with
  | nil => simp [kset, risesFrom, hk]
  | cons e t ih =>
    obtain ⟨j, w⟩ := e
    simp only [risesFrom, Bool.and_eq_true, decide_eq_true_eq] at h
    unfold kset
    split
    · simp only [risesFrom, Bool.and_eq_true, decide_eq_true_eq]; exact ⟨hk, by omega, h.2⟩
    · split
      · rename_i hj; subst hj; simp only [risesFrom, Bool.and_eq_true, decide_eq_true_eq]; exact ⟨hk, h.2⟩
      · simp only [risesFrom, Bool.and_eq_true, decide_eq_true_eq]; exact ⟨h.1, ih h.2 (by omega)⟩

theorem risesFrom_kdel {t : Table α} {lo : Nat} (k : Nat) (h : risesFrom lo t = true) : risesFrom lo (kdel t k) = true := by
  induction t generalizing lo with
  | nil => rfl
  | cons e t ih =>
    obtain ⟨j, w⟩ := e
    simp only [risesFrom, Bool.and_eq_true, decide_eq_true_eq] at h
    unfold kdel
    split
    · exact ih (risesFrom_mono h.2 (by omega))
    · simp only [risesFrom, Bool.and_eq_true, decide_eq_true_eq]; exact ⟨h.1, ih h.2⟩

theorem risesFrom_filter {t : Table α} {lo : Nat} (p : Nat × α → Bool) (h : risesFrom lo t = true) :
    risesFrom lo (t.filter p) = true := by
  induction t generalizing lo with
  | nil => rfl
  | cons e t ih =>
    obtain ⟨j, w⟩ := e
    simp only [risesFrom, Bool.and_eq_true, decide_eq_true_eq] at h
    rw [List.filter_cons]
    split
    · simp only [risesFrom, Bool.and_eq_true, decide_eq_true_eq]; exact ⟨h.1, ih h.2⟩
    · exact risesFrom_mono (ih h.2) (by omega)

/-! ## Bytes: what a write changes -/

@[simp] theorem bget_bset_self (m : Bytes) (a : Nat) (v : Byte) : bget (bset m a v) a = v := by
  unfold bget bset
  split
  · rename_i h; simp [h]
  · simp

theorem bget_bset_of_ne (m : Bytes) {a b : Nat} (v : Byte) (h : b ≠ a) : bget (bset m a v) b = bget m b := by
  unfold bget bset
  split
  · rw [kget_kdel_of_ne m h]
  · rw [kget_kset_of_ne m v h]

/-- A run of bytes stored from a on leaves every byte outside it alone. -/
theorem bget_bsetMany_outside (m : Bytes) (a b : Nat) (bs : List Byte) (h : b < a ∨ a + bs.length ≤ b) :
    bget (bsetMany m a bs) b = bget m b := by
  induction bs generalizing m a with
  | nil => rfl
  | cons c cs ih =>
    simp only [List.length_cons] at h
    rw [bsetMany, ih _ _ (by omega), bget_bset_of_ne m c (by omega)]

/-- A run of bytes stored from a on reads back. -/
theorem bget_bsetMany_inside (m : Bytes) (a i : Nat) (bs : List Byte) (h : i < bs.length) :
    bget (bsetMany m a bs) (a + i) = bs[i] := by
  induction bs generalizing m a i with
  | nil => simp at h
  | cons c cs ih =>
    rw [bsetMany]
    cases i with
    | zero => rw [bget_bsetMany_outside _ _ _ _ (by omega)]; simp
    | succ i => rw [show a + (i + 1) = (a + 1) + i by omega, ih _ _ _ (by simpa using h)]; simp

@[simp] theorem bytesAt_length (m : Bytes) (a n : Nat) : (bytesAt m a n).length = n := by
  induction n generalizing a with
  | zero => rfl
  | succ n ih => simp [bytesAt, ih]

theorem bytesAt_congr {m m' : Bytes} {a n : Nat} (h : ∀ i, i < n → bget m (a + i) = bget m' (a + i)) :
    bytesAt m a n = bytesAt m' a n := by
  induction n generalizing a with
  | zero => rfl
  | succ n ih =>
    simp only [bytesAt]
    rw [ih (fun i hi => by rw [show a + 1 + i = a + (i + 1) by omega]; exact h _ (by omega))]
    rw [show bget m a = bget m' a from h 0 (by omega)]

theorem bytesAt_bsetMany_self (m : Bytes) (a : Nat) (bs : List Byte) : bytesAt (bsetMany m a bs) a bs.length = bs := by
  induction bs generalizing m a with
  | nil => rfl
  | cons c cs ih =>
    simp only [bsetMany, List.length_cons, bytesAt]
    rw [ih, bget_bsetMany_outside _ _ _ _ (by omega)]
    simp

/-! ## Numbers in little-endian bytes -/

@[simp] theorem leBytes_length (v n : Nat) : (leBytes v n).length = n := by
  induction n generalizing v with
  | zero => rfl
  | succ n ih => simp [leBytes, ih]

theorem leVal_leBytes (v n : Nat) : leVal (leBytes v n) = v % 2 ^ (8 * n) := by
  induction n generalizing v with
  | zero => simp [leBytes, leVal, Nat.mod_one]
  | succ n ih =>
    simp only [leBytes, leVal, ih, BitVec.toNat_ofNat]
    rw [show 8 * (n + 1) = 8 + 8 * n by omega, Nat.pow_add, Nat.mod_mul]

theorem leVal_lt (bs : List Byte) : leVal bs < 2 ^ (8 * bs.length) := by
  induction bs with
  | nil => simp [leVal]
  | cons b t ih =>
    simp only [leVal, List.length_cons]
    have hb := b.isLt
    rw [show 8 * (t.length + 1) = 8 + 8 * t.length by omega, Nat.pow_add]
    have : (2 : Nat) ^ 8 = 256 := rfl
    omega

/-- A number written reads back, cut to its bytes. -/
theorem rdLE_wrLE_self (m : Bytes) (a n v : Nat) : rdLE (wrLE m a n v) a n = v % 2 ^ (8 * n) := by
  unfold rdLE wrLE
  have h := bytesAt_bsetMany_self m a (leBytes v n)
  rw [leBytes_length] at h
  rw [h, leVal_leBytes]

/-- A number written leaves a number beside it alone. -/
theorem rdLE_wrLE_beside (m : Bytes) {a b n k : Nat} (v : Nat) (h : b + k ≤ a ∨ a + n ≤ b) :
    rdLE (wrLE m a n v) b k = rdLE m b k := by
  unfold rdLE wrLE
  congr 1
  exact bytesAt_congr fun i hi => bget_bsetMany_outside _ _ _ _ (by rw [leBytes_length]; omega)

/-! ## Canonical form -/

theorem wf_nil : Memory.wf [] = true := rfl

theorem wf_iff (m : Bytes) : Memory.wf m = true ↔ risesFrom 0 m = true ∧ ∀ c ∈ m, c.2 ≠ 0 := by
  simp [Memory.wf, List.all_eq_true]

theorem mem_kset {t : Table α} {k : Nat} {v : α} {c : Nat × α} (h : c ∈ kset t k v) : c = (k, v) ∨ c ∈ t := by
  induction t with
  | nil => left; simpa [kset] using h
  | cons e t ih =>
    obtain ⟨j, w⟩ := e
    unfold kset at h
    split at h
    · rcases List.mem_cons.1 h with h | h
      · exact .inl h
      · exact .inr h
    · split at h
      · rcases List.mem_cons.1 h with h | h
        · exact .inl h
        · exact .inr (List.mem_cons_of_mem _ h)
      · rcases List.mem_cons.1 h with h | h
        · exact .inr (h ▸ List.mem_cons_self)
        · rcases ih h with h | h
          · exact .inl h
          · exact .inr (List.mem_cons_of_mem _ h)

theorem mem_of_mem_kdel {t : Table α} {k : Nat} {c : Nat × α} (h : c ∈ kdel t k) : c ∈ t := by
  induction t with
  | nil => simp [kdel] at h
  | cons e t ih =>
    obtain ⟨j, w⟩ := e
    unfold kdel at h
    split at h
    · exact List.mem_cons_of_mem _ (ih h)
    · rcases List.mem_cons.1 h with h | h
      · exact h ▸ List.mem_cons_self
      · exact List.mem_cons_of_mem _ (ih h)

/-- A byte write keeps the canonical form. -/
theorem wf_bset {m : Bytes} (a : Nat) (v : Byte) (h : Memory.wf m = true) : Memory.wf (bset m a v) = true := by
  rw [wf_iff] at h ⊢
  unfold bset
  split
  · exact ⟨risesFrom_kdel _ h.1, fun c hc => h.2 c (mem_of_mem_kdel hc)⟩
  · rename_i hv
    refine ⟨risesFrom_kset _ h.1 (Nat.zero_le _), fun c hc => ?_⟩
    rcases mem_kset hc with rfl | hc
    · exact hv
    · exact h.2 c hc

/-- A run of byte writes keeps the canonical form. -/
theorem wf_bsetMany {m : Bytes} (a : Nat) (bs : List Byte) (h : Memory.wf m = true) : Memory.wf (bsetMany m a bs) = true := by
  induction bs generalizing m a with
  | nil => exact h
  | cons b t ih => exact ih _ (wf_bset _ _ h)

/-- A number's write keeps the canonical form. -/
theorem wf_wrLE {m : Bytes} (a n v : Nat) (h : Memory.wf m = true) : Memory.wf (wrLE m a n v) = true := wf_bsetMany _ _ h

/-- Bytes left out keep the canonical form. -/
theorem wf_filter {m : Bytes} (p : Nat × Byte → Bool) (h : Memory.wf m = true) : Memory.wf (m.filter p) = true := by
  rw [wf_iff] at h ⊢
  exact ⟨risesFrom_filter p h.1, fun c hc => h.2 c (List.mem_filter.1 hc).1⟩

/-- A fold of steps that each keep a property keeps it. -/
theorem foldl_keeps {σ β : Type} (P : σ → Prop) (f : σ → β → σ) (hf : ∀ s b, P s → P (f s b)) (l : List β) {s : σ} (h : P s) :
    P (l.foldl f s) := by
  induction l generalizing s with
  | nil => exact h
  | cons b t ih => exact ih (hf _ _ h)

end Sys2Proof.Machine
end

