-- ==== Sys2Proof/Laws/Bits.lean ====
section
/-! SUPPORT. Laws of packed elements: a bit stream in bytes, its elements read and written (spec/09 R129, spec/10 R148). -/

namespace Sys2Proof.Machine

set_option Elab.async false

/-- Bit i of the stream of bytes from offset a. -/
def bitAt (m : Bytes) (a i : Nat) : Bool := (bget m (a + i / 8)).getLsbD (i % 8)

theorem testBit_leVal (bs : List Byte) (i : Nat) : (leVal bs).testBit i = (bs.getD (i / 8) 0).getLsbD (i % 8) := by
  induction bs generalizing i with
  | nil => simp [leVal]
  | cons b t ih =>
    rw [leVal, Nat.add_comm, show 256 * leVal t + b.toNat = 2 ^ 8 * leVal t + b.toNat from rfl,
      Nat.testBit_two_pow_mul_add _ b.isLt]
    split
    · rename_i h
      simp [Nat.div_eq_of_lt h, Nat.mod_eq_of_lt h, BitVec.getLsbD]
    · rename_i h
      rw [ih, show i / 8 = (i - 8) / 8 + 1 by omega, List.getD_cons_succ, show (i - 8) % 8 = i % 8 by omega]

theorem getD_bytesAt (m : Bytes) (a n i : Nat) : (bytesAt m a n).getD i 0 = if i < n then bget m (a + i) else 0 := by
  induction n generalizing a i with
  | zero => simp [bytesAt]
  | succ n ih =>
    cases i with
    | zero => simp [bytesAt]
    | succ i => simp only [bytesAt, List.getD_cons_succ, ih]; simp [show a + 1 + i = a + (i + 1) by omega]

theorem testBit_rdLE (m : Bytes) (a n i : Nat) : (rdLE m a n).testBit i = (decide (i < 8 * n) && bitAt m a i) := by
  rw [rdLE, testBit_leVal, getD_bytesAt, bitAt]
  by_cases h : i < 8 * n
  · simp [h, show i / 8 < n by omega]
  · simp [h, show ¬ i / 8 < n by omega]

/-- Bit j of an element is bit lo + j of the stream. -/
theorem testBit_rdBits (m : Bytes) (a lo w j : Nat) : (rdBits m a lo w).testBit j = (decide (j < w) && bitAt m a (lo + j)) := by
  rw [rdBits, Nat.testBit_mod_two_pow, Nat.testBit_div_two_pow, testBit_rdLE, bitAt, bitAt]
  by_cases h : j < w
  · have h1 : j + lo % 8 < 8 * ((lo % 8 + w + 7) / 8) := by omega
    simp only [h, h1, decide_true, Bool.true_and]
    rw [show a + lo / 8 + (j + lo % 8) / 8 = a + (lo + j) / 8 by omega, show (j + lo % 8) % 8 = (lo + j) % 8 by omega]
  · simp [h]

theorem bitAt_wrLE (m : Bytes) (a n v i : Nat) :
    bitAt (wrLE m a n v) a i = if i < 8 * n then v.testBit i else bitAt m a i := by
  by_cases h : i < 8 * n
  · have h1 := testBit_rdLE (wrLE m a n v) a n i
    rw [rdLE_wrLE_self, Nat.testBit_mod_two_pow] at h1
    simp only [h, decide_true, Bool.true_and] at h1
    simp [h, h1]
  · simp only [h, if_false, bitAt, wrLE]
    rw [bget_bsetMany_outside _ _ _ _ (by rw [leBytes_length]; omega)]

theorem bitAt_shift (m : Bytes) (a k i : Nat) : bitAt m (a + k) i = bitAt m a (8 * k + i) := by
  simp only [bitAt]
  rw [show a + k + i / 8 = a + (8 * k + i) / 8 by omega, show (8 * k + i) % 8 = i % 8 by omega]

theorem bitAt_wrLE_below (m : Bytes) (a k n v i : Nat) (h : i < 8 * k) : bitAt (wrLE m (a + k) n v) a i = bitAt m a i := by
  simp only [bitAt, wrLE]
  rw [bget_bsetMany_outside _ _ _ _ (by omega)]

/-- A field of w bits at s of a number replaced: its other bits stay. -/
theorem testBit_replace (old s w v i : Nat) :
    (old - (old / 2 ^ s % 2 ^ w) * 2 ^ s + v % 2 ^ w * 2 ^ s).testBit i =
      if i < s then old.testBit i else if i < s + w then v.testBit (i - s) else old.testBit i := by
  have hlow : old % 2 ^ s < 2 ^ s := Nat.mod_lt _ (Nat.two_pow_pos s)
  have hv : v % 2 ^ w < 2 ^ w := Nat.mod_lt _ (Nat.two_pow_pos w)
  have e1 : old = 2 ^ s * (old / 2 ^ s) + old % 2 ^ s := (Nat.div_add_mod _ _).symm
  have e2 : old / 2 ^ s = 2 ^ w * (old / 2 ^ s / 2 ^ w) + old / 2 ^ s % 2 ^ w := (Nat.div_add_mod _ _).symm
  generalize hq : old / 2 ^ s = q at *
  generalize hr : q / 2 ^ w = r at *
  generalize hm : q % 2 ^ w = m at *
  generalize hl : old % 2 ^ s = l at *
  have key : old - m * 2 ^ s + v % 2 ^ w * 2 ^ s = 2 ^ s * (2 ^ w * r + v % 2 ^ w) + l := by
    rw [e1, e2]
    have : 2 ^ s * (2 ^ w * r + m) = 2 ^ s * (2 ^ w * r) + m * 2 ^ s := by rw [Nat.mul_add, Nat.mul_comm m]
    rw [this, Nat.mul_add, Nat.mul_comm (v % 2 ^ w)]
    omega
  rw [key, Nat.testBit_two_pow_mul_add _ hlow]
  have eo : old.testBit i = if i < s then l.testBit i else if i - s < w then m.testBit (i - s) else r.testBit (i - s - w) := by
    have hm' : m < 2 ^ w := hm ▸ Nat.mod_lt _ (Nat.two_pow_pos w)
    rw [e1, Nat.testBit_two_pow_mul_add _ hlow, e2, Nat.testBit_two_pow_mul_add _ hm']
  rw [eo, Nat.testBit_two_pow_mul_add _ hv]
  by_cases h : i < s
  · simp [h]
  · by_cases h2 : i < s + w
    · simp [h, h2, show i - s < w by omega, Nat.testBit_mod_two_pow]
    · simp [h, h2, show ¬ i - s < w by omega]

/-- What a packed write does to every bit of the stream. -/
theorem bitAt_wrBits (m : Bytes) (a lo w v i : Nat) :
    bitAt (wrBits m a lo w v) a i = if lo ≤ i ∧ i < lo + w then v.testBit (i - lo) else bitAt m a i := by
  simp only [wrBits]
  by_cases hb : i < 8 * (lo / 8)
  · rw [bitAt_wrLE_below _ _ _ _ _ _ hb, if_neg (by omega)]
  · obtain ⟨j, rfl⟩ : ∃ j, i = 8 * (lo / 8) + j := ⟨i - 8 * (lo / 8), by omega⟩
    rw [← bitAt_shift, bitAt_wrLE]
    by_cases hk : j < 8 * ((lo % 8 + w + 7) / 8)
    · rw [if_pos hk, testBit_replace, testBit_rdLE, bitAt_shift]
      simp only [hk, decide_true, Bool.true_and]
      by_cases h1 : j < lo % 8
      · rw [if_pos h1, if_neg (by omega)]
      · by_cases h2 : j < lo % 8 + w
        · rw [if_neg h1, if_pos h2, if_pos (by omega), show j - lo % 8 = 8 * (lo / 8) + j - lo by omega]
        · rw [if_neg h1, if_neg h2, if_neg (by omega)]
    · rw [if_neg hk, if_neg (by omega), bitAt_shift]

/-- A packed element written reads back, cut to its width. -/
theorem rdBits_wrBits_self (m : Bytes) (a lo w v : Nat) : rdBits (wrBits m a lo w v) a lo w = v % 2 ^ w := by
  apply Nat.eq_of_testBit_eq
  intro j
  rw [testBit_rdBits, bitAt_wrBits, Nat.testBit_mod_two_pow]
  by_cases h : j < w
  · simp [h]
  · simp [h]

/-- A packed write leaves an element that shares no bit with it alone. -/
theorem rdBits_wrBits_beside (m : Bytes) {a lo w lo' w' : Nat} (v : Nat) (h : lo' + w' ≤ lo ∨ lo + w ≤ lo') :
    rdBits (wrBits m a lo w v) a lo' w' = rdBits m a lo' w' := by
  apply Nat.eq_of_testBit_eq
  intro j
  rw [testBit_rdBits, testBit_rdBits, bitAt_wrBits]
  by_cases hj : j < w'
  · simp only [hj, decide_true, Bool.true_and]
    rw [if_neg (by omega)]
  · simp [hj]

/-- A packed write touches only the bytes that hold its bits. -/
theorem bget_wrBits_outside (m : Bytes) {a lo w b : Nat} (v : Nat) (h : b < a + lo / 8 ∨ a + (lo + w + 7) / 8 ≤ b) :
    bget (wrBits m a lo w v) b = bget m b := by
  simp only [wrBits, wrLE]
  exact bget_bsetMany_outside _ _ _ _ (by rw [leBytes_length]; omega)

end Sys2Proof.Machine
end

