-- ==== Sys2Proof/Laws/Memory.lean ====
section
/-! SUPPORT. Every operation that writes the home memory keeps its canonical form (R186, R193). -/

namespace Sys2Proof.Machine

set_option Elab.async false

theorem canonical_of_mem {s t : State} (hm : t.mem = s.mem) (h : s.Canonical) : t.Canonical := by
  unfold State.Canonical at *; rw [hm]; exact h

/-- A write-back keeps the canonical form. -/
theorem wf_writeBack {m : Bytes} (line : Nat) (l : L1Line) (words : BitVec 32) (h : Memory.wf m = true) :
    Memory.wf (writeBack m line l words) = true := by
  refine foldl_keeps (fun m => Memory.wf m = true) _ (fun m i hm => ?_) _ h
  split
  · exact wf_bset _ _ hm
  · exact hm

theorem canonical_revoke {s : State} (line : Nat) (words : BitVec 32) (except : Option (Nat × Nat)) (h : s.Canonical) :
    (s.revoke line words except).Canonical := by
  refine foldl_keeps State.Canonical _ (fun s e hs => ?_) _ h
  dsimp only
  split
  · split
    · split
      · exact hs
      · simp only [State.Canonical]; exact wf_writeBack _ _ _ hs
    · exact hs
  · exact hs

theorem canonical_unpoison {s : State} (k : Nat) (h : s.Canonical) : (s.unpoison k).Canonical := by
  unfold State.unpoison
  split <;> exact h

/-- A store that becomes seen changes nothing else. -/
theorem keepUnseen_keeps {α : Type} {p : State → α} (hp : ∀ (s : State) x, p { s with split := x } = p s) (s : State) (k : Echo → Bool) :
    p (s.keepUnseen k) = p s := by
  unfold State.keepUnseen
  split
  · rfl
  · exact hp _ _
@[simp] theorem keepUnseen_mem (s : State) (k : Echo → Bool) : (s.keepUnseen k).mem = s.mem := keepUnseen_keeps (fun _ _ => rfl) s k
@[simp] theorem keepUnseen_g (s : State) (k : Echo → Bool) : (s.keepUnseen k).g = s.g := keepUnseen_keeps (fun _ _ => rfl) s k
@[simp] theorem keepUnseen_cores (s : State) (k : Echo → Bool) : (s.keepUnseen k).cores = s.cores := keepUnseen_keeps (fun _ _ => rfl) s k
/-- Where every store is seen, nothing changes at all. -/
theorem keepUnseen_of_seen {s : State} (h : s.split = {}) (k : Echo → Bool) : s.keepUnseen k = s := by simp [State.keepUnseen, h]

theorem claim_mem (s : State) (line : Nat) : (s.claim line).mem = s.mem := by
  unfold State.claim
  split <;> rfl

theorem afterLease_mem (s : State) (die core line : Nat) : (s.afterLease die core line).mem = s.mem := by
  unfold State.afterLease
  split
  · split
    · rfl
    · exact keepUnseen_mem _ _
  · rfl

theorem canonical_homeWriteByte {s : State} (k : Nat) (b : Byte) (h : s.Canonical) : (s.homeWriteByte k b).Canonical :=
  wf_bset _ _ (canonical_unpoison k (canonical_revoke _ _ _ (canonical_of_mem ((keepUnseen_mem _ _).trans (claim_mem s _)) h)))

/-- A write at the home slice keeps the canonical form. -/
theorem canonical_homeWrite {s : State} (k : Nat) (bs : List Byte) (h : s.Canonical) : (s.homeWrite k bs).Canonical := by
  induction bs generalizing s k with
  | nil => exact h
  | cons b t ih => exact ih _ (canonical_homeWriteByte k b h)

theorem canonical_dropLine {s : State} (die core line : Nat) (h : s.Canonical) : (s.dropLine die core line).Canonical := by
  unfold State.dropLine
  dsimp only
  split
  · simp only [State.Canonical]; exact wf_writeBack _ _ _ h
  · exact h

theorem canonical_l1Room {s : State} (die core line : Nat) (h : s.Canonical) : (s.l1Room die core line).Canonical := by
  unfold State.l1Room
  split
  · exact h
  · split
    · exact canonical_dropLine _ _ _ h
    · exact h

/-- A fill gives up a line at most. -/
theorem canonical_l1Fill {s : State} (die core line : Nat) (h : s.Canonical) : (s.l1Fill die core line).Canonical :=
  canonical_l1Room die core line (s := s.setCore die core _) h

theorem canonical_ownWord {s : State} (die core k : Nat) (h : s.Canonical) : (s.ownWord die core k).Canonical := by
  have hr : ∀ words except,
      (((((s.claim (lineOf k)).afterLease die core (lineOf k)).revealAt k).revoke (lineOf k) words except)).Canonical :=
    fun _ _ => canonical_revoke _ _ _ (canonical_of_mem ((keepUnseen_mem _ _).trans ((afterLease_mem _ _ _ _).trans (claim_mem s _))) h)
  have hf : ∀ {c : Prop} [Decidable c] {t : State}, t.Canonical → (if c then t else t.l1Fill die core (lineOf k)).Canonical := by
    intro c _ t ht
    split
    · exact ht
    · exact canonical_l1Fill _ _ _ ht
  unfold State.ownWord
  dsimp only
  split
  · exact h
  · split
    · exact hf (hr _ _)
    · exact hf (hr _ _)

theorem canonical_storeByte {s : State} (die core k : Nat) (b : Byte) (h : s.Canonical) : (s.storeByte die core k b).Canonical :=
  canonical_unpoison k (canonical_ownWord die core k h)

/-- A core's store keeps the canonical form. -/
theorem canonical_storeBytes {s : State} (die core k : Nat) (bs : List Byte) (h : s.Canonical) :
    (s.storeBytes die core k bs).Canonical := by
  induction bs generalizing s k with
  | nil => exact h
  | cons b t ih => exact ih _ (canonical_storeByte die core k b h)

theorem canonical_loadByte {s : State} (die core k : Nat) (h : s.Canonical) : (s.loadByte die core k).2.Canonical := by
  unfold State.loadByte
  split
  · exact h
  · exact canonical_l1Fill _ _ _ h

/-- A core's load keeps the canonical form: its fills write back at most what leaves the L1. -/
theorem canonical_loadBytes {s : State} (die core k n : Nat) (h : s.Canonical) : (s.loadBytes die core k n).2.Canonical := by
  induction n generalizing s k with
  | zero => exact h
  | succ n ih => exact ih _ (canonical_loadByte die core k h)

theorem canonical_cleanCore {s : State} (die core : Nat) (h : s.Canonical) : (s.cleanCore die core).Canonical := by
  refine foldl_keeps (fun m => Memory.wf m = true) _ (fun m e hm => ?_) _ h
  split
  · exact hm
  · exact wf_writeBack _ _ _ hm
/-- The write-back of release() keeps the canonical form. -/
theorem canonical_flushCore {s : State} (die core : Nat) (h : s.Canonical) : (s.flushCore die core).Canonical :=
  canonical_of_mem (keepUnseen_mem _ _) (canonical_cleanCore die core h)
/-- Where no access stands divided, it is a write-back alone. -/
theorem flushCore_of_whole {s : State} (h : s.split = {}) (die core : Nat) : s.flushCore die core = s.cleanCore die core :=
  keepUnseen_of_seen (s := s.cleanCore die core) h _

/-- An operation's write keeps the canonical form. -/
theorem canonical_opWrite {s : State} (k : Nat) (bs : List Byte) (h : s.Canonical) : (s.opWrite k bs).Canonical := by
  unfold State.opWrite
  split
  · exact canonical_homeWrite k bs h
  · refine foldl_keeps State.Canonical _ (fun s b hs => ?_) _ h
    split
    · exact hs
    · exact canonical_homeWriteByte _ _ hs

/-- acquire() leaves the home memory alone. -/
theorem canonical_acquire {s : State} (die core : Nat) (h : s.Canonical) : (s.acquire die core).Canonical := h

theorem canonical_cleanLine {s : State} (die core line : Nat) (h : s.Canonical) : (s.cleanLine die core line).Canonical := by
  unfold State.cleanLine
  split
  · simp only [State.Canonical]; exact wf_writeBack _ _ _ h
  · exact h

/-- Posted host writes that reach the host keep the canonical form. -/
theorem canonical_send {s : State} (ps : List Posted) (h : s.Canonical) : (s.send ps).Canonical := by
  refine foldl_keeps State.Canonical _ (fun s p hs => ?_) _ h
  dsimp only
  split
  · exact hs
  · exact wf_bsetMany _ _ hs

theorem canonical_flushPosted {s : State} (h : s.Canonical) : s.flushPosted.Canonical := canonical_send _ h
theorem canonical_flushOwn {s : State} (uid : Nat) (h : s.Canonical) : (s.flushOwn uid).Canonical := canonical_send _ h

/-- A line that leaves a die's caches takes its owners' dirty bytes home. -/
theorem canonical_evictFrom {s : State} (die line : Nat) (h : s.Canonical) : (s.evictFrom die line).Canonical := by
  have hr : (s.revoke line (BitVec.allOnes 32) none).Canonical := canonical_revoke _ _ _ h
  by_cases hd : die = dieOfKey (128 * line)
  · simp only [State.evictFrom, hd, if_true]; exact hr
  · simp only [State.evictFrom, hd, if_false]; exact h

/-- Memory as reset leaves it, with nothing listed, is canonical. -/
theorem reset_mem_wf : Memory.wf State.reset.mem = true := rfl

end Sys2Proof.Machine
end

