-- ==== Sys2Proof/Laws/Cache.lean ====
section
/-! SUPPORT. What noting an access at the caches can do: change the tables of cached lines and sidecars, and make owners write back
(R141, R184-R191). -/

namespace Sys2Proof.Machine

set_option Elab.async false

/-- A property that cached lines, sidecars and write-backs of owners keep. -/
structure CacheKept (P : State → Prop) : Prop where
  cache : ∀ s c, P s → P { s with cache := c }
  side : ∀ s d, P s → P { s with side := d }
  revoke : ∀ s line words except, P s → P (s.revoke line words except)

variable {P : State → Prop} {s : State}

theorem CacheKept.setLines (h : CacheKept P) (v : Level) (t : Table CLine) (hs : P s) : P (s.setLines v t) := by
  cases v <;> exact h.cache _ _ hs

theorem CacheKept.settleSide (h : CacheKept P) (line : Nat) (hs : P s) : P (s.settleSide line) := by
  unfold State.settleSide
  dsimp only
  split
  · exact hs
  · exact h.side _ _ hs

/-- A line leaves a level. -/
theorem CacheKept.leaveLevel (h : CacheKept P) (v : Level) (key : Nat) (hs : P s) : P (s.leaveLevel v key) := by
  have hl : P (s.setLines v (kdel (s.lines v) key)) := h.setLines v _ hs
  unfold State.leaveLevel
  dsimp only
  split
  · exact hl
  · split
    · refine h.settleSide _ ?_
      split
      · exact h.revoke _ _ _ _ hl
      · exact hl
    · exact h.cache _ _ hl

/-- An access touches a line of a level. -/
theorem CacheKept.touchLevel (h : CacheKept P) (v : Level) (key level : Nat) (way : Option Nat) (code : BitVec 4) (hs : P s) :
    P (s.touchLevel v key level way code) := by
  have hv : ∀ (ks : List Nat) (t : State → Table CLine),
      P ((ks.foldl (fun s k => s.leaveLevel v k) s).setLines v (t (ks.foldl (fun s k => s.leaveLevel v k) s))) :=
    fun ks _ => h.setLines v _ (foldl_keeps P _ (fun _ _ ht => h.leaveLevel v _ ht) ks hs)
  unfold State.touchLevel
  extract_lets old top c
  split
  · exact hv _ fun u => kset (u.lines v) key c
  · split
    · exact h.setLines v _ hs
    · exact h.leaveLevel v _ hs

theorem CacheKept.putLine (h : CacheKept P) (v : Level) (die k evp : Nat) (code : BitVec 4) (hs : P s) : P (s.putLine v die k evp code) :=
  h.touchLevel v _ _ _ _ hs

theorem CacheKept.putUnless (h : CacheKept P) {c : Prop} [Decidable c] (v : Level) (die k evp : Nat) (code : BitVec 4) (hs : P s) :
    P (if c then s else s.putLine v die k evp code) := by
  split
  · exact hs
  · exact h.putLine v die k evp code hs

theorem CacheKept.sizeOf (h : CacheKept P) (die k : Nat) (x : Hint) (hs : P s) : P (s.sizeOf die k x).2 := by
  unfold State.sizeOf
  split
  · exact h.cache _ _ (h.touchLevel _ _ _ _ _ hs)
  · exact hs

/-- Lines leave so that those of a die outside every range fit its open ways. -/
theorem CacheKept.trimLevel (h : CacheKept P) (v : Level) (die : Nat) (hs : P s) : P (s.trimLevel v die) :=
  foldl_keeps P _ (fun _ _ ht => foldl_keeps P _ (fun _ _ hu => h.leaveLevel v _ hu) _ ht) _ hs

theorem CacheKept.dirRead (h : CacheKept P) (die line : Nat) (hs : P s) : P (s.dirRead die line) := by
  unfold State.dirRead
  dsimp only
  split
  · split
    · exact h.cache _ _ hs
    · exact hs
  · exact h.cache _ _ hs

theorem CacheKept.attachSide (h : CacheKept P) (line : Nat) (hs : P s) : P (s.attachSide line) := by
  unfold State.attachSide
  split <;> split <;> first | exact hs | exact h.side _ _ hs

/-- All that noting an access at the caches can do. -/
theorem CacheKept.noteFrom (h : CacheKept P) (die k : Nat) (x : Hint) (hs : P s) : P (s.noteFrom die k x) := by
  refine h.attachSide _ (h.dirRead _ _ ?_)
  exact h.putUnless _ _ _ _ _ (h.putUnless _ _ _ _ _ (h.putLine _ _ _ _ _ (h.sizeOf _ _ _ (h.cache _ _ hs))))

/-- All that a prefetch into the stacked cache can do. -/
theorem CacheKept.noteStacked (h : CacheKept P) (k : Nat) (x : Hint) (hs : P s) : P (s.noteStacked k x) :=
  h.attachSide _ (h.putLine _ _ _ _ _ (h.sizeOf _ _ _ (h.cache _ _ hs)))

/-- The canonical form of memory is such a property. -/
theorem canonical_cacheKept : CacheKept State.Canonical :=
  ⟨fun _ _ h => h, fun _ _ h => h, fun _ _ _ _ h => canonical_revoke _ _ _ h⟩

theorem canonical_noteFrom (die k : Nat) (x : Hint) (h : s.Canonical) : (s.noteFrom die k x).Canonical :=
  canonical_cacheKept.noteFrom die k x h

/-- What revocation leaves: all but memory and the cores. -/
theorem revoke_keeps {α : Type} {p : State → α} (hp : ∀ (s : State) m c, p { s with mem := m, cores := c } = p s)
    (line : Nat) (words : BitVec 32) (except : Option (Nat × Nat)) : p (s.revoke line words except) = p s := by
  refine foldl_keeps (fun t => p t = p s) _ (fun t e ht => ?_) _ rfl
  dsimp only
  split
  · split
    · split
      · exact ht
      · exact (hp t _ _).trans ht
    · exact ht
  · exact ht

/-- What the caches leave: every part of State but memory, the cores' L1s, the tables of cached lines and the sidecars. -/
theorem noteFrom_keeps {α : Type} {p : State → α} (hp : ∀ (s : State) m c, p { s with mem := m, cores := c } = p s)
    (hc : ∀ (s : State) c, p { s with cache := c } = p s) (hd : ∀ (s : State) d, p { s with side := d } = p s)
    (die k : Nat) (x : Hint) : p (s.noteFrom die k x) = p s :=
  CacheKept.noteFrom (P := fun t => p t = p s)
    ⟨fun t c h => (hc t c).trans h, fun t d h => (hd t d).trans h, fun _ line ws ex h => (revoke_keeps hp line ws ex).trans h⟩ die k x rfl

@[simp] theorem noteFrom_g (die k : Nat) (x : Hint) : (s.noteFrom die k x).g = s.g :=
  noteFrom_keeps (p := State.g) (fun _ _ _ => rfl) (fun _ _ => rfl) (fun _ _ => rfl) die k x
@[simp] theorem noteFrom_rest (die k : Nat) (x : Hint) : (s.noteFrom die k x).rest = s.rest :=
  noteFrom_keeps (p := State.rest) (fun _ _ _ => rfl) (fun _ _ => rfl) (fun _ _ => rfl) die k x
@[simp] theorem noteFrom_teams (die k : Nat) (x : Hint) : (s.noteFrom die k x).teams = s.teams :=
  noteFrom_keeps (p := State.teams) (fun _ _ _ => rfl) (fun _ _ => rfl) (fun _ _ => rfl) die k x
@[simp] theorem noteFrom_dies (die k : Nat) (x : Hint) : (s.noteFrom die k x).dies = s.dies :=
  noteFrom_keeps (p := State.dies) (fun _ _ _ => rfl) (fun _ _ => rfl) (fun _ _ => rfl) die k x
@[simp] theorem noteFrom_mreg (die k : Nat) (x : Hint) : (s.noteFrom die k x).mreg = s.mreg :=
  noteFrom_keeps (p := State.mreg) (fun _ _ _ => rfl) (fun _ _ => rfl) (fun _ _ => rfl) die k x
@[simp] theorem noteFrom_poison (die k : Nat) (x : Hint) : (s.noteFrom die k x).poison = s.poison :=
  noteFrom_keeps (p := State.poison) (fun _ _ _ => rfl) (fun _ _ => rfl) (fun _ _ => rfl) die k x

/-- A line's code follows its bytes, and others leave its set for it. -/
theorem CacheKept.recode (h : CacheKept P) (line : Nat) (hs : P s) : P (s.recode line) := by
  unfold State.recode
  dsimp only
  split
  · exact hs
  · exact foldl_keeps P _ (fun _ _ ht => foldl_keeps P _ (fun _ _ hu => h.leaveLevel _ _ hu) _ (h.setLines _ _ ht)) _ (h.cache _ _ hs)
theorem CacheKept.settleCodes (h : CacheKept P) (hs : P s) : P s.settleCodes := foldl_keeps P _ (fun _ l ht => h.recode l ht) _ hs

/-- What passing time leaves: every part of State but the groups, the clock, and what the caches can change. -/
theorem elapse_keeps {α : Type} {p : State → α} (hp : ∀ (s : State) m c, p { s with mem := m, cores := c } = p s)
    (hc : ∀ (s : State) c, p { s with cache := c } = p s) (hd : ∀ (s : State) d, p { s with side := d } = p s)
    (hg : ∀ (s : State) g r n, p { s with g := g, rest := r, now := n } = p s) (n : Nat) : p (s.elapse n) = p s :=
  CacheKept.settleCodes (P := fun t => p t = p s)
    ⟨fun t c h => (hc t c).trans h, fun t d h => (hd t d).trans h, fun _ line ws ex h => (revoke_keeps hp line ws ex).trans h⟩ (hg s _ _ _)
@[simp] theorem elapse_gangs (n : Nat) : (s.elapse n).gangs = s.gangs :=
  elapse_keeps (p := State.gangs) (fun _ _ _ => rfl) (fun _ _ => rfl) (fun _ _ => rfl) (fun _ _ _ _ => rfl) n
@[simp] theorem elapse_teams (n : Nat) : (s.elapse n).teams = s.teams :=
  elapse_keeps (p := State.teams) (fun _ _ _ => rfl) (fun _ _ => rfl) (fun _ _ => rfl) (fun _ _ _ _ => rfl) n
@[simp] theorem elapse_dies (n : Nat) : (s.elapse n).dies = s.dies :=
  elapse_keeps (p := State.dies) (fun _ _ _ => rfl) (fun _ _ => rfl) (fun _ _ => rfl) (fun _ _ _ _ => rfl) n
@[simp] theorem elapse_devs (n : Nat) : (s.elapse n).devs = s.devs :=
  elapse_keeps (p := State.devs) (fun _ _ _ => rfl) (fun _ _ => rfl) (fun _ _ => rfl) (fun _ _ _ _ => rfl) n
@[simp] theorem elapse_dills (n : Nat) : (s.elapse n).dills = s.dills :=
  elapse_keeps (p := State.dills) (fun _ _ _ => rfl) (fun _ _ => rfl) (fun _ _ => rfl) (fun _ _ _ _ => rfl) n
@[simp] theorem elapse_hub (n : Nat) : (s.elapse n).hub = s.hub :=
  elapse_keeps (p := State.hub) (fun _ _ _ => rfl) (fun _ _ => rfl) (fun _ _ => rfl) (fun _ _ _ _ => rfl) n
@[simp] theorem elapse_fab (n : Nat) : (s.elapse n).fab = s.fab :=
  elapse_keeps (p := State.fab) (fun _ _ _ => rfl) (fun _ _ => rfl) (fun _ _ => rfl) (fun _ _ _ _ => rfl) n
@[simp] theorem elapse_launches (n : Nat) : (s.elapse n).launches = s.launches :=
  elapse_keeps (p := State.launches) (fun _ _ _ => rfl) (fun _ _ => rfl) (fun _ _ => rfl) (fun _ _ _ _ => rfl) n
@[simp] theorem elapse_tasks (n : Nat) : (s.elapse n).tasks = s.tasks :=
  elapse_keeps (p := State.tasks) (fun _ _ _ => rfl) (fun _ _ => rfl) (fun _ _ => rfl) (fun _ _ _ _ => rfl) n
@[simp] theorem elapse_poison (n : Nat) : (s.elapse n).poison = s.poison :=
  elapse_keeps (p := State.poison) (fun _ _ _ => rfl) (fun _ _ => rfl) (fun _ _ => rfl) (fun _ _ _ _ => rfl) n
@[simp] theorem elapse_split (n : Nat) : (s.elapse n).split = s.split :=
  elapse_keeps (p := State.split) (fun _ _ _ => rfl) (fun _ _ => rfl) (fun _ _ => rfl) (fun _ _ _ _ => rfl) n
@[simp] theorem elapse_mreg (n : Nat) : (s.elapse n).mreg = s.mreg :=
  elapse_keeps (p := State.mreg) (fun _ _ _ => rfl) (fun _ _ => rfl) (fun _ _ => rfl) (fun _ _ _ _ => rfl) n
@[simp] theorem elapse_agenda (n : Nat) : (s.elapse n).agenda = s.agenda :=
  elapse_keeps (p := State.agenda) (fun _ _ _ => rfl) (fun _ _ => rfl) (fun _ _ => rfl) (fun _ _ _ _ => rfl) n
@[simp] theorem elapse_evTurn (n : Nat) : (s.elapse n).evTurn = s.evTurn :=
  elapse_keeps (p := State.evTurn) (fun _ _ _ => rfl) (fun _ _ => rfl) (fun _ _ => rfl) (fun _ _ _ _ => rfl) n
@[simp] theorem elapse_evNext (n : Nat) : (s.elapse n).evNext = s.evNext :=
  elapse_keeps (p := State.evNext) (fun _ _ _ => rfl) (fun _ _ => rfl) (fun _ _ => rfl) (fun _ _ _ _ => rfl) n
@[simp] theorem elapse_fresh (n : Nat) : (s.elapse n).fresh = s.fresh :=
  elapse_keeps (p := State.fresh) (fun _ _ _ => rfl) (fun _ _ => rfl) (fun _ _ => rfl) (fun _ _ _ _ => rfl) n
@[simp] theorem elapse_free (n : Nat) : (s.elapse n).free = s.free :=
  elapse_keeps (p := State.free) (fun _ _ _ => rfl) (fun _ _ => rfl) (fun _ _ => rfl) (fun _ _ _ _ => rfl) n
/-- The clock counts the cycles. -/
@[simp] theorem elapse_now (n : Nat) : (s.elapse n).now = s.now + n :=
  CacheKept.settleCodes (P := fun t => t.now = s.now + n)
    ⟨fun _ _ h => h, fun _ _ h => h, fun _ line ws ex h => (revoke_keeps (p := State.now) (fun _ _ _ => rfl) line ws ex).trans h⟩ rfl
/-- The groups are those that the wait for slots leaves. -/
theorem elapse_g (n : Nat) : (s.elapse n).g = (s.tick n).settleWaits.g :=
  CacheKept.settleCodes (P := fun t => t.g = (s.tick n).settleWaits.g)
    ⟨fun _ _ h => h, fun _ _ h => h, fun _ line ws ex h => (revoke_keeps (p := State.g) (fun _ _ _ => rfl) line ws ex).trans h⟩ rfl
theorem canonical_elapse (n : Nat) (h : s.Canonical) : (s.elapse n).Canonical := canonical_cacheKept.settleCodes (s := (s.tick n).settleWaits) h

/-- What a walk's reads leave (R181). -/
theorem CacheKept.walkTouch (h : CacheKept P) (dev va : Nat) (hs : P s) : P (s.walkTouch dev va) :=
  foldl_keeps P _ (fun _ k ht => h.noteFrom _ k _ ht) _ hs
/-- What a walk's fill of a die's TLB leaves: every part of State but the dies, and what the caches can change (R181). -/
theorem CacheKept.fillDieTlb (h : CacheKept P) (hd : ∀ s d, P s → P { s with dies := d }) (dev va leaf : Nat) (hs : P s) :
    P (s.fillDieTlb dev va leaf) := by
  unfold State.fillDieTlb
  split
  · exact hs
  · exact hd _ _ (h.walkTouch dev va hs)
/-- The same for the TLBs of a core and its die. -/
theorem CacheKept.fillTlb (h : CacheKept P) (hd : ∀ s d, P s → P { s with dies := d }) (hc : ∀ s c, P s → P { s with cores := c })
    (dev core va leaf : Nat) (hs : P s) : P (s.fillTlb dev core va leaf) := by
  unfold State.fillTlb
  split
  · exact hs
  · exact h.fillDieTlb hd _ _ _ (hc _ _ hs)
theorem canonical_fillTlb (dev core va leaf : Nat) (h : s.Canonical) : (s.fillTlb dev core va leaf).Canonical :=
  canonical_cacheKept.fillTlb (fun _ _ h => h) (fun _ _ h => h) _ _ _ _ h
@[simp] theorem fillTlb_g (dev core va leaf : Nat) : (s.fillTlb dev core va leaf).g = s.g :=
  CacheKept.fillTlb (P := fun t => t.g = s.g)
    ⟨fun _ _ h => h, fun _ _ h => h, fun _ line ws ex h => (revoke_keeps (p := State.g) (fun _ _ _ => rfl) line ws ex).trans h⟩
    (fun _ _ h => h) (fun _ _ h => h) _ _ _ _ rfl

end Sys2Proof.Machine
end

