-- ==== Sys2Proof/Laws/Encoding.lean ====
section
/-! SUPPORT. Operand fields and the places of the fields in a word (spec/04 R56, R60, R61). -/

namespace Sys2Proof

set_option Elab.async false

open Sys2Proof.Machine

/-- An operand is read from its field again (R60, R61). -/
theorem ofBits_bits (o : Opnd) (h : o ≠ .none) : Opnd.ofBits o.bits = some o := by
  cases o with
  | none => exact absurd rfl h
  | sreg n => revert n; decide
  | view n => revert n; decide +kernel
  | tile n => revert n; decide +kernel
  | rel k x o => cases k <;> revert x o <;> decide +kernel
  | cond n => revert n; decide
  | mask n => revert n; decide
  | index n => revert n; decide
  | vb => decide
  | tb => decide
  | tsh => decide
  | immv => decide
  | acc => decide
  | zero => decide
/-- A field that names an operand is that operand's field (R60, R61). -/
theorem bits_ofBits : ∀ f : BitVec 12, ((Opnd.ofBits f).map Opnd.bits).getD f = f := by decide +kernel

/-! ## The fields of a packed word (R56) -/

theorem extract_high {v w : Nat} (x : BitVec w) (y : BitVec v) (s n : Nat) (h : v ≤ s) :
    (x ++ y).extractLsb' s n = x.extractLsb' (s - v) n := by
  apply BitVec.eq_of_getLsbD_eq
  intro i hi
  simp only [BitVec.getLsbD_extractLsb', BitVec.getLsbD_append, hi, decide_true, Bool.true_and]
  rw [if_neg (by omega), show s + i - v = s - v + i by omega]

theorem extract_low {v w : Nat} (x : BitVec w) (y : BitVec v) (s n : Nat) (h : s + n ≤ v) :
    (x ++ y).extractLsb' s n = y.extractLsb' s n := by
  apply BitVec.eq_of_getLsbD_eq
  intro i hi
  simp only [BitVec.getLsbD_extractLsb', BitVec.getLsbD_append, hi, decide_true, Bool.true_and]
  rw [if_pos (by omega)]

variable (opc fn : Nat) (f : Fields)

theorem wImm_pack : wImm (packWord opc fn f) = f.imm := by
  unfold wImm packWord
  rw [extract_low _ _ _ _ (by decide)]
  exact BitVec.extractLsb'_eq_self
theorem wMod_pack : wMod (packWord opc fn f) = f.mod := by
  unfold wMod packWord
  rw [extract_high _ _ _ _ (by decide), extract_low _ _ _ _ (by decide)]
  exact BitVec.extractLsb'_eq_self
theorem wB_pack : wB (packWord opc fn f) = f.b.bits := by
  unfold wB packWord
  rw [extract_high _ _ _ _ (by decide), extract_high _ _ _ _ (by decide), extract_low _ _ _ _ (by decide)]
  exact BitVec.extractLsb'_eq_self
theorem wA_pack : wA (packWord opc fn f) = f.a.bits := by
  unfold wA packWord
  rw [extract_high _ _ _ _ (by decide), extract_high _ _ _ _ (by decide), extract_high _ _ _ _ (by decide), extract_low _ _ _ _ (by decide)]
  exact BitVec.extractLsb'_eq_self
theorem wD_pack : wD (packWord opc fn f) = f.d.bits := by
  unfold wD packWord
  rw [extract_high _ _ _ _ (by decide), extract_high _ _ _ _ (by decide), extract_high _ _ _ _ (by decide), extract_high _ _ _ _ (by decide), extract_low _ _ _ _ (by decide)]
  exact BitVec.extractLsb'_eq_self
theorem wGrd_pack : wGrd (packWord opc fn f) = f.grd := by
  unfold wGrd packWord
  rw [extract_high _ _ _ _ (by decide), extract_high _ _ _ _ (by decide), extract_high _ _ _ _ (by decide), extract_high _ _ _ _ (by decide), extract_high _ _ _ _ (by decide), extract_low _ _ _ _ (by decide)]
  exact BitVec.extractLsb'_eq_self
theorem wFn_pack (h : fn < 64) : wFn (packWord opc fn f) = fn := by
  unfold wFn packWord
  rw [extract_high _ _ _ _ (by decide), extract_high _ _ _ _ (by decide), extract_high _ _ _ _ (by decide), extract_high _ _ _ _ (by decide), extract_high _ _ _ _ (by decide), extract_high _ _ _ _ (by decide), extract_high _ _ _ _ (by decide), extract_low _ _ _ _ (by decide), BitVec.extractLsb'_eq_self, BitVec.toNat_ofNat]
  exact Nat.mod_eq_of_lt h
theorem wOpc_pack (h : opc < 256) : wOpc (packWord opc fn f) = opc := by
  unfold wOpc packWord
  rw [extract_high _ _ _ _ (by decide), extract_high _ _ _ _ (by decide), extract_high _ _ _ _ (by decide), extract_high _ _ _ _ (by decide), extract_high _ _ _ _ (by decide), extract_high _ _ _ _ (by decide), extract_high _ _ _ _ (by decide), extract_high _ _ _ _ (by decide), BitVec.extractLsb'_eq_self, BitVec.toNat_ofNat]
  exact Nat.mod_eq_of_lt h
theorem wGn_pack : wGn (packWord opc fn f) = f.gn := by
  unfold wGn packWord
  simp only [BitVec.getLsbD_append]
  simp

end Sys2Proof
end

