-- ==== Sys2Proof/Laws/State.lean ====
section
/-! SUPPORT. For each named update of State and of Group, what it leaves and what it sets, field by field. -/

namespace Sys2Proof.Machine

set_option Elab.async false

variable (s : State) (g : Group)

/-! ## Group.jump -/

@[simp] theorem Group.jump_uid (t : Word) : (g.jump t).uid = g.uid := rfl
@[simp] theorem Group.jump_life (t : Word) : (g.jump t).life = g.life := rfl
@[simp] theorem Group.jump_wait (t : Word) : (g.jump t).wait = .run := rfl
@[simp] theorem Group.jump_issued (t : Word) : (g.jump t).issued = g.issued := rfl
@[simp] theorem Group.jump_gang (t : Word) : (g.jump t).gang = g.gang := rfl
@[simp] theorem Group.jump_team (t : Word) : (g.jump t).team = g.team := rfl
@[simp] theorem Group.jump_rank (t : Word) : (g.jump t).rank = g.rank := rfl
@[simp] theorem Group.jump_die (t : Word) : (g.jump t).die = g.die := rfl
@[simp] theorem Group.jump_core (t : Word) : (g.jump t).core = g.core := rfl
@[simp] theorem Group.jump_slot (t : Word) : (g.jump t).slot = g.slot := rfl
@[simp] theorem Group.jump_task (t : Word) : (g.jump t).task = g.task := rfl
@[simp] theorem Group.jump_launch (t : Word) : (g.jump t).launch = g.launch := rfl
@[simp] theorem Group.jump_waitSince (t : Word) : (g.jump t).waitSince = g.waitSince := rfl
@[simp] theorem Group.jump_handed (t : Word) : (g.jump t).handed = g.handed := rfl
@[simp] theorem Group.jump_job (t : Word) : (g.jump t).job = g.job := rfl
@[simp] theorem Group.jump_alloc (t : Word) : (g.jump t).alloc = g.alloc := rfl
@[simp] theorem Group.jump_regs (t : Word) : (g.jump t).regs = g.regs := rfl
@[simp] theorem Group.jump_pc (t : Word) : (g.jump t).pc = t := rfl
@[simp] theorem Group.jump_conds (t : Word) : (g.jump t).conds = g.conds := rfl
@[simp] theorem Group.jump_masks (t : Word) : (g.jump t).masks = g.masks := rfl
@[simp] theorem Group.jump_xs (t : Word) : (g.jump t).xs = g.xs := rfl
@[simp] theorem Group.jump_vb (t : Word) : (g.jump t).vb = g.vb := rfl
@[simp] theorem Group.jump_tb (t : Word) : (g.jump t).tb = g.tb := rfl
@[simp] theorem Group.jump_tsh (t : Word) : (g.jump t).tsh = g.tsh := rfl
@[simp] theorem Group.jump_priv (t : Word) : (g.jump t).priv = g.priv := rfl
@[simp] theorem Group.jump_pnote (t : Word) : (g.jump t).pnote = g.pnote := rfl
@[simp] theorem Group.jump_povf (t : Word) : (g.jump t).povf = g.povf := rfl
@[simp] theorem Group.jump_unres (t : Word) : (g.jump t).unres = g.unres := rfl
@[simp] theorem Group.jump_preq (t : Word) : (g.jump t).preq = g.preq := rfl
@[simp] theorem Group.jump_packed (t : Word) : (g.jump t).packed = g.packed := rfl
@[simp] theorem Group.jump_pend (t : Word) : (g.jump t).pend = g.pend := rfl
@[simp] theorem Group.jump_epc (t : Word) : (g.jump t).epc = g.epc := rfl
@[simp] theorem Group.jump_ecause (t : Word) : (g.jump t).ecause = g.ecause := rfl
@[simp] theorem Group.jump_eaddr (t : Word) : (g.jump t).eaddr = g.eaddr := rfl
@[simp] theorem Group.jump_eiaddr (t : Word) : (g.jump t).eiaddr = g.eiaddr := rfl
@[simp] theorem Group.jump_ewordl (t : Word) : (g.jump t).ewordl = g.ewordl := rfl
@[simp] theorem Group.jump_ewordh (t : Word) : (g.jump t).ewordh = g.ewordh := rfl
@[simp] theorem Group.jump_escr0 (t : Word) : (g.jump t).escr0 = g.escr0 := rfl
@[simp] theorem Group.jump_escr1 (t : Word) : (g.jump t).escr1 = g.escr1 := rfl
@[simp] theorem Group.jump_evq (t : Word) : (g.jump t).evq = g.evq := rfl
@[simp] theorem Group.jump_handler (t : Word) : (g.jump t).handler = g.handler := rfl
@[simp] theorem Group.jump_last (t : Word) : (g.jump t).last = g.last := rfl
@[simp] theorem Group.jump_tickets (t : Word) : (g.jump t).tickets = g.tickets := rfl
@[simp] theorem Group.jump_mflt (t : Word) : (g.jump t).mflt = g.mflt := rfl
@[simp] theorem Group.jump_layout (t : Word) : (g.jump t).layout = g.layout := rfl
@[simp] theorem Group.jump_srcs (t : Word) : (g.jump t).srcs = g.srcs := rfl
@[simp] theorem Group.jump_batch (t : Word) : (g.jump t).batch = g.batch := rfl

/-! ## Group.setBytes -/

@[simp] theorem Group.setBytes_uid (o : Nat) (bs : List Byte) : (g.setBytes o bs).uid = g.uid := rfl
@[simp] theorem Group.setBytes_life (o : Nat) (bs : List Byte) : (g.setBytes o bs).life = g.life := rfl
@[simp] theorem Group.setBytes_wait (o : Nat) (bs : List Byte) : (g.setBytes o bs).wait = g.wait := rfl
@[simp] theorem Group.setBytes_issued (o : Nat) (bs : List Byte) : (g.setBytes o bs).issued = g.issued := rfl
@[simp] theorem Group.setBytes_gang (o : Nat) (bs : List Byte) : (g.setBytes o bs).gang = g.gang := rfl
@[simp] theorem Group.setBytes_team (o : Nat) (bs : List Byte) : (g.setBytes o bs).team = g.team := rfl
@[simp] theorem Group.setBytes_rank (o : Nat) (bs : List Byte) : (g.setBytes o bs).rank = g.rank := rfl
@[simp] theorem Group.setBytes_die (o : Nat) (bs : List Byte) : (g.setBytes o bs).die = g.die := rfl
@[simp] theorem Group.setBytes_core (o : Nat) (bs : List Byte) : (g.setBytes o bs).core = g.core := rfl
@[simp] theorem Group.setBytes_slot (o : Nat) (bs : List Byte) : (g.setBytes o bs).slot = g.slot := rfl
@[simp] theorem Group.setBytes_task (o : Nat) (bs : List Byte) : (g.setBytes o bs).task = g.task := rfl
@[simp] theorem Group.setBytes_launch (o : Nat) (bs : List Byte) : (g.setBytes o bs).launch = g.launch := rfl
@[simp] theorem Group.setBytes_waitSince (o : Nat) (bs : List Byte) : (g.setBytes o bs).waitSince = g.waitSince := rfl
@[simp] theorem Group.setBytes_handed (o : Nat) (bs : List Byte) : (g.setBytes o bs).handed = g.handed := rfl
@[simp] theorem Group.setBytes_job (o : Nat) (bs : List Byte) : (g.setBytes o bs).job = g.job := rfl
@[simp] theorem Group.setBytes_alloc (o : Nat) (bs : List Byte) : (g.setBytes o bs).alloc = g.alloc := rfl
@[simp] theorem Group.setBytes_regs (o : Nat) (bs : List Byte) : (g.setBytes o bs).regs = bsetMany g.regs o bs := rfl
@[simp] theorem Group.setBytes_pc (o : Nat) (bs : List Byte) : (g.setBytes o bs).pc = g.pc := rfl
@[simp] theorem Group.setBytes_conds (o : Nat) (bs : List Byte) : (g.setBytes o bs).conds = g.conds := rfl
@[simp] theorem Group.setBytes_masks (o : Nat) (bs : List Byte) : (g.setBytes o bs).masks = g.masks := rfl
@[simp] theorem Group.setBytes_xs (o : Nat) (bs : List Byte) : (g.setBytes o bs).xs = g.xs := rfl
@[simp] theorem Group.setBytes_vb (o : Nat) (bs : List Byte) : (g.setBytes o bs).vb = g.vb := rfl
@[simp] theorem Group.setBytes_tb (o : Nat) (bs : List Byte) : (g.setBytes o bs).tb = g.tb := rfl
@[simp] theorem Group.setBytes_tsh (o : Nat) (bs : List Byte) : (g.setBytes o bs).tsh = g.tsh := rfl
@[simp] theorem Group.setBytes_priv (o : Nat) (bs : List Byte) : (g.setBytes o bs).priv = g.priv := rfl
@[simp] theorem Group.setBytes_pnote (o : Nat) (bs : List Byte) : (g.setBytes o bs).pnote = g.pnote := rfl
@[simp] theorem Group.setBytes_povf (o : Nat) (bs : List Byte) : (g.setBytes o bs).povf = g.povf := rfl
@[simp] theorem Group.setBytes_unres (o : Nat) (bs : List Byte) : (g.setBytes o bs).unres = g.unres := rfl
@[simp] theorem Group.setBytes_preq (o : Nat) (bs : List Byte) : (g.setBytes o bs).preq = g.preq := rfl
@[simp] theorem Group.setBytes_packed (o : Nat) (bs : List Byte) : (g.setBytes o bs).packed = g.packed := rfl
@[simp] theorem Group.setBytes_pend (o : Nat) (bs : List Byte) : (g.setBytes o bs).pend = g.pend := rfl
@[simp] theorem Group.setBytes_epc (o : Nat) (bs : List Byte) : (g.setBytes o bs).epc = g.epc := rfl
@[simp] theorem Group.setBytes_ecause (o : Nat) (bs : List Byte) : (g.setBytes o bs).ecause = g.ecause := rfl
@[simp] theorem Group.setBytes_eaddr (o : Nat) (bs : List Byte) : (g.setBytes o bs).eaddr = g.eaddr := rfl
@[simp] theorem Group.setBytes_eiaddr (o : Nat) (bs : List Byte) : (g.setBytes o bs).eiaddr = g.eiaddr := rfl
@[simp] theorem Group.setBytes_ewordl (o : Nat) (bs : List Byte) : (g.setBytes o bs).ewordl = g.ewordl := rfl
@[simp] theorem Group.setBytes_ewordh (o : Nat) (bs : List Byte) : (g.setBytes o bs).ewordh = g.ewordh := rfl
@[simp] theorem Group.setBytes_escr0 (o : Nat) (bs : List Byte) : (g.setBytes o bs).escr0 = g.escr0 := rfl
@[simp] theorem Group.setBytes_escr1 (o : Nat) (bs : List Byte) : (g.setBytes o bs).escr1 = g.escr1 := rfl
@[simp] theorem Group.setBytes_evq (o : Nat) (bs : List Byte) : (g.setBytes o bs).evq = g.evq := rfl
@[simp] theorem Group.setBytes_handler (o : Nat) (bs : List Byte) : (g.setBytes o bs).handler = g.handler := rfl
@[simp] theorem Group.setBytes_last (o : Nat) (bs : List Byte) : (g.setBytes o bs).last = g.last := rfl
@[simp] theorem Group.setBytes_tickets (o : Nat) (bs : List Byte) : (g.setBytes o bs).tickets = g.tickets := rfl
@[simp] theorem Group.setBytes_mflt (o : Nat) (bs : List Byte) : (g.setBytes o bs).mflt = g.mflt := rfl
@[simp] theorem Group.setBytes_layout (o : Nat) (bs : List Byte) : (g.setBytes o bs).layout = g.layout := rfl
@[simp] theorem Group.setBytes_srcs (o : Nat) (bs : List Byte) : (g.setBytes o bs).srcs = g.srcs := rfl
@[simp] theorem Group.setBytes_batch (o : Nat) (bs : List Byte) : (g.setBytes o bs).batch = g.batch := rfl

/-! ## Group.setSreg -/

@[simp] theorem Group.setSreg_uid (n : Nat) (v : Word) : (g.setSreg n v).uid = g.uid := rfl
@[simp] theorem Group.setSreg_life (n : Nat) (v : Word) : (g.setSreg n v).life = g.life := rfl
@[simp] theorem Group.setSreg_wait (n : Nat) (v : Word) : (g.setSreg n v).wait = g.wait := rfl
@[simp] theorem Group.setSreg_issued (n : Nat) (v : Word) : (g.setSreg n v).issued = g.issued := rfl
@[simp] theorem Group.setSreg_gang (n : Nat) (v : Word) : (g.setSreg n v).gang = g.gang := rfl
@[simp] theorem Group.setSreg_team (n : Nat) (v : Word) : (g.setSreg n v).team = g.team := rfl
@[simp] theorem Group.setSreg_rank (n : Nat) (v : Word) : (g.setSreg n v).rank = g.rank := rfl
@[simp] theorem Group.setSreg_die (n : Nat) (v : Word) : (g.setSreg n v).die = g.die := rfl
@[simp] theorem Group.setSreg_core (n : Nat) (v : Word) : (g.setSreg n v).core = g.core := rfl
@[simp] theorem Group.setSreg_slot (n : Nat) (v : Word) : (g.setSreg n v).slot = g.slot := rfl
@[simp] theorem Group.setSreg_task (n : Nat) (v : Word) : (g.setSreg n v).task = g.task := rfl
@[simp] theorem Group.setSreg_launch (n : Nat) (v : Word) : (g.setSreg n v).launch = g.launch := rfl
@[simp] theorem Group.setSreg_waitSince (n : Nat) (v : Word) : (g.setSreg n v).waitSince = g.waitSince := rfl
@[simp] theorem Group.setSreg_handed (n : Nat) (v : Word) : (g.setSreg n v).handed = g.handed := rfl
@[simp] theorem Group.setSreg_job (n : Nat) (v : Word) : (g.setSreg n v).job = g.job := rfl
@[simp] theorem Group.setSreg_alloc (n : Nat) (v : Word) : (g.setSreg n v).alloc = g.alloc := rfl
@[simp] theorem Group.setSreg_regs (n : Nat) (v : Word) : (g.setSreg n v).regs = wrLE g.regs (8 * n) 8 v.toNat := rfl
@[simp] theorem Group.setSreg_pc (n : Nat) (v : Word) : (g.setSreg n v).pc = g.pc := rfl
@[simp] theorem Group.setSreg_conds (n : Nat) (v : Word) : (g.setSreg n v).conds = g.conds := rfl
@[simp] theorem Group.setSreg_masks (n : Nat) (v : Word) : (g.setSreg n v).masks = g.masks := rfl
@[simp] theorem Group.setSreg_xs (n : Nat) (v : Word) : (g.setSreg n v).xs = g.xs := rfl
@[simp] theorem Group.setSreg_vb (n : Nat) (v : Word) : (g.setSreg n v).vb = g.vb := rfl
@[simp] theorem Group.setSreg_tb (n : Nat) (v : Word) : (g.setSreg n v).tb = g.tb := rfl
@[simp] theorem Group.setSreg_tsh (n : Nat) (v : Word) : (g.setSreg n v).tsh = g.tsh := rfl
@[simp] theorem Group.setSreg_priv (n : Nat) (v : Word) : (g.setSreg n v).priv = g.priv := rfl
@[simp] theorem Group.setSreg_pnote (n : Nat) (v : Word) : (g.setSreg n v).pnote = g.pnote := rfl
@[simp] theorem Group.setSreg_povf (n : Nat) (v : Word) : (g.setSreg n v).povf = g.povf := rfl
@[simp] theorem Group.setSreg_unres (n : Nat) (v : Word) : (g.setSreg n v).unres = g.unres := rfl
@[simp] theorem Group.setSreg_preq (n : Nat) (v : Word) : (g.setSreg n v).preq = g.preq := rfl
@[simp] theorem Group.setSreg_packed (n : Nat) (v : Word) : (g.setSreg n v).packed = g.packed := rfl
@[simp] theorem Group.setSreg_pend (n : Nat) (v : Word) : (g.setSreg n v).pend = g.pend := rfl
@[simp] theorem Group.setSreg_epc (n : Nat) (v : Word) : (g.setSreg n v).epc = g.epc := rfl
@[simp] theorem Group.setSreg_ecause (n : Nat) (v : Word) : (g.setSreg n v).ecause = g.ecause := rfl
@[simp] theorem Group.setSreg_eaddr (n : Nat) (v : Word) : (g.setSreg n v).eaddr = g.eaddr := rfl
@[simp] theorem Group.setSreg_eiaddr (n : Nat) (v : Word) : (g.setSreg n v).eiaddr = g.eiaddr := rfl
@[simp] theorem Group.setSreg_ewordl (n : Nat) (v : Word) : (g.setSreg n v).ewordl = g.ewordl := rfl
@[simp] theorem Group.setSreg_ewordh (n : Nat) (v : Word) : (g.setSreg n v).ewordh = g.ewordh := rfl
@[simp] theorem Group.setSreg_escr0 (n : Nat) (v : Word) : (g.setSreg n v).escr0 = g.escr0 := rfl
@[simp] theorem Group.setSreg_escr1 (n : Nat) (v : Word) : (g.setSreg n v).escr1 = g.escr1 := rfl
@[simp] theorem Group.setSreg_evq (n : Nat) (v : Word) : (g.setSreg n v).evq = g.evq := rfl
@[simp] theorem Group.setSreg_handler (n : Nat) (v : Word) : (g.setSreg n v).handler = g.handler := rfl
@[simp] theorem Group.setSreg_last (n : Nat) (v : Word) : (g.setSreg n v).last = g.last := rfl
@[simp] theorem Group.setSreg_tickets (n : Nat) (v : Word) : (g.setSreg n v).tickets = g.tickets := rfl
@[simp] theorem Group.setSreg_mflt (n : Nat) (v : Word) : (g.setSreg n v).mflt = g.mflt := rfl
@[simp] theorem Group.setSreg_layout (n : Nat) (v : Word) : (g.setSreg n v).layout = g.layout := rfl
@[simp] theorem Group.setSreg_srcs (n : Nat) (v : Word) : (g.setSreg n v).srcs = g.srcs := rfl
@[simp] theorem Group.setSreg_batch (n : Nat) (v : Word) : (g.setSreg n v).batch = g.batch := rfl

/-! ## Group.setIndex -/

@[simp] theorem Group.setIndex_uid (n : BitVec 2) (v : BitVec 32) : (g.setIndex n v).uid = g.uid := rfl
@[simp] theorem Group.setIndex_life (n : BitVec 2) (v : BitVec 32) : (g.setIndex n v).life = g.life := rfl
@[simp] theorem Group.setIndex_wait (n : BitVec 2) (v : BitVec 32) : (g.setIndex n v).wait = g.wait := rfl
@[simp] theorem Group.setIndex_issued (n : BitVec 2) (v : BitVec 32) : (g.setIndex n v).issued = g.issued := rfl
@[simp] theorem Group.setIndex_gang (n : BitVec 2) (v : BitVec 32) : (g.setIndex n v).gang = g.gang := rfl
@[simp] theorem Group.setIndex_team (n : BitVec 2) (v : BitVec 32) : (g.setIndex n v).team = g.team := rfl
@[simp] theorem Group.setIndex_rank (n : BitVec 2) (v : BitVec 32) : (g.setIndex n v).rank = g.rank := rfl
@[simp] theorem Group.setIndex_die (n : BitVec 2) (v : BitVec 32) : (g.setIndex n v).die = g.die := rfl
@[simp] theorem Group.setIndex_core (n : BitVec 2) (v : BitVec 32) : (g.setIndex n v).core = g.core := rfl
@[simp] theorem Group.setIndex_slot (n : BitVec 2) (v : BitVec 32) : (g.setIndex n v).slot = g.slot := rfl
@[simp] theorem Group.setIndex_task (n : BitVec 2) (v : BitVec 32) : (g.setIndex n v).task = g.task := rfl
@[simp] theorem Group.setIndex_launch (n : BitVec 2) (v : BitVec 32) : (g.setIndex n v).launch = g.launch := rfl
@[simp] theorem Group.setIndex_waitSince (n : BitVec 2) (v : BitVec 32) : (g.setIndex n v).waitSince = g.waitSince := rfl
@[simp] theorem Group.setIndex_handed (n : BitVec 2) (v : BitVec 32) : (g.setIndex n v).handed = g.handed := rfl
@[simp] theorem Group.setIndex_job (n : BitVec 2) (v : BitVec 32) : (g.setIndex n v).job = g.job := rfl
@[simp] theorem Group.setIndex_alloc (n : BitVec 2) (v : BitVec 32) : (g.setIndex n v).alloc = g.alloc := rfl
@[simp] theorem Group.setIndex_regs (n : BitVec 2) (v : BitVec 32) : (g.setIndex n v).regs = g.regs := rfl
@[simp] theorem Group.setIndex_pc (n : BitVec 2) (v : BitVec 32) : (g.setIndex n v).pc = g.pc := rfl
@[simp] theorem Group.setIndex_conds (n : BitVec 2) (v : BitVec 32) : (g.setIndex n v).conds = g.conds := rfl
@[simp] theorem Group.setIndex_masks (n : BitVec 2) (v : BitVec 32) : (g.setIndex n v).masks = g.masks := rfl
@[simp] theorem Group.setIndex_xs (n : BitVec 2) (v : BitVec 32) : (g.setIndex n v).xs = g.xs.set n.toNat v n.isLt := rfl
@[simp] theorem Group.setIndex_vb (n : BitVec 2) (v : BitVec 32) : (g.setIndex n v).vb = g.vb := rfl
@[simp] theorem Group.setIndex_tb (n : BitVec 2) (v : BitVec 32) : (g.setIndex n v).tb = g.tb := rfl
@[simp] theorem Group.setIndex_tsh (n : BitVec 2) (v : BitVec 32) : (g.setIndex n v).tsh = g.tsh := rfl
@[simp] theorem Group.setIndex_priv (n : BitVec 2) (v : BitVec 32) : (g.setIndex n v).priv = g.priv := rfl
@[simp] theorem Group.setIndex_pnote (n : BitVec 2) (v : BitVec 32) : (g.setIndex n v).pnote = g.pnote := rfl
@[simp] theorem Group.setIndex_povf (n : BitVec 2) (v : BitVec 32) : (g.setIndex n v).povf = g.povf := rfl
@[simp] theorem Group.setIndex_unres (n : BitVec 2) (v : BitVec 32) : (g.setIndex n v).unres = g.unres := rfl
@[simp] theorem Group.setIndex_preq (n : BitVec 2) (v : BitVec 32) : (g.setIndex n v).preq = g.preq := rfl
@[simp] theorem Group.setIndex_packed (n : BitVec 2) (v : BitVec 32) : (g.setIndex n v).packed = g.packed := rfl
@[simp] theorem Group.setIndex_pend (n : BitVec 2) (v : BitVec 32) : (g.setIndex n v).pend = g.pend := rfl
@[simp] theorem Group.setIndex_epc (n : BitVec 2) (v : BitVec 32) : (g.setIndex n v).epc = g.epc := rfl
@[simp] theorem Group.setIndex_ecause (n : BitVec 2) (v : BitVec 32) : (g.setIndex n v).ecause = g.ecause := rfl
@[simp] theorem Group.setIndex_eaddr (n : BitVec 2) (v : BitVec 32) : (g.setIndex n v).eaddr = g.eaddr := rfl
@[simp] theorem Group.setIndex_eiaddr (n : BitVec 2) (v : BitVec 32) : (g.setIndex n v).eiaddr = g.eiaddr := rfl
@[simp] theorem Group.setIndex_ewordl (n : BitVec 2) (v : BitVec 32) : (g.setIndex n v).ewordl = g.ewordl := rfl
@[simp] theorem Group.setIndex_ewordh (n : BitVec 2) (v : BitVec 32) : (g.setIndex n v).ewordh = g.ewordh := rfl
@[simp] theorem Group.setIndex_escr0 (n : BitVec 2) (v : BitVec 32) : (g.setIndex n v).escr0 = g.escr0 := rfl
@[simp] theorem Group.setIndex_escr1 (n : BitVec 2) (v : BitVec 32) : (g.setIndex n v).escr1 = g.escr1 := rfl
@[simp] theorem Group.setIndex_evq (n : BitVec 2) (v : BitVec 32) : (g.setIndex n v).evq = g.evq := rfl
@[simp] theorem Group.setIndex_handler (n : BitVec 2) (v : BitVec 32) : (g.setIndex n v).handler = g.handler := rfl
@[simp] theorem Group.setIndex_last (n : BitVec 2) (v : BitVec 32) : (g.setIndex n v).last = g.last := rfl
@[simp] theorem Group.setIndex_tickets (n : BitVec 2) (v : BitVec 32) : (g.setIndex n v).tickets = g.tickets := rfl
@[simp] theorem Group.setIndex_mflt (n : BitVec 2) (v : BitVec 32) : (g.setIndex n v).mflt = g.mflt := rfl
@[simp] theorem Group.setIndex_layout (n : BitVec 2) (v : BitVec 32) : (g.setIndex n v).layout = g.layout := rfl
@[simp] theorem Group.setIndex_srcs (n : BitVec 2) (v : BitVec 32) : (g.setIndex n v).srcs = g.srcs := rfl
@[simp] theorem Group.setIndex_batch (n : BitVec 2) (v : BitVec 32) : (g.setIndex n v).batch = g.batch := rfl

/-! ## Group.setElem -/

@[simp] theorem Group.setElem_uid (o : Opnd) (w l v : Nat) : (g.setElem o w l v).uid = g.uid := rfl
@[simp] theorem Group.setElem_life (o : Opnd) (w l v : Nat) : (g.setElem o w l v).life = g.life := rfl
@[simp] theorem Group.setElem_wait (o : Opnd) (w l v : Nat) : (g.setElem o w l v).wait = g.wait := rfl
@[simp] theorem Group.setElem_issued (o : Opnd) (w l v : Nat) : (g.setElem o w l v).issued = g.issued := rfl
@[simp] theorem Group.setElem_gang (o : Opnd) (w l v : Nat) : (g.setElem o w l v).gang = g.gang := rfl
@[simp] theorem Group.setElem_team (o : Opnd) (w l v : Nat) : (g.setElem o w l v).team = g.team := rfl
@[simp] theorem Group.setElem_rank (o : Opnd) (w l v : Nat) : (g.setElem o w l v).rank = g.rank := rfl
@[simp] theorem Group.setElem_die (o : Opnd) (w l v : Nat) : (g.setElem o w l v).die = g.die := rfl
@[simp] theorem Group.setElem_core (o : Opnd) (w l v : Nat) : (g.setElem o w l v).core = g.core := rfl
@[simp] theorem Group.setElem_slot (o : Opnd) (w l v : Nat) : (g.setElem o w l v).slot = g.slot := rfl
@[simp] theorem Group.setElem_task (o : Opnd) (w l v : Nat) : (g.setElem o w l v).task = g.task := rfl
@[simp] theorem Group.setElem_launch (o : Opnd) (w l v : Nat) : (g.setElem o w l v).launch = g.launch := rfl
@[simp] theorem Group.setElem_waitSince (o : Opnd) (w l v : Nat) : (g.setElem o w l v).waitSince = g.waitSince := rfl
@[simp] theorem Group.setElem_handed (o : Opnd) (w l v : Nat) : (g.setElem o w l v).handed = g.handed := rfl
@[simp] theorem Group.setElem_job (o : Opnd) (w l v : Nat) : (g.setElem o w l v).job = g.job := rfl
@[simp] theorem Group.setElem_alloc (o : Opnd) (w l v : Nat) : (g.setElem o w l v).alloc = g.alloc := rfl
@[simp] theorem Group.setElem_regs (o : Opnd) (w l v : Nat) : (g.setElem o w l v).regs = wrBits g.regs (g.base o) (l * w) w v := rfl
@[simp] theorem Group.setElem_pc (o : Opnd) (w l v : Nat) : (g.setElem o w l v).pc = g.pc := rfl
@[simp] theorem Group.setElem_conds (o : Opnd) (w l v : Nat) : (g.setElem o w l v).conds = g.conds := rfl
@[simp] theorem Group.setElem_masks (o : Opnd) (w l v : Nat) : (g.setElem o w l v).masks = g.masks := rfl
@[simp] theorem Group.setElem_xs (o : Opnd) (w l v : Nat) : (g.setElem o w l v).xs = g.xs := rfl
@[simp] theorem Group.setElem_vb (o : Opnd) (w l v : Nat) : (g.setElem o w l v).vb = g.vb := rfl
@[simp] theorem Group.setElem_tb (o : Opnd) (w l v : Nat) : (g.setElem o w l v).tb = g.tb := rfl
@[simp] theorem Group.setElem_tsh (o : Opnd) (w l v : Nat) : (g.setElem o w l v).tsh = g.tsh := rfl
@[simp] theorem Group.setElem_priv (o : Opnd) (w l v : Nat) : (g.setElem o w l v).priv = g.priv := rfl
@[simp] theorem Group.setElem_pnote (o : Opnd) (w l v : Nat) : (g.setElem o w l v).pnote = g.pnote := rfl
@[simp] theorem Group.setElem_povf (o : Opnd) (w l v : Nat) : (g.setElem o w l v).povf = g.povf := rfl
@[simp] theorem Group.setElem_unres (o : Opnd) (w l v : Nat) : (g.setElem o w l v).unres = g.unres := rfl
@[simp] theorem Group.setElem_preq (o : Opnd) (w l v : Nat) : (g.setElem o w l v).preq = g.preq := rfl
@[simp] theorem Group.setElem_packed (o : Opnd) (w l v : Nat) : (g.setElem o w l v).packed = g.packed := rfl
@[simp] theorem Group.setElem_pend (o : Opnd) (w l v : Nat) : (g.setElem o w l v).pend = g.pend := rfl
@[simp] theorem Group.setElem_epc (o : Opnd) (w l v : Nat) : (g.setElem o w l v).epc = g.epc := rfl
@[simp] theorem Group.setElem_ecause (o : Opnd) (w l v : Nat) : (g.setElem o w l v).ecause = g.ecause := rfl
@[simp] theorem Group.setElem_eaddr (o : Opnd) (w l v : Nat) : (g.setElem o w l v).eaddr = g.eaddr := rfl
@[simp] theorem Group.setElem_eiaddr (o : Opnd) (w l v : Nat) : (g.setElem o w l v).eiaddr = g.eiaddr := rfl
@[simp] theorem Group.setElem_ewordl (o : Opnd) (w l v : Nat) : (g.setElem o w l v).ewordl = g.ewordl := rfl
@[simp] theorem Group.setElem_ewordh (o : Opnd) (w l v : Nat) : (g.setElem o w l v).ewordh = g.ewordh := rfl
@[simp] theorem Group.setElem_escr0 (o : Opnd) (w l v : Nat) : (g.setElem o w l v).escr0 = g.escr0 := rfl
@[simp] theorem Group.setElem_escr1 (o : Opnd) (w l v : Nat) : (g.setElem o w l v).escr1 = g.escr1 := rfl
@[simp] theorem Group.setElem_evq (o : Opnd) (w l v : Nat) : (g.setElem o w l v).evq = g.evq := rfl
@[simp] theorem Group.setElem_handler (o : Opnd) (w l v : Nat) : (g.setElem o w l v).handler = g.handler := rfl
@[simp] theorem Group.setElem_last (o : Opnd) (w l v : Nat) : (g.setElem o w l v).last = g.last := rfl
@[simp] theorem Group.setElem_tickets (o : Opnd) (w l v : Nat) : (g.setElem o w l v).tickets = g.tickets := rfl
@[simp] theorem Group.setElem_mflt (o : Opnd) (w l v : Nat) : (g.setElem o w l v).mflt = g.mflt := rfl
@[simp] theorem Group.setElem_layout (o : Opnd) (w l v : Nat) : (g.setElem o w l v).layout = g.layout := rfl
@[simp] theorem Group.setElem_srcs (o : Opnd) (w l v : Nat) : (g.setElem o w l v).srcs = g.srcs := rfl
@[simp] theorem Group.setElem_batch (o : Opnd) (w l v : Nat) : (g.setElem o w l v).batch = g.batch := rfl

/-! ## Group.setLanes -/

@[simp] theorem Group.setLanes_uid (o : Opnd) (w : Nat) (ls : List Nat) (h : Nat → Nat) : (g.setLanes o w ls h).uid = g.uid := rfl
@[simp] theorem Group.setLanes_life (o : Opnd) (w : Nat) (ls : List Nat) (h : Nat → Nat) : (g.setLanes o w ls h).life = g.life := rfl
@[simp] theorem Group.setLanes_wait (o : Opnd) (w : Nat) (ls : List Nat) (h : Nat → Nat) : (g.setLanes o w ls h).wait = g.wait := rfl
@[simp] theorem Group.setLanes_issued (o : Opnd) (w : Nat) (ls : List Nat) (h : Nat → Nat) : (g.setLanes o w ls h).issued = g.issued := rfl
@[simp] theorem Group.setLanes_gang (o : Opnd) (w : Nat) (ls : List Nat) (h : Nat → Nat) : (g.setLanes o w ls h).gang = g.gang := rfl
@[simp] theorem Group.setLanes_team (o : Opnd) (w : Nat) (ls : List Nat) (h : Nat → Nat) : (g.setLanes o w ls h).team = g.team := rfl
@[simp] theorem Group.setLanes_rank (o : Opnd) (w : Nat) (ls : List Nat) (h : Nat → Nat) : (g.setLanes o w ls h).rank = g.rank := rfl
@[simp] theorem Group.setLanes_die (o : Opnd) (w : Nat) (ls : List Nat) (h : Nat → Nat) : (g.setLanes o w ls h).die = g.die := rfl
@[simp] theorem Group.setLanes_core (o : Opnd) (w : Nat) (ls : List Nat) (h : Nat → Nat) : (g.setLanes o w ls h).core = g.core := rfl
@[simp] theorem Group.setLanes_slot (o : Opnd) (w : Nat) (ls : List Nat) (h : Nat → Nat) : (g.setLanes o w ls h).slot = g.slot := rfl
@[simp] theorem Group.setLanes_task (o : Opnd) (w : Nat) (ls : List Nat) (h : Nat → Nat) : (g.setLanes o w ls h).task = g.task := rfl
@[simp] theorem Group.setLanes_launch (o : Opnd) (w : Nat) (ls : List Nat) (h : Nat → Nat) : (g.setLanes o w ls h).launch = g.launch := rfl
@[simp] theorem Group.setLanes_waitSince (o : Opnd) (w : Nat) (ls : List Nat) (h : Nat → Nat) : (g.setLanes o w ls h).waitSince = g.waitSince := rfl
@[simp] theorem Group.setLanes_handed (o : Opnd) (w : Nat) (ls : List Nat) (h : Nat → Nat) : (g.setLanes o w ls h).handed = g.handed := rfl
@[simp] theorem Group.setLanes_job (o : Opnd) (w : Nat) (ls : List Nat) (h : Nat → Nat) : (g.setLanes o w ls h).job = g.job := rfl
@[simp] theorem Group.setLanes_alloc (o : Opnd) (w : Nat) (ls : List Nat) (h : Nat → Nat) : (g.setLanes o w ls h).alloc = g.alloc := rfl
@[simp] theorem Group.setLanes_pc (o : Opnd) (w : Nat) (ls : List Nat) (h : Nat → Nat) : (g.setLanes o w ls h).pc = g.pc := rfl
@[simp] theorem Group.setLanes_conds (o : Opnd) (w : Nat) (ls : List Nat) (h : Nat → Nat) : (g.setLanes o w ls h).conds = g.conds := rfl
@[simp] theorem Group.setLanes_masks (o : Opnd) (w : Nat) (ls : List Nat) (h : Nat → Nat) : (g.setLanes o w ls h).masks = g.masks := rfl
@[simp] theorem Group.setLanes_xs (o : Opnd) (w : Nat) (ls : List Nat) (h : Nat → Nat) : (g.setLanes o w ls h).xs = g.xs := rfl
@[simp] theorem Group.setLanes_vb (o : Opnd) (w : Nat) (ls : List Nat) (h : Nat → Nat) : (g.setLanes o w ls h).vb = g.vb := rfl
@[simp] theorem Group.setLanes_tb (o : Opnd) (w : Nat) (ls : List Nat) (h : Nat → Nat) : (g.setLanes o w ls h).tb = g.tb := rfl
@[simp] theorem Group.setLanes_tsh (o : Opnd) (w : Nat) (ls : List Nat) (h : Nat → Nat) : (g.setLanes o w ls h).tsh = g.tsh := rfl
@[simp] theorem Group.setLanes_priv (o : Opnd) (w : Nat) (ls : List Nat) (h : Nat → Nat) : (g.setLanes o w ls h).priv = g.priv := rfl
@[simp] theorem Group.setLanes_pnote (o : Opnd) (w : Nat) (ls : List Nat) (h : Nat → Nat) : (g.setLanes o w ls h).pnote = g.pnote := rfl
@[simp] theorem Group.setLanes_povf (o : Opnd) (w : Nat) (ls : List Nat) (h : Nat → Nat) : (g.setLanes o w ls h).povf = g.povf := rfl
@[simp] theorem Group.setLanes_unres (o : Opnd) (w : Nat) (ls : List Nat) (h : Nat → Nat) : (g.setLanes o w ls h).unres = g.unres := rfl
@[simp] theorem Group.setLanes_preq (o : Opnd) (w : Nat) (ls : List Nat) (h : Nat → Nat) : (g.setLanes o w ls h).preq = g.preq := rfl
@[simp] theorem Group.setLanes_packed (o : Opnd) (w : Nat) (ls : List Nat) (h : Nat → Nat) : (g.setLanes o w ls h).packed = g.packed := rfl
@[simp] theorem Group.setLanes_pend (o : Opnd) (w : Nat) (ls : List Nat) (h : Nat → Nat) : (g.setLanes o w ls h).pend = g.pend := rfl
@[simp] theorem Group.setLanes_epc (o : Opnd) (w : Nat) (ls : List Nat) (h : Nat → Nat) : (g.setLanes o w ls h).epc = g.epc := rfl
@[simp] theorem Group.setLanes_ecause (o : Opnd) (w : Nat) (ls : List Nat) (h : Nat → Nat) : (g.setLanes o w ls h).ecause = g.ecause := rfl
@[simp] theorem Group.setLanes_eaddr (o : Opnd) (w : Nat) (ls : List Nat) (h : Nat → Nat) : (g.setLanes o w ls h).eaddr = g.eaddr := rfl
@[simp] theorem Group.setLanes_eiaddr (o : Opnd) (w : Nat) (ls : List Nat) (h : Nat → Nat) : (g.setLanes o w ls h).eiaddr = g.eiaddr := rfl
@[simp] theorem Group.setLanes_ewordl (o : Opnd) (w : Nat) (ls : List Nat) (h : Nat → Nat) : (g.setLanes o w ls h).ewordl = g.ewordl := rfl
@[simp] theorem Group.setLanes_ewordh (o : Opnd) (w : Nat) (ls : List Nat) (h : Nat → Nat) : (g.setLanes o w ls h).ewordh = g.ewordh := rfl
@[simp] theorem Group.setLanes_escr0 (o : Opnd) (w : Nat) (ls : List Nat) (h : Nat → Nat) : (g.setLanes o w ls h).escr0 = g.escr0 := rfl
@[simp] theorem Group.setLanes_escr1 (o : Opnd) (w : Nat) (ls : List Nat) (h : Nat → Nat) : (g.setLanes o w ls h).escr1 = g.escr1 := rfl
@[simp] theorem Group.setLanes_evq (o : Opnd) (w : Nat) (ls : List Nat) (h : Nat → Nat) : (g.setLanes o w ls h).evq = g.evq := rfl
@[simp] theorem Group.setLanes_handler (o : Opnd) (w : Nat) (ls : List Nat) (h : Nat → Nat) : (g.setLanes o w ls h).handler = g.handler := rfl
@[simp] theorem Group.setLanes_last (o : Opnd) (w : Nat) (ls : List Nat) (h : Nat → Nat) : (g.setLanes o w ls h).last = g.last := rfl
@[simp] theorem Group.setLanes_tickets (o : Opnd) (w : Nat) (ls : List Nat) (h : Nat → Nat) : (g.setLanes o w ls h).tickets = g.tickets := rfl
@[simp] theorem Group.setLanes_mflt (o : Opnd) (w : Nat) (ls : List Nat) (h : Nat → Nat) : (g.setLanes o w ls h).mflt = g.mflt := rfl
@[simp] theorem Group.setLanes_layout (o : Opnd) (w : Nat) (ls : List Nat) (h : Nat → Nat) : (g.setLanes o w ls h).layout = g.layout := rfl
@[simp] theorem Group.setLanes_srcs (o : Opnd) (w : Nat) (ls : List Nat) (h : Nat → Nat) : (g.setLanes o w ls h).srcs = g.srcs := rfl
@[simp] theorem Group.setLanes_batch (o : Opnd) (w : Nat) (ls : List Nat) (h : Nat → Nat) : (g.setLanes o w ls h).batch = g.batch := rfl

/-! ## Group.setCond -/

@[simp] theorem Group.setCond_uid (n : BitVec 3) (b : Bool) : (g.setCond n b).uid = g.uid := by unfold Group.setCond; split <;> rfl
@[simp] theorem Group.setCond_life (n : BitVec 3) (b : Bool) : (g.setCond n b).life = g.life := by unfold Group.setCond; split <;> rfl
@[simp] theorem Group.setCond_wait (n : BitVec 3) (b : Bool) : (g.setCond n b).wait = g.wait := by unfold Group.setCond; split <;> rfl
@[simp] theorem Group.setCond_issued (n : BitVec 3) (b : Bool) : (g.setCond n b).issued = g.issued := by unfold Group.setCond; split <;> rfl
@[simp] theorem Group.setCond_gang (n : BitVec 3) (b : Bool) : (g.setCond n b).gang = g.gang := by unfold Group.setCond; split <;> rfl
@[simp] theorem Group.setCond_team (n : BitVec 3) (b : Bool) : (g.setCond n b).team = g.team := by unfold Group.setCond; split <;> rfl
@[simp] theorem Group.setCond_rank (n : BitVec 3) (b : Bool) : (g.setCond n b).rank = g.rank := by unfold Group.setCond; split <;> rfl
@[simp] theorem Group.setCond_die (n : BitVec 3) (b : Bool) : (g.setCond n b).die = g.die := by unfold Group.setCond; split <;> rfl
@[simp] theorem Group.setCond_core (n : BitVec 3) (b : Bool) : (g.setCond n b).core = g.core := by unfold Group.setCond; split <;> rfl
@[simp] theorem Group.setCond_slot (n : BitVec 3) (b : Bool) : (g.setCond n b).slot = g.slot := by unfold Group.setCond; split <;> rfl
@[simp] theorem Group.setCond_task (n : BitVec 3) (b : Bool) : (g.setCond n b).task = g.task := by unfold Group.setCond; split <;> rfl
@[simp] theorem Group.setCond_launch (n : BitVec 3) (b : Bool) : (g.setCond n b).launch = g.launch := by unfold Group.setCond; split <;> rfl
@[simp] theorem Group.setCond_waitSince (n : BitVec 3) (b : Bool) : (g.setCond n b).waitSince = g.waitSince := by unfold Group.setCond; split <;> rfl
@[simp] theorem Group.setCond_handed (n : BitVec 3) (b : Bool) : (g.setCond n b).handed = g.handed := by unfold Group.setCond; split <;> rfl
@[simp] theorem Group.setCond_job (n : BitVec 3) (b : Bool) : (g.setCond n b).job = g.job := by unfold Group.setCond; split <;> rfl
@[simp] theorem Group.setCond_alloc (n : BitVec 3) (b : Bool) : (g.setCond n b).alloc = g.alloc := by unfold Group.setCond; split <;> rfl
@[simp] theorem Group.setCond_regs (n : BitVec 3) (b : Bool) : (g.setCond n b).regs = g.regs := by unfold Group.setCond; split <;> rfl
@[simp] theorem Group.setCond_pc (n : BitVec 3) (b : Bool) : (g.setCond n b).pc = g.pc := by unfold Group.setCond; split <;> rfl
@[simp] theorem Group.setCond_masks (n : BitVec 3) (b : Bool) : (g.setCond n b).masks = g.masks := by unfold Group.setCond; split <;> rfl
@[simp] theorem Group.setCond_xs (n : BitVec 3) (b : Bool) : (g.setCond n b).xs = g.xs := by unfold Group.setCond; split <;> rfl
@[simp] theorem Group.setCond_vb (n : BitVec 3) (b : Bool) : (g.setCond n b).vb = g.vb := by unfold Group.setCond; split <;> rfl
@[simp] theorem Group.setCond_tb (n : BitVec 3) (b : Bool) : (g.setCond n b).tb = g.tb := by unfold Group.setCond; split <;> rfl
@[simp] theorem Group.setCond_tsh (n : BitVec 3) (b : Bool) : (g.setCond n b).tsh = g.tsh := by unfold Group.setCond; split <;> rfl
@[simp] theorem Group.setCond_priv (n : BitVec 3) (b : Bool) : (g.setCond n b).priv = g.priv := by unfold Group.setCond; split <;> rfl
@[simp] theorem Group.setCond_pnote (n : BitVec 3) (b : Bool) : (g.setCond n b).pnote = g.pnote := by unfold Group.setCond; split <;> rfl
@[simp] theorem Group.setCond_povf (n : BitVec 3) (b : Bool) : (g.setCond n b).povf = g.povf := by unfold Group.setCond; split <;> rfl
@[simp] theorem Group.setCond_unres (n : BitVec 3) (b : Bool) : (g.setCond n b).unres = g.unres := by unfold Group.setCond; split <;> rfl
@[simp] theorem Group.setCond_preq (n : BitVec 3) (b : Bool) : (g.setCond n b).preq = g.preq := by unfold Group.setCond; split <;> rfl
@[simp] theorem Group.setCond_packed (n : BitVec 3) (b : Bool) : (g.setCond n b).packed = g.packed := by unfold Group.setCond; split <;> rfl
@[simp] theorem Group.setCond_pend (n : BitVec 3) (b : Bool) : (g.setCond n b).pend = g.pend := by unfold Group.setCond; split <;> rfl
@[simp] theorem Group.setCond_epc (n : BitVec 3) (b : Bool) : (g.setCond n b).epc = g.epc := by unfold Group.setCond; split <;> rfl
@[simp] theorem Group.setCond_ecause (n : BitVec 3) (b : Bool) : (g.setCond n b).ecause = g.ecause := by unfold Group.setCond; split <;> rfl
@[simp] theorem Group.setCond_eaddr (n : BitVec 3) (b : Bool) : (g.setCond n b).eaddr = g.eaddr := by unfold Group.setCond; split <;> rfl
@[simp] theorem Group.setCond_eiaddr (n : BitVec 3) (b : Bool) : (g.setCond n b).eiaddr = g.eiaddr := by unfold Group.setCond; split <;> rfl
@[simp] theorem Group.setCond_ewordl (n : BitVec 3) (b : Bool) : (g.setCond n b).ewordl = g.ewordl := by unfold Group.setCond; split <;> rfl
@[simp] theorem Group.setCond_ewordh (n : BitVec 3) (b : Bool) : (g.setCond n b).ewordh = g.ewordh := by unfold Group.setCond; split <;> rfl
@[simp] theorem Group.setCond_escr0 (n : BitVec 3) (b : Bool) : (g.setCond n b).escr0 = g.escr0 := by unfold Group.setCond; split <;> rfl
@[simp] theorem Group.setCond_escr1 (n : BitVec 3) (b : Bool) : (g.setCond n b).escr1 = g.escr1 := by unfold Group.setCond; split <;> rfl
@[simp] theorem Group.setCond_evq (n : BitVec 3) (b : Bool) : (g.setCond n b).evq = g.evq := by unfold Group.setCond; split <;> rfl
@[simp] theorem Group.setCond_handler (n : BitVec 3) (b : Bool) : (g.setCond n b).handler = g.handler := by unfold Group.setCond; split <;> rfl
@[simp] theorem Group.setCond_last (n : BitVec 3) (b : Bool) : (g.setCond n b).last = g.last := by unfold Group.setCond; split <;> rfl
@[simp] theorem Group.setCond_tickets (n : BitVec 3) (b : Bool) : (g.setCond n b).tickets = g.tickets := by unfold Group.setCond; split <;> rfl
@[simp] theorem Group.setCond_mflt (n : BitVec 3) (b : Bool) : (g.setCond n b).mflt = g.mflt := by unfold Group.setCond; split <;> rfl
@[simp] theorem Group.setCond_layout (n : BitVec 3) (b : Bool) : (g.setCond n b).layout = g.layout := by unfold Group.setCond; split <;> rfl
@[simp] theorem Group.setCond_srcs (n : BitVec 3) (b : Bool) : (g.setCond n b).srcs = g.srcs := by unfold Group.setCond; split <;> rfl
@[simp] theorem Group.setCond_batch (n : BitVec 3) (b : Bool) : (g.setCond n b).batch = g.batch := by unfold Group.setCond; split <;> rfl

/-! ## Group.setMask -/

@[simp] theorem Group.setMask_uid (n : BitVec 3) (v : Word) : (g.setMask n v).uid = g.uid := by unfold Group.setMask; split <;> rfl
@[simp] theorem Group.setMask_life (n : BitVec 3) (v : Word) : (g.setMask n v).life = g.life := by unfold Group.setMask; split <;> rfl
@[simp] theorem Group.setMask_wait (n : BitVec 3) (v : Word) : (g.setMask n v).wait = g.wait := by unfold Group.setMask; split <;> rfl
@[simp] theorem Group.setMask_issued (n : BitVec 3) (v : Word) : (g.setMask n v).issued = g.issued := by unfold Group.setMask; split <;> rfl
@[simp] theorem Group.setMask_gang (n : BitVec 3) (v : Word) : (g.setMask n v).gang = g.gang := by unfold Group.setMask; split <;> rfl
@[simp] theorem Group.setMask_team (n : BitVec 3) (v : Word) : (g.setMask n v).team = g.team := by unfold Group.setMask; split <;> rfl
@[simp] theorem Group.setMask_rank (n : BitVec 3) (v : Word) : (g.setMask n v).rank = g.rank := by unfold Group.setMask; split <;> rfl
@[simp] theorem Group.setMask_die (n : BitVec 3) (v : Word) : (g.setMask n v).die = g.die := by unfold Group.setMask; split <;> rfl
@[simp] theorem Group.setMask_core (n : BitVec 3) (v : Word) : (g.setMask n v).core = g.core := by unfold Group.setMask; split <;> rfl
@[simp] theorem Group.setMask_slot (n : BitVec 3) (v : Word) : (g.setMask n v).slot = g.slot := by unfold Group.setMask; split <;> rfl
@[simp] theorem Group.setMask_task (n : BitVec 3) (v : Word) : (g.setMask n v).task = g.task := by unfold Group.setMask; split <;> rfl
@[simp] theorem Group.setMask_launch (n : BitVec 3) (v : Word) : (g.setMask n v).launch = g.launch := by unfold Group.setMask; split <;> rfl
@[simp] theorem Group.setMask_waitSince (n : BitVec 3) (v : Word) : (g.setMask n v).waitSince = g.waitSince := by unfold Group.setMask; split <;> rfl
@[simp] theorem Group.setMask_handed (n : BitVec 3) (v : Word) : (g.setMask n v).handed = g.handed := by unfold Group.setMask; split <;> rfl
@[simp] theorem Group.setMask_job (n : BitVec 3) (v : Word) : (g.setMask n v).job = g.job := by unfold Group.setMask; split <;> rfl
@[simp] theorem Group.setMask_alloc (n : BitVec 3) (v : Word) : (g.setMask n v).alloc = g.alloc := by unfold Group.setMask; split <;> rfl
@[simp] theorem Group.setMask_regs (n : BitVec 3) (v : Word) : (g.setMask n v).regs = g.regs := by unfold Group.setMask; split <;> rfl
@[simp] theorem Group.setMask_pc (n : BitVec 3) (v : Word) : (g.setMask n v).pc = g.pc := by unfold Group.setMask; split <;> rfl
@[simp] theorem Group.setMask_conds (n : BitVec 3) (v : Word) : (g.setMask n v).conds = g.conds := by unfold Group.setMask; split <;> rfl
@[simp] theorem Group.setMask_xs (n : BitVec 3) (v : Word) : (g.setMask n v).xs = g.xs := by unfold Group.setMask; split <;> rfl
@[simp] theorem Group.setMask_vb (n : BitVec 3) (v : Word) : (g.setMask n v).vb = g.vb := by unfold Group.setMask; split <;> rfl
@[simp] theorem Group.setMask_tb (n : BitVec 3) (v : Word) : (g.setMask n v).tb = g.tb := by unfold Group.setMask; split <;> rfl
@[simp] theorem Group.setMask_tsh (n : BitVec 3) (v : Word) : (g.setMask n v).tsh = g.tsh := by unfold Group.setMask; split <;> rfl
@[simp] theorem Group.setMask_priv (n : BitVec 3) (v : Word) : (g.setMask n v).priv = g.priv := by unfold Group.setMask; split <;> rfl
@[simp] theorem Group.setMask_pnote (n : BitVec 3) (v : Word) : (g.setMask n v).pnote = g.pnote := by unfold Group.setMask; split <;> rfl
@[simp] theorem Group.setMask_povf (n : BitVec 3) (v : Word) : (g.setMask n v).povf = g.povf := by unfold Group.setMask; split <;> rfl
@[simp] theorem Group.setMask_unres (n : BitVec 3) (v : Word) : (g.setMask n v).unres = g.unres := by unfold Group.setMask; split <;> rfl
@[simp] theorem Group.setMask_preq (n : BitVec 3) (v : Word) : (g.setMask n v).preq = g.preq := by unfold Group.setMask; split <;> rfl
@[simp] theorem Group.setMask_packed (n : BitVec 3) (v : Word) : (g.setMask n v).packed = g.packed := by unfold Group.setMask; split <;> rfl
@[simp] theorem Group.setMask_pend (n : BitVec 3) (v : Word) : (g.setMask n v).pend = g.pend := by unfold Group.setMask; split <;> rfl
@[simp] theorem Group.setMask_epc (n : BitVec 3) (v : Word) : (g.setMask n v).epc = g.epc := by unfold Group.setMask; split <;> rfl
@[simp] theorem Group.setMask_ecause (n : BitVec 3) (v : Word) : (g.setMask n v).ecause = g.ecause := by unfold Group.setMask; split <;> rfl
@[simp] theorem Group.setMask_eaddr (n : BitVec 3) (v : Word) : (g.setMask n v).eaddr = g.eaddr := by unfold Group.setMask; split <;> rfl
@[simp] theorem Group.setMask_eiaddr (n : BitVec 3) (v : Word) : (g.setMask n v).eiaddr = g.eiaddr := by unfold Group.setMask; split <;> rfl
@[simp] theorem Group.setMask_ewordl (n : BitVec 3) (v : Word) : (g.setMask n v).ewordl = g.ewordl := by unfold Group.setMask; split <;> rfl
@[simp] theorem Group.setMask_ewordh (n : BitVec 3) (v : Word) : (g.setMask n v).ewordh = g.ewordh := by unfold Group.setMask; split <;> rfl
@[simp] theorem Group.setMask_escr0 (n : BitVec 3) (v : Word) : (g.setMask n v).escr0 = g.escr0 := by unfold Group.setMask; split <;> rfl
@[simp] theorem Group.setMask_escr1 (n : BitVec 3) (v : Word) : (g.setMask n v).escr1 = g.escr1 := by unfold Group.setMask; split <;> rfl
@[simp] theorem Group.setMask_evq (n : BitVec 3) (v : Word) : (g.setMask n v).evq = g.evq := by unfold Group.setMask; split <;> rfl
@[simp] theorem Group.setMask_handler (n : BitVec 3) (v : Word) : (g.setMask n v).handler = g.handler := by unfold Group.setMask; split <;> rfl
@[simp] theorem Group.setMask_last (n : BitVec 3) (v : Word) : (g.setMask n v).last = g.last := by unfold Group.setMask; split <;> rfl
@[simp] theorem Group.setMask_tickets (n : BitVec 3) (v : Word) : (g.setMask n v).tickets = g.tickets := by unfold Group.setMask; split <;> rfl
@[simp] theorem Group.setMask_mflt (n : BitVec 3) (v : Word) : (g.setMask n v).mflt = g.mflt := by unfold Group.setMask; split <;> rfl
@[simp] theorem Group.setMask_layout (n : BitVec 3) (v : Word) : (g.setMask n v).layout = g.layout := by unfold Group.setMask; split <;> rfl
@[simp] theorem Group.setMask_srcs (n : BitVec 3) (v : Word) : (g.setMask n v).srcs = g.srcs := by unfold Group.setMask; split <;> rfl
@[simp] theorem Group.setMask_batch (n : BitVec 3) (v : Word) : (g.setMask n v).batch = g.batch := by unfold Group.setMask; split <;> rfl

/-! ## Group.put -/

@[simp] theorem Group.put_uid (o : Opnd) (v : Word) : (g.put o v).uid = g.uid := by unfold Group.put; split <;> simp
@[simp] theorem Group.put_life (o : Opnd) (v : Word) : (g.put o v).life = g.life := by unfold Group.put; split <;> simp
@[simp] theorem Group.put_wait (o : Opnd) (v : Word) : (g.put o v).wait = g.wait := by unfold Group.put; split <;> simp
@[simp] theorem Group.put_issued (o : Opnd) (v : Word) : (g.put o v).issued = g.issued := by unfold Group.put; split <;> simp
@[simp] theorem Group.put_gang (o : Opnd) (v : Word) : (g.put o v).gang = g.gang := by unfold Group.put; split <;> simp
@[simp] theorem Group.put_team (o : Opnd) (v : Word) : (g.put o v).team = g.team := by unfold Group.put; split <;> simp
@[simp] theorem Group.put_rank (o : Opnd) (v : Word) : (g.put o v).rank = g.rank := by unfold Group.put; split <;> simp
@[simp] theorem Group.put_die (o : Opnd) (v : Word) : (g.put o v).die = g.die := by unfold Group.put; split <;> simp
@[simp] theorem Group.put_core (o : Opnd) (v : Word) : (g.put o v).core = g.core := by unfold Group.put; split <;> simp
@[simp] theorem Group.put_slot (o : Opnd) (v : Word) : (g.put o v).slot = g.slot := by unfold Group.put; split <;> simp
@[simp] theorem Group.put_task (o : Opnd) (v : Word) : (g.put o v).task = g.task := by unfold Group.put; split <;> simp
@[simp] theorem Group.put_launch (o : Opnd) (v : Word) : (g.put o v).launch = g.launch := by unfold Group.put; split <;> simp
@[simp] theorem Group.put_waitSince (o : Opnd) (v : Word) : (g.put o v).waitSince = g.waitSince := by unfold Group.put; split <;> simp
@[simp] theorem Group.put_handed (o : Opnd) (v : Word) : (g.put o v).handed = g.handed := by unfold Group.put; split <;> simp
@[simp] theorem Group.put_job (o : Opnd) (v : Word) : (g.put o v).job = g.job := by unfold Group.put; split <;> simp
@[simp] theorem Group.put_alloc (o : Opnd) (v : Word) : (g.put o v).alloc = g.alloc := by unfold Group.put; split <;> simp
@[simp] theorem Group.put_pc (o : Opnd) (v : Word) : (g.put o v).pc = g.pc := by unfold Group.put; split <;> simp
@[simp] theorem Group.put_priv (o : Opnd) (v : Word) : (g.put o v).priv = g.priv := by unfold Group.put; split <;> simp
@[simp] theorem Group.put_pnote (o : Opnd) (v : Word) : (g.put o v).pnote = g.pnote := by unfold Group.put; split <;> simp
@[simp] theorem Group.put_povf (o : Opnd) (v : Word) : (g.put o v).povf = g.povf := by unfold Group.put; split <;> simp
@[simp] theorem Group.put_unres (o : Opnd) (v : Word) : (g.put o v).unres = g.unres := by unfold Group.put; split <;> simp
@[simp] theorem Group.put_preq (o : Opnd) (v : Word) : (g.put o v).preq = g.preq := by unfold Group.put; split <;> simp
@[simp] theorem Group.put_packed (o : Opnd) (v : Word) : (g.put o v).packed = g.packed := by unfold Group.put; split <;> simp
@[simp] theorem Group.put_pend (o : Opnd) (v : Word) : (g.put o v).pend = g.pend := by unfold Group.put; split <;> simp
@[simp] theorem Group.put_epc (o : Opnd) (v : Word) : (g.put o v).epc = g.epc := by unfold Group.put; split <;> simp
@[simp] theorem Group.put_ecause (o : Opnd) (v : Word) : (g.put o v).ecause = g.ecause := by unfold Group.put; split <;> simp
@[simp] theorem Group.put_eaddr (o : Opnd) (v : Word) : (g.put o v).eaddr = g.eaddr := by unfold Group.put; split <;> simp
@[simp] theorem Group.put_eiaddr (o : Opnd) (v : Word) : (g.put o v).eiaddr = g.eiaddr := by unfold Group.put; split <;> simp
@[simp] theorem Group.put_ewordl (o : Opnd) (v : Word) : (g.put o v).ewordl = g.ewordl := by unfold Group.put; split <;> simp
@[simp] theorem Group.put_ewordh (o : Opnd) (v : Word) : (g.put o v).ewordh = g.ewordh := by unfold Group.put; split <;> simp
@[simp] theorem Group.put_escr0 (o : Opnd) (v : Word) : (g.put o v).escr0 = g.escr0 := by unfold Group.put; split <;> simp
@[simp] theorem Group.put_escr1 (o : Opnd) (v : Word) : (g.put o v).escr1 = g.escr1 := by unfold Group.put; split <;> simp
@[simp] theorem Group.put_evq (o : Opnd) (v : Word) : (g.put o v).evq = g.evq := by unfold Group.put; split <;> simp
@[simp] theorem Group.put_handler (o : Opnd) (v : Word) : (g.put o v).handler = g.handler := by unfold Group.put; split <;> simp
@[simp] theorem Group.put_last (o : Opnd) (v : Word) : (g.put o v).last = g.last := by unfold Group.put; split <;> simp
@[simp] theorem Group.put_tickets (o : Opnd) (v : Word) : (g.put o v).tickets = g.tickets := by unfold Group.put; split <;> simp
@[simp] theorem Group.put_mflt (o : Opnd) (v : Word) : (g.put o v).mflt = g.mflt := by unfold Group.put; split <;> simp
@[simp] theorem Group.put_layout (o : Opnd) (v : Word) : (g.put o v).layout = g.layout := by unfold Group.put; split <;> simp
@[simp] theorem Group.put_srcs (o : Opnd) (v : Word) : (g.put o v).srcs = g.srcs := by unfold Group.put; split <;> simp
@[simp] theorem Group.put_batch (o : Opnd) (v : Word) : (g.put o v).batch = g.batch := by unfold Group.put; split <;> simp

/-! ## State.setG -/

@[simp] theorem State.setG_g (g : Group) : (s.setG g).g = g := rfl
@[simp] theorem State.setG_rest (g : Group) : (s.setG g).rest = s.rest := rfl
@[simp] theorem State.setG_gangs (g : Group) : (s.setG g).gangs = s.gangs := rfl
@[simp] theorem State.setG_teams (g : Group) : (s.setG g).teams = s.teams := rfl
@[simp] theorem State.setG_cores (g : Group) : (s.setG g).cores = s.cores := rfl
@[simp] theorem State.setG_dies (g : Group) : (s.setG g).dies = s.dies := rfl
@[simp] theorem State.setG_devs (g : Group) : (s.setG g).devs = s.devs := rfl
@[simp] theorem State.setG_dills (g : Group) : (s.setG g).dills = s.dills := rfl
@[simp] theorem State.setG_hub (g : Group) : (s.setG g).hub = s.hub := rfl
@[simp] theorem State.setG_fab (g : Group) : (s.setG g).fab = s.fab := rfl
@[simp] theorem State.setG_launches (g : Group) : (s.setG g).launches = s.launches := rfl
@[simp] theorem State.setG_tasks (g : Group) : (s.setG g).tasks = s.tasks := rfl
@[simp] theorem State.setG_mem (g : Group) : (s.setG g).mem = s.mem := rfl
@[simp] theorem State.setG_poison (g : Group) : (s.setG g).poison = s.poison := rfl
@[simp] theorem State.setG_side (g : Group) : (s.setG g).side = s.side := rfl
@[simp] theorem State.setG_cache (g : Group) : (s.setG g).cache = s.cache := rfl
@[simp] theorem State.setG_split (g : Group) : (s.setG g).split = s.split := rfl
@[simp] theorem State.setG_mreg (g : Group) : (s.setG g).mreg = s.mreg := rfl
@[simp] theorem State.setG_agenda (g : Group) : (s.setG g).agenda = s.agenda := rfl
@[simp] theorem State.setG_evTurn (g : Group) : (s.setG g).evTurn = s.evTurn := rfl
@[simp] theorem State.setG_evNext (g : Group) : (s.setG g).evNext = s.evNext := rfl
@[simp] theorem State.setG_now (g : Group) : (s.setG g).now = s.now := rfl
@[simp] theorem State.setG_fresh (g : Group) : (s.setG g).fresh = s.fresh := rfl
@[simp] theorem State.setG_free (g : Group) : (s.setG g).free = s.free := rfl

/-! ## State.advance -/

@[simp] theorem State.advance_g : (s.advance).g = s.g.jump (s.g.pc + 12) := rfl
@[simp] theorem State.advance_rest : (s.advance).rest = s.rest := rfl
@[simp] theorem State.advance_gangs : (s.advance).gangs = s.gangs := rfl
@[simp] theorem State.advance_teams : (s.advance).teams = s.teams := rfl
@[simp] theorem State.advance_cores : (s.advance).cores = s.cores := rfl
@[simp] theorem State.advance_dies : (s.advance).dies = s.dies := rfl
@[simp] theorem State.advance_devs : (s.advance).devs = s.devs := rfl
@[simp] theorem State.advance_dills : (s.advance).dills = s.dills := rfl
@[simp] theorem State.advance_hub : (s.advance).hub = s.hub := rfl
@[simp] theorem State.advance_fab : (s.advance).fab = s.fab := rfl
@[simp] theorem State.advance_launches : (s.advance).launches = s.launches := rfl
@[simp] theorem State.advance_tasks : (s.advance).tasks = s.tasks := rfl
@[simp] theorem State.advance_mem : (s.advance).mem = s.mem := rfl
@[simp] theorem State.advance_poison : (s.advance).poison = s.poison := rfl
@[simp] theorem State.advance_side : (s.advance).side = s.side := rfl
@[simp] theorem State.advance_cache : (s.advance).cache = s.cache := rfl
@[simp] theorem State.advance_split : (s.advance).split = s.split := rfl
@[simp] theorem State.advance_mreg : (s.advance).mreg = s.mreg := rfl
@[simp] theorem State.advance_agenda : (s.advance).agenda = s.agenda := rfl
@[simp] theorem State.advance_evTurn : (s.advance).evTurn = s.evTurn := rfl
@[simp] theorem State.advance_evNext : (s.advance).evNext = s.evNext := rfl
@[simp] theorem State.advance_now : (s.advance).now = s.now := rfl
@[simp] theorem State.advance_fresh : (s.advance).fresh = s.fresh := rfl
@[simp] theorem State.advance_free : (s.advance).free = s.free := rfl

/-! ## State.putD -/

@[simp] theorem State.putD_g (f : Fields) (v : Word) : (s.putD f v).g = s.g.put f.d v := rfl
@[simp] theorem State.putD_rest (f : Fields) (v : Word) : (s.putD f v).rest = s.rest := rfl
@[simp] theorem State.putD_gangs (f : Fields) (v : Word) : (s.putD f v).gangs = s.gangs := rfl
@[simp] theorem State.putD_teams (f : Fields) (v : Word) : (s.putD f v).teams = s.teams := rfl
@[simp] theorem State.putD_cores (f : Fields) (v : Word) : (s.putD f v).cores = s.cores := rfl
@[simp] theorem State.putD_dies (f : Fields) (v : Word) : (s.putD f v).dies = s.dies := rfl
@[simp] theorem State.putD_devs (f : Fields) (v : Word) : (s.putD f v).devs = s.devs := rfl
@[simp] theorem State.putD_dills (f : Fields) (v : Word) : (s.putD f v).dills = s.dills := rfl
@[simp] theorem State.putD_hub (f : Fields) (v : Word) : (s.putD f v).hub = s.hub := rfl
@[simp] theorem State.putD_fab (f : Fields) (v : Word) : (s.putD f v).fab = s.fab := rfl
@[simp] theorem State.putD_launches (f : Fields) (v : Word) : (s.putD f v).launches = s.launches := rfl
@[simp] theorem State.putD_tasks (f : Fields) (v : Word) : (s.putD f v).tasks = s.tasks := rfl
@[simp] theorem State.putD_mem (f : Fields) (v : Word) : (s.putD f v).mem = s.mem := rfl
@[simp] theorem State.putD_poison (f : Fields) (v : Word) : (s.putD f v).poison = s.poison := rfl
@[simp] theorem State.putD_side (f : Fields) (v : Word) : (s.putD f v).side = s.side := rfl
@[simp] theorem State.putD_cache (f : Fields) (v : Word) : (s.putD f v).cache = s.cache := rfl
@[simp] theorem State.putD_split (f : Fields) (v : Word) : (s.putD f v).split = s.split := rfl
@[simp] theorem State.putD_mreg (f : Fields) (v : Word) : (s.putD f v).mreg = s.mreg := rfl
@[simp] theorem State.putD_agenda (f : Fields) (v : Word) : (s.putD f v).agenda = s.agenda := rfl
@[simp] theorem State.putD_evTurn (f : Fields) (v : Word) : (s.putD f v).evTurn = s.evTurn := rfl
@[simp] theorem State.putD_evNext (f : Fields) (v : Word) : (s.putD f v).evNext = s.evNext := rfl
@[simp] theorem State.putD_now (f : Fields) (v : Word) : (s.putD f v).now = s.now := rfl
@[simp] theorem State.putD_fresh (f : Fields) (v : Word) : (s.putD f v).fresh = s.fresh := rfl
@[simp] theorem State.putD_free (f : Fields) (v : Word) : (s.putD f v).free = s.free := rfl

/-! ## State.tick -/

@[simp] theorem State.tick_g (n : Nat) : (s.tick n).g = s.g := rfl
@[simp] theorem State.tick_rest (n : Nat) : (s.tick n).rest = s.rest := rfl
@[simp] theorem State.tick_gangs (n : Nat) : (s.tick n).gangs = s.gangs := rfl
@[simp] theorem State.tick_teams (n : Nat) : (s.tick n).teams = s.teams := rfl
@[simp] theorem State.tick_cores (n : Nat) : (s.tick n).cores = s.cores := rfl
@[simp] theorem State.tick_dies (n : Nat) : (s.tick n).dies = s.dies := rfl
@[simp] theorem State.tick_devs (n : Nat) : (s.tick n).devs = s.devs := rfl
@[simp] theorem State.tick_dills (n : Nat) : (s.tick n).dills = s.dills := rfl
@[simp] theorem State.tick_hub (n : Nat) : (s.tick n).hub = s.hub := rfl
@[simp] theorem State.tick_fab (n : Nat) : (s.tick n).fab = s.fab := rfl
@[simp] theorem State.tick_launches (n : Nat) : (s.tick n).launches = s.launches := rfl
@[simp] theorem State.tick_tasks (n : Nat) : (s.tick n).tasks = s.tasks := rfl
@[simp] theorem State.tick_mem (n : Nat) : (s.tick n).mem = s.mem := rfl
@[simp] theorem State.tick_poison (n : Nat) : (s.tick n).poison = s.poison := rfl
@[simp] theorem State.tick_side (n : Nat) : (s.tick n).side = s.side := rfl
@[simp] theorem State.tick_cache (n : Nat) : (s.tick n).cache = s.cache := rfl
@[simp] theorem State.tick_split (n : Nat) : (s.tick n).split = s.split := rfl
@[simp] theorem State.tick_mreg (n : Nat) : (s.tick n).mreg = s.mreg := rfl
@[simp] theorem State.tick_agenda (n : Nat) : (s.tick n).agenda = s.agenda := rfl
@[simp] theorem State.tick_evTurn (n : Nat) : (s.tick n).evTurn = s.evTurn := rfl
@[simp] theorem State.tick_evNext (n : Nat) : (s.tick n).evNext = s.evNext := rfl
@[simp] theorem State.tick_now (n : Nat) : (s.tick n).now = s.now + n := rfl
@[simp] theorem State.tick_fresh (n : Nat) : (s.tick n).fresh = s.fresh := rfl
@[simp] theorem State.tick_free (n : Nat) : (s.tick n).free = s.free := rfl

/-! ## State.setMr -/

@[simp] theorem State.setMr_g (o : Nat) (v : Word) : (s.setMr o v).g = s.g := rfl
@[simp] theorem State.setMr_rest (o : Nat) (v : Word) : (s.setMr o v).rest = s.rest := rfl
@[simp] theorem State.setMr_gangs (o : Nat) (v : Word) : (s.setMr o v).gangs = s.gangs := rfl
@[simp] theorem State.setMr_teams (o : Nat) (v : Word) : (s.setMr o v).teams = s.teams := rfl
@[simp] theorem State.setMr_cores (o : Nat) (v : Word) : (s.setMr o v).cores = s.cores := rfl
@[simp] theorem State.setMr_dies (o : Nat) (v : Word) : (s.setMr o v).dies = s.dies := rfl
@[simp] theorem State.setMr_devs (o : Nat) (v : Word) : (s.setMr o v).devs = s.devs := rfl
@[simp] theorem State.setMr_dills (o : Nat) (v : Word) : (s.setMr o v).dills = s.dills := rfl
@[simp] theorem State.setMr_hub (o : Nat) (v : Word) : (s.setMr o v).hub = s.hub := rfl
@[simp] theorem State.setMr_fab (o : Nat) (v : Word) : (s.setMr o v).fab = s.fab := rfl
@[simp] theorem State.setMr_launches (o : Nat) (v : Word) : (s.setMr o v).launches = s.launches := rfl
@[simp] theorem State.setMr_tasks (o : Nat) (v : Word) : (s.setMr o v).tasks = s.tasks := rfl
@[simp] theorem State.setMr_mem (o : Nat) (v : Word) : (s.setMr o v).mem = s.mem := rfl
@[simp] theorem State.setMr_poison (o : Nat) (v : Word) : (s.setMr o v).poison = s.poison := rfl
@[simp] theorem State.setMr_side (o : Nat) (v : Word) : (s.setMr o v).side = s.side := rfl
@[simp] theorem State.setMr_cache (o : Nat) (v : Word) : (s.setMr o v).cache = s.cache := rfl
@[simp] theorem State.setMr_split (o : Nat) (v : Word) : (s.setMr o v).split = s.split := rfl
@[simp] theorem State.setMr_mreg (o : Nat) (v : Word) : (s.setMr o v).mreg = kset s.mreg o v := rfl
@[simp] theorem State.setMr_agenda (o : Nat) (v : Word) : (s.setMr o v).agenda = s.agenda := rfl
@[simp] theorem State.setMr_evTurn (o : Nat) (v : Word) : (s.setMr o v).evTurn = s.evTurn := rfl
@[simp] theorem State.setMr_evNext (o : Nat) (v : Word) : (s.setMr o v).evNext = s.evNext := rfl
@[simp] theorem State.setMr_now (o : Nat) (v : Word) : (s.setMr o v).now = s.now := rfl
@[simp] theorem State.setMr_fresh (o : Nat) (v : Word) : (s.setMr o v).fresh = s.fresh := rfl
@[simp] theorem State.setMr_free (o : Nat) (v : Word) : (s.setMr o v).free = s.free := rfl

/-! ## State.setCore -/

@[simp] theorem State.setCore_g (d c : Nat) (x : Core) : (s.setCore d c x).g = s.g := rfl
@[simp] theorem State.setCore_rest (d c : Nat) (x : Core) : (s.setCore d c x).rest = s.rest := rfl
@[simp] theorem State.setCore_gangs (d c : Nat) (x : Core) : (s.setCore d c x).gangs = s.gangs := rfl
@[simp] theorem State.setCore_teams (d c : Nat) (x : Core) : (s.setCore d c x).teams = s.teams := rfl
@[simp] theorem State.setCore_cores (d c : Nat) (x : Core) : (s.setCore d c x).cores = kset s.cores (64 * d + c) x := rfl
@[simp] theorem State.setCore_dies (d c : Nat) (x : Core) : (s.setCore d c x).dies = s.dies := rfl
@[simp] theorem State.setCore_devs (d c : Nat) (x : Core) : (s.setCore d c x).devs = s.devs := rfl
@[simp] theorem State.setCore_dills (d c : Nat) (x : Core) : (s.setCore d c x).dills = s.dills := rfl
@[simp] theorem State.setCore_hub (d c : Nat) (x : Core) : (s.setCore d c x).hub = s.hub := rfl
@[simp] theorem State.setCore_fab (d c : Nat) (x : Core) : (s.setCore d c x).fab = s.fab := rfl
@[simp] theorem State.setCore_launches (d c : Nat) (x : Core) : (s.setCore d c x).launches = s.launches := rfl
@[simp] theorem State.setCore_tasks (d c : Nat) (x : Core) : (s.setCore d c x).tasks = s.tasks := rfl
@[simp] theorem State.setCore_mem (d c : Nat) (x : Core) : (s.setCore d c x).mem = s.mem := rfl
@[simp] theorem State.setCore_poison (d c : Nat) (x : Core) : (s.setCore d c x).poison = s.poison := rfl
@[simp] theorem State.setCore_side (d c : Nat) (x : Core) : (s.setCore d c x).side = s.side := rfl
@[simp] theorem State.setCore_cache (d c : Nat) (x : Core) : (s.setCore d c x).cache = s.cache := rfl
@[simp] theorem State.setCore_split (d c : Nat) (x : Core) : (s.setCore d c x).split = s.split := rfl
@[simp] theorem State.setCore_mreg (d c : Nat) (x : Core) : (s.setCore d c x).mreg = s.mreg := rfl
@[simp] theorem State.setCore_agenda (d c : Nat) (x : Core) : (s.setCore d c x).agenda = s.agenda := rfl
@[simp] theorem State.setCore_evTurn (d c : Nat) (x : Core) : (s.setCore d c x).evTurn = s.evTurn := rfl
@[simp] theorem State.setCore_evNext (d c : Nat) (x : Core) : (s.setCore d c x).evNext = s.evNext := rfl
@[simp] theorem State.setCore_now (d c : Nat) (x : Core) : (s.setCore d c x).now = s.now := rfl
@[simp] theorem State.setCore_fresh (d c : Nat) (x : Core) : (s.setCore d c x).fresh = s.fresh := rfl
@[simp] theorem State.setCore_free (d c : Nat) (x : Core) : (s.setCore d c x).free = s.free := rfl

/-! ## State.modCore -/

@[simp] theorem State.modCore_g (d c : Nat) (h : Core → Core) : (s.modCore d c h).g = s.g := rfl
@[simp] theorem State.modCore_rest (d c : Nat) (h : Core → Core) : (s.modCore d c h).rest = s.rest := rfl
@[simp] theorem State.modCore_gangs (d c : Nat) (h : Core → Core) : (s.modCore d c h).gangs = s.gangs := rfl
@[simp] theorem State.modCore_teams (d c : Nat) (h : Core → Core) : (s.modCore d c h).teams = s.teams := rfl
@[simp] theorem State.modCore_cores (d c : Nat) (h : Core → Core) : (s.modCore d c h).cores = kset s.cores (64 * d + c) (h (s.core d c)) := rfl
@[simp] theorem State.modCore_dies (d c : Nat) (h : Core → Core) : (s.modCore d c h).dies = s.dies := rfl
@[simp] theorem State.modCore_devs (d c : Nat) (h : Core → Core) : (s.modCore d c h).devs = s.devs := rfl
@[simp] theorem State.modCore_dills (d c : Nat) (h : Core → Core) : (s.modCore d c h).dills = s.dills := rfl
@[simp] theorem State.modCore_hub (d c : Nat) (h : Core → Core) : (s.modCore d c h).hub = s.hub := rfl
@[simp] theorem State.modCore_fab (d c : Nat) (h : Core → Core) : (s.modCore d c h).fab = s.fab := rfl
@[simp] theorem State.modCore_launches (d c : Nat) (h : Core → Core) : (s.modCore d c h).launches = s.launches := rfl
@[simp] theorem State.modCore_tasks (d c : Nat) (h : Core → Core) : (s.modCore d c h).tasks = s.tasks := rfl
@[simp] theorem State.modCore_mem (d c : Nat) (h : Core → Core) : (s.modCore d c h).mem = s.mem := rfl
@[simp] theorem State.modCore_poison (d c : Nat) (h : Core → Core) : (s.modCore d c h).poison = s.poison := rfl
@[simp] theorem State.modCore_side (d c : Nat) (h : Core → Core) : (s.modCore d c h).side = s.side := rfl
@[simp] theorem State.modCore_cache (d c : Nat) (h : Core → Core) : (s.modCore d c h).cache = s.cache := rfl
@[simp] theorem State.modCore_split (d c : Nat) (h : Core → Core) : (s.modCore d c h).split = s.split := rfl
@[simp] theorem State.modCore_mreg (d c : Nat) (h : Core → Core) : (s.modCore d c h).mreg = s.mreg := rfl
@[simp] theorem State.modCore_agenda (d c : Nat) (h : Core → Core) : (s.modCore d c h).agenda = s.agenda := rfl
@[simp] theorem State.modCore_evTurn (d c : Nat) (h : Core → Core) : (s.modCore d c h).evTurn = s.evTurn := rfl
@[simp] theorem State.modCore_evNext (d c : Nat) (h : Core → Core) : (s.modCore d c h).evNext = s.evNext := rfl
@[simp] theorem State.modCore_now (d c : Nat) (h : Core → Core) : (s.modCore d c h).now = s.now := rfl
@[simp] theorem State.modCore_fresh (d c : Nat) (h : Core → Core) : (s.modCore d c h).fresh = s.fresh := rfl
@[simp] theorem State.modCore_free (d c : Nat) (h : Core → Core) : (s.modCore d c h).free = s.free := rfl

/-! ## State.modDie -/

@[simp] theorem State.modDie_g (d : Nat) (h : Die → Die) : (s.modDie d h).g = s.g := rfl
@[simp] theorem State.modDie_rest (d : Nat) (h : Die → Die) : (s.modDie d h).rest = s.rest := rfl
@[simp] theorem State.modDie_gangs (d : Nat) (h : Die → Die) : (s.modDie d h).gangs = s.gangs := rfl
@[simp] theorem State.modDie_teams (d : Nat) (h : Die → Die) : (s.modDie d h).teams = s.teams := rfl
@[simp] theorem State.modDie_cores (d : Nat) (h : Die → Die) : (s.modDie d h).cores = s.cores := rfl
@[simp] theorem State.modDie_dies (d : Nat) (h : Die → Die) : (s.modDie d h).dies = kset s.dies d (h (s.die d)) := rfl
@[simp] theorem State.modDie_devs (d : Nat) (h : Die → Die) : (s.modDie d h).devs = s.devs := rfl
@[simp] theorem State.modDie_dills (d : Nat) (h : Die → Die) : (s.modDie d h).dills = s.dills := rfl
@[simp] theorem State.modDie_hub (d : Nat) (h : Die → Die) : (s.modDie d h).hub = s.hub := rfl
@[simp] theorem State.modDie_fab (d : Nat) (h : Die → Die) : (s.modDie d h).fab = s.fab := rfl
@[simp] theorem State.modDie_launches (d : Nat) (h : Die → Die) : (s.modDie d h).launches = s.launches := rfl
@[simp] theorem State.modDie_tasks (d : Nat) (h : Die → Die) : (s.modDie d h).tasks = s.tasks := rfl
@[simp] theorem State.modDie_mem (d : Nat) (h : Die → Die) : (s.modDie d h).mem = s.mem := rfl
@[simp] theorem State.modDie_poison (d : Nat) (h : Die → Die) : (s.modDie d h).poison = s.poison := rfl
@[simp] theorem State.modDie_side (d : Nat) (h : Die → Die) : (s.modDie d h).side = s.side := rfl
@[simp] theorem State.modDie_cache (d : Nat) (h : Die → Die) : (s.modDie d h).cache = s.cache := rfl
@[simp] theorem State.modDie_split (d : Nat) (h : Die → Die) : (s.modDie d h).split = s.split := rfl
@[simp] theorem State.modDie_mreg (d : Nat) (h : Die → Die) : (s.modDie d h).mreg = s.mreg := rfl
@[simp] theorem State.modDie_agenda (d : Nat) (h : Die → Die) : (s.modDie d h).agenda = s.agenda := rfl
@[simp] theorem State.modDie_evTurn (d : Nat) (h : Die → Die) : (s.modDie d h).evTurn = s.evTurn := rfl
@[simp] theorem State.modDie_evNext (d : Nat) (h : Die → Die) : (s.modDie d h).evNext = s.evNext := rfl
@[simp] theorem State.modDie_now (d : Nat) (h : Die → Die) : (s.modDie d h).now = s.now := rfl
@[simp] theorem State.modDie_fresh (d : Nat) (h : Die → Die) : (s.modDie d h).fresh = s.fresh := rfl
@[simp] theorem State.modDie_free (d : Nat) (h : Die → Die) : (s.modDie d h).free = s.free := rfl

/-! ## State.modDev -/

@[simp] theorem State.modDev_g (n : Nat) (h : Dev → Dev) : (s.modDev n h).g = s.g := rfl
@[simp] theorem State.modDev_rest (n : Nat) (h : Dev → Dev) : (s.modDev n h).rest = s.rest := rfl
@[simp] theorem State.modDev_gangs (n : Nat) (h : Dev → Dev) : (s.modDev n h).gangs = s.gangs := rfl
@[simp] theorem State.modDev_teams (n : Nat) (h : Dev → Dev) : (s.modDev n h).teams = s.teams := rfl
@[simp] theorem State.modDev_cores (n : Nat) (h : Dev → Dev) : (s.modDev n h).cores = s.cores := rfl
@[simp] theorem State.modDev_dies (n : Nat) (h : Dev → Dev) : (s.modDev n h).dies = s.dies := rfl
@[simp] theorem State.modDev_devs (n : Nat) (h : Dev → Dev) : (s.modDev n h).devs = kset s.devs n (h (s.dev n)) := rfl
@[simp] theorem State.modDev_dills (n : Nat) (h : Dev → Dev) : (s.modDev n h).dills = s.dills := rfl
@[simp] theorem State.modDev_hub (n : Nat) (h : Dev → Dev) : (s.modDev n h).hub = s.hub := rfl
@[simp] theorem State.modDev_fab (n : Nat) (h : Dev → Dev) : (s.modDev n h).fab = s.fab := rfl
@[simp] theorem State.modDev_launches (n : Nat) (h : Dev → Dev) : (s.modDev n h).launches = s.launches := rfl
@[simp] theorem State.modDev_tasks (n : Nat) (h : Dev → Dev) : (s.modDev n h).tasks = s.tasks := rfl
@[simp] theorem State.modDev_mem (n : Nat) (h : Dev → Dev) : (s.modDev n h).mem = s.mem := rfl
@[simp] theorem State.modDev_poison (n : Nat) (h : Dev → Dev) : (s.modDev n h).poison = s.poison := rfl
@[simp] theorem State.modDev_side (n : Nat) (h : Dev → Dev) : (s.modDev n h).side = s.side := rfl
@[simp] theorem State.modDev_cache (n : Nat) (h : Dev → Dev) : (s.modDev n h).cache = s.cache := rfl
@[simp] theorem State.modDev_split (n : Nat) (h : Dev → Dev) : (s.modDev n h).split = s.split := rfl
@[simp] theorem State.modDev_mreg (n : Nat) (h : Dev → Dev) : (s.modDev n h).mreg = s.mreg := rfl
@[simp] theorem State.modDev_agenda (n : Nat) (h : Dev → Dev) : (s.modDev n h).agenda = s.agenda := rfl
@[simp] theorem State.modDev_evTurn (n : Nat) (h : Dev → Dev) : (s.modDev n h).evTurn = s.evTurn := rfl
@[simp] theorem State.modDev_evNext (n : Nat) (h : Dev → Dev) : (s.modDev n h).evNext = s.evNext := rfl
@[simp] theorem State.modDev_now (n : Nat) (h : Dev → Dev) : (s.modDev n h).now = s.now := rfl
@[simp] theorem State.modDev_fresh (n : Nat) (h : Dev → Dev) : (s.modDev n h).fresh = s.fresh := rfl
@[simp] theorem State.modDev_free (n : Nat) (h : Dev → Dev) : (s.modDev n h).free = s.free := rfl

/-! ## State.modDill -/

@[simp] theorem State.modDill_g (k : Nat) (h : Dill → Dill) : (s.modDill k h).g = s.g := rfl
@[simp] theorem State.modDill_rest (k : Nat) (h : Dill → Dill) : (s.modDill k h).rest = s.rest := rfl
@[simp] theorem State.modDill_gangs (k : Nat) (h : Dill → Dill) : (s.modDill k h).gangs = s.gangs := rfl
@[simp] theorem State.modDill_teams (k : Nat) (h : Dill → Dill) : (s.modDill k h).teams = s.teams := rfl
@[simp] theorem State.modDill_cores (k : Nat) (h : Dill → Dill) : (s.modDill k h).cores = s.cores := rfl
@[simp] theorem State.modDill_dies (k : Nat) (h : Dill → Dill) : (s.modDill k h).dies = s.dies := rfl
@[simp] theorem State.modDill_devs (k : Nat) (h : Dill → Dill) : (s.modDill k h).devs = s.devs := rfl
@[simp] theorem State.modDill_dills (k : Nat) (h : Dill → Dill) : (s.modDill k h).dills = kset s.dills k (h (s.dill k)) := rfl
@[simp] theorem State.modDill_hub (k : Nat) (h : Dill → Dill) : (s.modDill k h).hub = s.hub := rfl
@[simp] theorem State.modDill_fab (k : Nat) (h : Dill → Dill) : (s.modDill k h).fab = s.fab := rfl
@[simp] theorem State.modDill_launches (k : Nat) (h : Dill → Dill) : (s.modDill k h).launches = s.launches := rfl
@[simp] theorem State.modDill_tasks (k : Nat) (h : Dill → Dill) : (s.modDill k h).tasks = s.tasks := rfl
@[simp] theorem State.modDill_mem (k : Nat) (h : Dill → Dill) : (s.modDill k h).mem = s.mem := rfl
@[simp] theorem State.modDill_poison (k : Nat) (h : Dill → Dill) : (s.modDill k h).poison = s.poison := rfl
@[simp] theorem State.modDill_side (k : Nat) (h : Dill → Dill) : (s.modDill k h).side = s.side := rfl
@[simp] theorem State.modDill_cache (k : Nat) (h : Dill → Dill) : (s.modDill k h).cache = s.cache := rfl
@[simp] theorem State.modDill_split (k : Nat) (h : Dill → Dill) : (s.modDill k h).split = s.split := rfl
@[simp] theorem State.modDill_mreg (k : Nat) (h : Dill → Dill) : (s.modDill k h).mreg = s.mreg := rfl
@[simp] theorem State.modDill_agenda (k : Nat) (h : Dill → Dill) : (s.modDill k h).agenda = s.agenda := rfl
@[simp] theorem State.modDill_evTurn (k : Nat) (h : Dill → Dill) : (s.modDill k h).evTurn = s.evTurn := rfl
@[simp] theorem State.modDill_evNext (k : Nat) (h : Dill → Dill) : (s.modDill k h).evNext = s.evNext := rfl
@[simp] theorem State.modDill_now (k : Nat) (h : Dill → Dill) : (s.modDill k h).now = s.now := rfl
@[simp] theorem State.modDill_fresh (k : Nat) (h : Dill → Dill) : (s.modDill k h).fresh = s.fresh := rfl
@[simp] theorem State.modDill_free (k : Nat) (h : Dill → Dill) : (s.modDill k h).free = s.free := rfl

/-! ## State.setTeam -/

@[simp] theorem State.setTeam_g (a b : Nat) (t : Team) : (s.setTeam a b t).g = s.g := rfl
@[simp] theorem State.setTeam_rest (a b : Nat) (t : Team) : (s.setTeam a b t).rest = s.rest := rfl
@[simp] theorem State.setTeam_gangs (a b : Nat) (t : Team) : (s.setTeam a b t).gangs = s.gangs := rfl
@[simp] theorem State.setTeam_teams (a b : Nat) (t : Team) : (s.setTeam a b t).teams = kset s.teams (teamKey a b) t := rfl
@[simp] theorem State.setTeam_cores (a b : Nat) (t : Team) : (s.setTeam a b t).cores = s.cores := rfl
@[simp] theorem State.setTeam_dies (a b : Nat) (t : Team) : (s.setTeam a b t).dies = s.dies := rfl
@[simp] theorem State.setTeam_devs (a b : Nat) (t : Team) : (s.setTeam a b t).devs = s.devs := rfl
@[simp] theorem State.setTeam_dills (a b : Nat) (t : Team) : (s.setTeam a b t).dills = s.dills := rfl
@[simp] theorem State.setTeam_hub (a b : Nat) (t : Team) : (s.setTeam a b t).hub = s.hub := rfl
@[simp] theorem State.setTeam_fab (a b : Nat) (t : Team) : (s.setTeam a b t).fab = s.fab := rfl
@[simp] theorem State.setTeam_launches (a b : Nat) (t : Team) : (s.setTeam a b t).launches = s.launches := rfl
@[simp] theorem State.setTeam_tasks (a b : Nat) (t : Team) : (s.setTeam a b t).tasks = s.tasks := rfl
@[simp] theorem State.setTeam_mem (a b : Nat) (t : Team) : (s.setTeam a b t).mem = s.mem := rfl
@[simp] theorem State.setTeam_poison (a b : Nat) (t : Team) : (s.setTeam a b t).poison = s.poison := rfl
@[simp] theorem State.setTeam_side (a b : Nat) (t : Team) : (s.setTeam a b t).side = s.side := rfl
@[simp] theorem State.setTeam_cache (a b : Nat) (t : Team) : (s.setTeam a b t).cache = s.cache := rfl
@[simp] theorem State.setTeam_split (a b : Nat) (t : Team) : (s.setTeam a b t).split = s.split := rfl
@[simp] theorem State.setTeam_mreg (a b : Nat) (t : Team) : (s.setTeam a b t).mreg = s.mreg := rfl
@[simp] theorem State.setTeam_agenda (a b : Nat) (t : Team) : (s.setTeam a b t).agenda = s.agenda := rfl
@[simp] theorem State.setTeam_evTurn (a b : Nat) (t : Team) : (s.setTeam a b t).evTurn = s.evTurn := rfl
@[simp] theorem State.setTeam_evNext (a b : Nat) (t : Team) : (s.setTeam a b t).evNext = s.evNext := rfl
@[simp] theorem State.setTeam_now (a b : Nat) (t : Team) : (s.setTeam a b t).now = s.now := rfl
@[simp] theorem State.setTeam_fresh (a b : Nat) (t : Team) : (s.setTeam a b t).fresh = s.fresh := rfl
@[simp] theorem State.setTeam_free (a b : Nat) (t : Team) : (s.setTeam a b t).free = s.free := rfl

/-! ## State.modTeam -/

@[simp] theorem State.modTeam_g (a b : Nat) (h : Team → Team) : (s.modTeam a b h).g = s.g := by unfold State.modTeam; split <;> rfl
@[simp] theorem State.modTeam_rest (a b : Nat) (h : Team → Team) : (s.modTeam a b h).rest = s.rest := by unfold State.modTeam; split <;> rfl
@[simp] theorem State.modTeam_gangs (a b : Nat) (h : Team → Team) : (s.modTeam a b h).gangs = s.gangs := by unfold State.modTeam; split <;> rfl
@[simp] theorem State.modTeam_cores (a b : Nat) (h : Team → Team) : (s.modTeam a b h).cores = s.cores := by unfold State.modTeam; split <;> rfl
@[simp] theorem State.modTeam_dies (a b : Nat) (h : Team → Team) : (s.modTeam a b h).dies = s.dies := by unfold State.modTeam; split <;> rfl
@[simp] theorem State.modTeam_devs (a b : Nat) (h : Team → Team) : (s.modTeam a b h).devs = s.devs := by unfold State.modTeam; split <;> rfl
@[simp] theorem State.modTeam_dills (a b : Nat) (h : Team → Team) : (s.modTeam a b h).dills = s.dills := by unfold State.modTeam; split <;> rfl
@[simp] theorem State.modTeam_hub (a b : Nat) (h : Team → Team) : (s.modTeam a b h).hub = s.hub := by unfold State.modTeam; split <;> rfl
@[simp] theorem State.modTeam_fab (a b : Nat) (h : Team → Team) : (s.modTeam a b h).fab = s.fab := by unfold State.modTeam; split <;> rfl
@[simp] theorem State.modTeam_launches (a b : Nat) (h : Team → Team) : (s.modTeam a b h).launches = s.launches := by unfold State.modTeam; split <;> rfl
@[simp] theorem State.modTeam_tasks (a b : Nat) (h : Team → Team) : (s.modTeam a b h).tasks = s.tasks := by unfold State.modTeam; split <;> rfl
@[simp] theorem State.modTeam_mem (a b : Nat) (h : Team → Team) : (s.modTeam a b h).mem = s.mem := by unfold State.modTeam; split <;> rfl
@[simp] theorem State.modTeam_poison (a b : Nat) (h : Team → Team) : (s.modTeam a b h).poison = s.poison := by unfold State.modTeam; split <;> rfl
@[simp] theorem State.modTeam_side (a b : Nat) (h : Team → Team) : (s.modTeam a b h).side = s.side := by unfold State.modTeam; split <;> rfl
@[simp] theorem State.modTeam_cache (a b : Nat) (h : Team → Team) : (s.modTeam a b h).cache = s.cache := by unfold State.modTeam; split <;> rfl
@[simp] theorem State.modTeam_split (a b : Nat) (h : Team → Team) : (s.modTeam a b h).split = s.split := by unfold State.modTeam; split <;> rfl
@[simp] theorem State.modTeam_mreg (a b : Nat) (h : Team → Team) : (s.modTeam a b h).mreg = s.mreg := by unfold State.modTeam; split <;> rfl
@[simp] theorem State.modTeam_agenda (a b : Nat) (h : Team → Team) : (s.modTeam a b h).agenda = s.agenda := by unfold State.modTeam; split <;> rfl
@[simp] theorem State.modTeam_evTurn (a b : Nat) (h : Team → Team) : (s.modTeam a b h).evTurn = s.evTurn := by unfold State.modTeam; split <;> rfl
@[simp] theorem State.modTeam_evNext (a b : Nat) (h : Team → Team) : (s.modTeam a b h).evNext = s.evNext := by unfold State.modTeam; split <;> rfl
@[simp] theorem State.modTeam_now (a b : Nat) (h : Team → Team) : (s.modTeam a b h).now = s.now := by unfold State.modTeam; split <;> rfl
@[simp] theorem State.modTeam_fresh (a b : Nat) (h : Team → Team) : (s.modTeam a b h).fresh = s.fresh := by unfold State.modTeam; split <;> rfl
@[simp] theorem State.modTeam_free (a b : Nat) (h : Team → Team) : (s.modTeam a b h).free = s.free := by unfold State.modTeam; split <;> rfl

/-! ## State.modGang -/

@[simp] theorem State.modGang_g (k : Nat) (h : Gang → Gang) : (s.modGang k h).g = s.g := by unfold State.modGang; split <;> rfl
@[simp] theorem State.modGang_rest (k : Nat) (h : Gang → Gang) : (s.modGang k h).rest = s.rest := by unfold State.modGang; split <;> rfl
@[simp] theorem State.modGang_teams (k : Nat) (h : Gang → Gang) : (s.modGang k h).teams = s.teams := by unfold State.modGang; split <;> rfl
@[simp] theorem State.modGang_cores (k : Nat) (h : Gang → Gang) : (s.modGang k h).cores = s.cores := by unfold State.modGang; split <;> rfl
@[simp] theorem State.modGang_dies (k : Nat) (h : Gang → Gang) : (s.modGang k h).dies = s.dies := by unfold State.modGang; split <;> rfl
@[simp] theorem State.modGang_devs (k : Nat) (h : Gang → Gang) : (s.modGang k h).devs = s.devs := by unfold State.modGang; split <;> rfl
@[simp] theorem State.modGang_dills (k : Nat) (h : Gang → Gang) : (s.modGang k h).dills = s.dills := by unfold State.modGang; split <;> rfl
@[simp] theorem State.modGang_hub (k : Nat) (h : Gang → Gang) : (s.modGang k h).hub = s.hub := by unfold State.modGang; split <;> rfl
@[simp] theorem State.modGang_fab (k : Nat) (h : Gang → Gang) : (s.modGang k h).fab = s.fab := by unfold State.modGang; split <;> rfl
@[simp] theorem State.modGang_launches (k : Nat) (h : Gang → Gang) : (s.modGang k h).launches = s.launches := by unfold State.modGang; split <;> rfl
@[simp] theorem State.modGang_tasks (k : Nat) (h : Gang → Gang) : (s.modGang k h).tasks = s.tasks := by unfold State.modGang; split <;> rfl
@[simp] theorem State.modGang_mem (k : Nat) (h : Gang → Gang) : (s.modGang k h).mem = s.mem := by unfold State.modGang; split <;> rfl
@[simp] theorem State.modGang_poison (k : Nat) (h : Gang → Gang) : (s.modGang k h).poison = s.poison := by unfold State.modGang; split <;> rfl
@[simp] theorem State.modGang_side (k : Nat) (h : Gang → Gang) : (s.modGang k h).side = s.side := by unfold State.modGang; split <;> rfl
@[simp] theorem State.modGang_cache (k : Nat) (h : Gang → Gang) : (s.modGang k h).cache = s.cache := by unfold State.modGang; split <;> rfl
@[simp] theorem State.modGang_split (k : Nat) (h : Gang → Gang) : (s.modGang k h).split = s.split := by unfold State.modGang; split <;> rfl
@[simp] theorem State.modGang_mreg (k : Nat) (h : Gang → Gang) : (s.modGang k h).mreg = s.mreg := by unfold State.modGang; split <;> rfl
@[simp] theorem State.modGang_agenda (k : Nat) (h : Gang → Gang) : (s.modGang k h).agenda = s.agenda := by unfold State.modGang; split <;> rfl
@[simp] theorem State.modGang_evTurn (k : Nat) (h : Gang → Gang) : (s.modGang k h).evTurn = s.evTurn := by unfold State.modGang; split <;> rfl
@[simp] theorem State.modGang_evNext (k : Nat) (h : Gang → Gang) : (s.modGang k h).evNext = s.evNext := by unfold State.modGang; split <;> rfl
@[simp] theorem State.modGang_now (k : Nat) (h : Gang → Gang) : (s.modGang k h).now = s.now := by unfold State.modGang; split <;> rfl
@[simp] theorem State.modGang_fresh (k : Nat) (h : Gang → Gang) : (s.modGang k h).fresh = s.fresh := by unfold State.modGang; split <;> rfl
@[simp] theorem State.modGang_free (k : Nat) (h : Gang → Gang) : (s.modGang k h).free = s.free := by unfold State.modGang; split <;> rfl

/-! ## State.modLaunch -/

@[simp] theorem State.modLaunch_g (k : Nat) (h : Launch → Launch) : (s.modLaunch k h).g = s.g := by unfold State.modLaunch; split <;> rfl
@[simp] theorem State.modLaunch_rest (k : Nat) (h : Launch → Launch) : (s.modLaunch k h).rest = s.rest := by unfold State.modLaunch; split <;> rfl
@[simp] theorem State.modLaunch_gangs (k : Nat) (h : Launch → Launch) : (s.modLaunch k h).gangs = s.gangs := by unfold State.modLaunch; split <;> rfl
@[simp] theorem State.modLaunch_teams (k : Nat) (h : Launch → Launch) : (s.modLaunch k h).teams = s.teams := by unfold State.modLaunch; split <;> rfl
@[simp] theorem State.modLaunch_cores (k : Nat) (h : Launch → Launch) : (s.modLaunch k h).cores = s.cores := by unfold State.modLaunch; split <;> rfl
@[simp] theorem State.modLaunch_dies (k : Nat) (h : Launch → Launch) : (s.modLaunch k h).dies = s.dies := by unfold State.modLaunch; split <;> rfl
@[simp] theorem State.modLaunch_devs (k : Nat) (h : Launch → Launch) : (s.modLaunch k h).devs = s.devs := by unfold State.modLaunch; split <;> rfl
@[simp] theorem State.modLaunch_dills (k : Nat) (h : Launch → Launch) : (s.modLaunch k h).dills = s.dills := by unfold State.modLaunch; split <;> rfl
@[simp] theorem State.modLaunch_hub (k : Nat) (h : Launch → Launch) : (s.modLaunch k h).hub = s.hub := by unfold State.modLaunch; split <;> rfl
@[simp] theorem State.modLaunch_fab (k : Nat) (h : Launch → Launch) : (s.modLaunch k h).fab = s.fab := by unfold State.modLaunch; split <;> rfl
@[simp] theorem State.modLaunch_tasks (k : Nat) (h : Launch → Launch) : (s.modLaunch k h).tasks = s.tasks := by unfold State.modLaunch; split <;> rfl
@[simp] theorem State.modLaunch_mem (k : Nat) (h : Launch → Launch) : (s.modLaunch k h).mem = s.mem := by unfold State.modLaunch; split <;> rfl
@[simp] theorem State.modLaunch_poison (k : Nat) (h : Launch → Launch) : (s.modLaunch k h).poison = s.poison := by unfold State.modLaunch; split <;> rfl
@[simp] theorem State.modLaunch_side (k : Nat) (h : Launch → Launch) : (s.modLaunch k h).side = s.side := by unfold State.modLaunch; split <;> rfl
@[simp] theorem State.modLaunch_cache (k : Nat) (h : Launch → Launch) : (s.modLaunch k h).cache = s.cache := by unfold State.modLaunch; split <;> rfl
@[simp] theorem State.modLaunch_split (k : Nat) (h : Launch → Launch) : (s.modLaunch k h).split = s.split := by unfold State.modLaunch; split <;> rfl
@[simp] theorem State.modLaunch_mreg (k : Nat) (h : Launch → Launch) : (s.modLaunch k h).mreg = s.mreg := by unfold State.modLaunch; split <;> rfl
@[simp] theorem State.modLaunch_agenda (k : Nat) (h : Launch → Launch) : (s.modLaunch k h).agenda = s.agenda := by unfold State.modLaunch; split <;> rfl
@[simp] theorem State.modLaunch_evTurn (k : Nat) (h : Launch → Launch) : (s.modLaunch k h).evTurn = s.evTurn := by unfold State.modLaunch; split <;> rfl
@[simp] theorem State.modLaunch_evNext (k : Nat) (h : Launch → Launch) : (s.modLaunch k h).evNext = s.evNext := by unfold State.modLaunch; split <;> rfl
@[simp] theorem State.modLaunch_now (k : Nat) (h : Launch → Launch) : (s.modLaunch k h).now = s.now := by unfold State.modLaunch; split <;> rfl
@[simp] theorem State.modLaunch_fresh (k : Nat) (h : Launch → Launch) : (s.modLaunch k h).fresh = s.fresh := by unfold State.modLaunch; split <;> rfl
@[simp] theorem State.modLaunch_free (k : Nat) (h : Launch → Launch) : (s.modLaunch k h).free = s.free := by unfold State.modLaunch; split <;> rfl

/-! ## State.modTask -/

@[simp] theorem State.modTask_g (k : Nat) (h : Task → Task) : (s.modTask k h).g = s.g := by unfold State.modTask; split <;> rfl
@[simp] theorem State.modTask_rest (k : Nat) (h : Task → Task) : (s.modTask k h).rest = s.rest := by unfold State.modTask; split <;> rfl
@[simp] theorem State.modTask_gangs (k : Nat) (h : Task → Task) : (s.modTask k h).gangs = s.gangs := by unfold State.modTask; split <;> rfl
@[simp] theorem State.modTask_teams (k : Nat) (h : Task → Task) : (s.modTask k h).teams = s.teams := by unfold State.modTask; split <;> rfl
@[simp] theorem State.modTask_cores (k : Nat) (h : Task → Task) : (s.modTask k h).cores = s.cores := by unfold State.modTask; split <;> rfl
@[simp] theorem State.modTask_dies (k : Nat) (h : Task → Task) : (s.modTask k h).dies = s.dies := by unfold State.modTask; split <;> rfl
@[simp] theorem State.modTask_devs (k : Nat) (h : Task → Task) : (s.modTask k h).devs = s.devs := by unfold State.modTask; split <;> rfl
@[simp] theorem State.modTask_dills (k : Nat) (h : Task → Task) : (s.modTask k h).dills = s.dills := by unfold State.modTask; split <;> rfl
@[simp] theorem State.modTask_hub (k : Nat) (h : Task → Task) : (s.modTask k h).hub = s.hub := by unfold State.modTask; split <;> rfl
@[simp] theorem State.modTask_fab (k : Nat) (h : Task → Task) : (s.modTask k h).fab = s.fab := by unfold State.modTask; split <;> rfl
@[simp] theorem State.modTask_launches (k : Nat) (h : Task → Task) : (s.modTask k h).launches = s.launches := by unfold State.modTask; split <;> rfl
@[simp] theorem State.modTask_mem (k : Nat) (h : Task → Task) : (s.modTask k h).mem = s.mem := by unfold State.modTask; split <;> rfl
@[simp] theorem State.modTask_poison (k : Nat) (h : Task → Task) : (s.modTask k h).poison = s.poison := by unfold State.modTask; split <;> rfl
@[simp] theorem State.modTask_side (k : Nat) (h : Task → Task) : (s.modTask k h).side = s.side := by unfold State.modTask; split <;> rfl
@[simp] theorem State.modTask_cache (k : Nat) (h : Task → Task) : (s.modTask k h).cache = s.cache := by unfold State.modTask; split <;> rfl
@[simp] theorem State.modTask_split (k : Nat) (h : Task → Task) : (s.modTask k h).split = s.split := by unfold State.modTask; split <;> rfl
@[simp] theorem State.modTask_mreg (k : Nat) (h : Task → Task) : (s.modTask k h).mreg = s.mreg := by unfold State.modTask; split <;> rfl
@[simp] theorem State.modTask_agenda (k : Nat) (h : Task → Task) : (s.modTask k h).agenda = s.agenda := by unfold State.modTask; split <;> rfl
@[simp] theorem State.modTask_evTurn (k : Nat) (h : Task → Task) : (s.modTask k h).evTurn = s.evTurn := by unfold State.modTask; split <;> rfl
@[simp] theorem State.modTask_evNext (k : Nat) (h : Task → Task) : (s.modTask k h).evNext = s.evNext := by unfold State.modTask; split <;> rfl
@[simp] theorem State.modTask_now (k : Nat) (h : Task → Task) : (s.modTask k h).now = s.now := by unfold State.modTask; split <;> rfl
@[simp] theorem State.modTask_fresh (k : Nat) (h : Task → Task) : (s.modTask k h).fresh = s.fresh := by unfold State.modTask; split <;> rfl
@[simp] theorem State.modTask_free (k : Nat) (h : Task → Task) : (s.modTask k h).free = s.free := by unfold State.modTask; split <;> rfl

/-! ## State.modGroup -/

@[simp] theorem State.modGroup_gangs (u : Nat) (h : Group → Group) : (s.modGroup u h).gangs = s.gangs := by unfold State.modGroup; split <;> rfl
@[simp] theorem State.modGroup_teams (u : Nat) (h : Group → Group) : (s.modGroup u h).teams = s.teams := by unfold State.modGroup; split <;> rfl
@[simp] theorem State.modGroup_cores (u : Nat) (h : Group → Group) : (s.modGroup u h).cores = s.cores := by unfold State.modGroup; split <;> rfl
@[simp] theorem State.modGroup_dies (u : Nat) (h : Group → Group) : (s.modGroup u h).dies = s.dies := by unfold State.modGroup; split <;> rfl
@[simp] theorem State.modGroup_devs (u : Nat) (h : Group → Group) : (s.modGroup u h).devs = s.devs := by unfold State.modGroup; split <;> rfl
@[simp] theorem State.modGroup_dills (u : Nat) (h : Group → Group) : (s.modGroup u h).dills = s.dills := by unfold State.modGroup; split <;> rfl
@[simp] theorem State.modGroup_hub (u : Nat) (h : Group → Group) : (s.modGroup u h).hub = s.hub := by unfold State.modGroup; split <;> rfl
@[simp] theorem State.modGroup_fab (u : Nat) (h : Group → Group) : (s.modGroup u h).fab = s.fab := by unfold State.modGroup; split <;> rfl
@[simp] theorem State.modGroup_launches (u : Nat) (h : Group → Group) : (s.modGroup u h).launches = s.launches := by unfold State.modGroup; split <;> rfl
@[simp] theorem State.modGroup_tasks (u : Nat) (h : Group → Group) : (s.modGroup u h).tasks = s.tasks := by unfold State.modGroup; split <;> rfl
@[simp] theorem State.modGroup_mem (u : Nat) (h : Group → Group) : (s.modGroup u h).mem = s.mem := by unfold State.modGroup; split <;> rfl
@[simp] theorem State.modGroup_poison (u : Nat) (h : Group → Group) : (s.modGroup u h).poison = s.poison := by unfold State.modGroup; split <;> rfl
@[simp] theorem State.modGroup_side (u : Nat) (h : Group → Group) : (s.modGroup u h).side = s.side := by unfold State.modGroup; split <;> rfl
@[simp] theorem State.modGroup_cache (u : Nat) (h : Group → Group) : (s.modGroup u h).cache = s.cache := by unfold State.modGroup; split <;> rfl
@[simp] theorem State.modGroup_split (u : Nat) (h : Group → Group) : (s.modGroup u h).split = s.split := by unfold State.modGroup; split <;> rfl
@[simp] theorem State.modGroup_mreg (u : Nat) (h : Group → Group) : (s.modGroup u h).mreg = s.mreg := by unfold State.modGroup; split <;> rfl
@[simp] theorem State.modGroup_agenda (u : Nat) (h : Group → Group) : (s.modGroup u h).agenda = s.agenda := by unfold State.modGroup; split <;> rfl
@[simp] theorem State.modGroup_evTurn (u : Nat) (h : Group → Group) : (s.modGroup u h).evTurn = s.evTurn := by unfold State.modGroup; split <;> rfl
@[simp] theorem State.modGroup_evNext (u : Nat) (h : Group → Group) : (s.modGroup u h).evNext = s.evNext := by unfold State.modGroup; split <;> rfl
@[simp] theorem State.modGroup_now (u : Nat) (h : Group → Group) : (s.modGroup u h).now = s.now := by unfold State.modGroup; split <;> rfl
@[simp] theorem State.modGroup_fresh (u : Nat) (h : Group → Group) : (s.modGroup u h).fresh = s.fresh := by unfold State.modGroup; split <;> rfl
@[simp] theorem State.modGroup_free (u : Nat) (h : Group → Group) : (s.modGroup u h).free = s.free := by unfold State.modGroup; split <;> rfl

/-! ## State.modGroups -/

@[simp] theorem State.modGroups_g (h : Group → Group) : (s.modGroups h).g = h s.g := rfl
@[simp] theorem State.modGroups_rest (h : Group → Group) : (s.modGroups h).rest = s.rest.map h := rfl
@[simp] theorem State.modGroups_gangs (h : Group → Group) : (s.modGroups h).gangs = s.gangs := rfl
@[simp] theorem State.modGroups_teams (h : Group → Group) : (s.modGroups h).teams = s.teams := rfl
@[simp] theorem State.modGroups_cores (h : Group → Group) : (s.modGroups h).cores = s.cores := rfl
@[simp] theorem State.modGroups_dies (h : Group → Group) : (s.modGroups h).dies = s.dies := rfl
@[simp] theorem State.modGroups_devs (h : Group → Group) : (s.modGroups h).devs = s.devs := rfl
@[simp] theorem State.modGroups_dills (h : Group → Group) : (s.modGroups h).dills = s.dills := rfl
@[simp] theorem State.modGroups_hub (h : Group → Group) : (s.modGroups h).hub = s.hub := rfl
@[simp] theorem State.modGroups_fab (h : Group → Group) : (s.modGroups h).fab = s.fab := rfl
@[simp] theorem State.modGroups_launches (h : Group → Group) : (s.modGroups h).launches = s.launches := rfl
@[simp] theorem State.modGroups_tasks (h : Group → Group) : (s.modGroups h).tasks = s.tasks := rfl
@[simp] theorem State.modGroups_mem (h : Group → Group) : (s.modGroups h).mem = s.mem := rfl
@[simp] theorem State.modGroups_poison (h : Group → Group) : (s.modGroups h).poison = s.poison := rfl
@[simp] theorem State.modGroups_side (h : Group → Group) : (s.modGroups h).side = s.side := rfl
@[simp] theorem State.modGroups_cache (h : Group → Group) : (s.modGroups h).cache = s.cache := rfl
@[simp] theorem State.modGroups_split (h : Group → Group) : (s.modGroups h).split = s.split := rfl
@[simp] theorem State.modGroups_mreg (h : Group → Group) : (s.modGroups h).mreg = s.mreg := rfl
@[simp] theorem State.modGroups_agenda (h : Group → Group) : (s.modGroups h).agenda = s.agenda := rfl
@[simp] theorem State.modGroups_evTurn (h : Group → Group) : (s.modGroups h).evTurn = s.evTurn := rfl
@[simp] theorem State.modGroups_evNext (h : Group → Group) : (s.modGroups h).evNext = s.evNext := rfl
@[simp] theorem State.modGroups_now (h : Group → Group) : (s.modGroups h).now = s.now := rfl
@[simp] theorem State.modGroups_fresh (h : Group → Group) : (s.modGroups h).fresh = s.fresh := rfl
@[simp] theorem State.modGroups_free (h : Group → Group) : (s.modGroups h).free = s.free := rfl

end Sys2Proof.Machine
end

