-- ==== Sys2Proof/Laws/Ops.lean ====
section
/-! SUPPORT. What the shared operations of Machine/Ops.lean can do: issue, the outcomes of an instruction's own part, taking a
trap and returning. -/

namespace Sys2Proof.Machine

set_option Elab.async false

variable {cls : GClass} {priv : Bool} {refs : Group → List Ref} {f : Fields} {body : State → Out} {s t : State}

/-- Nothing is overwritten where no source byte is left to read. -/
theorem overwrites_of_read (h : s.unread s.g = []) (cls : GClass) (rs : List Ref) (f : Fields) (body : State → Out) :
    s.overwrites cls rs f body = false := by simp [State.overwrites, h, runBytes]

/-- With no source byte left to read, what an instruction has done stands (R288). -/
theorem guardSources_of_read (h : s.unread s.g = []) (rs : List Ref) : guardSources cls rs f body s = body s := by
  unfold guardSources
  split
  · simp [overwrites_of_read h, *]
  · rfl

/-- An instruction's own part stands, or it is done and would write a source byte still to be read: then it is held, and a wait that it has
already keeps what that has brought (R104, R288). -/
theorem guardSources_cases (s : State) (cls : GClass) (rs : List Ref) (f : Fields) (body : State → Out) :
    guardSources cls rs f body s = body s ∨
    (∃ t, body s = .done t ∧ s.overwrites cls rs f body = true ∧
      guardSources cls rs f body s = .wait (if s.g.wait = .run then s.setG { s.g with wait := .held 0 s.now } else s)) := by
  unfold guardSources
  split
  · rename_i t ht
    by_cases h : s.overwrites cls rs f body = true
    · exact .inr ⟨t, ht, h, by simp [h]⟩
    · exact .inl (by simp [h, ht])
  · exact .inl rfl

/-- The mark of a D that is only read is no operand. -/
@[simp] theorem regbound_srcD (g h : Group) : g.regbound (srcD refs h) = g.regbound (refs h) := by
  simp [Group.regbound, srcD, Ref.noDest, Group.inRange, Opnd.isScalar, Opnd.isView, Opnd.isTile]
/-- A form whose D is only read executes as its operands do. -/
theorem Executes.srcD (h : Executes cls priv refs f s) : Executes cls priv (srcD refs) f s :=
  ⟨h.active, h.guard, h.mode, by simpa using h.operands, h.sources⟩

/-- An instruction that executes does its own part. -/
theorem issue_of_executes (h : Executes cls priv refs f s) : issue cls priv refs f body s = (body s).res := by
  have hp : (priv && !s.g.priv) = false := by cases priv <;> simp_all [h.mode]
  simp [issue, h.active, h.guard, hp, h.operands, guardSources_of_read h.sources]

/-- A guard that is false leaves only the program counter's advance (R66). -/
theorem issue_of_not_executed (ha : s.g.life = .active) (h : executed cls f s.g = false) :
    issue cls priv refs f body s = .next s.advance := by simp [issue, ha, h]

/-- A privileged instruction in an unprivileged group takes PRIV (R75). -/
theorem issue_of_unprivileged (ha : s.g.life = .active) (h : executed cls f s.g = true) (hp : s.g.priv = false) :
    issue cls true refs f body s = .next (s.takeTrap { cause := cPRIV }) := by simp [issue, ha, h, hp]

/-- An operand out of range takes REGBOUND (R65). -/
theorem issue_of_regbound {r : FRec} (ha : s.g.life = .active) (h : executed cls f s.g = true) (hp : priv = true → s.g.priv = true)
    (hr : s.g.regbound (refs s.g) = some r) : issue cls priv refs f body s = .next (s.takeTrap r) := by
  have hp' : (priv && !s.g.priv) = false := by cases priv <;> simp_all
  simp [issue, ha, h, hp', hr]

/-- An outcome of an instruction's own part is a next state. -/
theorem Out.res_next (o : Out) : ∃ t, o.res = .next t := by cases o <;> exact ⟨_, rfl⟩

/-- An active group's instruction ends in a next state. -/
theorem issue_next (ha : s.g.life = .active) : ∃ t, issue cls priv refs f body s = .next t := by
  unfold issue
  rw [if_neg (by simp [ha])]
  split
  · exact ⟨_, rfl⟩
  · split
    · exact ⟨_, rfl⟩
    · split
      · exact ⟨_, rfl⟩
      · exact Out.res_next _

/-- Everything an instruction can do: the inversion of issue. -/
theorem issue_cases (h : issue cls priv refs f body s = .next t) :
    (executed cls f s.g = false ∧ t = s.advance) ∨
    (executed cls f s.g = true ∧ priv = true ∧ s.g.priv = false ∧ t = s.takeTrap { cause := cPRIV }) ∨
    (∃ r, executed cls f s.g = true ∧ s.g.regbound (refs s.g) = some r ∧ t = s.takeTrap r) ∨
    (s.g.life = .active ∧ executed cls f s.g = true ∧ (priv = true → s.g.priv = true) ∧ s.g.regbound (refs s.g) = none ∧
      (guardSources cls (refs s.g) f body s).res = .next t) := by
  unfold issue at h
  split at h
  · cases h
  · rename_i ha
    split at h
    · rename_i hx; simp at hx; cases h; exact .inl ⟨hx, rfl⟩
    · rename_i hx
      simp at hx
      split at h
      · rename_i hp; simp at hp; cases h; exact .inr (.inl ⟨hx, hp.1, hp.2, rfl⟩)
      · rename_i hp
        split at h
        · rename_i r hr; cases h; exact .inr (.inr (.inl ⟨_, hx, hr, rfl⟩))
        · rename_i hr
          refine .inr (.inr (.inr ⟨by simpa using ha, hx, ?_, hr, h⟩))
          intro hpt; simpa [hpt] using hp

/-! ## The log and a launch's failure leave the groups and memory alone -/

@[simp] theorem log_g (s : State) (d : Nat) (r : FRec) : (s.log d r).g = s.g := rfl
@[simp] theorem log_rest (s : State) (d : Nat) (r : FRec) : (s.log d r).rest = s.rest := rfl
@[simp] theorem log_mem (s : State) (d : Nat) (r : FRec) : (s.log d r).mem = s.mem := rfl
@[simp] theorem log_cores (s : State) (d : Nat) (r : FRec) : (s.log d r).cores = s.cores := rfl
@[simp] theorem log_teams (s : State) (d : Nat) (r : FRec) : (s.log d r).teams = s.teams := rfl
@[simp] theorem log_mreg (s : State) (d : Nat) (r : FRec) : (s.log d r).mreg = s.mreg := rfl
@[simp] theorem log_launches (s : State) (d : Nat) (r : FRec) : (s.log d r).launches = s.launches := rfl
/-- An entry raises FLHEAD by one (R326, R331). -/
theorem log_flhead (s : State) (r : FRec) : (s.log s.g.die r).flhead = s.flhead + 1 := by
  simp [State.flhead, State.log, State.modDev, State.dev]

@[simp] theorem failLaunch_g (s : State) (l : Nat) : (s.failLaunch l).g = s.g := by simp [State.failLaunch]
@[simp] theorem failLaunch_rest (s : State) (l : Nat) : (s.failLaunch l).rest = s.rest := by simp [State.failLaunch]
@[simp] theorem failLaunch_mem (s : State) (l : Nat) : (s.failLaunch l).mem = s.mem := by simp [State.failLaunch]
@[simp] theorem failLaunch_cores (s : State) (l : Nat) : (s.failLaunch l).cores = s.cores := by simp [State.failLaunch]
@[simp] theorem failLaunch_teams (s : State) (l : Nat) : (s.failLaunch l).teams = s.teams := by simp [State.failLaunch]
@[simp] theorem failLaunch_mreg (s : State) (l : Nat) : (s.failLaunch l).mreg = s.mreg := by simp [State.failLaunch]
@[simp] theorem failLaunch_devs (s : State) (l : Nat) : (s.failLaunch l).devs = s.devs := by simp [State.failLaunch]

/-! ## Entering the handler -/

/-- The group as entry leaves it (R325). -/
def Group.entered (g : Group) (r : FRec) (handler : Word) : Group :=
  let ill := r.cause = cILLEGAL
  { g with
    epc := if r.cause = cSWTRAP then g.pc + 12 else g.pc
    ecause := r.ecause
    eaddr := r.addr
    eiaddr := g.pc
    ewordl := if ill then r.word.setWidth 64 else 0
    ewordh := if ill then (r.word.extractLsb' 64 32).setWidth 64 else 0
    priv := true
    pc := handler
    wait := .run
    unres := if quietCause r.cause then g.unres else true }

section
variable {s : State} {r : FRec}

theorem takeTrap_enter_g (hi : r.imp = false) (he : s.canEnter = true) (hb : (decide (r.cause = cBRK) && s.vec.getLsbD 61) = false) :
    (s.takeTrap r).g = s.g.entered r s.handlerPc := by
  unfold State.takeTrap
  simp only [hi, Bool.false_eq_true, if_false, Group.fill, hb, he, if_true, Bool.false_or]
  cases hq : quietCause r.cause <;> by_cases hl : r.cause = cLINKDN <;>
    simp [hl, State.enterHandler, Group.entered, FRec.ecause, hq, State.handlerPc, State.vec, State.mr] <;> simp_all

theorem takeTrap_enter_frame (hi : r.imp = false) (he : s.canEnter = true)
    (hb : (decide (r.cause = cBRK) && s.vec.getLsbD 61) = false) :
    (s.takeTrap r).mem = s.mem ∧ (s.takeTrap r).rest = s.rest ∧ (s.takeTrap r).cores = s.cores ∧ (s.takeTrap r).teams = s.teams
      ∧ (s.takeTrap r).flhead = if quietCause r.cause then s.flhead else s.flhead + 1 := by
  unfold State.takeTrap
  simp only [hi, Bool.false_eq_true, if_false, Group.fill, hb, he, if_true, Bool.false_or]
  have hf : ∀ x, (s.log s.g.die x).flhead = s.flhead + 1 := log_flhead s
  simp only [State.flhead, State.dev] at hf ⊢
  cases hq : quietCause r.cause <;> by_cases hl : r.cause = cLINKDN <;>
    simp [hl, State.enterHandler] <;> simp_all
end

end Sys2Proof.Machine
end

