-- ==== Sys2Proof/Laws/PerInstr.lean ====
section
/-! SUPPORT. The family Rows, one lemma per instruction: the row of the encoding table that stands for a Jeniz instruction has its
opcode and function and builds it again; an event, which has no word, is well formed when its numbers
lie in the ranges of the parts it names (spec/04 R56, R72-R74). -/

namespace Sys2Proof.Laws.Rows

set_option Elab.async false

/-- An instruction's opcode and function fit their fields, and one of the opcode's rows has the function and builds the instruction; of an
event, what its well-formedness is. -/
def Statement (i : Instr) : Prop :=
  match i.parts with
  | some (opc, fn, f) => opc < 256 ∧ fn < 64 ∧ ∃ (k : Nat) (r : Row), (rowsOf opc)[k]? = some r ∧ r.form.fn = fn ∧ r.ctor f = i
  | none => i.wf = i.eventWf

theorem nop (f : Fields) : Statement (.nop f) := ⟨by decide, by decide, 0, _, rfl, rfl, rfl⟩
theorem yield (f : Fields) : Statement (.yield f) := ⟨by decide, by decide, 1, _, rfl, rfl, rfl⟩
theorem sadd (f : Fields) : Statement (.sadd f) := ⟨by decide, by decide, 0, _, rfl, rfl, rfl⟩
theorem ssub (f : Fields) : Statement (.ssub f) := ⟨by decide, by decide, 1, _, rfl, rfl, rfl⟩
theorem smul (f : Fields) : Statement (.smul f) := ⟨by decide, by decide, 2, _, rfl, rfl, rfl⟩
theorem smulh (f : Fields) : Statement (.smulh f) := ⟨by decide, by decide, 3, _, rfl, rfl, rfl⟩
theorem sdiv (f : Fields) : Statement (.sdiv f) := ⟨by decide, by decide, 4, _, rfl, rfl, rfl⟩
theorem srem (f : Fields) : Statement (.srem f) := ⟨by decide, by decide, 5, _, rfl, rfl, rfl⟩
theorem sand (f : Fields) : Statement (.sand f) := ⟨by decide, by decide, 6, _, rfl, rfl, rfl⟩
theorem sor (f : Fields) : Statement (.sor f) := ⟨by decide, by decide, 7, _, rfl, rfl, rfl⟩
theorem sxor (f : Fields) : Statement (.sxor f) := ⟨by decide, by decide, 8, _, rfl, rfl, rfl⟩
theorem sshl (f : Fields) : Statement (.sshl f) := ⟨by decide, by decide, 9, _, rfl, rfl, rfl⟩
theorem sshr (f : Fields) : Statement (.sshr f) := ⟨by decide, by decide, 10, _, rfl, rfl, rfl⟩
theorem ssra (f : Fields) : Statement (.ssra f) := ⟨by decide, by decide, 11, _, rfl, rfl, rfl⟩
theorem smin (f : Fields) : Statement (.smin f) := ⟨by decide, by decide, 12, _, rfl, rfl, rfl⟩
theorem smax (f : Fields) : Statement (.smax f) := ⟨by decide, by decide, 13, _, rfl, rfl, rfl⟩
theorem spopc (f : Fields) : Statement (.spopc f) := ⟨by decide, by decide, 14, _, rfl, rfl, rfl⟩
theorem sclz (f : Fields) : Statement (.sclz f) := ⟨by decide, by decide, 15, _, rfl, rfl, rfl⟩
theorem smov (f : Fields) : Statement (.smov f) := ⟨by decide, by decide, 0, _, rfl, rfl, rfl⟩
theorem sli (f : Fields) : Statement (.sli f) := ⟨by decide, by decide, 1, _, rfl, rfl, rfl⟩
theorem slih (f : Fields) : Statement (.slih f) := ⟨by decide, by decide, 2, _, rfl, rfl, rfl⟩
theorem scmp (f : Fields) : Statement (.scmp f) := ⟨by decide, by decide, 3, _, rfl, rfl, rfl⟩
theorem ssel (f : Fields) : Statement (.ssel f) := ⟨by decide, by decide, 4, _, rfl, rfl, rfl⟩
theorem bra (f : Fields) : Statement (.bra f) := ⟨by decide, by decide, 0, _, rfl, rfl, rfl⟩
theorem brc (f : Fields) : Statement (.brc f) := ⟨by decide, by decide, 1, _, rfl, rfl, rfl⟩
theorem call (f : Fields) : Statement (.call f) := ⟨by decide, by decide, 2, _, rfl, rfl, rfl⟩
theorem callIndirect (f : Fields) : Statement (.callIndirect f) := ⟨by decide, by decide, 3, _, rfl, rfl, rfl⟩
theorem ret (f : Fields) : Statement (.ret f) := ⟨by decide, by decide, 4, _, rfl, rfl, rfl⟩
theorem loop (f : Fields) : Statement (.loop f) := ⟨by decide, by decide, 5, _, rfl, rfl, rfl⟩
theorem jidx (f : Fields) : Statement (.jidx f) := ⟨by decide, by decide, 6, _, rfl, rfl, rfl⟩
theorem id (f : Fields) : Statement (.id f) := ⟨by decide, by decide, 0, _, rfl, rfl, rfl⟩
theorem view (f : Fields) : Statement (.view f) := ⟨by decide, by decide, 1, _, rfl, rfl, rfl⟩
theorem xset (f : Fields) : Statement (.xset f) := ⟨by decide, by decide, 2, _, rfl, rfl, rfl⟩
theorem xadd (f : Fields) : Statement (.xadd f) := ⟨by decide, by decide, 3, _, rfl, rfl, rfl⟩
theorem many (f : Fields) : Statement (.many f) := ⟨by decide, by decide, 0, _, rfl, rfl, rfl⟩
theorem mall (f : Fields) : Statement (.mall f) := ⟨by decide, by decide, 1, _, rfl, rfl, rfl⟩
theorem mlog (f : Fields) : Statement (.mlog f) := ⟨by decide, by decide, 2, _, rfl, rfl, rfl⟩
theorem mfrom (f : Fields) : Statement (.mfrom f) := ⟨by decide, by decide, 3, _, rfl, rfl, rfl⟩
theorem vadd (f : Fields) : Statement (.vadd f) := ⟨by decide, by decide, 0, _, rfl, rfl, rfl⟩
theorem vsub (f : Fields) : Statement (.vsub f) := ⟨by decide, by decide, 1, _, rfl, rfl, rfl⟩
theorem vmul (f : Fields) : Statement (.vmul f) := ⟨by decide, by decide, 2, _, rfl, rfl, rfl⟩
theorem vmulh (f : Fields) : Statement (.vmulh f) := ⟨by decide, by decide, 3, _, rfl, rfl, rfl⟩
theorem vfma (f : Fields) : Statement (.vfma f) := ⟨by decide, by decide, 4, _, rfl, rfl, rfl⟩
theorem vfms (f : Fields) : Statement (.vfms f) := ⟨by decide, by decide, 5, _, rfl, rfl, rfl⟩
theorem vmin (f : Fields) : Statement (.vmin f) := ⟨by decide, by decide, 6, _, rfl, rfl, rfl⟩
theorem vmax (f : Fields) : Statement (.vmax f) := ⟨by decide, by decide, 7, _, rfl, rfl, rfl⟩
theorem vabs (f : Fields) : Statement (.vabs f) := ⟨by decide, by decide, 8, _, rfl, rfl, rfl⟩
theorem vneg (f : Fields) : Statement (.vneg f) := ⟨by decide, by decide, 9, _, rfl, rfl, rfl⟩
theorem vdiv (f : Fields) : Statement (.vdiv f) := ⟨by decide, by decide, 10, _, rfl, rfl, rfl⟩
theorem vrcp (f : Fields) : Statement (.vrcp f) := ⟨by decide, by decide, 0, _, rfl, rfl, rfl⟩
theorem vrsq (f : Fields) : Statement (.vrsq f) := ⟨by decide, by decide, 1, _, rfl, rfl, rfl⟩
theorem vsqrt (f : Fields) : Statement (.vsqrt f) := ⟨by decide, by decide, 2, _, rfl, rfl, rfl⟩
theorem vexp2 (f : Fields) : Statement (.vexp2 f) := ⟨by decide, by decide, 3, _, rfl, rfl, rfl⟩
theorem vlog2 (f : Fields) : Statement (.vlog2 f) := ⟨by decide, by decide, 4, _, rfl, rfl, rfl⟩
theorem vsinp (f : Fields) : Statement (.vsinp f) := ⟨by decide, by decide, 5, _, rfl, rfl, rfl⟩
theorem vcosp (f : Fields) : Statement (.vcosp f) := ⟨by decide, by decide, 6, _, rfl, rfl, rfl⟩
theorem vand (f : Fields) : Statement (.vand f) := ⟨by decide, by decide, 0, _, rfl, rfl, rfl⟩
theorem vor (f : Fields) : Statement (.vor f) := ⟨by decide, by decide, 1, _, rfl, rfl, rfl⟩
theorem vxor (f : Fields) : Statement (.vxor f) := ⟨by decide, by decide, 2, _, rfl, rfl, rfl⟩
theorem vnot (f : Fields) : Statement (.vnot f) := ⟨by decide, by decide, 3, _, rfl, rfl, rfl⟩
theorem vshl (f : Fields) : Statement (.vshl f) := ⟨by decide, by decide, 4, _, rfl, rfl, rfl⟩
theorem vshr (f : Fields) : Statement (.vshr f) := ⟨by decide, by decide, 5, _, rfl, rfl, rfl⟩
theorem vsra (f : Fields) : Statement (.vsra f) := ⟨by decide, by decide, 6, _, rfl, rfl, rfl⟩
theorem vpopc (f : Fields) : Statement (.vpopc f) := ⟨by decide, by decide, 7, _, rfl, rfl, rfl⟩
theorem vclz (f : Fields) : Statement (.vclz f) := ⟨by decide, by decide, 8, _, rfl, rfl, rfl⟩
theorem vcmp (f : Fields) : Statement (.vcmp f) := ⟨by decide, by decide, 0, _, rfl, rfl, rfl⟩
theorem vsel (f : Fields) : Statement (.vsel f) := ⟨by decide, by decide, 1, _, rfl, rfl, rfl⟩
theorem vcvt (f : Fields) : Statement (.vcvt f) := ⟨by decide, by decide, 0, _, rfl, rfl, rfl⟩
theorem vpack (f : Fields) : Statement (.vpack f) := ⟨by decide, by decide, 1, _, rfl, rfl, rfl⟩
theorem vunpk (f : Fields) : Statement (.vunpk f) := ⟨by decide, by decide, 2, _, rfl, rfl, rfl⟩
theorem vscale (f : Fields) : Statement (.vscale f) := ⟨by decide, by decide, 3, _, rfl, rfl, rfl⟩
theorem vquant (f : Fields) : Statement (.vquant f) := ⟨by decide, by decide, 4, _, rfl, rfl, rfl⟩
theorem vmov (f : Fields) : Statement (.vmov f) := ⟨by decide, by decide, 0, _, rfl, rfl, rfl⟩
theorem vbc (f : Fields) : Statement (.vbc f) := ⟨by decide, by decide, 1, _, rfl, rfl, rfl⟩
theorem vext (f : Fields) : Statement (.vext f) := ⟨by decide, by decide, 2, _, rfl, rfl, rfl⟩
theorem vins (f : Fields) : Statement (.vins f) := ⟨by decide, by decide, 3, _, rfl, rfl, rfl⟩
theorem vshuf (f : Fields) : Statement (.vshuf f) := ⟨by decide, by decide, 4, _, rfl, rfl, rfl⟩
theorem vidx (f : Fields) : Statement (.vidx f) := ⟨by decide, by decide, 5, _, rfl, rfl, rfl⟩
theorem vred (f : Fields) : Statement (.vred f) := ⟨by decide, by decide, 0, _, rfl, rfl, rfl⟩
theorem vscan (f : Fields) : Statement (.vscan f) := ⟨by decide, by decide, 1, _, rfl, rfl, rfl⟩
theorem ld (f : Fields) : Statement (.ld f) := ⟨by decide, by decide, 0, _, rfl, rfl, rfl⟩
theorem ldFormat (f : Fields) : Statement (.ldFormat f) := ⟨by decide, by decide, 1, _, rfl, rfl, rfl⟩
theorem st (f : Fields) : Statement (.st f) := ⟨by decide, by decide, 2, _, rfl, rfl, rfl⟩
theorem sld (f : Fields) : Statement (.sld f) := ⟨by decide, by decide, 3, _, rfl, rfl, rfl⟩
theorem sst (f : Fields) : Statement (.sst f) := ⟨by decide, by decide, 4, _, rfl, rfl, rfl⟩
theorem ldg (f : Fields) : Statement (.ldg f) := ⟨by decide, by decide, 5, _, rfl, rfl, rfl⟩
theorem stg (f : Fields) : Statement (.stg f) := ⟨by decide, by decide, 6, _, rfl, rfl, rfl⟩
theorem lds (f : Fields) : Statement (.lds f) := ⟨by decide, by decide, 0, _, rfl, rfl, rfl⟩
theorem sts (f : Fields) : Statement (.sts f) := ⟨by decide, by decide, 1, _, rfl, rfl, rfl⟩
theorem ldsb (f : Fields) : Statement (.ldsb f) := ⟨by decide, by decide, 2, _, rfl, rfl, rfl⟩
theorem atom (f : Fields) : Statement (.atom f) := ⟨by decide, by decide, 1, _, rfl, rfl, rfl⟩
theorem atomsc (f : Fields) : Statement (.atomsc f) := ⟨by decide, by decide, 2, _, rfl, rfl, rfl⟩
theorem cas (f : Fields) : Statement (.cas f) := ⟨by decide, by decide, 4, _, rfl, rfl, rfl⟩
theorem lease (f : Fields) : Statement (.lease f) := ⟨by decide, by decide, 0, _, rfl, rfl, rfl⟩
theorem unlease (f : Fields) : Statement (.unlease f) := ⟨by decide, by decide, 1, _, rfl, rfl, rfl⟩
theorem qlock (f : Fields) : Statement (.qlock f) := ⟨by decide, by decide, 2, _, rfl, rfl, rfl⟩
theorem qunlock (f : Fields) : Statement (.qunlock f) := ⟨by decide, by decide, 3, _, rfl, rfl, rfl⟩
theorem acq (f : Fields) : Statement (.acq f) := ⟨by decide, by decide, 0, _, rfl, rfl, rfl⟩
theorem rel (f : Fields) : Statement (.rel f) := ⟨by decide, by decide, 1, _, rfl, rfl, rfl⟩
theorem fence (f : Fields) : Statement (.fence f) := ⟨by decide, by decide, 2, _, rfl, rfl, rfl⟩
theorem acpy (f : Fields) : Statement (.acpy f) := ⟨by decide, by decide, 0, _, rfl, rfl, rfl⟩
theorem acpyb (f : Fields) : Statement (.acpyb f) := ⟨by decide, by decide, 1, _, rfl, rfl, rfl⟩
theorem pref (f : Fields) : Statement (.pref f) := ⟨by decide, by decide, 0, _, rfl, rfl, rfl⟩
theorem retain (f : Fields) : Statement (.retain f) := ⟨by decide, by decide, 1, _, rfl, rfl, rfl⟩
theorem cacheClean (f : Fields) : Statement (.cacheClean f) := ⟨by decide, by decide, 2, _, rfl, rfl, rfl⟩
theorem cacheEvict (f : Fields) : Statement (.cacheEvict f) := ⟨by decide, by decide, 3, _, rfl, rfl, rfl⟩
theorem cacheDemote (f : Fields) : Statement (.cacheDemote f) := ⟨by decide, by decide, 4, _, rfl, rfl, rfl⟩
theorem cacheIinv (f : Fields) : Statement (.cacheIinv f) := ⟨by decide, by decide, 5, _, rfl, rfl, rfl⟩
theorem evwait (f : Fields) : Statement (.evwait f) := ⟨by decide, by decide, 0, _, rfl, rfl, rfl⟩
theorem evpoll (f : Fields) : Statement (.evpoll f) := ⟨by decide, by decide, 1, _, rfl, rfl, rfl⟩
theorem qsend (f : Fields) : Statement (.qsend f) := ⟨by decide, by decide, 0, _, rfl, rfl, rfl⟩
theorem qrecv (f : Fields) : Statement (.qrecv f) := ⟨by decide, by decide, 1, _, rfl, rfl, rfl⟩
theorem qtrys (f : Fields) : Statement (.qtrys f) := ⟨by decide, by decide, 2, _, rfl, rfl, rfl⟩
theorem qtryr (f : Fields) : Statement (.qtryr f) := ⟨by decide, by decide, 3, _, rfl, rfl, rfl⟩
theorem qallowInit (f : Fields) : Statement (.qallowInit f) := ⟨by decide, by decide, 4, _, rfl, rfl, rfl⟩
theorem qallow (f : Fields) : Statement (.qallow f) := ⟨by decide, by decide, 5, _, rfl, rfl, rfl⟩
theorem qdepth (f : Fields) : Statement (.qdepth f) := ⟨by decide, by decide, 6, _, rfl, rfl, rfl⟩
theorem bexp (f : Fields) : Statement (.bexp f) := ⟨by decide, by decide, 0, _, rfl, rfl, rfl⟩
theorem barv (f : Fields) : Statement (.barv f) := ⟨by decide, by decide, 1, _, rfl, rfl, rfl⟩
theorem bwait (f : Fields) : Statement (.bwait f) := ⟨by decide, by decide, 2, _, rfl, rfl, rfl⟩
theorem btest (f : Fields) : Statement (.btest f) := ⟨by decide, by decide, 3, _, rfl, rfl, rfl⟩
theorem narr (f : Fields) : Statement (.narr f) := ⟨by decide, by decide, 0, _, rfl, rfl, rfl⟩
theorem nwait (f : Fields) : Statement (.nwait f) := ⟨by decide, by decide, 1, _, rfl, rfl, rfl⟩
theorem njoin (f : Fields) : Statement (.njoin f) := ⟨by decide, by decide, 2, _, rfl, rfl, rfl⟩
theorem nleave (f : Fields) : Statement (.nleave f) := ⟨by decide, by decide, 3, _, rfl, rfl, rfl⟩
theorem mtile (f : Fields) : Statement (.mtile f) := ⟨by decide, by decide, 1, _, rfl, rfl, rfl⟩
theorem mloop (f : Fields) : Statement (.mloop f) := ⟨by decide, by decide, 3, _, rfl, rfl, rfl⟩
theorem mbatch (f : Fields) : Statement (.mbatch f) := ⟨by decide, by decide, 5, _, rfl, rfl, rfl⟩
theorem msplit (f : Fields) : Statement (.msplit f) := ⟨by decide, by decide, 6, _, rfl, rfl, rfl⟩
theorem wload (f : Fields) : Statement (.wload f) := ⟨by decide, by decide, 0, _, rfl, rfl, rfl⟩
theorem aclr (f : Fields) : Statement (.aclr f) := ⟨by decide, by decide, 0, _, rfl, rfl, rfl⟩
theorem acmov (f : Fields) : Statement (.acmov f) := ⟨by decide, by decide, 2, _, rfl, rfl, rfl⟩
theorem acld (f : Fields) : Statement (.acld f) := ⟨by decide, by decide, 3, _, rfl, rfl, rfl⟩
theorem acst (f : Fields) : Statement (.acst f) := ⟨by decide, by decide, 4, _, rfl, rfl, rfl⟩
theorem msync (f : Fields) : Statement (.msync f) := ⟨by decide, by decide, 0, _, rfl, rfl, rfl⟩
theorem mstat (f : Fields) : Statement (.mstat f) := ⟨by decide, by decide, 1, _, rfl, rfl, rfl⟩
theorem tenq (f : Fields) : Statement (.tenq f) := ⟨by decide, by decide, 0, _, rfl, rfl, rfl⟩
theorem genq (f : Fields) : Statement (.genq f) := ⟨by decide, by decide, 1, _, rfl, rfl, rfl⟩
theorem tdepAdd (f : Fields) : Statement (.tdepAdd f) := ⟨by decide, by decide, 2, _, rfl, rfl, rfl⟩
theorem tdepDone (f : Fields) : Statement (.tdepDone f) := ⟨by decide, by decide, 3, _, rfl, rfl, rfl⟩
theorem retire (f : Fields) : Statement (.retire f) := ⟨by decide, by decide, 4, _, rfl, rfl, rfl⟩
theorem chain (f : Fields) : Statement (.chain f) := ⟨by decide, by decide, 5, _, rfl, rfl, rfl⟩
theorem xcopy (f : Fields) : Statement (.xcopy f) := ⟨by decide, by decide, 0, _, rfl, rfl, rfl⟩
theorem xwait (f : Fields) : Statement (.xwait f) := ⟨by decide, by decide, 1, _, rfl, rfl, rfl⟩
theorem xstat (f : Fields) : Statement (.xstat f) := ⟨by decide, by decide, 2, _, rfl, rfl, rfl⟩
theorem crcv (f : Fields) : Statement (.crcv f) := ⟨by decide, by decide, 3, _, rfl, rfl, rfl⟩
theorem bquota (f : Fields) : Statement (.bquota f) := ⟨by decide, by decide, 0, _, rfl, rfl, rfl⟩
theorem bmake (f : Fields) : Statement (.bmake f) := ⟨by decide, by decide, 1, _, rfl, rfl, rfl⟩
theorem bmakeRaw (f : Fields) : Statement (.bmakeRaw f) := ⟨by decide, by decide, 2, _, rfl, rfl, rfl⟩
theorem btrav (f : Fields) : Statement (.btrav f) := ⟨by decide, by decide, 3, _, rfl, rfl, rfl⟩
theorem bpop (f : Fields) : Statement (.bpop f) := ⟨by decide, by decide, 4, _, rfl, rfl, rfl⟩
theorem bfree (f : Fields) : Statement (.bfree f) := ⟨by decide, by decide, 5, _, rfl, rfl, rfl⟩
theorem bfreeAll (f : Fields) : Statement (.bfreeAll f) := ⟨by decide, by decide, 6, _, rfl, rfl, rfl⟩
theorem bemit (f : Fields) : Statement (.bemit f) := ⟨by decide, by decide, 7, _, rfl, rfl, rfl⟩
theorem brecv (f : Fields) : Statement (.brecv f) := ⟨by decide, by decide, 8, _, rfl, rfl, rfl⟩
theorem raymk (f : Fields) : Statement (.raymk f) := ⟨by decide, by decide, 0, _, rfl, rfl, rfl⟩
theorem raytrav (f : Fields) : Statement (.raytrav f) := ⟨by decide, by decide, 1, _, rfl, rfl, rfl⟩
theorem nodewr (f : Fields) : Statement (.nodewr f) := ⟨by decide, by decide, 2, _, rfl, rfl, rfl⟩
theorem bcov (f : Fields) : Statement (.bcov f) := ⟨by decide, by decide, 0, _, rfl, rfl, rfl⟩
theorem bcovCell (f : Fields) : Statement (.bcovCell f) := ⟨by decide, by decide, 1, _, rfl, rfl, rfl⟩
theorem bfoot (f : Fields) : Statement (.bfoot f) := ⟨by decide, by decide, 2, _, rfl, rfl, rfl⟩
theorem msend (f : Fields) : Statement (.msend f) := ⟨by decide, by decide, 0, _, rfl, rfl, rfl⟩
theorem mret (f : Fields) : Statement (.mret f) := ⟨by decide, by decide, 1, _, rfl, rfl, rfl⟩
theorem waitq (f : Fields) : Statement (.waitq f) := ⟨by decide, by decide, 2, _, rfl, rfl, rfl⟩
theorem quietst (f : Fields) : Statement (.quietst f) := ⟨by decide, by decide, 3, _, rfl, rfl, rfl⟩
theorem himport (f : Fields) : Statement (.himport f) := ⟨by decide, by decide, 0, _, rfl, rfl, rfl⟩
theorem hrevoke (f : Fields) : Statement (.hrevoke f) := ⟨by decide, by decide, 1, _, rfl, rfl, rfl⟩
theorem hrevokeExp (f : Fields) : Statement (.hrevokeExp f) := ⟨by decide, by decide, 2, _, rfl, rfl, rfl⟩
theorem time (f : Fields) : Statement (.time f) := ⟨by decide, by decide, 0, _, rfl, rfl, rfl⟩
theorem twidth (f : Fields) : Statement (.twidth f) := ⟨by decide, by decide, 1, _, rfl, rfl, rfl⟩
theorem stsc (f : Fields) : Statement (.stsc f) := ⟨by decide, by decide, 2, _, rfl, rfl, rfl⟩
theorem ldas (f : Fields) : Statement (.ldas f) := ⟨by decide, by decide, 3, _, rfl, rfl, rfl⟩
theorem cwait (f : Fields) : Statement (.cwait f) := ⟨by decide, by decide, 4, _, rfl, rfl, rfl⟩
theorem trap (f : Fields) : Statement (.trap f) := ⟨by decide, by decide, 0, _, rfl, rfl, rfl⟩
theorem eret (f : Fields) : Statement (.eret f) := ⟨by decide, by decide, 1, _, rfl, rfl, rfl⟩
theorem brk (f : Fields) : Statement (.brk f) := ⟨by decide, by decide, 2, _, rfl, rfl, rfl⟩
theorem waiti (f : Fields) : Statement (.waiti f) := ⟨by decide, by decide, 3, _, rfl, rfl, rfl⟩
theorem haltdHalt (f : Fields) : Statement (.haltdHalt f) := ⟨by decide, by decide, 4, _, rfl, rfl, rfl⟩
theorem haltdQuery (f : Fields) : Statement (.haltdQuery f) := ⟨by decide, by decide, 5, _, rfl, rfl, rfl⟩
theorem haltdResume (f : Fields) : Statement (.haltdResume f) := ⟨by decide, by decide, 6, _, rfl, rfl, rfl⟩
theorem rdsr (f : Fields) : Statement (.rdsr f) := ⟨by decide, by decide, 0, _, rfl, rfl, rfl⟩
theorem wrsr (f : Fields) : Statement (.wrsr f) := ⟨by decide, by decide, 1, _, rfl, rfl, rfl⟩
theorem fltrd (f : Fields) : Statement (.fltrd f) := ⟨by decide, by decide, 2, _, rfl, rfl, rfl⟩
theorem preack (f : Fields) : Statement (.preack f) := ⟨by decide, by decide, 3, _, rfl, rfl, rfl⟩
theorem ctxsave (f : Fields) : Statement (.ctxsave f) := ⟨by decide, by decide, 0, _, rfl, rfl, rfl⟩
theorem ctxload (f : Fields) : Statement (.ctxload f) := ⟨by decide, by decide, 1, _, rfl, rfl, rfl⟩
theorem tlbinv (f : Fields) : Statement (.tlbinv f) := ⟨by decide, by decide, 2, _, rfl, rfl, rfl⟩
theorem hqtailDoorbell (dev queue : Nat) (v : Word) : Statement (.hqtailDoorbell dev queue v) := rfl
theorem hqctlWrite (dev queue : Nat) (v : Word) : Statement (.hqctlWrite dev queue v) := rfl
theorem queueEntryFetch (dev queue : Nat) : Statement (.queueEntryFetch dev queue) := rfl
theorem recordAcceptance (rec : Nat) : Statement (.recordAcceptance rec) := rfl
theorem gangPlacement (die : Nat) (sizes : List Nat) : Statement (.gangPlacement die sizes) := rfl
theorem agingReservation (die : Nat) : Statement (.agingReservation die) := rfl
theorem activation (die core : Nat) : Statement (.activation die core) := rfl
theorem deactivation (group : Nat) : Statement (.deactivation group) := rfl
theorem regrouping (die node count : Nat) : Statement (.regrouping die node count) := rfl
theorem chainSuccessorPlacement (die core : Nat) : Statement (.chainSuccessorPlacement die core) := rfl
theorem gangRetire (gang : Nat) : Statement (.gangRetire gang) := rfl
theorem taskRetire (task : Nat) : Statement (.taskRetire task) := rfl
theorem launchComplete (launch : Nat) : Statement (.launchComplete launch) := rfl
theorem flushReadComplete (launch link : Nat) : Statement (.flushReadComplete launch link) := rfl
theorem evictionRequest (gang : Nat) : Statement (.evictionRequest gang) := rfl
theorem prenoteTimeout (gang : Nat) : Statement (.prenoteTimeout gang) := rfl
theorem eviction (gang : Nat) : Statement (.eviction gang) := rfl
theorem restore (gang : Nat) : Statement (.restore gang) := rfl
theorem walkComplete (die core : Nat) (va : Word) : Statement (.walkComplete die core va) := rfl
theorem peerStoreAck (store : Nat) : Statement (.peerStoreAck store) := rfl
theorem homeRefusal (store : Nat) : Statement (.homeRefusal store) := rfl
theorem leaseGrant (die core : Nat) (line : Nat) : Statement (.leaseGrant die core line) := rfl
theorem leaseExpiry (die core : Nat) (line : Nat) : Statement (.leaseExpiry die core line) := rfl
theorem copyComplete (die core copy : Nat) : Statement (.copyComplete die core copy) := rfl
theorem kStep (die core : Nat) : Statement (.kStep die core) := rfl
theorem matrixOpComplete (die core op : Nat) : Statement (.matrixOpComplete die core op) := rfl
theorem dillJobStart (engine : Nat) : Statement (.dillJobStart engine) := rfl
theorem dillJobComplete (engine : Nat) (choice : List Byte) (ecode : BitVec 8) : Statement (.dillJobComplete engine choice ecode) := rfl
theorem routineTimeLimit (engine : Nat) (written : List Byte) : Statement (.routineTimeLimit engine written) := rfl
theorem dxrtWrite (engine : Nat) (imem : Bool) (index : Nat) (v : Word) : Statement (.dxrtWrite engine imem index v) := rfl
theorem beamSplit (gang team : Nat) : Statement (.beamSplit gang team) := rfl
theorem beamEndsClear (gang team : Nat) : Statement (.beamEndsClear gang team) := rfl
theorem traversalComplete (gang team : Nat) (ray : Bool) : Statement (.traversalComplete gang team ray) := rfl
theorem traversalFault (gang team : Nat) (ray : Bool) : Statement (.traversalFault gang team ray) := rfl
theorem rayTrace (gang team : Nat) : Statement (.rayTrace gang team) := rfl
theorem rasteriser (rec : Nat) : Statement (.rasteriser rec) := rfl
theorem binnerRecord (rec : Nat) : Statement (.binnerRecord rec) := rfl
theorem blender (rec : Nat) : Statement (.blender rec) := rfl
theorem beamRequest (rec : Nat) : Statement (.beamRequest rec) := rfl
theorem messageArrival (msg : Nat) : Statement (.messageArrival msg) := rfl
theorem messageDelivery (msg : Nat) : Statement (.messageDelivery msg) := rfl
theorem waveStart : Statement (.waveStart) := rfl
theorem wavePass (wave : Nat) : Statement (.wavePass wave) := rfl
theorem packetLoss (msg : Nat) : Statement (.packetLoss msg) := rfl
theorem linkSleep (die : Nat) : Statement (.linkSleep die) := rfl
theorem linkWake (die : Nat) : Statement (.linkWake die) := rfl
theorem deadDie (die : Nat) : Statement (.deadDie die) := rfl
theorem syncExchange (die : Nat) (e l : Word) : Statement (.syncExchange die e l) := rfl
theorem horizonAdvance : Statement (.horizonAdvance) := rfl
theorem horizonDelivery (die : Nat) : Statement (.horizonDelivery die) := rfl
theorem stampedStoreArrival (store : Nat) : Statement (.stampedStoreArrival store) := rfl
theorem commitWaitCap (store : Nat) : Statement (.commitWaitCap store) := rfl
theorem cwaitCap (group : Nat) : Statement (.cwaitCap group) := rfl
theorem waitiTimeout (group : Nat) : Statement (.waitiTimeout group) := rfl
theorem ptmExchange (ns : Nat) : Statement (.ptmExchange ns) := rfl
theorem linkDown : Statement (.linkDown) := rfl
theorem linkUp (width : BitVec 4) : Statement (.linkUp width) := rfl
theorem computeDieReset (die : Nat) (contents : List (Nat × Byte)) : Statement (.computeDieReset die contents) := rfl
theorem functionReady (mem : Bool) (bit : Nat) (up : Bool) : Statement (.functionReady mem bit up) := rfl
theorem firmwareBoot (image : List Byte) (signed : List Byte × List Byte) (ns : Word) : Statement (.firmwareBoot image signed ns) := rfl
theorem measurementExtend (slot : Nat) (object : List Byte) : Statement (.measurementExtend slot object) := rfl
theorem budgetControl (die : Nat) (pwr : BitVec 32) (temp : BitVec 16) (budget : BitVec 32) : Statement (.budgetControl die pwr temp budget) := rfl
theorem worldRegisterWrite (reg : Nat) (v : Word) (host : Bool) : Statement (.worldRegisterWrite reg v host) := rfl
theorem worldChangeEffect (block : Nat) : Statement (.worldChangeEffect block) := rfl
theorem formatWindowWrite (die window : Nat) (ctl : Bool) (v : Word) : Statement (.formatWindowWrite die window ctl v) := rfl
theorem residencyRangeWrite (die range : Nat) (ctl : Bool) (v : Word) : Statement (.residencyRangeWrite die range ctl v) := rfl
theorem cmpcfgWrite (die : Nat) (v : Word) : Statement (.cmpcfgWrite die v) := rfl
theorem registerWrite (off : Nat) (v : Word) (host : Bool) : Statement (.registerWrite off v host) := rfl
theorem uncorrectableError (line : Nat) : Statement (.uncorrectableError line) := rfl
theorem illegalInstruction (word : IWord) (detail : BitVec 8) : Statement (.illegalInstruction word detail) := rfl
theorem fetchFault (cause detail : BitVec 8) (addr : Word) : Statement (.fetchFault cause detail addr) := rfl

end Sys2Proof.Laws.Rows
end

