-- ==== Sys2Proof/Tests/Slice0.lean ====
section
/-! SUPPORT. Tests: ill-formed terms, words written out from the spec's encoding tables, single steps with hand-calculated
results, and for each statement with hypotheses a state that meets them. -/

namespace Sys2Proof.Tests

open Sys2Proof Sys2Proof.Machine

set_option maxRecDepth 4000
set_option Elab.async false

/-! ## Helpers -/

/-- Words and the instructions they stand for. -/
abbrev Reads (l : List (Nat × Instr)) : Prop := l.map (fun e => decodeTableWord 96 e.1) = l.map fun e => some e.2

/-- Words and the detail code that decoding gives them. -/
abbrev Refuses (l : List (Nat × Illegal)) : Prop := (l.all fun e => match decodeWord (BitVec.ofNat 96 e.1) with
  | .ok _ => false | .error d => decide (d = e.2)) = true

/-- Executes as a computation. -/
theorem execs {cls : GClass} {priv : Bool} {refs : Group → List Ref} {f : Fields} {s : State}
    (h : (decide (s.g.life = .active) && executed cls f s.g && (!priv || s.g.priv) && (s.g.regbound (refs s.g)).isNone
      && (s.unread s.g).isEmpty) = true) :
    Executes cls priv refs f s := by
  simp only [Bool.and_eq_true, decide_eq_true_eq, Bool.or_eq_true, Bool.not_eq_true', Option.isNone_iff_eq_none, List.isEmpty_iff] at h
  obtain ⟨⟨⟨⟨h1, h2⟩, h3⟩, h4⟩, h5⟩ := h
  exact ⟨h1, h2, fun hp => h3.resolve_left (by simp [hp]), h4, h5⟩

/-- A computation that gives a value, and what holds of it. -/
theorem exOk {ε α : Type} {r : Except ε α} {p : α → Prop} [DecidablePred p]
    (h : (match r with | .ok a => decide (p a) | .error _ => false) = true) : ∃ a, r = .ok a ∧ p a := by
  cases r with
  | ok a => exact ⟨a, rfl, by simpa using h⟩
  | error e => simp at h

/-- A computation that gives an error, and what holds of it. -/
theorem exErr {ε α : Type} {r : Except ε α} {p : ε → Prop} [DecidablePred p]
    (h : (match r with | .ok _ => false | .error a => decide (p a)) = true) : ∃ a, r = .error a ∧ p a := by
  cases r with
  | error a => exact ⟨a, rfl, by simpa using h⟩
  | ok e => simp at h

/-- A value that is there, and what holds of it. -/
theorem exSome {α : Type} {r : Option α} {p : α → Prop} [DecidablePred p]
    (h : (match r with | some a => decide (p a) | none => false) = true) : ∃ a, r = some a ∧ p a := by
  cases r with
  | some a => exact ⟨a, rfl, by simpa using h⟩
  | none => simp at h

/-- A next state, and what holds of it. -/
theorem exNext {r : Res} {p : State → Prop} [DecidablePred p]
    (h : (match r with | .next t => decide (p t) | _ => false) = true) : ∃ t, r = .next t ∧ p t := by
  cases r with
  | next t => exact ⟨t, rfl, by simpa using h⟩
  | fault _ => simp at h
  | refused _ => simp at h

/-- Fields without a guard. -/
abbrev fl (d a b : Opnd) (mod : BitVec 10 := 0) (imm : BitVec 32 := 0) : Fields := ⟨false, 0, d, a, b, mod, imm⟩

/-- Scalar registers set. -/
def rs (s : State) (l : List (Nat × Nat)) : State :=
  { s with g := l.foldl (fun g e => g.setSreg e.1 (BitVec.ofNat 64 e.2)) s.g }

/-- Elements of a view set: (lane, value) of w bits. -/
def els (s : State) (v : BitVec 9) (w : Nat) (l : List (Nat × Nat)) : State :=
  { s with g := l.foldl (fun g e => g.setElem (.view v) w e.1 e.2) s.g }

/-- Bytes of home memory set. -/
def mem (s : State) (k n v : Nat) : State := { s with mem := wrLE s.mem k n v }

/-! ## The state the tests start from -/

/-- 32 MiB leaves: local, host, and peer memory under handle 1. -/
def leafL : Word := 0x6000000000000071
def leafH : Word := 0x6800000000000031
def leafP : Word := 0x7000800000000031

/-- A launch of job 3 with one gang of two groups on core 0 of die 0; everything is ready and the host link is up; virtual
addresses from 0 are local, from 32 MiB the host's, from 64 MiB die 1's under handle 1. -/
def demo : State :=
  let tlb : List TlbEntry := [⟨0, 0, 2 ^ 25, leafL⟩, ⟨0, 2 ^ 25, 2 ^ 25, leafH⟩, ⟨0, 2 ^ 26, 2 ^ 25, leafP⟩]
  let s := ((State.reset.setMr offRDYSTAT (BitVec.allOnes 64)).setMr offRDYMEM (BitVec.allOnes 64)).setMr offHLSTAT 0x11
  let s := (s.setMr (offPTBR 0) 1).setMr (offPTBR 1) 1
  { s with
    g := { uid := 1, life := .active, gang := 1, launch := 1, task := 1, job := 3, alloc := 65536, pc := 0x1200 }
    rest := [{ uid := 2, life := .waiting, gang := 1, launch := 1, task := 1, job := 3, alloc := 65536, rank := 1, slot := 1 }]
    gangs := [(1, { handle := 7, die := 0, task := 1, ttype := { groups := 2, team := 2 }, nets := List.replicate 16 { memb := 3, next := 3 } })]
    teams := [(32, { die := 0, core := 0, groups := 2, window := 4096 })]
    tasks := [(1, { launch := 1, die := 0, record := 0, ttype := { groups := 2, team := 2 }, ordinal := 0, life := .placed, arg := 0 })]
    launches := [(1, {
      dev := 0, queue := 0, job := 3, seq := 5, cwaddr := 0x8000, reach := 0, stats := 0, layout := 0, irq := false, vec := 0
      outstanding := 1 })]
    cores := [(0, { tlb := tlb })]
    dies := [(0, { tlb := tlb }), (1, { tlb := [⟨1, 0, 2 ^ 25, leafL⟩] })]
    devs := [(0, { handles := [(1, { exporter := 1, index := 0, base := 0, len := 0x100000, r := true, w := true })] })]
    fresh := 100 }

/-- The same with a trap handler at 0x2400. -/
def handled : State := demo.setMr (offTVEC 0) 0x8000000000002400

/-- The same in privileged mode. -/
def priv : State := { handled with g := { handled.g with priv := true } }

/-- What makes a state sound, apart from lines, as one computation. -/
theorem sound_of {s : State} (h : (Memory.wf s.mem && risesFrom 0 s.cores && (s.cores.all fun e => e.2.l1.isEmpty)
    && (s.cores.all fun e => e.2.leaseReq.all fun r => dieOfKey (128 * r.2.2.1) = e.1 / 64)
    && (s.cores.all fun e => e.2.tlb.all fun t => bits t.leaf.toNat 60 59 ≠ 0 || bits t.leaf.toNat 58 35 = 0)
    && (s.dies.all fun e => e.2.tlb.all fun t => bits t.leaf.toNat 60 59 ≠ 0 || bits t.leaf.toNat 58 35 = 0)
    && (s.devs.all fun e => e.2.handles.all fun h => h.2.base.toNat % 4096 = 0)
    && (s.groups.all fun g => decide (g.core < 64) && (decide (g.life = .absent) || decide (g.uid ≠ 0)))
    && (decide (s.g.life ≠ .absent) || decide (s.g.uid = 0)) && decide (0 < s.fresh) && decide (s.split = {})
    && (s.teams.all fun e => e.2.core < 64)) = true) : s.Sound := by
  simp only [Bool.and_eq_true, List.all_eq_true, decide_eq_true_eq, Bool.or_eq_true, List.isEmpty_iff] at h
  obtain ⟨⟨⟨⟨⟨⟨⟨⟨⟨⟨⟨h1, h2⟩, h3⟩, h4⟩, h5⟩, h6⟩, h7⟩, h8⟩, h9⟩, h10⟩, h11⟩, h12⟩ := h
  refine ⟨h1, h2, fun e he => by rw [h3 e he]; rfl, fun e he l hl => (by rw [h3 e he] at hl; cases hl),
    fun e he e' he' _ l hl => (by rw [h3 e he] at hl; cases hl), h4, fun e he t ht hz => (h5 e he t ht).resolve_left (by simp [hz]),
    fun e he t ht hz => (h6 e he t ht).resolve_left (by simp [hz]), h7, fun g hg => (h8 g hg).1,
    fun g hg hl => (h8 g hg).2.resolve_left hl, fun hl => h9.resolve_left (by simp [hl]), h10, h11, h12⟩

theorem demo_sound : demo.Sound := sound_of (by decide +kernel)
theorem handled_sound : handled.Sound := sound_of (by decide +kernel)

/-- A place that the home die, or a lock, answers. -/
def placeIs (r : Except FRec (Option Nat)) (k : Nat) : Bool := match r with | .ok (some j) => j = k | _ => false
theorem placeIs_iff {r : Except FRec (Option Nat)} {k : Nat} : placeIs r k = true ↔ r = .ok (some k) := by
  unfold placeIs; split <;> simp_all
/-- A lock's key, found without a change of the state. -/
def lockIs (s : State) (va : Int) (k : Nat) : Bool := match s.lockKey va with | .ok (some j, u) => j = k && decide (u = s) | _ => false
theorem lockIs_iff {s : State} {va : Int} {k : Nat} (h : lockIs s va k = true) : s.lockKey va = .ok (some k, s) := by
  unfold lockIs at h; split at h <;> simp_all

/-- The gang with a second team on core 1, at position 1 of the cluster. -/
def two : State := { demo with teams := demo.teams ++ [(33, { die := 0, core := 1, groups := 1, window := 1024 })] }
/-! ## Well-formedness: an ill-formed term for each check -/

/-- No form: a function number of BEMIT's opcode with a nonzero selector it lacks; CALL_INDIRECT without a register; HALTD's QUERY under OP 3. -/
theorem test_wf_no_form : (Instr.callIndirect (fl .none .none .none)).wf = false ∧ (Instr.haltdQuery (fl .zero (.sreg 2) .none 0 3)).wf = false
    ∧ (Instr.cacheClean (fl .none (.sreg 2) .zero 0 4)).wf = false := by decide +kernel
/-- Operands: a kind the position does not take, c0 as a destination, IMMV beside a displacement; an unused field used. -/
theorem test_wf_operands : (Instr.sadd (fl (.view 1) (.sreg 2) (.sreg 3) 0x060)).wf = false ∧ (Instr.many (fl (.cond 0) (.mask 1) .none)).wf = false
    ∧ (Instr.brc (fl .none .immv .none 0 4)).wf = false ∧ (Instr.nop (fl (.sreg 1) .none .none)).wf = false := by decide +kernel
/-- Modifier values and bits: a floating TYPE and a reserved bit on SADD, VCMP's UNO on integers, ORD release on a load. -/
theorem test_wf_modifier : (Instr.sadd (fl (.sreg 1) (.sreg 2) (.sreg 3) 0x100)).wf = false ∧ (Instr.sadd (fl (.sreg 1) (.sreg 2) (.sreg 3) 0x061)).wf = false
    ∧ (Instr.vcmp (fl (.mask 1) (.view 2) (.view 3) 0x04C)).wf = false ∧ (Instr.ld (fl (.view 1) (.sreg 2) .none 0x202)).wf = false := by decide +kernel
/-- The immediate: bits an own field leaves unassigned, a third source above 12 bits. -/
theorem test_wf_imm : (Instr.id (fl (.sreg 1) .none .none 0 8)).wf = false ∧ (Instr.ssel (fl (.sreg 1) .zero .zero 0 0x1C07)).wf = false
    ∧ (Instr.nop (fl .none .none .none 0 1)).wf = false := by decide +kernel
/-- The constructor: XCOPY's plain form under a CACHE operation's immediate; BMAKE under RAW; HREVOKE under EXP. -/
theorem test_wf_constructor : (Instr.bmake (fl (.view 1) .none (.sreg 3) 1)).wf = false ∧ (Instr.hrevoke (fl .none (.sreg 2) .none 1)).wf = false
    ∧ (Instr.cacheEvict (fl .none (.sreg 2) .zero 0 0)).wf = false := by decide +kernel
/-- Events: a part that does not exist. -/
theorem test_wf_events : (Instr.activation 8 0).wf = false ∧ (Instr.kStep 0 40).wf = false ∧ (Instr.dillJobStart 34).wf = false
    ∧ (Instr.queueEntryFetch 0 16).wf = false ∧ (Instr.measurementExtend 3 []).wf = false ∧ (Instr.worldChangeEffect 122).wf = false
    ∧ (Instr.regrouping 0 0 65).wf = false ∧ (Instr.worldRegisterWrite 3 0 false).wf = false ∧ (Instr.functionReady false 44 true).wf = false
    ∧ (Instr.formatWindowWrite 0 16 true 0).wf = false ∧ (Instr.residencyRangeWrite 0 8 true 0).wf = false := by decide +kernel
/-- Well-formed terms with the words that encode them, so that the encoding statements say something. -/
theorem witness_EncodedInstructionDecodes : (Instr.sadd ⟨false, 0, .sreg 1, .sreg 2, .sreg 3, 0x060, 0⟩).wf = true
    ∧ encode (.sadd ⟨false, 0, .sreg 1, .sreg 2, .sreg 3, 0x060, 0⟩) = some 0x010000040080_0C6000000000
    ∧ (Instr.tdepAdd ⟨true, 7, .none, .none, .none, 0, 0xFFFFFFFF⟩).wf = true
    ∧ encode (.tdepAdd ⟨true, 7, .none, .none, .none, 0, 0xFFFFFFFF⟩) = some 0x900BC0000000_0000FFFFFFFF := by decide +kernel

/-! ## Decoding: words that R77 refuses -/

/-- The words of spec/04's worked examples and one for each detail code; the lowest code that applies is the one given (R77). -/
theorem test_refused_words : Refuses [
    (0xD30000000000_000000000000, .opcode), (0x000800000000_000000000000, .function), (0x06FFFFFFFFFF_FFFFFFFFFFFF, .opcode),
    (0x018800040080_0C6100000000, .function), (0x010000040080_0C6100000000, .rsvbit), (0x000000040000_000000000000, .rsvbit),
    (0x000000000000_000000000001, .rsvbit), (0x010030640080_0C6100000000, .rsvbit), (0x010030640080_0C6000000000, .operand),
    (0x010000040080_0D0000000000, .modval), (0x810000000040_080300000000, .modval), (0x500000000000_000000000000, .operand)] := by decide +kernel

/-! ## Decoding: words written out from the encoding tables of the spec -/

/-- Opcode 0x00. -/
theorem test_decode_00 : Reads [
  (0x000000000000000000000000, .nop ⟨false, 0, .none, .none, .none, 0x0, 0x0⟩),
  (0x000440000000000000000000, .yield ⟨false, 1, .none, .none, .none, 0x0, 0x0⟩)] := by decide +kernel

/-- Opcode 0x01. -/
theorem test_decode_01 : Reads [
  (0x010080040A00FC0400000000, .sadd ⟨false, 2, (.sreg 1), (.sreg 40), (.sreg 63), 0x4, 0x0⟩),
  (0x0106C008A0706024FFFFFF85, .ssub ⟨true, 3, (.sreg 2), (.rel .scalar 1 1), .immv, 0x24, 0xFFFFFF85⟩),
  (0x010B000F06B0684400000000, .smul ⟨true, 4, (.sreg 3), .zero, .zero, 0x44, 0x0⟩),
  (0x010F40100A00FC6000000000, .smulh ⟨true, 5, (.sreg 4), (.sreg 40), (.sreg 63), 0x60, 0x0⟩),
  (0x01118014A1306084FFFFFF85, .sdiv ⟨false, 6, (.sreg 5), (.rel .scalar 1 4), .immv, 0x84, 0xFFFFFF85⟩),
  (0x0115C01B06B068A000000000, .srem ⟨false, 7, (.sreg 6), .zero, .zero, 0xA0, 0x0⟩),
  (0x0118001C0A00FCC000000000, .sand ⟨false, 0, (.sreg 7), (.sreg 40), (.sreg 63), 0xC0, 0x0⟩),
  (0x011E4020A1F060E0FFFFFF85, .sor ⟨true, 1, (.sreg 8), (.rel .scalar 1 7), .immv, 0xE0, 0xFFFFFF85⟩),
  (0x0122802706B0680000000000, .sxor ⟨true, 2, (.sreg 9), .zero, .zero, 0x0, 0x0⟩),
  (0x0126C0280A00FC2400000000, .sshl ⟨true, 3, (.sreg 10), (.sreg 40), (.sreg 63), 0x24, 0x0⟩),
  (0x0129002CA2B06040FFFFFF85, .sshr ⟨false, 4, (.sreg 11), (.rel .scalar 1 10), .immv, 0x40, 0xFFFFFF85⟩),
  (0x012D403306B0686000000000, .ssra ⟨false, 5, (.sreg 12), .zero, .zero, 0x60, 0x0⟩),
  (0x013180340A00FC8000000000, .smin ⟨false, 6, (.sreg 13), (.sreg 40), (.sreg 63), 0x80, 0x0⟩),
  (0x0137C038A37060A0FFFFFF85, .smax ⟨true, 7, (.sreg 14), (.rel .scalar 1 13), .immv, 0xA0, 0xFFFFFF85⟩),
  (0x013A003F068000C000000000, .spopc ⟨true, 0, (.sreg 15), .zero, .none, 0xC0, 0x0⟩),
  (0x013E40400A0000E000000000, .sclz ⟨true, 1, (.sreg 16), (.sreg 40), .none, 0xE0, 0x0⟩)] := by decide +kernel

/-- Opcode 0x02. -/
theorem test_decode_02 : Reads [
  (0x0200B03F0580000000000000, .smov ⟨false, 2, (.mask 7), .tsh, .none, 0x0, 0x0⟩),
  (0x0204C0FC0000000080000001, .sli ⟨false, 3, (.sreg 63), .none, .none, 0x0, 0x80000001⟩),
  (0x02090E1C0000000012345678, .slih ⟨false, 4, (.rel .scalar 3 7), .none, .none, 0x0, 0x12345678⟩),
  (0x020F701C007060EAFFFFFFFF, .scmp ⟨true, 5, (.cond 7), (.sreg 1), .immv, 0xEA, 0xFFFFFFFF⟩),
  (0x021380070680080000000C07, .ssel ⟨true, 6, (.sreg 1), .zero, (.sreg 2), 0x0, 0xC07⟩)] := by decide +kernel

/-- Opcode 0x03. -/
theorem test_decode_03 : Reads [
  (0x0303C00000000000FFFFFFFB, .bra ⟨true, 7, .none, .none, .none, 0x0, 0xFFFFFFFB⟩),
  (0x030400000240000000000004, .brc ⟨false, 0, .none, (.sreg 9), .none, 0x0, 0x4⟩),
  (0x03084000000000007FFFFFFF, .call ⟨false, 1, .none, .none, .none, 0x0, 0x7FFFFFFF⟩),
  (0x030880000FC0000000000000, .callIndirect ⟨false, 2, .none, (.sreg 63), .none, 0x0, 0x0⟩),
  (0x030EC0000000000000000000, .ret ⟨true, 3, .none, .none, .none, 0x0, 0x0⟩),
  (0x0313001400000000FFFFFFFD, .loop ⟨true, 4, (.sreg 5), .none, .none, 0x0, 0xFFFFFFFD⟩),
  (0x031740008140000000000001, .jidx ⟨true, 5, .none, (.rel .scalar 0 5), .none, 0x0, 0x1⟩)] := by decide +kernel

/-- Opcode 0x04. -/
theorem test_decode_04 : Reads [
  (0x040180200000000000000007, .id ⟨false, 6, (.sreg 8), .none, .none, 0x0, 0x7⟩),
  (0x0405F05B06000000007F0700, .view ⟨false, 7, .tsh, .immv, .none, 0x0, 0x7F0700⟩),
  (0x0408304F0680000000000000, .xset ⟨false, 0, (.index 3), .zero, .none, 0x0, 0x0⟩),
  (0x040E704304B06000FFFFFFFF, .xadd ⟨true, 1, (.index 0), (.index 2), .immv, 0x0, 0xFFFFFFFF⟩)] := by decide +kernel

/-- Opcode 0x05. -/
theorem test_decode_05 : Reads [
  (0x0502B00703C0000000000000, .many ⟨true, 2, (.cond 1), (.mask 7), .none, 0x0, 0x0⟩),
  (0x0506F01F0200000000000000, .mall ⟨true, 3, (.cond 7), (.mask 0), .none, 0x0, 0x0⟩),
  (0x0509302702B02C0700000000, .mlog ⟨false, 4, (.mask 1), (.mask 2), (.mask 3), 0x7, 0x0⟩),
  (0x050D7033060000010000003F, .mfrom ⟨false, 5, (.mask 4), .immv, .none, 0x1, 0x3F⟩)] := by decide +kernel

/-- Opcode 0x20. -/
theorem test_decode_20 : Reads [
  (0x200197FD0010050600000000, .vadd ⟨false, 6, (.view 511), (.view 0), (.view 1), 0x106, 0x0⟩),
  (0x2007DF9400F0692E00000000, .vsub ⟨true, 7, (.rel .view 3 101), (.sreg 3), .zero, 0x12E, 0x0⟩),
  (0x200A17FF0690055600000000, .vmul ⟨true, 0, (.view 511), .zero, (.view 1), 0x156, 0x0⟩),
  (0x200E5F9D0030686000000000, .vmulh ⟨true, 1, (.rel .view 3 103), (.view 0), .zero, 0x60, 0x0⟩),
  (0x201097FC00D0052600000406, .vfma ⟨false, 2, (.view 511), (.sreg 3), (.view 1), 0x126, 0x406⟩),
  (0x2014DFA706B0694E00000C1A, .vfms ⟨false, 3, (.rel .view 3 105), .zero, .zero, 0x14E, 0xC1A⟩),
  (0x201917FD0010051600000000, .vmin ⟨false, 4, (.view 511), (.view 0), (.view 1), 0x116, 0x0⟩),
  (0x201F5FAC00F0693E00000000, .vmax ⟨true, 5, (.rel .view 3 107), (.sreg 3), .zero, 0x13E, 0x0⟩),
  (0x202397FF0680014600000000, .vabs ⟨true, 6, (.view 511), .zero, .none, 0x146, 0x0⟩),
  (0x2027DFB50000010E00000000, .vneg ⟨true, 7, (.rel .view 3 109), (.view 0), .none, 0x10E, 0x0⟩),
  (0x202817FC00D0053600000000, .vdiv ⟨false, 0, (.view 511), (.sreg 3), (.view 1), 0x136, 0x0⟩)] := by decide +kernel

/-- Opcode 0x21. -/
theorem test_decode_21 : Reads [
  (0x210050250040010200000000, .vrcp ⟨false, 1, (.view 9), (.view 1), .none, 0x102, 0x0⟩),
  (0x210490280080012200000000, .vrsq ⟨false, 2, (.view 10), (.sreg 2), .none, 0x122, 0x0⟩),
  (0x210AD02F060001523F800000, .vsqrt ⟨true, 3, (.view 11), .immv, .none, 0x152, 0x3F800000⟩),
  (0x210F10330680010200000000, .vexp2 ⟨true, 4, (.view 12), .zero, .none, 0x102, 0x0⟩),
  (0x211350350040012200000000, .vlog2 ⟨true, 5, (.view 13), (.view 1), .none, 0x122, 0x0⟩),
  (0x211590380080014200000000, .vsinp ⟨false, 6, (.view 14), (.sreg 2), .none, 0x142, 0x0⟩),
  (0x2119D03F060001023F800000, .vcosp ⟨false, 7, (.view 15), .immv, .none, 0x102, 0x3F800000⟩)] := by decide +kernel

/-- Opcode 0x22. -/
theorem test_decode_22 : Reads [
  (0x2200107800706000000000FF, .vand ⟨false, 0, (.view 30), (.sreg 1), .immv, 0x0, 0xFF⟩),
  (0x2206507D00901C2000000000, .vor ⟨true, 1, (.view 31), (.view 2), (.view 7), 0x20, 0x0⟩),
  (0x220A908306901C4000000000, .vxor ⟨true, 2, (.view 32), .zero, (.view 7), 0x40, 0x0⟩),
  (0x220ED0840040006000000000, .vnot ⟨true, 3, (.view 33), (.sreg 1), .none, 0x60, 0x0⟩),
  (0x2211108900901C8400000000, .vshl ⟨false, 4, (.view 34), (.view 2), (.view 7), 0x84, 0x0⟩),
  (0x2215508F06901CA000000000, .vshr ⟨false, 5, (.view 35), .zero, (.view 7), 0xA0, 0x0⟩),
  (0x2219909000501CC000000000, .vsra ⟨false, 6, (.view 36), (.sreg 1), (.view 7), 0xC0, 0x0⟩),
  (0x221FD095008000E000000000, .vpopc ⟨true, 7, (.view 37), (.view 2), .none, 0xE0, 0x0⟩),
  (0x2222109B0680000000000000, .vclz ⟨true, 0, (.view 38), .zero, .none, 0x0, 0x0⟩)] := by decide +kernel

/-- Opcode 0x23. -/
theorem test_decode_23 : Reads [
  (0x2302702500B0694E00000000, .vcmp ⟨true, 1, (.mask 1), (.view 2), .zero, 0x14E, 0x0⟩),
  (0x2304901000900C0000000C0F, .vsel ⟨false, 2, (.view 4), (.sreg 2), (.view 3), 0x0, 0xC0F⟩)] := by decide +kernel

/-- Opcode 0x24. -/
theorem test_decode_24 : Reads [
  (0x2400D0110080004C00000008, .vcvt ⟨false, 3, (.view 4), (.view 2), .none, 0x4C, 0x8⟩),
  (0x2405101100800DEB00000ABC, .vpack ⟨false, 4, (.view 4), (.view 2), (.sreg 3), 0x1EB, 0xABC⟩),
  (0x240B501100800D7400000000, .vunpk ⟨true, 5, (.view 4), (.view 2), (.sreg 3), 0x174, 0x0⟩),
  (0x240F901100800C0200000001, .vscale ⟨true, 6, (.view 4), (.view 2), (.sreg 3), 0x2, 0x1⟩),
  (0x2413D029008015E000003009, .vquant ⟨true, 7, (.view 10), (.view 2), (.sreg 5), 0x1E0, 0x3009⟩)] := by decide +kernel

/-- Opcode 0x25. -/
theorem test_decode_25 : Reads [
  (0x250010070600000380000000, .vmov ⟨false, 0, (.view 1), .immv, .none, 0x3, 0x80000000⟩),
  (0x2504500500B0680200000000, .vbc ⟨false, 1, (.view 1), (.view 2), .zero, 0x2, 0x0⟩),
  (0x2508800500800C0500000000, .vext ⟨false, 2, (.sreg 1), (.view 2), (.sreg 3), 0x5, 0x0⟩),
  (0x250ED00706800C0100000000, .vins ⟨true, 3, (.view 1), .zero, (.sreg 3), 0x1, 0x0⟩),
  (0x2513100500900C0000000000, .vshuf ⟨true, 4, (.view 1), (.view 2), (.view 3), 0x0, 0x0⟩),
  (0x251750040000000200000006, .vidx ⟨true, 5, (.view 1), .none, .none, 0x2, 0x6⟩)] := by decide +kernel

/-- Opcode 0x26. -/
theorem test_decode_26 : Reads [
  (0x260180050080004500000000, .vred ⟨false, 6, (.sreg 1), (.view 2), .none, 0x45, 0x0⟩),
  (0x2605D0050080010000000000, .vscan ⟨false, 7, (.view 1), (.view 2), .none, 0x100, 0x0⟩)] := by decide +kernel

/-- Opcode 0x50. -/
theorem test_decode_50 : Reads [
  (0x50001004008001BF80000000, .ld ⟨false, 0, (.view 1), (.sreg 2), .none, 0x1BF, 0x80000000⟩),
  (0x5002500400800C0C00000040, .ldFormat ⟨true, 1, (.view 1), (.sreg 2), (.sreg 3), 0xC, 0x40⟩),
  (0x500690040080020EFFFFFFF8, .st ⟨true, 2, (.view 1), (.sreg 2), .none, 0x20E, 0xFFFFFFF8⟩),
  (0x500AC0040080000D00000002, .sld ⟨true, 3, (.sreg 1), (.sreg 2), .none, 0xD, 0x2⟩),
  (0x500D00040080028C00000001, .sst ⟨false, 4, (.sreg 1), (.sreg 2), .none, 0x28C, 0x1⟩),
  (0x501150040090200E00000000, .ldg ⟨false, 5, (.view 1), (.sreg 2), (.view 8), 0xE, 0x0⟩),
  (0x501590040090200F00000004, .stg ⟨false, 6, (.view 1), (.sreg 2), (.view 8), 0xF, 0x4⟩)] := by decide +kernel

/-- Opcode 0x51. -/
theorem test_decode_51 : Reads [
  (0x5103D0040080000E0003FFFF, .lds ⟨true, 7, (.view 1), (.sreg 2), .none, 0xE, 0x3FFFF⟩),
  (0x510610040080020E003C0004, .sts ⟨true, 0, (.view 1), (.sreg 2), .none, 0x20E, 0x3C0004⟩),
  (0x510A50040080000E000C0008, .ldsb ⟨true, 1, (.view 1), (.sreg 2), .none, 0xE, 0xC0008⟩)] := by decide +kernel

/-- Opcode 0x52. -/
theorem test_decode_52 : Reads [
  (0x5200900400900F0E00001405, .atom ⟨false, 2, (.view 1), (.sreg 2), (.view 3), 0x30E, 0x1405⟩),
  (0x5204F0680080000F00001C1A, .atomsc ⟨false, 3, .zero, (.sreg 2), .none, 0xF, 0x1C1A⟩),
  (0x520900040080000F00000007, .cas ⟨false, 4, (.sreg 1), (.sreg 2), .none, 0xF, 0x7⟩)] := by decide +kernel

/-- Opcode 0x53. -/
theorem test_decode_53 : Reads [
  (0x5303400000B0600000001000, .lease ⟨true, 5, .none, (.sreg 2), .immv, 0x0, 0x1000⟩),
  (0x530780000080000000000000, .unlease ⟨true, 6, .none, (.sreg 2), .none, 0x0, 0x0⟩),
  (0x530BC0000080000000000000, .qlock ⟨true, 7, .none, (.sreg 2), .none, 0x0, 0x0⟩),
  (0x530C00000080000000000000, .qunlock ⟨false, 0, .none, (.sreg 2), .none, 0x0, 0x0⟩)] := by decide +kernel

/-- Opcode 0x54. -/
theorem test_decode_54 : Reads [
  (0x540040000000000000000000, .acq ⟨false, 1, .none, .none, .none, 0x0, 0x0⟩),
  (0x540480000000000000000000, .rel ⟨false, 2, .none, .none, .none, 0x0, 0x0⟩),
  (0x540AC0000000000000000000, .fence ⟨true, 3, .none, .none, .none, 0x0, 0x0⟩)] := by decide +kernel

/-- Opcode 0x55. -/
theorem test_decode_55 : Reads [
  (0x5503000400900CAE0000AB6F, .acpy ⟨true, 4, (.sreg 1), (.sreg 2), (.view 3), 0xAE, 0xAB6F⟩),
  (0x5507400400800C0F000F0010, .acpyb ⟨true, 5, (.sreg 1), (.sreg 2), (.sreg 3), 0xF, 0xF0010⟩)] := by decide +kernel

/-- Opcode 0x56. -/
theorem test_decode_56 : Reads [
  (0x5601800000B0680C00000080, .pref ⟨false, 6, .none, (.sreg 2), .zero, 0xC, 0x80⟩),
  (0x5605C00000B0601C00001000, .retain ⟨false, 7, .none, (.sreg 2), .immv, 0x1C, 0x1000⟩),
  (0x5608000000800C0000000000, .cacheClean ⟨false, 0, .none, (.sreg 2), (.sreg 3), 0x0, 0x0⟩),
  (0x560A400000B0680000000001, .cacheEvict ⟨true, 1, .none, (.sreg 2), .zero, 0x0, 0x1⟩),
  (0x560A800000800C0000000002, .cacheDemote ⟨true, 2, .none, (.sreg 2), (.sreg 3), 0x0, 0x2⟩),
  (0x560AC00000B0680000000003, .cacheIinv ⟨true, 3, .none, (.sreg 2), .zero, 0x0, 0x3⟩)] := by decide +kernel

/-- Opcode 0x57. -/
theorem test_decode_57 : Reads [
  (0x570100040000000000000000, .evwait ⟨false, 4, (.sreg 1), .none, .none, 0x0, 0x0⟩),
  (0x570540040000000000000000, .evpoll ⟨false, 5, (.sreg 1), .none, .none, 0x0, 0x0⟩)] := by decide +kernel

/-- Opcode 0x70. -/
theorem test_decode_70 : Reads [
  (0x700180030600002F0000004D, .qsend ⟨false, 6, .none, .immv, .none, 0x2F, 0x4D⟩),
  (0x7007C0040000000100000000, .qrecv ⟨true, 7, (.sreg 1), .none, .none, 0x1, 0x0⟩),
  (0x700A30070680000300000000, .qtrys ⟨true, 0, (.cond 1), .zero, .none, 0x3, 0x0⟩),
  (0x700E40040030080400000000, .qtryr ⟨true, 1, (.sreg 1), .none, (.cond 2), 0x4, 0x0⟩),
  (0x7010800000400005FFFFC040, .qallowInit ⟨false, 2, .none, (.sreg 1), .none, 0x5, 0xFFFFC040⟩),
  (0x7010C0030680000600090000, .qallow ⟨false, 3, .none, .zero, .none, 0x6, 0x90000⟩),
  (0x701500040000000700000000, .qdepth ⟨false, 4, (.sreg 1), .none, .none, 0x7, 0x0⟩)] := by decide +kernel

/-- Opcode 0x71. -/
theorem test_decode_71 : Reads [
  (0x710340000040001F00000000, .bexp ⟨true, 5, .none, (.sreg 1), .none, 0x1F, 0x0⟩),
  (0x7107B0680000000200000000, .barv ⟨true, 6, .zero, .none, .none, 0x2, 0x0⟩),
  (0x710BF00C0040000300000000, .bwait ⟨true, 7, (.cond 3), (.sreg 1), .none, 0x3, 0x0⟩),
  (0x710C000B0600000400000007, .btest ⟨false, 0, (.sreg 2), .immv, .none, 0x4, 0x7⟩)] := by decide +kernel

/-- Opcode 0x72. -/
theorem test_decode_72 : Reads [
  (0x720040040000000F00000000, .narr ⟨false, 1, (.sreg 1), .none, .none, 0xF, 0x0⟩),
  (0x720480030680000100000000, .nwait ⟨false, 2, .none, .zero, .none, 0x1, 0x0⟩),
  (0x720AC0000000000200000000, .njoin ⟨true, 3, .none, .none, .none, 0x2, 0x0⟩),
  (0x720F00000000000300000000, .nleave ⟨true, 4, .none, .none, .none, 0x3, 0x0⟩)] := by decide +kernel

/-- Opcode 0x80. -/
theorem test_decode_80 : Reads [
  (0x80037066005009F240000810, .mtile ⟨true, 5, .acc, (.tile 1), (.view 2), 0x1F2, 0x40000810⟩),
  (0x8005B06600C0012300030000, .mloop ⟨false, 6, .acc, (.tile 3), .none, 0x123, 0x30000⟩),
  (0x8009F066B01001A100000000, .mbatch ⟨false, 7, .acc, (.rel .tile 1 64), (.view 0), 0x1A1, 0x0⟩),
  (0x800C00070600000000000804, .msplit ⟨false, 0, (.sreg 1), .immv, .none, 0x0, 0x804⟩)] := by decide +kernel

/-- Opcode 0x81. -/
theorem test_decode_81 : Reads [
  (0x8102400000400811000000FF, .wload ⟨true, 1, .none, (.sreg 1), (.sreg 2), 0x11, 0xFF⟩)] := by decide +kernel

/-- Opcode 0x82. -/
theorem test_decode_82 : Reads [
  (0x8202B06400000000FFFF0000, .aclr ⟨true, 2, .acc, .none, .none, 0x0, 0xFFFF0000⟩),
  (0x8206F0650040002200000C04, .acmov ⟨true, 3, .acc, (.view 1), .none, 0x22, 0xC04⟩),
  (0x820510070640000D00000C04, .acmov ⟨false, 4, (.view 1), .acc, .none, 0xD, 0xC04⟩),
  (0x82097064004009400000FFFF, .acld ⟨false, 5, .acc, (.sreg 1), (.sreg 2), 0x140, 0xFFFF⟩),
  (0x820DB0640040083D0FFF0102, .acst ⟨false, 6, .acc, (.sreg 1), (.sreg 2), 0x3D, 0xFFF0102⟩)] := by decide +kernel

/-- Opcode 0x83. -/
theorem test_decode_83 : Reads [
  (0x8303F0680000000100000000, .msync ⟨true, 7, .zero, .none, .none, 0x1, 0x0⟩),
  (0x830600040000000000000000, .mstat ⟨true, 0, (.sreg 1), .none, .none, 0x0, 0x0⟩)] := by decide +kernel

/-- Opcode 0x90. -/
theorem test_decode_90 : Reads [
  (0x900240000040000000000000, .tenq ⟨true, 1, .none, (.sreg 1), .none, 0x0, 0x0⟩),
  (0x900480000040000000000000, .genq ⟨false, 2, .none, (.sreg 1), .none, 0x0, 0x0⟩),
  (0x9008C000000000007FFFFFFF, .tdepAdd ⟨false, 3, .none, .none, .none, 0x0, 0x7FFFFFFF⟩),
  (0x900900000000000100000FFF, .tdepDone ⟨false, 4, .none, .none, .none, 0x1, 0xFFF⟩),
  (0x900F40000000000000000000, .retire ⟨true, 5, .none, .none, .none, 0x0, 0x0⟩),
  (0x9013800000400800000000FF, .chain ⟨true, 6, .none, (.sreg 1), (.sreg 2), 0x0, 0xFF⟩)] := by decide +kernel

/-- Opcode 0x98. -/
theorem test_decode_98 : Reads [
  (0x9803C0040080000400000000, .xcopy ⟨true, 7, (.sreg 1), (.sreg 2), .none, 0x4, 0x0⟩),
  (0x980430680080000000000000, .xwait ⟨false, 0, .zero, (.sreg 2), .none, 0x0, 0x0⟩),
  (0x980840040080000000000000, .xstat ⟨false, 1, (.sreg 1), (.sreg 2), .none, 0x0, 0x0⟩),
  (0x980C800400800C0100000C07, .crcv ⟨false, 2, (.sreg 1), (.sreg 2), (.sreg 3), 0x1, 0xC07⟩)] := by decide +kernel

/-- Opcode 0xA0. -/
theorem test_decode_A0 : Reads [
  (0xA002C0030600000000000400, .bquota ⟨true, 3, .none, .immv, .none, 0x0, 0x400⟩),
  (0xA007100500800C0000000000, .bmake ⟨true, 4, (.view 1), (.view 2), (.sreg 3), 0x0, 0x0⟩),
  (0xA007500400000C0100000000, .bmakeRaw ⟨true, 5, (.view 1), .none, (.sreg 3), 0x1, 0x0⟩),
  (0xA0098000004000000000FF2F, .btrav ⟨false, 6, .none, (.sreg 1), .none, 0x0, 0xFF2F⟩),
  (0xA00DC0040000000000000000, .bpop ⟨false, 7, (.sreg 1), .none, .none, 0x0, 0x0⟩),
  (0xA01000000040000000000000, .bfree ⟨false, 0, .none, (.sreg 1), .none, 0x0, 0x0⟩),
  (0xA01240000000000100000000, .bfreeAll ⟨true, 1, .none, .none, .none, 0x1, 0x0⟩),
  (0xA016800101400000000000FF, .bemit ⟨true, 2, .none, (.view 5), .none, 0x0, 0xFF⟩),
  (0xA01AD014000000000000000F, .brecv ⟨true, 3, (.view 5), .none, .none, 0x0, 0xF⟩)] := by decide +kernel

/-- Opcode 0xA1. -/
theorem test_decode_A1 : Reads [
  (0xA101100502000C00FFFFFFFF, .raymk ⟨false, 4, (.view 1), (.view 8), (.sreg 3), 0x0, 0xFFFFFFFF⟩),
  (0xA10540000040080000000110, .raytrav ⟨false, 5, .none, (.sreg 1), (.sreg 2), 0x0, 0x110⟩),
  (0xA10980000050080000000000, .nodewr ⟨false, 6, .none, (.sreg 1), (.view 2), 0x0, 0x0⟩)] := by decide +kernel

/-- Opcode 0xA2. -/
theorem test_decode_A2 : Reads [
  (0xA203D004001008000000003F, .bcov ⟨true, 7, (.view 1), .none, (.view 2), 0x0, 0x3F⟩),
  (0xA20210040050080100000000, .bcovCell ⟨true, 0, (.view 1), (.sreg 1), (.view 2), 0x1, 0x0⟩),
  (0xA206500500900C0000000000, .bfoot ⟨true, 1, (.view 1), (.view 2), (.view 3), 0x0, 0x0⟩)] := by decide +kernel

/-- Opcode 0xB0. -/
theorem test_decode_B0 : Reads [
  (0xB00080000050080000000000, .msend ⟨false, 2, .none, (.sreg 1), (.view 2), 0x0, 0x0⟩),
  (0xB004C0000000000000000000, .mret ⟨false, 3, .none, .none, .none, 0x0, 0x0⟩),
  (0xB00930690080000000000000, .waitq ⟨false, 4, .zero, (.view 2), .none, 0x0, 0x0⟩),
  (0xB00F40040000000000000000, .quietst ⟨true, 5, (.sreg 1), .none, .none, 0x0, 0x0⟩)] := by decide +kernel

/-- Opcode 0xB1. -/
theorem test_decode_B1 : Reads [
  (0xB10380040080000000000000, .himport ⟨true, 6, (.sreg 1), (.sreg 2), .none, 0x0, 0x0⟩),
  (0xB107C0000080000000000000, .hrevoke ⟨true, 7, .none, (.sreg 2), .none, 0x0, 0x0⟩),
  (0xB10400000080000100000000, .hrevokeExp ⟨false, 0, .none, (.sreg 2), .none, 0x1, 0x0⟩)] := by decide +kernel

/-- Opcode 0xB8. -/
theorem test_decode_B8 : Reads [
  (0xB80040040030680000000000, .time ⟨false, 1, (.sreg 1), .none, .zero, 0x0, 0x0⟩),
  (0xB80480040000000000000000, .twidth ⟨false, 2, (.sreg 1), .none, .none, 0x0, 0x0⟩),
  (0xB80AF06800800C0000000000, .stsc ⟨true, 3, .zero, (.sreg 2), (.sreg 3), 0x0, 0x0⟩),
  (0xB80F000400B0680000000C01, .ldas ⟨true, 4, (.sreg 1), (.sreg 2), .zero, 0x0, 0xC01⟩),
  (0xB81340040080000000000000, .cwait ⟨true, 5, (.sreg 1), (.sreg 2), .none, 0x0, 0x0⟩)] := by decide +kernel

/-- Opcode 0xC0. -/
theorem test_decode_C0 : Reads [
  (0xC0018000000000000000FFFF, .trap ⟨false, 6, .none, .none, .none, 0x0, 0xFFFF⟩),
  (0xC005C0000000000000000000, .eret ⟨false, 7, .none, .none, .none, 0x0, 0x0⟩),
  (0xC00800000000000000000001, .brk ⟨false, 0, .none, .none, .none, 0x0, 0x1⟩),
  (0xC00E400400B0680000000000, .waiti ⟨true, 1, (.sreg 1), (.sreg 2), .zero, 0x0, 0x0⟩),
  (0xC012B0680080000000000000, .haltdHalt ⟨true, 2, .zero, (.sreg 2), .none, 0x0, 0x0⟩),
  (0xC012C00C0080000000000001, .haltdQuery ⟨true, 3, (.sreg 3), (.sreg 2), .none, 0x0, 0x1⟩),
  (0xC01100040080000000000002, .haltdResume ⟨false, 4, (.sreg 1), (.sreg 2), .none, 0x0, 0x2⟩)] := by decide +kernel

/-- Opcode 0xC1. -/
theorem test_decode_C1 : Reads [
  (0xC10140040000000000000013, .rdsr ⟨false, 5, (.sreg 1), .none, .none, 0x0, 0x13⟩),
  (0xC10580030680000000000008, .wrsr ⟨false, 6, .none, .zero, .none, 0x0, 0x8⟩),
  (0xC10BC0040080000000000003, .fltrd ⟨true, 7, (.sreg 1), (.sreg 2), .none, 0x0, 0x3⟩),
  (0xC10E00000000000000000000, .preack ⟨true, 0, .none, .none, .none, 0x0, 0x0⟩)] := by decide +kernel

/-- Opcode 0xC2. -/
theorem test_decode_C2 : Reads [
  (0xC202400706800C0000000000, .ctxsave ⟨true, 1, (.sreg 1), .zero, (.sreg 3), 0x0, 0x0⟩),
  (0xC20480000080000000000000, .ctxload ⟨false, 2, .none, (.sreg 2), .none, 0x0, 0x0⟩),
  (0xC208C00000800C0000000001, .tlbinv ⟨false, 3, .none, (.sreg 2), (.sreg 3), 0x0, 0x1⟩)] := by decide +kernel

/-! ## Steps -/

/-- SADD s1, s2, s3 placed where reset's first group fetches. -/
def placed : State := State.reset.withFetchWord 96 0x010000040080_0C6000000000

theorem witness_StepRunsDecodedInstruction : placed.canIssue placed.g = true ∧ placed.noteFirst = false ∧ placed.agenda = [] ∧ placed.evTurn = false
    ∧ ∃ r, placed.fetch = .ok r ∧ r.1 = 0x010000040080_0C6000000000 ∧ r.2.g = { placed.g with issued := some 0x010000040080_0C6000000000 } := by
  refine ⟨?_, ?_, ?_, ?_, exOk ?_⟩ <;> decide +kernel
theorem witness_StepRunsDecodedInstruction_word : (match decodeWord 0x010000040080_0C6000000000 with
    | .ok i => decide (i = .sadd ⟨false, 0, .sreg 1, .sreg 2, .sreg 3, 0x060, 0⟩) | .error _ => false) = true := by decide +kernel
/-- A step runs the placed word: s1 takes 2 + 3, and the program counter is 12 (R57, R113). -/
theorem test_step_sadd : ∃ t, step { placed with g := (rs placed [(2, 2), (3, 3)]).g } = .next t
    ∧ t.g.sreg 1 = 5 ∧ t.g.pc = 12 ∧ t.now = 1 := exNext (by decide +kernel)
theorem witness_StepKeeps : placed.Canonical ∧ ∃ t, step placed = .next t ∧ t.g.pc = 12 := ⟨show Memory.wf placed.mem = true by decide +kernel, exNext (by decide +kernel)⟩
theorem witness_StepKeepsSound : demo.Sound ∧ ∃ t, step demo = .next t ∧ t.now = 1 := ⟨demo_sound, exNext (by decide +kernel)⟩

/-- A word of an unassigned opcode at the program counter, a page that nothing maps, a poisoned line. -/
theorem witness_UndecodableWordsTrap : handled.g.life = .active ∧ handled.canEnter = true
    ∧ (let s := handled.withFetchWord 96 0xD30000000000_000000000000
      s.canIssue s.g = true ∧ s.noteFirst = false ∧ (∃ r, s.fetch = .ok r ∧ r.1 = 0xD30000000000_000000000000 ∧
        (match decodeWord r.1 with | .ok _ => false | .error d => decide (d = .opcode)) = true))
    ∧ (let s : State := { handled with g := { handled.g with pc := 0x7000008 } }
      s.canIssue s.g = true ∧ ∃ e, s.fetch = .error e ∧ e.1 = 0x10 ∧ e.2.2 = 0x7000008)
    ∧ (let s : State := { handled with poison := kset [] (0x1200 / 128) 1 }
      s.canIssue s.g = true ∧ ∃ e, s.fetch = .error e ∧ e.1 = 0x17) := by
  refine ⟨?_, ?_, ⟨?_, ?_, exOk ?_⟩, ⟨?_, exErr ?_⟩, ⟨?_, exErr ?_⟩⟩ <;> decide +kernel

/-! ## Issue and traps -/

/-- A false condition guard, and GN = 1 with GRD = 0, in each class (R66). -/
theorem witness_FalseGuardOnlyAdvances : (Instr.sadd ⟨false, 1, .sreg 1, .sreg 2, .sreg 3, 0x060, 0⟩).parts =
      some (0x01, 0, ⟨false, 1, .sreg 1, .sreg 2, .sreg 3, 0x060, 0⟩)
    ∧ (∃ r, (rowsOf 0x01).find? (fun r => decide (r.form.fn = 0)) = some r ∧ r.form.cls = .c) ∧ demo.g.life = .active
    ∧ executed .c ⟨false, 1, .sreg 1, .sreg 2, .sreg 3, 0x060, 0⟩ demo.g = false ∧ executed .m ⟨true, 0, .view 64, .view 72, .view 80, 0x060, 0⟩ demo.g = false
    ∧ executed .k ⟨true, 0, .view 64, .sreg 2, .view 80, 3, 0⟩ demo.g = false := by
  refine ⟨?_, exSome ?_, ?_, ?_, ?_, ?_⟩ <;> decide +kernel

/-- The issue checks at their boundaries: index -1 at D, 64 at A, and 63 inside; the lowest lane that fails; a privileged
instruction. -/
theorem witness_ChecksBeforeEffect :
    (executed .c (fl .none .none .none) handled.g = true ∧ handled.g.priv = false)
    ∧ (let s : State := { demo with g := demo.g.setIndex 1 0xFFFFFFFC }
      s.g.inRange ⟨0, .rel .scalar 1 4, 8⟩ = true ∧ s.g.inRange ⟨0, .rel .scalar 0 63, 8⟩ = true
      ∧ (s.g.index 1).toInt + (3 : BitVec 7).toInt = -1 ∧ (({ s with g := s.g.setIndex 1 1 } : State).g.index 1).toInt + (63 : BitVec 7).toInt = 64)
    ∧ (let s := rs demo [(2, 0x101)]
      let f := fl (.view 64) (.sreg 2) .none 2
      Executes .m false (vrefs f 32 8 8) f s ∧ laneList (s.g.lanes f) = [] ++ 0 :: (laneList (s.g.lanes f)).tail
      ∧ ((s.va f).toNat + f.imm.toInt + (0 : Nat)) % 4 ≠ 0)
    ∧ (let s := els (rs demo [(2, 0x100)]) 512 64 [(1, 2)]
      let f := fl (.view 64) (.sreg 2) (.view 512) 2
      Executes .m false (vrefs f 32 8 64) f s ∧ laneList (s.g.lanes f) = [0] ++ 1 :: (laneList (s.g.lanes f)).drop 2
      ∧ (∃ x, s.checkElem .r 0 4 0 0x100 = .ok x ∧ x.tgt = 0) ∧ ((0x100 : Int) + sgn (s.g.elem f.imm f.b 64 1) 64) % 4 ≠ 0)
    ∧ (let s := els (rs demo [(2, 0x100)]) 512 64 [(1, 2)]
      let f := fl (.view 64) (.sreg 2) (.view 512) 2
      Executes .k false (atomRefs f) f s ∧ f.d.isView = true) := by
  refine ⟨⟨?_, ?_⟩, ⟨?_, ?_, ?_, ?_⟩, ⟨execs ?_, ?_, ?_⟩, ⟨execs ?_, ?_, exOk ?_, ?_⟩, execs ?_, ?_⟩ <;> decide +kernel

theorem witness_TrapEntry : handled.canEnter = true ∧ ¬ ((0x15 : BitVec 8) = 0x08 ∧ handled.vec.getLsbD 61 = true)
    ∧ demo.canEnter = false ∧ priv.canEnter = false ∧ ∃ l, demo.launch? demo.g.launch = some l ∧ l.failed = false := by
  refine ⟨?_, ?_, ?_, ?_, exSome ?_⟩ <;> decide +kernel
/-- A precise trap of the handled group: the handler's address, the cause and the return address (R325, R327). -/
theorem test_trap_entry : ∃ t, exec (.ld (fl (.view 64) (.sreg 2) .none 2 1)) handled = .next t ∧ t.g.pc = 0x2400 ∧ t.g.priv = true
    ∧ t.g.epc = 0x1200 ∧ t.g.ecause = 0x15 ∧ t.g.eaddr = 1 := exNext (by decide +kernel)

/-- TRAP, BRK with and without DBG, ERET to a good and a bad address, with and without a PRENOTE. -/
theorem witness_TrapInstructionsAndReturn :
    (Executes .c false (dab (fl .none .none .none 0 0xFFFF)) (fl .none .none .none 0 0xFFFF) handled ∧ handled.canEnter = true
      ∧ handled.vec.getLsbD 61 = false ∧ (handled.setMr (offTVEC 0) 0xA000000000002400).vec.getLsbD 61 = true)
    ∧ (let s : State := { priv with g := { priv.g with epc := 0x120C } }
      Executes .c true (dab (fl .none .none .none)) (fl .none .none .none) s ∧ validTarget s.g.epc.toNat = true ∧ s.g.preq = false
      ∧ s.vec.getLsbD 63 = true ∧ validTarget s.handlerPc.toNat = true
      ∧ validTarget ({ s with g := { s.g with epc := 0x120D } } : State).g.epc.toNat = false) := by
  refine ⟨⟨execs ?_, ?_, ?_, ?_⟩, execs ?_, ?_, ?_, ?_, ?_, ?_⟩ <;> decide +kernel

theorem witness_SystemRegisters : Executes .c false (dab (fl (.sreg 1) .none .none 0 0x013)) (fl (.sreg 1) .none .none 0 0x013) priv
    ∧ Executes .c false (dab (fl (.sreg 1) .none .none 0 0x001)) (fl (.sreg 1) .none .none 0 0x001) demo
    ∧ Executes .c true (dab (fl .none (.sreg 1) .none 0 8)) (fl .none (.sreg 1) .none 0 8) priv
    ∧ Executes .c true (dab (fl (.sreg 1) (.sreg 2) .none 0 3)) (fl (.sreg 1) (.sreg 2) .none 0 3) priv := by
  refine ⟨execs ?_, execs ?_, execs ?_, execs ?_⟩ <;> decide +kernel
/-- WRSR ESCR0 and RDSR of it, one after the other (R326). -/
theorem test_wrsr_escr0 : ∃ t, exec (.wrsr (fl .none (.sreg 1) .none 0 7)) (rs priv [(1, 0xABCD)]) = .next t ∧ t.g.escr0 = 0xABCD ∧ t.g.pc = 0x120C :=
  exNext (by decide +kernel)
theorem test_rdsr_flhead : ∃ t, exec (.rdsr (fl (.sreg 1) .none .none 0 0x012)) (priv.log 0 { cause := 0x15 }) = .next t ∧ t.g.sreg 1 = 1 :=
  exNext (by decide +kernel)

/-! ## Scalar and control instructions -/

theorem witness_ScalarArithmetic : Executes .c false (dab (fl (.sreg 1) (.sreg 2) (.sreg 3) 0x004)) (fl (.sreg 1) (.sreg 2) (.sreg 3) 0x004) demo
    ∧ (fl (.sreg 1) (.sreg 2) (.sreg 3) 0x004).type = 0 ∧ Executes .c false (dab (fl (.rel .scalar 0 63) .zero .immv 0x0E0)) (fl (.rel .scalar 0 63) .zero .immv 0x0E0) demo
    ∧ (fl (.rel .scalar 0 63) .zero .immv 0x0E0).type = 7 := by
  refine ⟨execs ?_, ?_, execs ?_, ?_⟩ <;> decide +kernel
/-- 100 + 100 saturates at 127 in I8; the source is also the destination (R111, R113). -/
theorem test_sadd_saturates : ∃ t, exec (.sadd (fl (.sreg 2) (.sreg 2) (.sreg 3) 0x004)) (rs demo [(2, 100), (3, 100)]) = .next t ∧ t.g.sreg 2 = 127 :=
  exNext (by decide +kernel)
/-- -7 / 2 is -3 and -7 rem 2 is -1; division by zero gives -1 in a signed type (R113). -/
theorem test_sdiv : (∃ t, exec (.sdiv (fl (.sreg 1) (.sreg 2) (.sreg 3) 0x060)) (rs demo [(2, 2 ^ 64 - 7), (3, 2)]) = .next t ∧ t.g.sreg 1 = 0xFFFFFFFFFFFFFFFD)
    ∧ ∃ t, exec (.sdiv (fl (.sreg 1) (.sreg 2) .zero 0x060)) (rs demo [(2, 7)]) = .next t ∧ t.g.sreg 1 = 0xFFFFFFFFFFFFFFFF :=
  ⟨exNext (by decide +kernel), exNext (by decide +kernel)⟩

theorem witness_ScalarMovesAndMasks : Executes .c false (dab (fl (.cond 7) (.sreg 2) (.sreg 3) 0x0EA)) (fl (.cond 7) (.sreg 2) (.sreg 3) 0x0EA) demo
    ∧ (fl (.cond 7) (.sreg 2) (.sreg 3) 0x0EA).type = 7 ∧ (fl (.cond 7) (.sreg 2) (.sreg 3) 0x0EA).cc = 5
    ∧ (∀ l : Nat, l < 64 → (demo.g.mask 7).getLsbD l = true → (demo.g.mask 0).getLsbD l = false)
    ∧ ∃ l : Nat, l < 64 ∧ (demo.g.mask 0).getLsbD l = true ∧ (demo.g.mask 7).getLsbD l = false :=
  ⟨execs (by decide +kernel), by decide +kernel, by decide +kernel, by decide +kernel, 63, by decide +kernel⟩
/-- SCMP.LT of -1 and 1 is true in I64 and false in N64 (R116). -/
theorem test_scmp : (∃ t, exec (.scmp (fl (.cond 1) (.sreg 2) (.sreg 3) 0x064)) (rs demo [(2, 2 ^ 64 - 1), (3, 1)]) = .next t ∧ t.g.cond 1 = true)
    ∧ ∃ t, exec (.scmp (fl (.cond 1) (.sreg 2) (.sreg 3) 0x0E4)) (rs demo [(2, 2 ^ 64 - 1), (3, 1)]) = .next t ∧ t.g.cond 1 = false :=
  ⟨exNext (by decide +kernel), exNext (by decide +kernel)⟩

/-- Targets at both ends of the range and outside it; LOOP with a count that becomes 0 and one that does not. -/
theorem witness_ControlTransfers : Executes .c false (dab (fl (.sreg 5) .none .none 0 0xFFFFFFFD)) (fl (.sreg 5) .none .none 0 0xFFFFFFFD) demo
    ∧ (0x1200 + 12 * (-384) : Int) = 0 ∧ ((0x1200 : Int) + 12 * (-385) < 0)
    ∧ (rs demo [(5, 1)]).vd (fl (.sreg 5) .none .none) - 1 = 0 ∧ demo.vd (fl (.sreg 5) .none .none) - 1 ≠ 0 := by
  refine ⟨execs ?_, ?_, ?_, ?_, ?_⟩ <;> decide +kernel
/-- LOOP s5 two instructions back, with s5 = 2 (R119); CALL links the next instruction. -/
theorem test_loop_and_call : (∃ t, exec (.loop (fl (.sreg 5) .none .none 0 0xFFFFFFFE)) (rs demo [(5, 2)]) = .next t ∧ t.g.pc = 0x11E8 ∧ t.g.sreg 5 = 1)
    ∧ ∃ t, exec (.call (fl .none .none .none 0 1)) demo = .next t ∧ t.g.pc = 0x120C ∧ t.g.sreg 63 = 0x120C :=
  ⟨exNext (by decide +kernel), exNext (by decide +kernel)⟩

/-- VIEW at the last good value and the first bad one; YIELD with and without a group that waits for the slot. -/
theorem witness_IdentifierViewYield : Executes .c false (dab (fl .vb (.sreg 1) .none)) (fl .vb (.sreg 1) .none) demo
    ∧ ((rs demo [(1, 393200)]).va (fl .vb (.sreg 1) .none)).toNat / 16 = 24575 ∧ ((rs demo [(1, 393216)]).va (fl .vb (.sreg 1) .none)).toNat / 16 = 24576
    ∧ (∃ g, demo.rest.head? = some g ∧ g.die = demo.g.die ∧ g.core = demo.g.core ∧ g.life = .waiting ∧ demo.unblocked g = true)
    ∧ (∀ g ∈ ({ demo with rest := [] } : State).rest, g.life ≠ .waiting)
    ∧ Executes .c false (dab (fl (.sreg 1) .none .none 0 6)) (fl (.sreg 1) .none .none 0 6) demo := by
  refine ⟨execs ?_, ?_, ?_, exSome ?_, ?_, execs ?_⟩ <;> decide +kernel
/-- The view of R121's example: TSH takes 0x7F0700, and 0x7F0701 is refused with VIEWVAL. -/
theorem test_view_tsh : (∃ t, exec (.view (fl .tsh .immv .none 0 0x7F0700)) handled = .next t ∧ t.g.tsh = 0x7F0700)
    ∧ ∃ t, exec (.view (fl .tsh .immv .none 0 0x7F0701)) handled = .next t ∧ t.g.tsh = 0x7F0000 ∧ t.g.ecause = 0x05 :=
  ⟨exNext (by decide +kernel), exNext (by decide +kernel)⟩

theorem witness_GroupStaysInItself : (Instr.vadd (fl (.view 64) (.view 72) (.view 80) 0x060)).parts = some (0x20, 0, fl (.view 64) (.view 72) (.view 80) 0x060)
    ∧ ∃ t, exec (.vadd (fl (.view 64) (.view 72) (.view 80) 0x060)) demo = .next t ∧ t.g.pc = 0x120C :=
  ⟨by decide +kernel, exNext (by decide +kernel)⟩

/-! ## Vector instructions -/

theorem witness_VectorArithmetic :
    (let f := fl (.view 64) (.view 72) (.sreg 3) 0x004;
      f.d.isView = true ∧ Executes .m false (vrefs f 8 8 8) f demo ∧ f.type = 0 ∧ typeWidth f.type = 8)
    ∧ (let f := fl (.view 64) (.view 128) (.view 192) 0x0E0 0x4F0
      Executes .m false (vrefsC f 64 64 64 64) f demo ∧ f.type = 7 ∧ typeWidth f.type = 64)
    ∧ (let f := fl (.view 64) (.view 96) .zero 0x100
      Executes .m false (vrefs f 32 32 32) f demo ∧ f.type = 8 ∧ typeWidth f.type = 32)
    ∧ (let f := fl (.view 64) (.view 96) (.view 128) 0x14E 0x4A0
      Executes .m false (vrefsC f 16 16 16 16) f demo ∧ f.type = 10 ∧ typeWidth f.type = 16) := by
  refine ⟨⟨?_, execs ?_, ?_, ?_⟩, ⟨execs ?_, ?_, ?_⟩, ⟨execs ?_, ?_, ?_⟩, execs ?_, ?_, ?_⟩ <;> decide +kernel
/-- VADD.i8 wraps, and saturates under SAT (R152). -/
theorem test_vadd : (let s := els (els demo 72 8 [(0, 100), (1, 0x80)]) 80 8 [(0, 100), (1, 0xFF)]
      ∃ t, exec (.vadd (fl (.view 64) (.view 72) (.view 80) 0)) s = .next t ∧ t.g.elem 0 (.view 64) 8 0 = 200 ∧ t.g.elem 0 (.view 64) 8 1 = 0x7F)
    ∧ (let s := els (els demo 72 8 [(0, 100), (1, 0x80)]) 80 8 [(0, 100), (1, 0xFF)]
      ∃ t, exec (.vadd (fl (.view 64) (.view 72) (.view 80) 0x004)) s = .next t
        ∧ t.g.elem 0 (.view 64) 8 0 = 127 ∧ t.g.elem 0 (.view 64) 8 1 = 0x80) :=
  ⟨exNext (by decide +kernel), exNext (by decide +kernel)⟩
/-- VFMA.f32: 2 x 3 + 1 is 7, rounded once (R152). -/
theorem test_vfma : ∃ t, exec (.vfma (fl (.view 64) (.view 96) (.view 128) 0x100 0x4A0))
    (els (els (els demo 96 32 [(0, 0x40000000)]) 128 32 [(0, 0x40400000)]) 160 32 [(0, 0x3F800000)]) = .next t
    ∧ t.g.elem 0 (.view 64) 32 0 = 0x40E00000 := exNext (by decide +kernel)

theorem witness_VectorFunctions : (let f := fl (.view 64) (.view 96) .none 0x100
      f.d.isView = true ∧ Executes .m false (vrefs f 32 32 32) f demo ∧ f.type = 8)
    ∧ (let f := fl (.view 64) (.view 96) .none 0x146
      Executes .m false (vrefs f 16 16 16) f demo ∧ f.type = 10 ∧ f.sat = true ∧ f.ftz = true) := by
  refine ⟨⟨?_, execs ?_, ?_⟩, execs ?_, ?_, ?_, ?_⟩ <;> decide +kernel
/-- VSQRT.f32 of 2 is 0x3FB504F3 (R154: the exact root, rounded to nearest). -/
theorem test_vsqrt : ∃ t, exec (.vsqrt (fl (.view 64) (.view 96) .none 0x100)) (els demo 96 32 [(0, 0x40000000)]) = .next t
    ∧ t.g.elem 0 (.view 64) 32 0 = 0x3FB504F3 := exNext (by decide +kernel)

theorem witness_VectorBitsCompareConvert :
    (let f := fl (.view 64) (.view 72) (.view 80) 0;
      f.d.isView = true ∧ Executes .m false (vrefs f 8 8 8) f demo ∧ f.type = 0)
    ∧ (let f := fl (.mask 7) (.view 128) (.view 192) 0x0EA
      Executes .m false (vrefs f 64 64 64) f demo ∧ f.type = 7 ∧ f.cc = 5 ∧ (demo.g.lanes f).getLsbD 63 = true)
    ∧ (let f := fl (.mask 1) (.view 128) (.view 192) 0x14E
      Executes .m false (vrefs f 16 16 16) f demo ∧ f.type = 10 ∧ f.cc = 7)
    ∧ (let f := fl (.view 64) (.view 128) .zero 0 0xC0F
      Executes .m false (vrefs f 32 32 32) f demo)
    ∧ (let f := fl (.view 64) (.view 128) .none 0x044 8
      Executes .m false (vrefs f 32 32 8) f demo ∧ f.immN % 32 = 8 ∧ f.type = 2)
    ∧ (let f := fl (.view 64) (.view 128) .none 0x100 12
      Executes .m false (vrefs f 32 8 8) f demo ∧ f.immN % 32 = 12 ∧ f.type = 8) := by
  refine ⟨⟨?_, execs ?_, ?_⟩, ⟨execs ?_, ?_, ?_, ?_⟩, ⟨execs ?_, ?_, ?_⟩, execs ?_, ⟨execs ?_, ?_, ?_⟩, execs ?_, ?_, ?_⟩ <;> decide +kernel
/-- VCVT.i32 of 2.5 is 2 (RNE) and 3 (RUP); VSHL by the width gives 0 (R155, R159). -/
theorem test_vcvt : (∃ t, exec (.vcvt (fl (.view 64) (.view 128) .none 0x040 8)) (els demo 128 32 [(0, 0x40200000)]) = .next t
      ∧ t.g.elem 0 (.view 64) 32 0 = 2)
    ∧ (∃ t, exec (.vcvt (fl (.view 64) (.view 128) .none 0x050 8)) (els demo 128 32 [(0, 0x40200000)]) = .next t ∧ t.g.elem 0 (.view 64) 32 0 = 3)
    ∧ ∃ t, exec (.vshl (fl (.view 64) (.view 72) (.view 80) 0)) (els (els demo 72 8 [(0, 0xFF)]) 80 8 [(0, 8)]) = .next t
      ∧ t.g.elem 0 (.view 64) 8 0 = 0 := ⟨exNext (by decide +kernel), exNext (by decide +kernel), exNext (by decide +kernel)⟩

/-- The lane set holds lane 63 but not lane 0; B's index at both. -/
theorem witness_LaneMovement :
    (let f : Fields := ⟨false, 1, .view 64, .view 128, .sreg 3, 3, 0⟩;
      let s : State := { rs demo [(3, 63)] with g := (rs demo [(3, 63)]).g.setMask 1 0x8000000000000000 }
      f.d.isView = true ∧ Executes .m false (vrefs f 64 64 64) f s ∧ (s.g.lanes f).getLsbD ((s.vb f).toNat % 64) = true)
    ∧ (let f : Fields := ⟨false, 1, .view 64, .view 128, .sreg 3, 0, 0⟩
      let s : State := { rs demo [(3, 64)] with g := (rs demo [(3, 64)]).g.setMask 1 0x8000000000000000 }
      Executes .m false (vrefs f 8 8 8) f s ∧ (s.g.lanes f).getLsbD ((s.vb f).toNat % 64) = false)
    ∧ (let f := fl (.view 64) .none .none 2 7
      f.d.isView = true ∧ Executes .m false (vrefs f 32 32 32) f demo ∧ f.immN % 8 = 7) := by
  refine ⟨⟨?_, execs ?_, ?_⟩, ⟨execs ?_, ?_⟩, ?_, execs ?_, ?_⟩ <;> decide +kernel
/-- VSHUF takes lane 5 in lane 0, and 0 where bit 6 of the index is set (R167). -/
theorem test_vshuf : ∃ t, exec (.vshuf (fl (.view 64) (.view 72) (.view 80) 0)) (els (els demo 72 8 [(5, 0x55)]) 80 8 [(0, 5), (1, 69)]) = .next t
    ∧ t.g.elem 0 (.view 64) 8 0 = 0x55 ∧ t.g.elem 0 (.view 64) 8 1 = 0 := exNext (by decide +kernel)

theorem witness_BlockScaledInstructions :
    (let f := fl (.view 64) (.view 128) (.sreg 5) 0x1E0 0x009;
      f.d.isView = true ∧ Executes .m false (vrefs f 4 32 8) f demo ∧ Executes .m false (vrefs f 32 4 8) f demo
      ∧ Executes .m false (vrefs f 32 32 8) f demo ∧ 512 ≤ demo.g.base f.d ∧ demo.g.lanes f ≠ 0)
    ∧ (let f : Fields := ⟨false, 7, .view 64, .view 128, .sreg 5, 0x1E0, 9⟩
      Executes .m false (vrefs f 4 32 8) f demo ∧ demo.g.lanes f = 0) := by
  refine ⟨⟨?_, execs ?_, execs ?_, execs ?_, ?_, ?_⟩, execs ?_, ?_⟩ <;> decide +kernel
/-- The worked example of spec/11: VQUANT.blk4.uint of 0, 0.25, ... 7.75 gives the scale 0x07F, codes 0 for 0.5, 2 for 1.5 and 2.5, and 7 for
the last two lanes, and keeps bits [19:10] of s5. -/
theorem test_vquant_example : ∃ t, exec (.vquant ⟨false, 1, .view 64, .view 128, .sreg 5, 0x1E0, 9⟩)
    (els { rs demo [(5, 0x55400)] with g := (rs demo [(5, 0x55400)]).g.setMask 1 0xFFFFFFFF } 128 32 [
      (0, 0x0), (1, 0x3E800000), (2, 0x3F000000), (3, 0x3F400000), (4, 0x3F800000), (5, 0x3FA00000), (6, 0x3FC00000), (7, 0x3FE00000), (8, 0x40000000), (9, 0x40100000), (10, 0x40200000), (11, 0x40300000), (12, 0x40400000), (13, 0x40500000), (14, 0x40600000), (15, 0x40700000), (16, 0x40800000), (17, 0x40880000), (18, 0x40900000), (19, 0x40980000), (20, 0x40A00000), (21, 0x40A80000), (22, 0x40B00000), (23, 0x40B80000), (24, 0x40C00000), (25, 0x40C80000), (26, 0x40D00000), (27, 0x40D80000), (28, 0x40E00000), (29, 0x40E80000), (30, 0x40F00000), (31, 0x40F80000)]) = .next t
    ∧ t.g.sreg 5 = 0x5547F ∧ [0, 2, 6, 10, 29, 30, 31].map (t.g.elem 0 (.view 64) 4) = [0, 0, 2, 2, 7, 7, 7] := exNext (by decide +kernel)

theorem witness_ReductionAndScan :
    (let f := fl (.sreg 1) (.view 72) .none 0x005;
      Executes .m false (vrefs f 8 8 8) f demo ∧ f.type = 0 ∧ f.modN % 8 = 5)
    ∧ (let f : Fields := ⟨false, 7, .view 64, .view 128, .none, 0x0E0, 0⟩
      f.d.isView = true ∧ Executes .m false (vrefs f 64 64 64) f demo ∧ f.type = 7 ∧ demo.g.lanes f = 0) := by
  refine ⟨⟨execs ?_, ?_, ?_⟩, ?_, execs ?_, ?_, ?_⟩ <;> decide +kernel
/-- The worked example of spec/11: lanes -inf, 2, NaN, -inf reduce to 2 under max, -inf under min and NaN under add. -/
theorem test_vred_example : (let s := els { demo with g := demo.g.setMask 1 0xF } 128 32 [(0, 0xFF800000), (1, 0x40000000), (2, 0x7FC00000), (3, 0xFF800000)]
    (∃ t, exec (.vred ⟨false, 1, .sreg 1, .view 128, .none, 0x102, 0⟩) s = .next t ∧ t.g.sreg 1 = 0x40000000)
    ∧ (∃ t, exec (.vred ⟨false, 1, .sreg 1, .view 128, .none, 0x101, 0⟩) s = .next t ∧ t.g.sreg 1 = 0xFF800000)
    ∧ ∃ t, exec (.vred ⟨false, 1, .sreg 1, .view 128, .none, 0x100, 0⟩) s = .next t ∧ t.g.sreg 1 = 0x7FC00000) :=
  ⟨exNext (by decide +kernel), exNext (by decide +kernel), exNext (by decide +kernel)⟩

/-! ## Memory -/

/-- Local, host and peer loads that are checked and not poisoned; a failed check; a poisoned line. -/
theorem witness_Loads : demo.Sound
    ∧ (let f := fl (.view 64) (.sreg 2) .none 2 8; let s := rs demo [(2, 0x1000)]
      f.d.isView = true ∧ Executes .m false (vrefs f 32 8 8) f s ∧ ∃ xs, s.checkLanes .r 0 4 (fun l => 0x1008 + (l * 4 : Nat)) (laneList (s.g.lanes f)) = .ok xs
        ∧ s.firstPoison .r 4 xs = none ∧ ∀ a ∈ xs, a.x.tgt = 0 ∧ s.peerBusy 4 a = false)
    ∧ (let f := fl (.view 64) (.sreg 2) (.view 512) 0x063; let s := rs demo [(2, 0x2000000)]
      Executes .m false (vrefs f 64 8 64) f s ∧ ∃ xs, s.checkLanes .r 3 8 (fun l => 0x2000000 + sgn (s.g.elem 0 (.view 512) 64 l) 64) (laneList (s.g.lanes f)) = .ok xs
        ∧ s.firstPoison .r 8 xs = none ∧ ∀ a ∈ xs, a.x.tgt = 1)
    ∧ (let f := fl (.sreg 1) (.sreg 2) .none 0x0A0; let s := rs demo [(2, 0x40FFFFF)]
      Executes .c false (dab f) f s ∧ ∃ xs, s.checkLanes .r 5 1 (fun _ => 0x40FFFFF) [0] = .ok xs ∧ s.firstPoison .r 1 xs = none
        ∧ ∀ a ∈ xs, a.x.tgt = 2 ∧ s.peerBusy 1 a = false ∧ placeIs (s.peerHome s.g.die a.x.handle a.x.ofs .r s.gSecure) (2 ^ 35 + 0xFFFFF) = true)
    ∧ (∃ r, demo.checkLanes .r 0 4 (fun _ => 0x8000000) [0] = .error r ∧ r.cause = 0x10)
    ∧ (let s : State := { demo with poison := [(0x20, 1)] }
      ∃ xs, s.checkLanes .r 0 4 (fun _ => 0x1000) [0] = .ok xs ∧ (s.firstPoison .r 4 xs).isSome = true)
    ∧ (let f := fl (.view 64) (.sreg 2) (.sreg 3) 0 0; let s := rs demo [(2, 0x1000)]
      512 ≤ s.g.base f.d ∧ Executes .m false (fun _ => [⟨0, f.d, 64⟩, ⟨1, f.a, 8⟩, ⟨2, f.b, 8⟩]) f s ∧ laneList (s.g.lanes f) ≠ []
      ∧ (∃ x, s.checkElem .r 0 1 0 0x1000 = .ok x ∧ (s.formatAt (memKey 0 x.ofs)).1 = 0 ∧ (s.formatAt (memKey 0 x.ofs)).2.2 = 0)
      ∧ (∃ xs, s.spanAccs 0x1000 4 (laneList (s.g.lanes f)) = .ok xs ∧ s.firstPoison .r 1 xs = none)
      ∧ (∃ x, s.checkElem .r 0 1 32 0x1010 = .ok x ∧ x.tgt = 0) ∧ (s.formatAt 0x1008).2.2 ≠ 0)
    ∧ laneList (demo.g.lanes ⟨false, 7, .view 64, .sreg 2, .sreg 3, 0, 0⟩) = [] := by
  refine ⟨demo_sound, ⟨?_, execs ?_, exOk ?_⟩, ⟨execs ?_, exOk ?_⟩, ⟨execs ?_, exOk ?_⟩, exErr ?_, exOk ?_,
    ⟨?_, execs ?_, ?_, exOk ?_, exOk ?_, exOk ?_, ?_⟩, ?_⟩ <;> decide +kernel
/-- SLD.sz2 zero-extends two little-endian bytes (R202). -/
theorem test_sld : ∃ t, exec (.sld (fl (.sreg 1) (.sreg 2) .none 1)) (mem (rs demo [(1, 2 ^ 64 - 1), (2, 0x1000)]) 0x1000 2 0x8001) = .next t
    ∧ t.g.sreg 1 = 0x8001 ∧ t.g.pc = 0x120C := exNext (by decide +kernel)

theorem witness_Stores : demo.Sound ∧ demo.storesOut demo.g.uid = false
    ∧ (let f := fl (.view 64) (.sreg 2) .none 0x202 0xFFFFFFFC; let s := rs demo [(2, 0x1000)]
      f.ord = 2 ∧ Executes .m false (vrefs f 32 8 8) f s ∧ ∃ xs, (s.flushCore 0 0).checkLanes .w f.mcls 4 (fun l => 0xFFC + (l * 4 : Nat)) (laneList (s.g.lanes f)) = .ok xs
        ∧ ∀ a ∈ xs, (s.flushCore 0 0).leaseBusy 4 a = false ∧ a.x.tgt = 0)
    ∧ (let f := fl (.view 64) (.sreg 2) (.view 512) 0x060; let s := rs demo [(2, 0x2000000)]
      s.linkUp = true ∧ Executes .m false (vrefs f 8 8 64) f s ∧ ∃ xs, s.checkLanes .w f.mcls 1 (fun l => 0x2000000 + sgn (s.g.elem 0 (.view 512) 64 l) 64) (laneList (s.g.lanes f)) = .ok xs
        ∧ ∀ a ∈ xs, s.leaseBusy 1 a = false ∧ a.x.tgt = 1)
    ∧ (let f := fl (.sreg 1) (.sreg 2) .none 0x0A3; let s := rs demo [(2, 0x4000000)]
      Executes .c false (dab f) f s ∧ ∃ xs, s.checkLanes .w 5 8 (fun _ => 0x4000000) [0] = .ok xs ∧ ∀ a ∈ xs, s.leaseBusy 8 a = false ∧ a.x.tgt = 2)
    ∧ ∃ r, demo.checkLanes .w 0 4 (fun _ => 2) [0] = .error r ∧ r.cause = 0x15 := by
  refine ⟨demo_sound, ?_, ⟨?_, execs ?_, exOk ?_⟩, ⟨?_, execs ?_, exOk ?_⟩, ⟨execs ?_, exOk ?_⟩, exErr ?_⟩ <;> decide +kernel
/-- STG: two lanes that name the same byte leave the higher lane's (R202). -/
theorem test_stg_overlap : ∃ t, exec (.stg ⟨false, 1, .view 64, .sreg 2, .view 512, 0, 0⟩)
    (els { rs demo [(2, 0x1000)] with g := (rs demo [(2, 0x1000)]).g.setMask 1 3 } 64 8 [(0, 0x11), (1, 0x22)]) = .next t
    ∧ t.cohByte 0x1000 = 0x22 ∧ t.cohByte 0x1001 = 0 := exNext (by decide +kernel)

/-- Windows of 4,096 and 1,024 bytes, an access that ends at the last byte and one that passes it. -/
theorem witness_Scratchpad : demo.Sound ∧ two.Sound
    ∧ (let f := fl (.view 64) (.sreg 2) .none 2 3840
      Executes .m false (vrefs f 32 8 8) f demo ∧ (∀ l ∈ laneList (demo.g.lanes f), (3840 + l * 4) % 4 = 0 ∧ 3840 + l * 4 + 4 ≤ demo.myTeam.window)
      ∧ f.immN / 2 ^ 18 % 16 = 0 ∧ (demo.team? demo.g.gang demo.g.team).isSome = true)
    ∧ (let f := fl (.view 64) (.sreg 2) .none 2 0x40300
      Executes .m false (vrefs f 32 8 8) f two ∧ f.immN / 2 ^ 18 % 4 = 1 ∧ (∃ e, two.teamAt 1 = some e ∧ e.1 = 1 ∧ 768 + 63 * 4 + 4 ≤ e.2.window))
    ∧ (let f := fl (.view 64) (.sreg 2) .none 2 0xC0300
      Executes .m false (vrefs f 32 8 8) f two ∧ f.immN / 2 ^ 18 % 16 = 3 ∧ (two.teamAt 0).isSome = true ∧ (two.teamAt 1).isSome = true)
    ∧ (let f := fl (.view 64) (.sreg 2) .none 2 3844
      laneList (demo.g.lanes f) = List.range 63 ++ 63 :: [] ∧ (3844 + 63 * 4) % 4 = 0 ∧ demo.myTeam.window < 3844 + 63 * 4 + 4) := by
  refine ⟨demo_sound, sound_of ?_, ⟨execs ?_, ?_, ?_, ?_⟩, ⟨execs ?_, ?_, exSome ?_⟩, ⟨execs ?_, ?_, ?_, ?_⟩, ?_, ?_, ?_⟩ <;> decide +kernel

/-- Local lanes, a peer access of one lane, the unordered and the released form. -/
theorem witness_Atomics : demo.Sound ∧ demo.storesOut demo.g.uid = false
    ∧ (let f := fl (.view 64) (.sreg 2) (.view 512) 0x302 0x1440; let s := rs demo [(2, 0x1000)]
      let u := s.flushCore 0 0
      Executes .k false (atomRefs f) f s ∧ f.ord = 3 ∧ ∃ xs, u.checkLanes .rw f.mcls 4 (fun l => 0x1000 + sgn (s.g.elem f.imm f.b 64 l) 64) (laneList (s.g.lanes f)) = .ok xs
        ∧ (∀ a ∈ xs, a.x.tgt = 0) ∧ u.firstPoison .rw 4 xs = none ∧ ∀ a ∈ xs, u.leaseBusy 4 a = false ∧ u.peerBusy 4 a = false ∧ u.homeLeased .rw 4 a = false)
    ∧ (let f := fl (.sreg 1) (.sreg 2) .none 0x0A3 0x1005; let s := rs demo [(2, 0x4000008)]
      Executes .k false (atomRefs f) f s ∧ f.d.isView = false ∧ ∃ xs, s.checkLanes .rw 5 8 (fun _ => 0x4000008) [0] = .ok xs
        ∧ xs.length = 1 ∧ (∀ a ∈ xs, a.x.tgt = 2 ∧ placeIs (s.peerHome 0 a.x.handle a.x.ofs .rw s.gSecure) (2 ^ 35 + 8) = true)
        ∧ s.firstPoison .rw 8 xs = none ∧ ∀ a ∈ xs, s.leaseBusy 8 a = false ∧ s.peerBusy 8 a = false ∧ s.homeLeased .rw 8 a = false)
    ∧ (let f := fl .zero (.sreg 2) .none 3 0x1005
      Executes .c false (atomRefs f) f (rs demo [(2, 0x1000)])) := by
  refine ⟨demo_sound, ?_, ⟨execs ?_, ?_, exOk ?_⟩, ⟨execs ?_, ?_, exOk ?_⟩, execs ?_⟩ <;> decide +kernel
/-- ATOM.ADD of three lanes at one address: each lane sees the sum before its own (R209). -/
theorem test_atom_add : ∃ t, exec (.atom ⟨false, 1, .view 64, .sreg 2, .view 512, 2, 0x1440⟩)
    (els { rs (mem demo 0x1000 4 10) [(2, 0x1000)] with g := (rs demo [(2, 0x1000)]).g.setMask 1 7 } 64 32 [(0, 1), (1, 2), (2, 3)]) = .next t
    ∧ (List.range 3).map (t.g.elem 0 (.view 64) 32) = [10, 11, 13] ∧ t.cohLE 0x1000 4 = 16 := exNext (by decide +kernel)
/-- CAS stores only where the old value is D's (R209); a failed one leaves memory. -/
theorem test_cas : (∃ t, exec (.cas (fl (.sreg 1) (.sreg 2) .none 3 5)) (mem (rs demo [(1, 7), (2, 0x1000), (5, 9)]) 0x1000 8 7) = .next t
      ∧ t.cohLE 0x1000 8 = 9 ∧ t.g.sreg 1 = 7)
    ∧ ∃ t, exec (.cas (fl (.sreg 1) (.sreg 2) .none 3 5)) (mem (rs demo [(1, 6), (2, 0x1000), (5, 9)]) 0x1000 8 7) = .next t
      ∧ t.cohLE 0x1000 8 = 7 ∧ t.g.sreg 1 = 7 := ⟨exNext (by decide +kernel), exNext (by decide +kernel)⟩

/-- Core 1 of die 0 leases line 0x20 until cycle 50; a request of core 1 waits; a lock that group 2 holds, and one that this group holds. -/
def leasing : State := { rs demo [(2, 0x1000), (3, 4096)] with cores := demo.cores ++ [(1, { leases := [{ line := 0x20, until_ := 50, owners := [9] }] })] }
def asking : State := { rs demo [(2, 0x1000)] with cores := demo.cores ++ [(1, { leaseReq := [(50, 2, 0x20, 10)] })] }
def locked (holder : Nat) (waiters : List Nat) : State := (rs demo [(2, 0x1000)]).modDie 0 fun d => { d with locks := [(0x1000, { holder := holder, waiters := waiters })] }

theorem witness_LeasesAndLocks :
    (let f := fl .none (.sreg 2) (.sreg 3); let s := rs demo [(2, 0x1000), (3, 0)]; let u := s.flushCore 0 0;
      s.Sound ∧ Executes .c false (dab f) f s ∧ s.storesOut 1 = false ∧ s.g.wait = .run ∧ (∃ x, u.checkElem .rw 0 1 0 (s.va f).toNat = .ok x ∧ x.ofs = 0x1000)
      ∧ (∃ x, u.checkElem .any 1 1 0 (s.va f).toNat = .ok x ∧ x.tgt = 0) ∧ (∀ e ∈ s.cores, ∀ r ∈ e.2.leaseReq, r.2.2.1 ≠ 0x20)
      ∧ s.leasedByOther 0 0 0x20 = false ∧ (s.leasesNow 0 0).length < 8 ∧ s.mrN (offLSCFG 0) % 8192 ≠ 0)
    ∧ (leasing.Sound ∧ leasing.leasedByOther 0 0 0x20 = true ∧ leasing.g.wait = .run)
    ∧ (asking.Sound ∧ ((asking.core 0 1).leaseReq.find? fun r => decide (r.2.2.1 = 0x20)) = some (50, 2, 0x20, 10)
      ∧ asking.canLease 0 1 0x20 50 = true ∧ (asking.group? 2).isSome = true)
    ∧ (let f := fl .none (.sreg 2) .none
      ∀ s ∈ [rs demo [(2, 0x1000)], locked 2 [], locked 1 [2], locked 1 []], lockIs (s.flushCore 0 0) (s.va f).toNat 0x1000 = true ∧ s.storesOut 1 = false ∧ s.unitFull 0x1000 = false)
    ∧ Executes .c false (dab (fl .none (.sreg 2) .none)) (fl .none (.sreg 2) .none) (locked 1 [2])
    ∧ ((locked 2 []).lock? 0x1000 = some { holder := 2, waiters := [] } ∧ (locked 1 [2]).lock? 0x1000 = some { holder := 1, waiters := [2] }) := by
  refine ⟨⟨sound_of ?_, execs ?_, ?_, ?_, exOk ?_, exOk ?_, ?_, ?_, ?_, ?_⟩, ⟨sound_of ?_, ?_, ?_⟩, ⟨sound_of ?_, ?_, ?_, ?_⟩, ?_, execs ?_, ?_, ?_⟩ <;> decide +kernel
/-- QUNLOCK hands the lock to the longest-waiting group (R215). -/
theorem test_qunlock : ∃ t, exec (.qunlock (fl .none (.sreg 2) .none)) (locked 1 [2, 5]) = .next t ∧ t.lock? 0x1000 = some { holder := 2, waiters := [5] } :=
  exNext (by decide +kernel)

/-- The same with a peer store under way, and with pending imprecise records. -/
theorem witness_OrderingInstructions : demo.Sound ∧ Executes .c false (dab (fl .none .none .none)) (fl .none .none .none) demo
    ∧ demo.storesOut 1 = false ∧ demo.g.pend = []
    ∧ ({ demo with g := { demo.g with pend := [{ cause := 0x40, imp := true }] } } : State).g.pend ≠ []
    ∧ ({ demo with fab := { stores := [⟨90, 1, 1, 3, 0, 1, 0, 0, 0, 0, false, 0, [(0, 1)], 0, none⟩] } } : State).storesOut 1 = true ∧ demo.g.wait = .run := by
  refine ⟨demo_sound, execs ?_, ?_, ?_, ?_, ?_, ?_⟩ <;> decide +kernel

/-- Lanes whose checks all pass, as a function of the lane. -/
theorem exFun {ε α : Type} (d : α) {r : Nat → Except ε α} {ls : List Nat} (h : (ls.all fun l => match r l with | .ok _ => true | .error _ => false) = true) :
    ∃ x : Nat → α, ∀ l ∈ ls, r l = .ok (x l) := by
  refine ⟨fun l => match r l with | .ok a => a | .error _ => d, fun l hl => ?_⟩
  have := List.all_eq_true.mp h l hl
  split at this
  · rename_i a ha; simp [ha]
  · cases this

/-- An in-copy and an out-copy of one piece that ends at the end of its line, with a completion record. -/
def copying (out : Bool) : State := demo.setCore 0 0 { demo.core 0 0 with copies := [
  { id := 50, owner := 1, iaddr := 0, cls := 0, out := out, mcast := 0, ck := 2, bar := 0, tag := 9, segs := [⟨0x1040, 32, 64, none, false⟩] }] }

/-- ACPY in both directions, ACPYB of a block that ends at the window's end and one that is not aligned, an event queue with and
without a record; a copy that completes. -/
theorem witness_AsynchronousCopies :
    (let f := fl (.sreg 1) (.sreg 2) (.view 512) 2 0x0920; let s := rs demo [(1, 3840), (2, 0x1000)];
      Executes .m false (vrefs f 8 8 64) f s ∧ (s.core 0 0).copies.length < 64 ∧ f.immN / 16 % 4 = 2 ∧ s.g.evq.length + s.evqDue s.g < 16
      ∧ (∀ l ∈ laneList (s.g.lanes f), (s.vd f).toNat + l * 4 + 4 ≤ s.myTeam.window)
      ∧ ∃ x : Nat → Xl, ∀ l ∈ laneList (s.g.lanes f), s.checkElem .r f.mcls 4 l ((s.va f).toNat + sgn (s.g.elem f.imm f.b 64 l) 64) = .ok (x l))
    ∧ (let f := fl (.sreg 1) (.sreg 2) (.sreg 3) 3 0x0005; let s := rs demo [(1, 4032), (2, 0x1000), (3, 0x4000000007 + 7 * 65536)]
      Executes .c false (dab f) f s ∧ (s.vb f).toNat % 65536 + 1 = 8 ∧ (s.vb f).toNat / 65536 % 4096 + 1 = 8
      ∧ (s.va f).toNat % 8 = 0 ∧ 8 % 8 = 0 ∧ ((s.vb f).toNat / 2 ^ 32) % 8 = 0 ∧ (s.vd f).toNat % 8 = 0
      ∧ (∀ w ∈ s.mcastTeams 0, (s.vd f).toNat + 8 * 8 ≤ w.2) ∧ (rs s [(2, 0x1004)]).va f = 0x1004)
    ∧ (({ demo with g := { demo.g with evq := [5, 6] } } : State).g.evq = [5, 6] ∧ demo.g.evq = [] ∧ demo.g.wait = .run)
    ∧ (∀ out : Bool, (copying out).Sound ∧ ((copying out).team? 1 0).isSome = true
      ∧ (∃ c, ((copying out).core 0 0).copies.find? (fun c => decide (c.id = 50)) = some c ∧ c.out = out ∧ c.segs = [⟨0x1040, 32, 64, none, false⟩] ∧ c.mcast = 0)
      ∧ (0x1040 % 128 + 64 = 128) ∧ (∃ x, (copying out).translate 0 none ((copying out).secure 0) (if out then .w else .r) 0 0x1040 = .ok x ∧ x.tgt = 0)
      ∧ (copying out).anyBad 0x1040 64 = false ∧ (copying out).leased (lineOf 0x1040) = false) := by
  refine ⟨⟨execs ?_, ?_, ?_, ?_, ?_, exFun ⟨0, 0, 0, 0⟩ ?_⟩, ⟨execs ?_, ?_, ?_, ?_, ?_, ?_, ?_, ?_, ?_⟩, ⟨?_, ?_, ?_⟩, fun out => by
    cases out <;> exact ⟨sound_of (by decide +kernel), by decide +kernel, exSome (by decide +kernel), by decide +kernel, exOk (by decide +kernel), by decide +kernel, by decide +kernel⟩⟩ <;>
  decide +kernel
/-- A completed copy of 64 bytes: the window takes them, and the record holds bit 63, the bytes delivered and the tag (R223). -/
theorem test_copy_complete : ∃ t, exec (.copyComplete 0 0 50) (mem (copying false) 0x1040 2 0x1234) = .next t ∧ rdLE t.myTeam.spad 32 2 = 0x1234
    ∧ t.g.evq = [0x8000000000400009] := exNext (by decide +kernel)

/-- Page tables at 0x10000 that map the first 16 GiB, and no TLB. -/
def walking : State := mem (mem (mem ({ demo with cores := [], dies := [], poison := [] }.setMr (offPTBR 0) 0x10001) 0x10000 8 0x11001) 0x11000 8 0x12001) 0x12000 8 0xA000000000000071

theorem witness_CacheControl : demo.Sound
    ∧ (let f := fl .none (.sreg 2) .zero 0 0x7F; let s := rs demo [(2, 0x1000)];
      Executes .m false (vrefs f 8 8 64) f s ∧ f.sz = 0 ∧ s.linePlace .r (fun _ => f.mcls) ((s.va f).toNat + f.imm.toInt) = some 0x107F)
    ∧ (let f := fl .none (.sreg 2) (.sreg 3) 0 1; let s := rs demo [(2, 0x1000), (3, 0x100000081)]
      Executes .c false (dab f) f s ∧ (s.vb f).toNat % 2 ^ 32 = 129 ∧ s.linePlace .r clsOf 0x1080 = some 0x1080
      ∧ ∀ k : Nat, s.leasedByOther 0 0 k = false)
    ∧ (∃ leaf, walking.walk 0 0x123456 = .ok leaf ∧ leaf = 0xA000000000000071) := by
  refine ⟨demo_sound, ⟨execs ?_, ?_, ?_⟩, ⟨execs ?_, ?_, ?_, fun k => by simp [State.leasedByOther, rs, demo, State.setMr]⟩, exOk ?_⟩ <;> decide +kernel

/-- A peer store of two bytes whose home accepts it, and one whose handle does not exist. -/
def peering (h : Nat) : State := { demo with fab := { stores := [⟨90, 1, 1, 3, 0, h, 0x4000010, 0x1200, 0, 0, false, 0x10, [(0, 0xAB), (1, 0xCD)], 3, none⟩] } }

theorem witness_PeerStores : (peering 1).Sound ∧ (peering 2).Sound ∧ ((peering 1).die 0).dead = false
    ∧ placeIs ((peering 1).peerHome 0 1 0x10 .w false) (2 ^ 35 + 0x10) = true ∧ (∃ p, (peering 1).fab.stores.head? = some p ∧ p.id = 90 ∧ (peering 1).storeBehind p = false)
    ∧ (peering 1).leased (lineOf (2 ^ 35 + 0x10)) = false ∧ (∃ r, (peering 2).peerHome 0 2 0x10 .w false = .error r ∧ r.cause = 0x40 ∧ r.detail = 0x41)
    ∧ (∃ l, (peering 2).launch? 1 = some l ∧ l.failed = false) ∧ ∃ g, (peering 2).group? 1 = some g ∧ g.life = .active ∧ g.pend.length = 0 := by
  refine ⟨sound_of ?_, sound_of ?_, ?_, ?_, exSome ?_, ?_, exErr ?_, exSome ?_, exSome ?_⟩ <;> decide +kernel
/-- The refused store leaves one imprecise record with RPERM (R403). -/
theorem test_home_refusal : ∃ t, exec (.homeRefusal 90) (peering 2) = .next t ∧ t.fab.stores.length = 0 ∧ t.g.pend.map (·.cause) = [0x40] :=
  exNext (by decide +kernel)

/-! ## Queues and barriers -/

/-- The team with queue 3 as given. -/
def withQ (x : Queue) : State := rs (demo.modTeam 1 0 fun t => t.setQueue 3 x) [(1, 0x77)]

/-- Queue 3 with room, full, without allowance, empty with a blocked receiver, with one value, empty, and not set up; INIT at 8 and at 64 slots. -/
theorem witness_Queues : Executes .c false (dab (fl .none (.sreg 1) .none 3)) (fl .none (.sreg 1) .none 3) demo
    ∧ demo.qTeam (fl .none (.sreg 1) .none 3) = some 0 ∧ two.qTeam (fl .none (.sreg 1) .none 0x53) = some 1 ∧ (demo.team? 1 0).isSome = true
    ∧ (demo.team 1 0).queues.length = 16 ∧ demo.g.wait = .run ∧ demo.storesOut 1 = false
    ∧ (let x := ((withQ { base := 0, slots := 8, count := 7, alw := 1, init := true }).team 1 0).queue 3;
      x.init = true ∧ x.count < x.slots ∧ 0 < x.alw ∧ x.senders = [] ∧ x.receivers = [])
    ∧ (let x := ((withQ { base := 0, slots := 8, count := 8, alw := 1, init := true }).team 1 0).queue 3; x.init = true ∧ x.slots ≤ x.count)
    ∧ (let x := ((withQ { base := 0, slots := 8, count := 0, alw := 0, init := true }).team 1 0).queue 3; x.init = true ∧ x.alw = 0 ∧ x.count = 0)
    ∧ (let s := withQ { base := 0, slots := 8, alw := 1, init := true, receivers := [2] }
      ((s.team 1 0).queue 3).receivers = [2] ∧ (2 : Nat) ≠ s.g.uid ∧ (s.group? 2).isSome = true)
    ∧ ((demo.team 1 0).queue 3).init = false ∧ ((demo.team 1 0).queue 3).senders = []
    ∧ (8 ≤ (fl .none (.sreg 1) .none 3 0x8008).immN % 128) ∧ ((fl .none (.sreg 1) .none 3 0x8040).immN % 128 ≤ 64)
    ∧ 4096 - 8 * 64 + 8 * 64 ≤ demo.myTeam.window := by
  refine ⟨execs ?_, ?_, ?_, ?_, ?_, ?_, ?_, ?_, ?_, ?_, ?_, ?_, ?_, ?_, ?_, ?_⟩ <;> decide +kernel
/-- QSEND into an empty queue and QRECV of what it sent; a full queue holds the sender (R267, R268). -/
theorem test_queue : (∃ t, exec (.qsend (fl .none (.sreg 1) .none 3)) (withQ { slots := 8, head := 7, alw := 5, init := true }) = .next t
      ∧ rdLE t.myTeam.spad 56 8 = 0x77 ∧ (t.myTeam.queue 3).count = 1 ∧ (t.myTeam.queue 3).alw = 4)
    ∧ (∃ t, exec (.qrecv (fl (.sreg 4) .none .none 3)) (withQ { slots := 8, head := 7, count := 1, alw := 5, refill := true, init := true }) = .next t
      ∧ (t.myTeam.queue 3).head = 0 ∧ (t.myTeam.queue 3).count = 0 ∧ (t.myTeam.queue 3).alw = 6)
    ∧ ∃ t, exec (.qsend (fl .none (.sreg 1) .none 3)) (withQ { slots := 8, count := 8, alw := 5, init := true }) = .next t
      ∧ (t.myTeam.queue 3).senders = [(1, 0x77)] ∧ t.g.pc = 0x1200 := ⟨exNext (by decide +kernel), exNext (by decide +kernel), exNext (by decide +kernel)⟩

/-- The team with barrier 2 as given; the gang with network barrier 2 as given. -/
def withB (b : Bar) (n : Nat) : State := rs (demo.modTeam 1 0 fun t => t.setBar 2 b) [(1, n)]
def withN (b : NetBar) (n : Nat) : State := rs (demo.modGang 1 fun k => { k with nets := k.nets.set 2 b }) [(1, n)]

/-- BEXP at 2^20 - 1 and 2^20; a last and an earlier arrival; phases complete at both ends of the range and not complete; network
barriers with the last, an earlier and an early arrival, without members, and a rank that is no member. -/
theorem witness_Barriers : Executes .c false (dab (fl .none (.sreg 1) .none 0x12)) (fl .none (.sreg 1) .none 0x12) demo ∧ (demo.team? 1 0).isSome = true
    ∧ ((withB {} 0xFFFFF).va (fl .none (.sreg 1) .none 0x12)).toNat < 2 ^ 20 ∧ 2 ^ 20 ≤ ((withB {} 0x100000).va (fl .none (.sreg 1) .none 0x12)).toNat
    ∧ ((withB { members := 2, pend := 1 } 0xFFFFE).bar 1 0 2).pend.toNat + 0xFFFFE < 2 ^ 20 ∧ 2 ^ 20 ≤ ((withB { members := 2, pend := 1 } 0xFFFFF).bar 1 0 2).pend.toNat + 0xFFFFF
    ∧ ((withB { members := 2, pend := 1 } 0).bar 1 0 2).pend = 1 ∧ ((withB { members := 2, pend := 2 } 0).bar 1 0 2).pend ≠ 1
    ∧ ((demo.bar 1 0 2).members = 0 ∧ demo.storesOut 1 = false ∧ demo.g.wait = .run)
    ∧ (1 ≤ ((1 : BitVec 32) - 0).toNat ∧ ((0x80000000 : BitVec 32) - 0).toNat ≤ 2 ^ 31 ∧ ¬ 1 ≤ ((5 : BitVec 32) - 5).toNat ∧ ¬ ((0x80000001 : BitVec 32) - 0).toNat ≤ 2 ^ 31)
    ∧ (∃ k, demo.gang? demo.g.gang = some k ∧ demo.g.rank < 128 ∧ 2 < k.nets.length)
    ∧ (let b : NetBar := { memb := 3, next := 3, arr := 2 }; b.memb.getLsbD 0 = true ∧ b.arr.getLsbD 0 = false ∧ b.arr ||| (1 <<< 0) = b.memb ∧ b.held = [])
    ∧ (let b : NetBar := { memb := 3, next := 3 }; b.memb.getLsbD 0 = true ∧ b.arr ||| (1 <<< 0) ≠ b.memb ∧ b.arr ≠ b.memb)
    ∧ (let b : NetBar := { memb := 3, next := 3, arr := 1 }; b.arr.getLsbD 0 = true ∧ b.next.getLsbD 0 = true)
    ∧ (let b : NetBar := { memb := 2, next := 2 }; b.memb.getLsbD 0 = false ∧ b.next.getLsbD 0 = false ∧ b.arr ≠ b.memb)
    ∧ (let b : NetBar := {}; b.memb = 0 ∧ b.arr ≠ (1 : BitVec 128) <<< (0 : Nat)) := by
  refine ⟨execs ?_, ?_, ?_, ?_, ?_, ?_, ?_, ?_, ?_, ?_, exSome ?_, ?_, ?_, ?_, ?_, ?_⟩ <;> decide +kernel
/-- The last arrival completes phase 0 (R274); the last member's NARR takes the next generation (R279). -/
theorem test_barriers : (∃ t, exec (.barv (fl (.sreg 4) .none .none 2)) (withB { members := 2, pend := 1, ph := 9, flt := true } 0) = .next t ∧ t.g.sreg 4 = 9
      ∧ t.myTeam.bar 2 = { members := 2, pend := 2, ph := 10, flt := false, sflt := true, fhist := 1 })
    ∧ ∃ t, exec (.narr (fl (.sreg 4) .none .none 2)) (withN { memb := 3, next := 1, arr := 2, gen := 6 } 0) = .next t ∧ t.g.sreg 4 = 6
      ∧ t.net (fl (.sreg 4) .none .none 2) = { memb := 1, next := 1, arr := 0, gen := 7 } := ⟨exNext (by decide +kernel), exNext (by decide +kernel)⟩

/-! ## The matrix engine -/

/-- The team's engine with a list of operations, an accumulator and slices; another team's engine. -/
def eng (mops : List MOp) (acc : Table (BitVec 32)) (slices : Table Slice) : State :=
  demo.setCore 0 0 { demo.core 0 0 with engine := some (1, 0), mops := mops, acc := acc, bands := 1, slices := slices }
def engOther : State := demo.setCore 0 0 { demo.core 0 0 with engine := some (9, 9) }

/-- Shapes on their bounds: 128 rows from row 128, 4 elements of 4 bits in 16 bytes a row, the last two units; 129 rows; a row too short; 64 columns
of 16 slices; an engine that is the team's, free, another's. -/
theorem witness_MatrixIssue : demo.g.wait = .run ∧ ((eng [] [] []).core 0 0).engine = some (1, 0) ∧ (demo.core 0 0).engine = none ∧ demo.myTeam.saved = none
    ∧ (engOther.core 0 0).engine = some (9, 9) ∧ ((9, 9) : Nat × Nat) ≠ (demo.g.gang, demo.g.team)
    ∧ (let f := fl .acc (.tile 4) (.view 200) 0x1F0 0xFE008000;
      Executes .c false (prefs .mtile f) f demo ∧ demo.g.tsh.toNat / 65536 % 256 + 1 = 128 ∧ 4 * 4 ≤ 16 * (demo.g.tsh.toNat / 256 % 256 + 1)
      ∧ f.immN / 256 % 256 + 128 = 256 ∧ f.immN / 2 ^ 24 + 2 = 256 ∧ (fl .acc (.tile 4) (.view 200) 0x1F0 0xFE008100).immN / 256 % 256 + 128 = 257
      ∧ (fl .acc (.tile 4) (.view 200) 0x1F0 0xFF008000).immN / 2 ^ 24 + 2 = 257)
    ∧ (let s : State := { demo with g := { demo.g with tsh := 0x800000 } }
      s.g.tsh.toNat / 65536 % 256 + 1 = 129 ∧ Executes .c false (prefs .mtile (fl .acc (.tile 4) (.view 200) 0x1F0)) (fl .acc (.tile 4) (.view 200) 0x1F0) s)
    ∧ (16 * (demo.g.tsh.toNat / 256 % 256 + 1) < 4 * 8 ∧ Executes .c false (prefs .mtile (fl .acc (.tile 4) (.view 200) 0x162)) (fl .acc (.tile 4) (.view 200) 0x162) demo)
    ∧ (let f := fl .acc (.tile 4) (.view 200) 0x1F0 0x00000000; Executes .c false (prefs .mloop f) f demo)
    ∧ (let f := fl .acc (.tile 4) (.view 100) 0x1F0 0xF8008080; let s : State := { demo with g := { demo.g with tsh := 0x1F0000 } }
      Executes .c false (prefs .mbatch f) f s ∧ s.g.tsh.toNat / 65536 % 256 + 1 = 32 ∧ f.immN / 2 ^ 24 + 1 * (4 * 2) = 256)
    ∧ (let f := fl .none (.sreg 1) (.sreg 2) 0x010 0xE0; let s := rs demo [(1, 0x1010), (2, 0x20000F7F)]
      Executes .c false (dab f) f s ∧ (s.vb f).toNat % 256 < 128 ∧ (s.va f).toNat % 16 = 0 ∧ (s.vb f).toNat / 2 ^ 32 % 16 = 0
      ∧ f.immN % 256 + ((s.vb f).toNat / 256 % 4096 + 1) * 2 = 256 ∧ 128 ≤ ((rs demo [(2, 128)]).vb f).toNat % 256)
    ∧ (let f := fl .acc (.sreg 1) (.sreg 2) 0x000 0xC080; let s := rs demo [(1, 0x1004), (2, 0x1000007F3F)]
      Executes .c false (dab f) f s ∧ f.immN / 256 % 256 + ((s.vb f).toNat % 256 + 1) = 256 ∧ f.immN % 256 + ((s.vb f).toNat / 256 % 256 + 1) = 256
      ∧ (s.va f).toNat % 4 = 0 ∧ (s.vb f).toNat / 2 ^ 32 % 4 = 0 ∧ 256 < f.immN / 256 % 256 + (((rs demo [(2, 0x40)]).vb f).toNat % 256 + 1)) := by
  refine ⟨?_, ?_, ?_, ?_, ?_, ?_, ⟨execs ?_, ?_, ?_, ?_, ?_, ?_, ?_⟩, ⟨?_, execs ?_⟩, ⟨?_, execs ?_⟩, execs ?_, ⟨execs ?_, ?_, ?_⟩,
    ⟨execs ?_, ?_, ?_, ?_, ?_, ?_⟩, execs ?_, ?_, ?_, ?_, ?_, ?_⟩ <;> decide +kernel

/-- A BF16 tile of one row, 2 in element 0, and a BF16 slice of one column, 3 in element 0; a product of one step into row 255. -/
def prodOp : MOp := { id := 60, owner := 1, iaddr := 0, kind := .mtile, mod := 0x123, imm := 0x0000FFFF, regs := wrLE [] 512 2 0x4000, tile := 512, rows := 1, rlen := 64 }
def oneSlice : Slice := { cls := 3, fmt := 9, nc := 1, src := 0, mcls := 0, data := wrLE [] 0 2 0x4040, scales := [] }
def mstep : State := eng [prodOp] [(65535, 0x3F800000)] [(0, oneSlice)]

theorem witness_TileProductSteps : (mstep.core 0 0).current = some prodOp ∧ prodOp.kind = .mtile ∧ (mstep.core 0 0).canRun prodOp = true
    ∧ (∀ e ∈ (mstep.core 0 0).slices, e.2.full = true) ∧ prodOp.stepSlices (mstep.core 0 0) = some [oneSlice] ∧ accRow prodOp.imm + prodOp.rows = 256 ∧ oneSlice.nc ≤ 128
    ∧ prodOp.stepSlices ((eng [prodOp] [] []).core 0 0) = none ∧ (∃ g, mstep.group? 1 = some g ∧ g.launch = 1 ∧ g.die = 0) ∧ (mstep.launch? 1).isSome = true
    ∧ mstep.Sound ∧ mstep.teamEnded 1 0 = false
    ∧ (let m := { prodOp with done := true }; ((eng [m] [] []).core 0 0).mops.find? (fun m => decide (m.id = 60)) = some m ∧ m.kind.product = true)
    ∧ (let m : MOp := { id := 61, owner := 1, iaddr := 0, kind := .wload, mod := 0x123, imm := 0xF8, addr := 0x1040, shape := 0 }; let s := eng [m] [] []
      (s.core 0 0).canRun m = true ∧ m.bcl = 3 ∧ m.mod.toNat / 32 = 9 ∧ m.shape.toNat % 2 ^ 20 = 0 ∧ m.addr.toNat % 128 + 64 ≤ 128
      ∧ (∃ x, s.translate 0 none (s.secure 0) .r (m.mod.toNat / 4 % 8) 0x1040 = .ok x ∧ x.tgt = 0 ∧ x.ofs = 0x1040) ∧ s.anyBad 0x1040 64 = false)
    ∧ (let m : MOp := { id := 62, owner := 1, iaddr := 0, kind := .acst, mod := 0, imm := 0xFFFF, addr := 0x107C, shape := 0x400000000 }; let s := eng [m] [] []
      (s.core 0 0).canRun m = true ∧ m.mod.toNat % 4 = 0 ∧ m.shape.toNat % 65536 = 0 ∧ m.addr.toNat % 128 + 4 ≤ 128
      ∧ (∃ x, s.translate 0 none (s.secure 0) .w (m.mod.toNat / 64 % 8) 0x107C = .ok x ∧ x.tgt = 0) ∧ s.leased (lineOf 0x107C) = false)
    ∧ (let m : MOp := { id := 63, owner := 1, iaddr := 0, kind := .acld, mod := 0, imm := 0, addr := 0x107C, shape := 0 }; let s := eng [m] [] []
      (s.core 0 0).canRun m = true ∧ (∃ x, s.translate 0 none (s.secure 0) .r 0 0x107C = .ok x ∧ x.tgt = 0) ∧ s.anyBad 0x107C 4 = false) := by
  refine ⟨?_, ?_, ?_, ?_, ?_, ?_, ?_, ?_, exSome ?_, ?_, sound_of ?_, ?_, ⟨?_, ?_⟩, ⟨?_, ?_, ?_, ?_, ?_, exOk ?_, ?_⟩, ⟨?_, ?_, ?_, ?_, exOk ?_, ?_⟩, ?_, exOk ?_, ?_⟩ <;> decide +kernel
/-- 1 + 2 x 3 is 7 at the product's position, and ZA starts from 0 (R293, R294). -/
theorem test_k_step : (∃ t, exec (.kStep 0 0) mstep = .next t ∧ (t.core 0 0).accAt 255 255 = 0x40E00000 ∧ (t.core 0 0).mops.map (·.done) = [true])
    ∧ ∃ t, exec (.kStep 0 0) (eng [{ prodOp with mod := 0x133 }] [(65535, 0x3F800000)] [(0, oneSlice)]) = .next t ∧ (t.core 0 0).accAt 255 255 = 0x40C00000 :=
  ⟨exNext (by decide +kernel), exNext (by decide +kernel)⟩

theorem witness_AccumulatorAndJoin : ((eng [] [] []).core 0 0).engine = some ((eng [] [] []).g.gang, (eng [] [] []).g.team)
    ∧ (∀ m ∈ ((eng [] [] []).core 0 0).mops, m.done = true) ∧ (eng [] [] []).myMops = [] ∧ (eng [prodOp] [] []).myMops ≠ [] ∧ demo.g.wait = .run
    ∧ (let f := fl .acc .none .none 0 0x000000FF; Executes .c false (dab f) f demo ∧ f.immN % 256 + (f.immN / 2 ^ 24 + 1) = 256
      ∧ 256 < (fl .acc .none .none 0 0x010000FF).immN % 256 + ((fl .acc .none .none 0 0x010000FF).immN / 2 ^ 24 + 1))
    ∧ (let f := fl .zero .none .none 1; Executes .c false (dab f) f (eng [] [] []) ∧ f.mod.getLsbD 0 = true)
    ∧ (let f := fl (.sreg 1) .immv .none 0 0x0804; Executes .c false (dab f) f demo ∧ (demo.va f).toNat % 256 * ((demo.va f).toNat / 256 % 256) = 32)
    ∧ (let f := fl .acc (.view 64) .none 0x020 0xC000; Executes .c false (vrefs f 32 32 8) f demo ∧ f.modN % 4 ≠ 3 ∧ f.mod.getLsbD 5 = true ∧ f.immN / 256 % 256 + 64 = 256
      ∧ f.d.isView = false ∧ ¬ (fl .acc (.view 64) .none 0x020 0xC100).immN / 256 % 256 + 64 ≤ 256)
    ∧ (let f := fl (.view 64) .acc .none 0x001 0x00C0; Executes .c false (vrefs f 16 16 8) f demo ∧ f.d.isView = true ∧ f.mod.getLsbD 5 = false ∧ f.immN % 256 + 64 = 256) := by
  refine ⟨?_, ?_, ?_, ?_, ?_, ⟨execs ?_, ?_, ?_⟩, ⟨execs ?_, ?_⟩, ⟨execs ?_, ?_⟩, ⟨execs ?_, ?_, ?_, ?_, ?_, ?_⟩, execs ?_, ?_, ?_, ?_⟩ <;> decide +kernel
/-- MSPLIT of 4 x 8 blocks: team 0's place, and all ones beyond the last (R302). -/
theorem test_msplit : (∃ t, exec (.msplit (fl (.sreg 1) .immv .none 0 0x0804)) { demo with g := { demo.g with srcs := { team := 9 } } } = .next t
      ∧ t.g.sreg 1 = 256 + 2 ^ 32 * 256)
    ∧ ∃ t, exec (.msplit (fl (.sreg 1) .immv .none 0 0x0101)) { demo with g := { demo.g with srcs := { team := 1 } } } = .next t
      ∧ t.g.sreg 1 = BitVec.allOnes 64 := ⟨exNext (by decide +kernel), exNext (by decide +kernel)⟩

/-! ## Scheduling -/

/-- A task-type table at 0x3000 whose entry 5 is a valid type of one group, 1 KiB of registers and of scratchpad; entry 6 is not valid. -/
def typed : State := rs (mem (demo.setMr (offTTBR 0) 0x3001) 0x3050 16 (2 ^ 127 + 2 ^ 73 + 2 ^ 64 + 0x2400)) [(2, 0x1000)]
/-- Records of type 5, level 2 and argument 0x99 to the own die (without and with output token 7), to die 1, of level 12, of type 6. -/
def rec5 : Nat := 0xF2 * 2 ^ 120 + 5 * 2 ^ 112 + 0x99
def rec5Out : Nat := rec5 + 7 * 2 ^ 176
def rec5To1 : Nat := 0x12 * 2 ^ 120 + 5 * 2 ^ 112
def recBad : Nat := 0xFC * 2 ^ 120 + 5 * 2 ^ 112
def rec6 : Nat := 0xF0 * 2 ^ 120 + 6 * 2 ^ 112

theorem witness_SchedulingInstructions : typed.Sound ∧ Executes .c false (dab (fl .none (.sreg 2) .none)) (fl .none (.sreg 2) .none) typed
    ∧ typed.storesOut 1 = false ∧ (∃ x, (typed.flushCore 0 0).checkElem .r 0 32 0 (typed.va (fl .none (.sreg 2) .none)).toNat = .ok x ∧ x.ofs = 0x1000)
    ∧ (typed.flushCore 0 0).anyBad 0x1000 32 = false ∧ typed.badRecord false rec5 = false ∧ typed.badRecord true rec5 = false ∧ typed.badRecord false rec5To1 = false
    ∧ typed.badRecord false recBad = true ∧ typed.badRecord false (11 * 2 ^ 120 + 15 * 2 ^ 124) = false ∧ (typed.die 0).dead = false ∧ (typed.die 1).dead = false ∧ typed.held 0 < 16384
    ∧ (let s := typed.setToken 0 4095 0xFFFFF; s.token 0 4095 + 0 < 2 ^ 20 ∧ 2 ^ 20 ≤ s.token 0 4095 + 1 ∧ s.token 0 4095 ≠ 0 ∧ (typed.setToken 0 4095 1).token 0 4095 = 1 ∧ typed.token 0 4095 = 0)
    ∧ ({ typed with g := { typed.g with handler := some 3 } } : State).g.handler.isSome = true ∧ typed.g.handler = none ∧ typed.g.pend = []
    ∧ (∃ ty, typed.typeEntry 0 5 = some ty ∧ ty.valid = true ∧ ty.gangs = 1 ∧ ty.groups = 1 ∧ 512 + 512 ≤ 1024 * ty.regs ∧ 512 + 512 ≤ typed.g.alloc) := by
  refine ⟨sound_of ?_, execs ?_, ?_, exOk ?_, ?_, ?_, ?_, ?_, ?_, ?_, ?_, ?_, ?_, ?_, ?_, ?_, ?_, exSome ?_⟩ <;> decide +kernel
/-- TENQ sends the record at the address; TDEP at the top of the count traps (R318, R319). -/
theorem test_tenq_tdep : (∃ t, exec (.tenq (fl .none (.sreg 2) .none)) (mem typed 0x1000 32 rec5) = .next t ∧ t.fab.recs.map (·.record) = [BitVec.ofNat 256 rec5] ∧ t.g.pc = 0x120C)
    ∧ ∃ t, exec (.tdepAdd (fl .none .none .none 0 0x1FFF)) ((typed.setMr (offTVEC 0) 0x8000000000002400).setToken 0 4095 0xFFFFF) = .next t
      ∧ t.g.ecause = 0x0FFF002E ∧ t.token 0 4095 = 0xFFFFF := ⟨exNext (by decide +kernel), exNext (by decide +kernel)⟩

/-- A record on its way to die 0. -/
def arriving (r : Nat) : State := { typed with fab := { recs := [{ id := 50, owner := 1, record := BitVec.ofNat 256 r, gang := false, launch := 1, fromDie := 0, toDie := 0 }] } }

/-- A record of a good type, without a table, of an entry that is not valid, and with an output token that is full. -/
theorem witness_RecordAcceptance : (∃ r, ((arriving rec5Out).fab.recs.find? fun r => decide (r.id = 50)) = some r ∧ r.toDie = 0)
    ∧ ((arriving rec5Out).fab.recs.any fun q => decide (q.id < 50)) = false ∧ (arriving rec5Out).dieReady 0 = true ∧ (arriving rec5Out).lovageFull 0 = false
    ∧ (∃ ty, (arriving rec5Out).typeEntry 0 (recType rec5Out) = some ty ∧ (ty.under false rec5Out).valid = true)
    ∧ ((arriving rec5).setMr (offTTBR 0) 0).typeEntry 0 5 = none ∧ (∃ ty, (arriving rec6).typeEntry 0 (recType rec6) = some ty ∧ (ty.under false rec6).valid = false)
    ∧ recOuts rec5Out = [7] ∧ (arriving rec5Out).token 0 7 + occurs 7 [7] < 2 ^ 20 ∧ 2 ^ 20 ≤ ((arriving rec5Out).setToken 0 7 0xFFFFF).token 0 7 + occurs 7 [7]
    ∧ (∃ l, (arriving rec5).launch? 1 = some l ∧ l.dead = false) := by
  refine ⟨exSome ?_, ?_, ?_, ?_, exSome ?_, ?_, exSome ?_, ?_, ?_, ?_, exSome ?_⟩ <;> decide +kernel
/-- The accepted record is a ready task with the record's argument, and its output token counts 1 (R310). -/
theorem test_acceptance : ∃ t, exec (.recordAcceptance 50) (arriving rec5Out) = .next t ∧ (t.task? 100).map (fun k => (k.life, k.arg)) = some (.ready, 0x99) ∧ t.token 0 7 = 1
    ∧ t.fab.recs.length = 0 := exNext (by decide +kernel)

/-- A second task, ready since cycle 0, of a type as given and a level; a successor of CHAIN that waits at core 0. -/
def ready (ty : TType) (prio : Nat) : State := { demo with tasks := demo.tasks ++ [(2, { launch := 1, die := 0, record := BitVec.ofNat 256 (prio * 2 ^ 120), ttype := ty, ordinal := 1, life := .ready, arg := 0x42 })] }
def chained : State := (ready { entry := 0x2400 } 0).setCore 0 0 { demo.core 0 0 with chains := [{ task := 2, pred := 1, start := 512, bytes := [1, 2, 3] }] }

theorem witness_Placement : (∃ op, (ready { entry := 0x2400, groups := 3, spad := 1 } 0).nextOffer 0 [] = some op ∧ op.1.restore = false ∧ op.1.id = 2 ∧ (op.2.map (·.2)).sum = 3)
    ∧ (∃ k, (ready { entry := 0x2400, groups := 3, spad := 1 } 0).task? 2 = some k ∧ k.die = 0)
    ∧ (∃ o, ({ ready { groups := 128, regs := 384 } 11 with now := 2 * 108800 } : State).reserves 0 = some o ∧ o.id = 2)
    ∧ (∃ c, (chained.core 0 0).chains.head? = some c ∧ c.task = 2 ∧ 8 ≤ c.start) ∧ (∃ k, chained.task? 2 = some k ∧ k.die = 0)
    ∧ (let v := (chained.modGroup 1 fun g => { g with handed := true }).modCore 0 0 fun x => { x with chains := [] }
      1 ≤ v.fit 0 0 { entry := 0x2400 } ∧ v.admitted 0 0 1 0 = true) := by
  refine ⟨exSome ?_, exSome ?_, exSome ?_, exSome ?_, exSome ?_, ?_, ?_⟩ <;> decide +kernel
/-- A placed group starts at its entry with its argument in s0, all lanes and everything else zero (R107). -/
theorem test_placement : ∃ t, exec (.gangPlacement 0 []) (ready { entry := 0x2400, groups := 3, spad := 1 } 0) = .next t
    ∧ (t.rest.drop 1).map (fun g => (g.sreg 0, g.pc, g.rank, g.mask 0)) = [(0x42, 0x2400, 0, BitVec.allOnes 64), (0x42, 0x2400, 1, BitVec.allOnes 64), (0x42, 0x2400, 2, BitVec.allOnes 64)] :=
  exNext (by decide +kernel)

theorem witness_ActiveSlots : (demo.activeOn 0 0).length < 8 ∧ demo.slotWaiters 0 0 ≠ [] ∧ (∀ h ∈ demo.slotWaiters 0 0, demo.now - h.waitSince < 65000)
    ∧ (let s : State := { demo with now := 65000 }; ∃ h, (s.slotWaiters 0 0).head? = some h ∧ 65000 ≤ s.now - h.waitSince)
    ∧ 8 ≤ (({ demo with rest := demo.rest ++ List.replicate 7 { demo.g with uid := 9 } } : State).activeOn 0 0).length ∧ ({ demo with rest := [] } : State).slotWaiters 0 0 = []
    ∧ (∃ g, demo.group? 1 = some g ∧ g.life = .active ∧ g.isHeld = false) ∧ (∃ g, demo.group? 2 = some g ∧ g.life ≠ .active)
    ∧ ∃ g, ({ demo with g := { demo.g with wait := .held 0 0 } } : State).group? 1 = some g ∧ g.isHeld = true := by
  refine ⟨?_, ?_, ?_, exSome ?_, ?_, ?_, exSome ?_, exSome ?_, exSome ?_⟩ <;> decide +kernel

/-- Both groups have ended; the task's one gang has retired; its token 7 counts 1. -/
def ended : State := { demo with g := { demo.g with life := .ended }, rest := demo.rest.map fun g => { g with life := .ended } }
def retiring : State := { (demo.setToken 0 7 1) with
  g := {}, rest := [], gangs := [], teams := []
  tasks := [(1, { launch := 1, die := 0, record := BitVec.ofNat 256 (7 * 2 ^ 176), ttype := {}, ordinal := 0, life := .placed, gangsRetired := 1, arg := 0 })] }

theorem witness_Retirement : (∃ k, ended.gang? 1 = some k ∧ k.task = 1) ∧ (∀ g ∈ ended.groups, g.gang = 1 → g.life = .absent ∨ g.life = .ended) ∧ ended.gangBusy 1 = false
    ∧ (∃ x, retiring.task? 1 = some x ∧ x.life = .placed ∧ x.ttype.gangs ≤ x.gangsRetired ∧ recOuts x.record.toNat = [7]) ∧ retiring.taskBusy 1 = false
    ∧ occurs 7 [7] ≤ retiring.token 0 7 ∧ ∃ l, retiring.launch? 1 = some l ∧ l.dead = false ∧ l.outstanding = 1 := by
  refine ⟨exSome ?_, ?_, ?_, exSome ?_, ?_, ?_, exSome ?_⟩ <;> decide +kernel
/-- The last task's retirement takes the count to 0 and asks for a wave (R44, R47). -/
theorem test_task_retire : ∃ t, exec (.taskRetire 1) retiring = .next t ∧ (t.launch? 1).map (fun l => (l.outstanding, l.zeroWave)) = some (0, some 0) ∧ t.token 0 7 = 0
    ∧ t.hub.waveReq = 1 := exNext (by decide +kernel)

/-- A launch whose steps hold: with the links it touched, with its word in local memory, with its word at the host. -/
def done (links : List Nat) (reach : BitVec 2) (cw : Word) : State := { retiring with tasks := [], launches := [(1, {
  dev := 0, queue := 0, job := 3, seq := 5, cwaddr := cw, reach := reach, stats := 0, layout := 0, irq := true, vec := 9, failed := true
  zeroWave := some 0, quiet := true, links := links })] }

theorem witness_LaunchCompletion : (done [8, 1] 0 0x8078).Sound ∧ (∃ l, (done [8, 1] 0 0x8078).launch? 1 = some l ∧ l.settled = true ∧ l.links = [8, 1]) ∧ (done [8, 1] 0 0x8078).opsDone 1 = true
    ∧ (∃ l, (done [] 0 0x8078).launch? 1 = some l ∧ l.settled = true ∧ l.links = [] ∧ l.stats = 0 ∧ l.noWord = false ∧ l.reach = 0 ∧ l.dead = false ∧ l.cwaddr.toNat % 8 = 0)
    ∧ (∃ x, (done [] 0 0x8078).translate 0 none ((done [] 0 0x8078).secure 0) .w 0 0x8078 = .ok x ∧ x.tgt = 0)
    ∧ (∃ l, (done [] 2 0x2000000).launch? 1 = some l ∧ l.reach = 2 ∧ l.cut = false ∧ l.irq = true) ∧ (done [] 2 0x2000000).linkUp = true
    ∧ (∃ x, (done [] 2 0x2000000).translate 0 none ((done [] 2 0x2000000).secure 0) .w 3 0x2000000 = .ok x ∧ x.tgt = 1) := by
  refine ⟨sound_of ?_, exSome ?_, ?_, exSome ?_, exOk ?_, exSome ?_, ?_, exOk ?_⟩ <;> decide +kernel
/-- The word of a failed launch of sequence value 5 (R46). -/
theorem test_completion_word : ∃ t, exec (.launchComplete 1) (done [] 0 0x8078) = .next t ∧ t.cohLE 0x8078 8 = 0x8000000000000005 ∧ t.launches.length = 0 :=
  exNext (by decide +kernel)

/-! ## Eviction, context images and system instructions -/

/-- The demo's gang in a life, with a save area of 1 MiB at 0x100000, PN set, and its groups as given. -/
def gangIn (life : GangLife) (noted : Bool) (image : Option (Word × Bool)) (h : Group → Group) : State :=
  let s := ((demo.setMr (offTVEC 0) 0xC000000000002400).setMr (offSAVEBASE 0) 0x100000).setMr (offSAVELEN 0) 0x100000
  { s.modGang 1 fun k => { k with life := life, evictAt := some 0, restoreAt := some 0, noted := noted, image := image } with g := h s.g, rest := s.rest.map h }
def live : State := gangIn .live false none id
def evicting : State := gangIn .evicting true none fun g => { g with packed := true, priv := true }
def saved (life : GangLife) : State := gangIn life false (some (0x100000, true)) fun g => { g with life := .saved }

theorem witness_EvictionAndRestore : live.Sound ∧ evicting.Sound ∧ (saved .saved).Sound ∧ (∃ k, live.gang? 1 = some k ∧ k.life = .live ∧ live.saveSpace k.die (live.imageSize 1) = some 0)
    ∧ (live.mr (offTVEC 0)).getLsbD 62 = true ∧ (live.setMr (offSAVELEN 0) 0x1000).saveSpace 0 (live.imageSize 1) = none
    ∧ (∃ k, evicting.gang? 1 = some k ∧ k.life = .evicting ∧ k.noted = true ∧ evicting.now - k.evictAt.getD 0 < 65536 ∧ 65536 ≤ ({ evicting with now := 65536 } : State).now - k.evictAt.getD 0)
    ∧ Executes .c true (dab (fl .none .none .none)) (fl .none .none .none) evicting ∧ evicting.g.gang = 1 ∧ evicting.cannotStop 1 = false
    ∧ (∀ g ∈ evicting.groupsOf 1, g.packed = true) ∧ (∃ g, (evicting.groupsOf 1).head? = some g ∧ g.life ≠ .ended)
    ∧ (∃ q, evicting.quiesceGang 1 = some q ∧ q.saveSpace 0 (q.imageSize 1) = some 0)
    ∧ (∀ g ∈ (gangIn .evicting false none fun g => { g with life := .ended }).groupsOf 1, g.life = .ended)
    ∧ (∃ g, ((gangIn .evicting true none id).groupsOf 1).head? = some g ∧ g.packed = false ∧ g.life ≠ .ended)
    ∧ (∃ k, (saved .saved).gang? 1 = some k ∧ k.life = .saved ∧ k.image = some (0x100000, true))
    ∧ (∃ op, (saved .restoring).nextOffer 0 [] = some op ∧ op.1.restore = true ∧ op.1.id = 1)
    ∧ (∃ k, (saved .restoring).gang? 1 = some k ∧ k.life = .restoring ∧ k.die = 0) := by
  refine ⟨sound_of ?_, sound_of ?_, sound_of ?_, exSome ?_, ?_, ?_, exSome ?_, execs ?_, ?_, ?_, ?_, exSome ?_, exSome ?_, ?_, exSome ?_, exSome ?_, exSome ?_, exSome ?_⟩ <;> decide +kernel
/-- A queued gang is placed as it was: its groups wait for slots with their registers and program counters (R338). -/
theorem test_restore : ∃ t, exec (.restore 1) (saved .restoring) = .next t ∧ t.groups.map (fun g => (g.life, g.pc)) = [(.waiting, 0x1200), (.waiting, 0)]
    ∧ (t.gang? 1).map (·.life) = some .live := exNext (by decide +kernel)

/-- A second gang of handle 8 with one group of 1 KiB, in a life; an image of it at 0x4000. -/
def second (life : GangLife) (g : Life) (image : Option (Word × Bool)) : State := { rs priv [(2, 0x4000), (3, 8)] with
  gangs := priv.gangs ++ [(2, { handle := 8, die := 0, task := 1, ttype := TType.ofEntry (2 ^ 127 + 2 ^ 64 + 0x2400), life := life, image := image, nets := List.replicate 16 {} })]
  rest := priv.rest ++ [{ uid := 3, life := g, gang := 2, alloc := 1024, pc := 0x2400 }] }
def imagedAt (k : Nat) : State := [(0, 1, 1), (4, 4, 2816), (8, 16, 2 ^ 127 + 2 ^ 64 + 0x2400), (72, 4, 8), (1729, 2, 1)].foldl
  (fun s e => mem s (k + e.1) e.2.1 e.2.2) (second .saved .saved none)
def imaged : State := imagedAt 0x4000

theorem witness_ContextInstructions : priv.g.wait = .run ∧ (second .live .active none).liveGang 9 = none ∧ (∃ e, priv.liveGang 7 = some e ∧ e.1 = priv.g.gang)
    ∧ (∃ e, (second .live .active none).liveGang 8 = some e ∧ e.1 = 2) ∧ (second .live .active none).rangeFault .w 0x4000 ((second .live .active none).imageSize 2) = none
    ∧ (∃ r, (second .live .active none).rangeFault .w 0x8000000 2816 = some r ∧ r.cause = 0x10)
    ∧ (let f := fl (.sreg 1) (.sreg 2) (.sreg 3); Executes .c true (dab f) f (second .live .active none) ∧ (second .live .active none).vb f = 8 ∧ ((second .live .active none).va f).toNat % 256 = 0
      ∧ ((rs (second .live .active none) [(2, 0x4080)]).va f).toNat % 256 ≠ 0)
    ∧ (let f := fl (.sreg 1) .zero (.sreg 3); Executes .c true (dab f) f (second .live .active none))
    ∧ (∃ e, ((second .evicting .active none).gangs.find? fun k => k.2.die = 0 && k.2.handle = 8) = some e ∧ e.2.life = .evicting)
    ∧ (∃ e, ((second .saved .saved (some (0x4000, false))).gangs.find? fun k => k.2.die = 0 && k.2.handle = 8) = some e ∧ e.2.image = some (0x4000, false))
    ∧ ({ priv with g := { priv.g with wait := .held 1 5 } } : State).g.wait = .held 1 5
    ∧ (let f := fl .none (.sreg 2) .none; Executes .c true (dab f) f imaged ∧ imaged.rangeFault .r 0x4000 256 = none ∧ (∃ r, imaged.rangeFault .r 0x8000000 256 = some r ∧ r.cause = 0x10))
    ∧ (let m := imaged.vaBytes 0 0x4000 256; rdLE m 0 1 = 1 ∧ rdLE m 1 1 = 0 ∧ rdLE m 4 4 % 256 = 0 ∧ 1280 ≤ rdLE m 4 4 ∧ rdLE m 4 4 = imaged.imageSize 2 ∧ rdLE m 72 4 = 8
      ∧ rdLE m 8 16 = 2 ^ 127 + 2 ^ 64 + 0x2400)
    ∧ imaged.rangeFault .r 0x4000 (imaged.imageSize 2) = none ∧ (TType.ofEntry (2 ^ 127 + 2 ^ 64 + 0x2400)).valid = true
    ∧ imaged.sizesAgree 2 (TType.ofEntry (2 ^ 127 + 2 ^ 64 + 0x2400)) (imaged.vaBytes 0 0x4000 (imaged.imageSize 2)) = true
    ∧ imaged.sizesAgree 2 (TType.ofEntry (2 ^ 127 + 2 ^ 65 + 0x2400)) (imaged.vaBytes 0 0x4000 (imaged.imageSize 2)) = false
    ∧ rdLE ((second .saved .saved none).vaBytes 0 0x4000 256) 0 1 ≠ 1 ∧ rdLE ((mem imaged 0x4001 1 1).vaBytes 0 0x4000 256) 1 1 ≠ imaged.g.die
    ∧ rdLE ((mem imaged 0x4004 1 1).vaBytes 0 0x4000 256) 4 4 % 256 ≠ 0 := by
  refine ⟨?_, ?_, exSome ?_, exSome ?_, ?_, exSome ?_, ⟨execs ?_, ?_, ?_, ?_⟩, execs ?_, exSome ?_, exSome ?_, ?_, ⟨execs ?_, ?_, exSome ?_⟩, ?_, ?_, ?_, ?_, ?_, ?_, ?_, ?_⟩ <;> decide +kernel
/-- CTXLOAD of the image, which stands in host memory, queues the gang (R348). -/
theorem test_ctxload : ∃ t, exec (.ctxload (fl .none (.sreg 2) .none)) (rs (imagedAt (hostKey 0x4000)) [(2, 0x2004000)]) = .next t ∧ (t.gang? 2).map (·.life) = some .restoring ∧ t.g.pc = 0x120C :=
  exNext (by decide +kernel)

theorem witness_SystemInstructions : (let f := fl (.sreg 1) (.sreg 2) (.sreg 3); let s := rs priv [(2, 1), (3, 5)]
      Executes .c true (dab f) f s ∧ s.flhead ≠ (s.va f).setWidth 32 ∧ ((rs s [(2, 0)]).flhead = ((rs s [(2, 0)]).va f).setWidth 32) ∧ s.g.wait = .run ∧ (s.vb f).toNat ≠ 0)
    ∧ (let f := fl .zero (.sreg 2) .none; ∀ s ∈ [rs priv [(2, 39)], rs priv [(2, 40)], rs priv [(2, 0)]], f.immN % 4 ≠ 3 ∧ (decide (s.g.life = .active) && executed .c f s.g && s.g.priv && (s.g.regbound (dab f s.g)).isNone) = true)
    ∧ priv.coreEvicting 0 39 = false ∧ (39 : Nat) ≠ priv.g.core ∧ priv.storesOut 1 = false
    ∧ (let f := fl .none (.sreg 2) (.sreg 3) 0 1; Executes .c true (dab f) f priv ∧ f.imm.getLsbD 0 = true) ∧ (fl .none (.sreg 2) (.sreg 3) 0 0).imm.getLsbD 0 = false
    ∧ (∃ g, ({ priv with g := { priv.g with wait := .held 7 0 }, now := 5 } : State).group? 1 = some g ∧ g.wait = .held 7 0 ∧ 7 - 2 ≤ 5 - 0 ∧ ¬ (4 - 0 ≥ 7 - 2)) := by
  refine ⟨⟨execs ?_, ?_, ?_, ?_, ?_⟩, ?_, ?_, ?_, ?_, ⟨execs ?_, ?_⟩, ?_, exSome ?_⟩ <;> decide +kernel
/-- HALTD halts core 39 and gives its counts, all zero; its own core it does not halt (R347). -/
theorem test_haltd : (∃ t, exec (.haltdHalt (fl (.sreg 1) (.sreg 2) .none)) (rs priv [(1, 5), (2, 39)]) = .next t ∧ (t.core 0 39).halted = true ∧ t.g.sreg 1 = 0)
    ∧ ∃ t, exec (.tlbinv (fl .none (.sreg 2) (.sreg 3))) (rs priv [(2, 0x1FFFFFF), (3, 1)]) = .next t ∧ (t.core 0 0).tlb.length = 2 :=
  ⟨exNext (by decide +kernel), exNext (by decide +kernel)⟩

/-! ## Dill engines -/

/-- A card in memory at 0x1000: COPY of 16 bytes from 0x1100 to 0x1200; an issuer with the last tickets done. -/
def card (rout dcap : Nat) : Nat := rout + 0x1100 * 2 ^ 128 + 0x1200 * 2 ^ 192 + 16 * 2 ^ 256 + dcap * 2 ^ 288
def dilled : State := rs (mem demo 0x1000 64 (card 0 16)) [(2, 0x1000)]

theorem witness_CopyEngineInstructions : dilled.Sound ∧ dilled.storesOut 1 = false ∧ dilled.g.tickets.length ≠ 8
    ∧ (let f := fl (.sreg 1) (.sreg 2) .none 4; Executes .c false (dab f) f dilled ∧ ¬ f.modN % 8 < 4)
    ∧ (let f := fl (.sreg 1) (.sreg 2) .none 3; Executes .c false (dab f) f dilled ∧ f.modN % 8 < 4 ∧ dilled.dillReady 3 = true ∧ dilled.worldPending (dillBlock 3) = false ∧ (dilled.dill 3).queue.length < 64)
    ∧ (∃ x, (dilled.flushCore 0 0).checkElem .r 0 64 0 0x1000 = .ok x ∧ x.tgt = 0 ∧ x.ofs = 0x1000) ∧ (dilled.flushCore 0 0).anyBad 0x1000 64 = false
    ∧ (∃ r, (dilled.flushCore 0 0).checkElem .r 0 64 0 0x1020 = .error r ∧ r.cause = 0x15)
    ∧ leVal ((List.range 64).map fun i => (dilled.flushCore 0 0).see 0 0 (0x1000 + i)) = card 0 16
    ∧ dilled.cardBad [0, 1, 2, 3] (card 0 16) = false ∧ dilled.cardBad [0, 1, 2, 3] (card 5 16) = true ∧ dilled.routValid 0 (cardRout (card 0 16)) = true
    ∧ (let g : Group := { dilled.g with last := 9, tickets := [{ num := 2, done := true }, { num := 9 }] }
      (g.last - 2).toNat < 8 ∧ ¬ (g.last - 1).toNat < 8 ∧ 2 ^ 31 ≤ (g.last - 10).toNat ∧ (g.last - 9).toNat < 8
      ∧ (g.tickets.find? fun k => decide (k.num = 2)) = some { num := 2, done := true } ∧ (g.tickets.find? fun k => decide (k.num = 9)) = some { num := 9 })
    ∧ (let f := fl (.sreg 1) (.sreg 2) (.sreg 3) 1 0xC01; let s := rs demo [(2, 0x2000), (3, 0x3000)]
      Executes .c false (fun _ => [⟨0, f.d, 8⟩, ⟨1, f.a, 8⟩, ⟨2, f.b, 8⟩, ⟨3, f.c, 8⟩]) f s ∧ (s.va f).toNat % 4096 = 0 ∧ (s.vb f).toNat % 16 = 0
      ∧ (∃ x, s.checkElem .r 0 1 0 0x2000 = .ok x ∧ x.tgt = 0) ∧ (∃ x, s.checkElem .rw 0 1 0 0x3000 = .ok x ∧ x.tgt = 0) ∧ s.anyBad 0x3000 16 = false ∧ s.anyBad 0x2000 4096 = false
      ∧ ((rs s [(2, 0x2800)]).va f).toNat % 4096 ≠ 0 ∧ ((rs s [(3, 0x3008)]).vb f).toNat % 16 ≠ 0) := by
  refine ⟨sound_of ?_, ?_, ?_, ⟨execs ?_, ?_⟩, ⟨execs ?_, ?_, ?_, ?_, ?_⟩, exOk ?_, ?_, exErr ?_, ?_, ?_, ?_, ?_, ?_, execs ?_, ?_, ?_, exOk ?_, exOk ?_, ?_, ?_, ?_, ?_⟩ <;> decide +kernel
/-- XCOPY gives ticket 1 and queues the card at the lowest of the idle engines (R360). -/
theorem test_xcopy : ∃ t, exec (.xcopy (fl (.sreg 1) (.sreg 2) .none 4)) dilled = .next t ∧ t.g.sreg 1 = 1 ∧ (t.dill 0).queue.map (·.card.toNat) = [card 0 16] :=
  exNext (by decide +kernel)

/-- The card's job at engine 0 of die 0, waiting and running. -/
def job (c : Nat) (running : Bool) : State := { mem dilled 0x1100 2 0xBEEF with
  g := { dilled.g with last := 1, tickets := [{ num := 1 }] }
  dills := [(0, { queue := [{ dev := 0, owner := 1, task := 1, launch := 1, job := 3, core := 0, slot := 0, iaddr := 0x1200, card := BitVec.ofNat 512 c, cardAddr := 0x1000, ticket := 1 }]
                  running := running })] }

theorem witness_CopyEngineJobs : (job (card 0 16) true).Sound ∧ ((job (card 0 16) false).dill 0).running = false ∧ ((job (card 0 16) false).dill 0).queue ≠ [] ∧ (job (card 0 16) false).dillReady 0 = true
    ∧ (∃ j, ((job (card 0 16) true).dill 0).queue.head? = some j ∧ (job (card 0 16) true).jobHeld 0 j = false ∧ j.transfer = none ∧ j.cardAddr.toNat % 64 = 0)
    ∧ (∃ g, (job (card 0 16) true).group? 1 = some g ∧ g.tickets.length = 1)
    ∧ cardRout (card 0 16) = 0 ∧ cardSlen (card 0 16) = 16 ∧ cardDcap (card 0 16) = 16 ∧ cardDcap (card 0 15) < 16 ∧ (card 0 16).testBit 8 = false ∧ cardSrc (card 0 16) % 128 + 16 ≤ 128
    ∧ cardDst (card 0 16) % 128 + 16 ≤ 128 ∧ (∃ x, (job (card 0 16) true).translateAny 0 ((job (card 0 16) true).secure 0) .r 0x1100 = .ok x ∧ x.tgt = 0 ∧ x.ofs = 0x1100)
    ∧ (job (card 0 16) true).anyBad 0x1100 16 = false
    ∧ (∃ x, (job (card 0 16) true).translateAny 0 false .w 0x1200 = .ok x ∧ x.tgt = 0) ∧ (∃ x, (job (card 0 16) true).translateAny 0 false .w 0x1030 = .ok x ∧ x.tgt = 0)
    ∧ 4 ≤ cardRout (card 5 16) ∧ bits (((job (card 5 16) true).setMr (offDXRT 0 5) 0x8000000100000000).mrN (offDXRT 0 (cardRout (card 5 16)))) 47 32 ≠ 0 := by
  refine ⟨sound_of ?_, ?_, ?_, ?_, exSome ?_, exSome ?_, ?_, ?_, ?_, ?_, ?_, ?_, ?_, exOk ?_, ?_, exOk ?_, exOk ?_, ?_, ?_⟩ <;> decide +kernel
/-- The finished copy: the bytes at the destination, DONE and the length in the card, and the ticket's status (R351, R357, R360). -/
theorem test_dill_copy : ∃ t, exec (.dillJobComplete 0 [] 0) (job (card 0 16) true) = .next t ∧ t.cohLE 0x1200 2 = 0xBEEF ∧ t.cohLE 0x1030 8 = 0x1000000001
    ∧ t.g.tickets = [{ num := 1, done := true, ecode := 0, outlen := 16 }] ∧ (t.dill 0).queue.length = 0 := exNext (by decide +kernel)

/-! ## Beams -/

/-- Lanes 0 and 1 only, through m7. -/
abbrev fl2 (d a b : Opnd) (mod : BitVec 10 := 0) (imm : BitVec 32 := 0) : Fields := ⟨false, 7, d, a, b, mod, imm⟩
/-- The demo with two lanes in m7, scalar registers set, and a beam pool: quota, slots with their STATE, DONE slots, traversal. -/
def pooled (q : Nat) (p : List (Nat × Nat)) (done : List Nat) (trav : Option Trav) (l : List (Nat × Nat)) : State :=
  let s := rs demo l
  let s := { s with g := s.g.setMask 7 3 }
  s.modMyTeam fun m => { m with quota := q, pool := p.map fun e => (e.1, setState (BitVec.ofNat 2048 (5 * 2 ^ 1952)) e.2), doneOrder := done, trav := trav }
/-- A traversal of the demo's first group under a descriptor, with a work list; it began when memory was as given. -/
def walkingUnder (d : Nat) (work : List Nat) (m : Bytes := []) : Trav :=
  { mem0 := m, id := 60, desc := BitVec.ofNat 512 d, owner := 1, launch := 1, task := 1, info := { cause := 0 }, ck := 2, bar := 0, tag := 9, work := work }

theorem test_setState : (List.range 4).all (fun n => bits (setState (BitVec.ofNat 2048 (5 * 2 ^ 1952)) n).toNat 1963 1962 = n) = true := by decide +kernel

/-- Quotas too large, with a slot in the way, and good ones; each end of BPOP; slots that BFREE refuses and takes. -/
theorem witness_BeamPoolInstructions : (pooled 4 [(0, 0), (1, 1), (2, 2)] [2] none [(2, 1025)]).Sound
    ∧ (let f := fl (.sreg 1) (.sreg 2) .none; let s (q : Nat) := pooled 4 [(0, 0), (1, 1), (2, 2)] [2] none [(2, q)]
      Executes .c false (dab f) f (s 1025) ∧ ((s 1025).va f).toNat = 1025 ∧ ((s 2).va f).toNat = 2 ∧ (∃ p ∈ (s 2).myTeam.pool, 2 ≤ p.1)
      ∧ Executes .c false (dab f) f (s 3) ∧ (∀ p ∈ (s 3).myTeam.pool, p.1 < 3) ∧ 3 ≤ (s 3).myTeam.quota
      ∧ Executes .c false (dab f) f (s 1024) ∧ (s 1024).myTeam.quota < 1024 ∧ 1024 ≤ (s 1024).poolRoom ∧ (s 1024).myTeam.trav = none
      ∧ (s 0).myTeam.doneOrder = [2] ∧ (∃ r, kget (s 0).myTeam.pool 2 = some r ∧ bits r.toNat 1963 1962 = 2)
      ∧ kget (s 3).myTeam.pool 3 = none ∧ (∃ r, kget (s 1).myTeam.pool ((s 1).va f).toNat = some r ∧ bits r.toNat 1963 1962 = 1)
      ∧ (∃ r, kget (s 0).myTeam.pool ((s 0).va f).toNat = some r ∧ bits r.toNat 1963 1962 ≠ 1) ∧ 0 < (s 0).myTeam.quota)
    ∧ (let s := pooled 4 [] [] (some (walkingUnder 0 [0])) []; s.myTeam.doneOrder = [] ∧ s.myTeam.trav ≠ none ∧ s.g.wait = .run)
    ∧ (pooled 4 [] [] none []).myTeam.doneOrder = [] ∧ (pooled 4 [] [] none []).myTeam.trav = none := by
  refine ⟨sound_of ?_, ⟨execs ?_, ?_, ?_, ?_, execs ?_, ?_, ?_, execs ?_, ?_, ?_, ?_, ?_, exSome ?_, ?_, exSome ?_, exSome ?_, ?_⟩, ⟨?_, ?_, ?_⟩, ?_, ?_⟩ <;> decide +kernel
/-- BPOP hands out the slot that has been DONE the longest and marks it TAKEN (R391). -/
theorem test_bpop : ∃ t, exec (.bpop (fl (.sreg 1) .none .none)) (pooled 4 [(1, 2), (2, 2)] [2, 1] none []) = .next t ∧ t.g.sreg 1 = 2
    ∧ t.myTeam.doneOrder = [1] ∧ (t.myTeam.slotState 2) = some 3 := exNext (by decide +kernel)

/-- FP32 1 to 5. -/
def f1 : Nat := 0x3F800000
def f2 : Nat := 0x40000000
def f5 : Nat := 0x40A00000
/-- A descriptor of BMAKE: a triangle in the plane z = 5, tag base 7, and a near distance. -/
def tri : List Nat := [0, 0, f5, f1, 0, f5, 0, f1, f5]
def making (near : Nat) (q : Nat) (p : List (Nat × Nat)) : State := mem (pooled q p [] none [(3, 0x1000)]) 0x1000 64 (ofWords (tri ++ [0, 0, 0, 7, near]))
/-- A record of a narrow beam from the origin: z from 1 to 5, x and y not negative, x + y at most z / 8192; OMEGA is 1. -/
def beamRec : Nat := ofWords ([0, 0, f1, 0xBF800000, 0, 0, 0xBF800000, f5, f1, 0, 0, 0, 0, f1, 0, 0, 0xBF800000, 0xBF800000, 0x39000000, 0]
  ++ List.replicate 28 0 ++ [0, 0, 0, 0, 0, 0, 0, 0, 0, f1, f1, 7, 0xFFFFFFFF, 5, 0, 0])

/-- FP32 bits have a positive denominator. -/
theorem f32q_den_pos (c : Nat) : 0 < (f32q c).den := by
  have h2 (k : Int) : 0 < (Q.pow2 k).den := by unfold Q.pow2; split <;> simp [Nat.two_pow_pos]
  have h1 (a : Int) (k : Int) : 0 < ((Q.ofInt a).mul (Q.pow2 k)).den := by simpa [Q.mul, Q.ofInt] using h2 k
  unfold f32q
  generalize (if fin32 c then c else _) = v
  unfold Fmt.decode FV.toQ
  dsimp only
  split
  · rename_i q hq; split at hq
    · split at hq <;> cases hq
    · split at hq
      · split at hq <;> cases hq; exact h1 _ _
      · cases hq; exact h1 _ _
  · decide
/-- A computed value near a value that is not 0 is not 0. -/
theorem within_not_zero (c : Nat) (b q : Q) (h1 : (f32q (fp32.rne (FV.ofQ false q))).isZero = false)
    (h2 : b.num * q.den < q.num.natAbs * b.den) : (f32q (within c b q)).isZero = false := by
  unfold within
  split
  · rename_i h
    rw [Bool.and_eq_true] at h
    have hd := f32q_den_pos c
    cases hz : (f32q c).isZero with
    | false => rfl
    | true =>
      have hn : (f32q c).num = 0 := by simpa [Q.isZero] using hz
      have hl := h.2
      simp only [Q.le, Q.abs, Q.sub, Q.add, Q.neg, hn, decide_eq_true_eq, Int.zero_mul, Int.zero_add, Int.neg_mul, Int.natAbs_neg, Int.natAbs_mul,
        Int.natAbs_natCast, Int.natCast_mul] at hl
      have h3 := Int.mul_lt_mul_of_pos_right h2 (Int.natCast_pos.mpr hd)
      have e1 : b.num * ((f32q c).den * q.den) = b.num * q.den * (f32q c).den := by rw [Int.mul_comm ((f32q c).den : Int), Int.mul_assoc]
      have e2 : (q.num.natAbs : Int) * (f32q c).den * b.den = q.num.natAbs * b.den * (f32q c).den := by
        rw [Int.mul_assoc, Int.mul_assoc, Int.mul_comm ((f32q c).den : Int)]
      rw [e1, e2] at hl
      omega
  · exact h1

/-- The OMEGA that is computed for the record is not 0. -/
theorem shape_omega : (f32q ((Beam.ofRecord beamRec).withOmega).om).isZero = false :=
  within_not_zero _ _ _ (by decide +kernel) (by decide +kernel)

/-- BMAKE with more lanes than the quota, without room, with room under a good and a bad descriptor; BMAKER of two good records, and of
two zero records; BCOV of slots inside and outside the quota; a cell that BCOVC reads; a node that NODEWR writes. -/
theorem witness_BeamPool :
    (let f := fl2 (.view 128) (.view 192) (.sreg 3);
      Executes .m false (fun _ => [⟨0, f.d, 256⟩, ⟨1, f.a, 768⟩, ⟨2, f.b, 8⟩]) f (making f1 1 [])
      ∧ (making f1 1 []).myTeam.quota < (laneList ((making f1 1 []).g.lanes f)).length
      ∧ (making f1 2 [(0, 0)]).myTeam.freeSlots < 2 ∧ (making f1 2 [(0, 0)]).g.wait = .run ∧ (laneList ((making f1 2 [(0, 0)]).g.lanes f)).length = 2
      ∧ (laneList ((making f1 4 [(0, 0)]).g.lanes f)).length ≤ (making f1 4 [(0, 0)]).myTeam.freeSlots ∧ ((making f1 4 [(0, 0)]).team? 1 0).isSome = true
      ∧ (making f1 4 [(0, 0)]).Sound
      ∧ (∃ x, (making f1 4 []).checkElem .r 0 64 0 ((making f1 4 []).vb f).toNat = .ok x ∧ x.tgt = 0 ∧ (making f1 4 []).anyBad (memKey 0 x.ofs) 64 = false
        ∧ leVal ((List.range 64).map fun i => (making f1 4 []).see 0 0 (memKey 0 x.ofs + i)) = ofWords (tri ++ [0, 0, 0, 7, f1]))
      ∧ bits (ofWords (tri ++ [0, 0, 0, 7, f1])) 511 449 = 0 ∧ fin32 (recWord (ofWords (tri ++ [0, 0, 0, 7, f1])) 13) = true ∧ 0 < (f32q f1).num
      ∧ ¬0 < (f32q 0).num)
    ∧ (let f := fl2 (.view 128) .none (.sreg 3)
      let s (r : Nat) := mem (mem (pooled 4 [] [] none [(3, 0x1000)]) 0x1000 256 r) 0x1100 256 r
      (Executes .m false (fun _ => [⟨0, f.d, 256⟩, ⟨2, f.b, 8⟩]) f (s beamRec)) ∧ rawBad beamRec = false ∧ rawBad 0 = true
      ∧ ∀ r, r = beamRec ∨ r = 0 → ∃ xs, (s r).checkLanes .r 0 256 (fun l => ((s r).vb f).toNat + 256 * l) (laneList ((s r).g.lanes f)) = .ok xs
        ∧ xs.length = 2 ∧ (∀ a ∈ xs, a.x.tgt = 0) ∧ (s r).firstPoison .r 256 xs = none
        ∧ ∀ a ∈ xs, leVal ((List.range 256).map fun i => (s r).see 0 0 (memKey 0 a.x.ofs + i)) = r)
    ∧ (let f := fl2 (.view 128) (.sreg 2) (.view 192) 0 59
      let s (n : Nat) := els (pooled 4 [(1, 0)] [] none [(2, 0x1000)]) 192 32 [(0, 1), (1, n)]
      Executes .m false (vrefs f 32 8 32) f (s 3) ∧ (∀ l ∈ laneList ((s 3).g.lanes f), (s 3).g.elem f.imm f.b 32 l < (s 3).myTeam.quota)
      ∧ laneList ((s 4).g.lanes f) = [0] ++ 1 :: [] ∧ (∀ m ∈ [0], (s 4).g.elem f.imm f.b 32 m < (s 4).myTeam.quota) ∧ (s 4).myTeam.quota ≤ (s 4).g.elem f.imm f.b 32 1
      ∧ (∃ xs, (s 3).checkLanes .r 1 8 (fun l => ((s 3).va f).toNat + 8 * ((s 3).g.elem f.imm f.b 32 l : Nat)) (laneList ((s 3).g.lanes f)) = .ok xs
        ∧ (∀ a ∈ xs, a.x.tgt = 0) ∧ (s 3).firstPoison .r 8 xs = none)
      ∧ Executes .m false (vrefs f 32 32 32) (fl2 (.view 128) (.view 192) (.view 256)) (s 3))
    ∧ (let f := fl .none (.sreg 2) (.view 128)
      let s := rs demo [(2, 0x1040)]
      Executes .c false (fun _ => [⟨1, f.a, 8⟩, ⟨2, f.b, 64⟩]) f s
      ∧ ∃ x, s.checkElem .w 0 64 0 (s.va f).toNat = .ok x ∧ x.tgt = 0 ∧ s.leaseBusy 64 ⟨0, (s.va f).toNat, x⟩ = false) := by
  refine ⟨⟨execs ?_, ?_, ?_, ?_, ?_, ?_, ?_, sound_of ?_, exOk ?_, ?_, ?_, ?_, ?_⟩, ⟨execs ?_, ?_, ?_, fun r hr => by
      rcases hr with rfl | rfl <;> exact exOk (by decide +kernel)⟩,
    ⟨execs ?_, ?_, ?_, ?_, ?_, exOk ?_, execs ?_⟩, ⟨execs ?_, exOk ?_⟩⟩ <;> decide +kernel

/-- A descriptor at 0x1000: nodes at 0x2000, how many, MFAR 1, cells at 0x3000, rays at 0x4000, how many, near 1, the ray count at 0x5000. -/
def dsc (nn rpc : Nat) : Nat := 0x2000 + 2 ^ 64 * nn + 2 ^ 96 * f1 + 2 ^ 128 * 0x3000 + 2 ^ 192 * 0x4000 + 2 ^ 256 * rpc + 2 ^ 288 * f1 + 2 ^ 320 * 0x5000
/-- The demo with two lanes, a descriptor in memory, and live and DONE beams in the pool. -/
def scene (d : Nat) (l : List (Nat × Nat)) : State := mem (pooled 64 [(0, 0), (1, 2), (2, 0)] [1] none l) 0x1000 64 d

/-- BTRAV and RAYTRAV under good and bad descriptors and with ranges inside and outside the records; RAYMK without lanes, with room, without. -/
theorem witness_TraversalInstructions : (scene (dsc 1 8) [(2, 0x1000), (3, 0x500000003)]).Sound
    ∧ (let f := fl .none (.sreg 2) (.sreg 3) 0 0x920
      let s := scene (dsc 1 8) [(2, 0x1000), (3, 0x500000003)]
      let u := s.flushCore 0 0
      Executes .c false (dab f) f s ∧ s.evqRoom (f.immN / 16 % 4) = true ∧ s.storesOut s.g.uid = false ∧ (s.team? 1 0).isSome = true
      ∧ s.myTeam.trav = none ∧ s.myTeam.rtrav = none ∧ (s.va f).toNat % 64 = 0 ∧ ((scene 0 [(2, 0x1008)]).va f).toNat % 64 ≠ 0
      ∧ (∃ x, u.checkElem .r 0 64 0 (s.va f).toNat = .ok x ∧ x.tgt = 0 ∧ u.anyBad (memKey 0 x.ofs) 64 = false
        ∧ leVal ((List.range 64).map fun i => u.see 0 0 (memKey 0 x.ofs + i)) = dsc 1 8)
      ∧ dscBad (dsc 1 8) = false ∧ dscBad (2 ^ 511 + dsc 1 8) = true ∧ (s.vb f).toNat % 2 ^ 32 + (s.vb f).toNat / 2 ^ 32 = 8 ∧ dscRpc (dsc 1 8) = 8 ∧ dscRpc (dsc 1 7) < 8)
    ∧ (let f := fl2 (.view 128) (.view 512) (.sreg 2)
      let s (rpc : Nat) := mem (scene (dsc 1 rpc) [(2, 0x1000)]) 0x5000 8 6
      Executes .m false (fun _ => [⟨0, f.d, 256⟩, ⟨1, f.a, 2048⟩, ⟨2, f.b, 8⟩]) f (s 8)
      ∧ laneList (demo.g.lanes f) = [] ∧ laneList ((s 8).g.lanes f) = [0, 1]
      ∧ (∃ x, ((s 8).loadTouch ownHint 64 ⟨0, 0x1000, ⟨0, 0x1000, 0, 0⟩⟩).checkElem .rw 1 8 0 (dscRhead (dsc 1 8)) = .ok x ∧ x.tgt = 0
        ∧ (s 8).anyBad (memKey 0 x.ofs) 8 = false ∧ (s 8).leaseBusy 8 ⟨0, 0x5000, x⟩ = false
        ∧ leVal ((List.range 8).map fun i => (s 8).cohByte (memKey 0 x.ofs + i)) = 6)
      ∧ 6 + 2 ≤ dscRpc (dsc 1 8) ∧ dscRpc (dsc 1 7) < 6 + 2
      ∧ (∃ xs, ((s 8).loadTouch ownHint 64 ⟨0, 0x1000, ⟨0, 0x1000, 0, 0⟩⟩).checkLanes .w 1 64 (fun l => dscRpb (dsc 1 8) + 64 * (6 + l : Nat)) [0, 1] = .ok xs
        ∧ xs.map (·.x.ofs) = [0x4180, 0x41C0] ∧ ∀ a ∈ xs, a.x.tgt = 0 ∧ ((s 8).loadTouch ownHint 64 ⟨0, 0x1000, ⟨0, 0x1000, 0, 0⟩⟩).leaseBusy 64 a = false)) := by
  refine ⟨sound_of ?_, ⟨execs ?_, ?_, ?_, ?_, ?_, ?_, ?_, ?_, exOk ?_, ?_, ?_, ?_, ?_, ?_⟩, ⟨execs ?_, ?_, ?_, exOk ?_, ?_, ?_, exOk ?_⟩⟩ <;> decide +kernel

/-- How a beam's walk ends, and what holds of it. -/
theorem exClear {w : Walk} (h : (match w with | .clear _ _ => true | _ => false) = true) : ∃ u v, w = .clear u v := by
  cases w with
  | clear u v => exact ⟨u, v, rfl⟩
  | hit u v m => simp at h
  | stop r => simp at h
theorem exHit {w : Walk} {p : Meet → Prop} [DecidablePred p] (h : (match w with | .hit _ _ m => decide (p m) | _ => false) = true) :
    ∃ u v m, w = .hit u v m ∧ p m := by
  cases w with
  | hit u v m => exact ⟨u, v, m, rfl, by simpa using h⟩
  | clear u v => simp at h
  | stop r => simp at h
/-- A place at home. -/
theorem exHome {p : Place} (k : Nat) (h : (match p with | .home j => decide (j = k) | _ => false) = true) : p = .home k := by
  cases p with
  | home j => simp at h; rw [h]
  | fault c => simp at h
  | refused a r => simp at h
  | host a => simp at h

/-- CTRL flags of a beam record: DEPTH, MIRR, RCV. -/
def ctrl (depth : Nat) (mirr rcv : Bool) : Nat := 5 + 16 * depth + (if mirr then 128 else 0) + (if rcv then 256 else 0)
/-- A traversal of nn nodes at work on slot 0 that holds beamRec with those flags, and a leaf at 0x2000: a square of side 2 in the plane z = 3. -/
def beaming (nn c : Nat) : State :=
  let s := mem (scene (dsc nn 8) []) 0x2000 64
    (ofWords [0xBF800000, 0xBF800000, 0x40400000, f1, 0xBF800000, 0x40400000, f1, f1, 0x40400000, 0, 0, 0, 0, 0, 0x80000000, 0])
  s.modMyTeam fun m => { m with
    pool := [(0, setState (BitVec.ofNat 2048 (putBits beamRec 1983 1952 c)) 1)], doneOrder := []
    trav := some (walkingUnder (dsc nn 8) [0] s.mem) }

theorem witness_BeamSteps : (beaming 0 5).Sound ∧ (∃ v, (beaming 0 5).trav? 1 0 false = some v ∧ v.work = 0 :: [] ∧ v.request = none ∧ v.owner = 1 ∧ v.launch = 1
        ∧ (beaming 0 5).travRuns 1 0 v = true) ∧ (∃ r, kget ((beaming 0 5).team 1 0).pool 0 = some r ∧ (Beam.ofRecord r.toNat).planes.length = 5)
    ∧ (∃ u v, walkBeam ⟨0, 0⟩ (Beam.ofRecord beamRec) (beaming 0 5) (walkingUnder (dsc 0 8) [0] (beaming 0 5).mem) = .clear u v)
    ∧ (let b (c : Nat) := Beam.ofRecord (putBits beamRec 1983 1952 c)
      (b (ctrl 0 false true)).rcv = true ∧ (b (ctrl 7 true false)).rcv = false ∧ (b (ctrl 7 true false)).mdep = false ∧ (b (ctrl 7 true false)).mirr = true ∧ (b (ctrl 7 true false)).depth = 7
      ∧ (b (ctrl 6 true false)).mirr = true ∧ (b (ctrl 6 true false)).depth ≠ 7 ∧ (b 5).rcv = false ∧ (b 5).mdep = false ∧ (b 5).mirr = false)
    ∧ (beaming 0 5).beamPlace 0 0 .rw (dscCovb (dsc 0 8) + 8 * 7 : Nat) 8 = .home 0x3038 ∧ (beaming 0 5).lineTaken (lineOf 0x3038) = false ∧ (beaming 0 5).beamLost 0 0x3038 = false
    ∧ (∃ u v m, walkBeam ⟨0, 0⟩ (Beam.ofRecord beamRec) (beaming 1 5) (walkingUnder (dsc 1 8) [0] (beaming 1 5).mem) = .hit u v m
      ∧ (∀ p ∈ pieces (Beam.ofRecord beamRec) m false, p.planes.length ≤ 12) ∧ (pieces (Beam.ofRecord beamRec) m false).length ≤ 64)
    ∧ (kdel ((beaming 1 5).team 1 0).pool 0).length = 0 ∧ ((beaming 1 5).team 1 0).quota = 64 := by
  refine ⟨sound_of ?_, exSome ?_, exSome ?_, exClear ?_, ?_, exHome _ ?_, ?_, ?_, exHit ?_, ?_, ?_⟩ <;> decide +kernel
/-- A clear beam of weight 1 adds 2^48 to its tag's cell and its slot is free (R375). -/
theorem test_beam_clear : ∃ t, exec (.beamEndsClear 1 0) (mem (beaming 0 5) 0x3038 8 3) = .next t ∧ t.cohLE 0x3038 8 = 2 ^ 48 + 3 ∧ t.myTeam.pool.length = 0 := exNext (by decide +kernel)

/-- A range of rays 0 and 1 at work under the descriptor; ray 0 goes up z, ray 1 across it; both pending, TMAX 10, weight 1, tag 7. -/
def raying (status : Nat) : State :=
  let s := beaming 1 5
  let s := s.modMyTeam fun m => { m with trav := none, rtrav := some { walkingUnder (dsc 1 8) [] s.mem with ray := 0, rayEnd := 2 } }
  mem (mem s 0x4000 64 (ofWords [0, 0, 0, 0, 0, f1, 0x41200000, f1, 7, 0xFFFFFFFF, status])) 0x4040 64
    (ofWords [0, 0, 0, f1, 0, 0, 0x41200000, f1, 7, 0xFFFFFFFF, 4])

/-- Rays that are done, that hit, and that end clear with MIRR set. -/
theorem witness_RaySteps : (raying 0).Sound ∧ (∃ v, (raying 0).trav? 1 0 true = some v ∧ v.ray = 0 ∧ v.rayEnd = 2 ∧ (raying 0).travRuns 1 0 v = true)
    ∧ (∀ k : Nat, k = 0x4000 ∨ k = 0x4040 → (raying 0).beamPlace 0 0 .rw k 64 = .home k) ∧ (∀ k ∈ [0x4000, 0x4040], (raying 0).beamLost 0 k = false ∧ (raying 0).readHeld 0 (lineOf k) = false)
    ∧ recWord (rdLE (raying 1).mem 0x4000 64) 10 % 4 ≠ 0 ∧ recWord (rdLE (raying 0).mem 0x4000 64) 10 % 4 = 0 ∧ recWord (rdLE (raying 0).mem 0x4040 64) 10 = 4
    ∧ (∃ r, leavesFrom ⟨0, 0⟩ 64 0 [] (raying 0) (walkingUnder (dsc 1 8) [] (raying 0).mem) = .ok r
      ∧ traceRay (BitVec.ofNat 512 (dsc 1 8)) r.1 [0, 0, 0] [0, 0, f1] 0x41200000 f1 0xFFFFFFFF = (2, 0x40400000, 0)
      ∧ traceRay (BitVec.ofNat 512 (dsc 1 8)) r.1 [0, 0, 0] [f1, 0, 0] 0x41200000 f1 0xFFFFFFFF = (1, 0x41200000, 0xFFFFFFFF)
      ∧ r.2.1.beamPlace 0 0 .w (0x4000 + 40 : Nat) 12 = .home 0x4028 ∧ r.2.1.lineTaken (lineOf 0x4028) = false ∧ r.2.1.beamLost 0 0x4028 = false ∧ bits 4 3 2 ≠ 0) := by
  refine ⟨sound_of ?_, exSome ?_, fun k hk => by rcases hk with rfl | rfl <;> exact exHome _ (by decide +kernel), ?_, ?_, ?_, ?_, exOk ?_⟩ <;> decide +kernel
/-- The ray that hits the leaf at z = 3: STATUS 2, THIT 3, PRIM 0 (R378). -/
theorem test_ray : ∃ t, exec (.rayTrace 1 0) (raying 0) = .next t ∧ t.cohLE 0x4028 4 = 2 ∧ t.cohLE 0x402C 4 = 0x40400000 ∧ t.cohLE 0x4030 4 = 0 := exNext (by decide +kernel)

/-- A step that faults, of the kind. -/
def faultsIn (k : Nat) (n : Next) : Bool := match n with
  | .split (.fault _ _ _ _) => k = 0 | .clear (.fault _ _ _ _) => k = 1 | .ray (.fault _ _ _ _) => k = 2 | _ => false
theorem faultsIn_ex {k : Nat} {n : Next} (h : faultsIn k n = true) :
    ∃ u v p va, n = .split (.fault u v p va) ∨ n = .clear (.fault u v p va) ∨ n = .ray (.fault u v p va) := by
  unfold faultsIn at h
  split at h
  · exact ⟨_, _, _, _, .inl rfl⟩
  · exact ⟨_, _, _, _, .inr (.inl rfl)⟩
  · exact ⟨_, _, _, _, .inr (.inr rfl)⟩
  · cases h
/-- The team's traversals under a descriptor whose nodes, cells and rays lie where nothing is mapped. -/
def lostAt (nn : Nat) : State :=
  let v := { walkingUnder (2 ^ 30 + 2 ^ 64 * nn + 2 ^ 96 * f1 + 2 ^ 128 * 2 ^ 30 + 2 ^ 192 * 2 ^ 30 + 2 ^ 256 * 8) [0] with rayEnd := 1 }
  (beaming 0 5).modMyTeam fun m => { m with trav := some v, rtrav := some v }

/-- Traversals with nothing left, with work left, and whose next step faults: at a node, at a cell, at a ray. -/
theorem witness_TraversalEnds : (∃ v, ((raying 0).modMyTeam fun m => { m with trav := some (walkingUnder (dsc 1 8) []) }).trav? 1 0 false = some v ∧ v.work = []
        ∧ v.request = none ∧ v.lost = 0 ∧ v.ck = 2) ∧ (raying 0).standing 1 = true ∧ (∃ g, (raying 0).group? 1 = some g ∧ g.evq = [])
    ∧ (∃ v, ((raying 0).modMyTeam fun m => { m with rtrav := m.rtrav.map fun v => { v with ray := 2 } }).trav? 1 0 true = some v ∧ v.rayEnd ≤ v.ray)
    ∧ (∃ v, (raying 0).trav? 1 0 true = some v ∧ v.ray < v.rayEnd) ∧ (∃ v, (beaming 0 5).trav? 1 0 false = some v ∧ v.work ≠ [])
    ∧ (∃ v, (lostAt 1).trav? 1 0 false = some v ∧ faultsIn 0 ((lostAt 1).nextStep 1 0 false v) = true)
    ∧ (∃ v, (lostAt 0).trav? 1 0 false = some v ∧ faultsIn 1 ((lostAt 0).nextStep 1 0 false v) = true)
    ∧ (∃ v, (lostAt 0).trav? 1 0 true = some v ∧ faultsIn 2 ((lostAt 0).nextStep 1 0 true v) = true)
    ∧ (∃ l, (lostAt 0).launch? 1 = some l ∧ l.failed = false) := by
  refine ⟨exSome ?_, ?_, exSome ?_, exSome ?_, exSome ?_, exSome ?_, exSome ?_, exSome ?_, exSome ?_, exSome ?_⟩ <;> decide +kernel

/-! ## The render graph -/

/-- A graph table at 0x6000 beside the task types: a shader of 64-byte records, a rasteriser before node 4, a binner, a beam engine under the
descriptor at 0x7000, a blender. -/
def nodeEntry (kind next type arg : Nat) : Nat := 2 ^ 127 + kind * 2 ^ 124 + 3 * 2 ^ 122 + next * 2 ^ 114 + type * 2 ^ 106 + arg
def graphed : State := ([nodeEntry 0 0 5 0x42, nodeEntry 1 4 0 0, nodeEntry 2 1 0 0, nodeEntry 3 0 0 0x7000, nodeEntry 4 0 0 0].zipIdx.foldl
  (fun s e => mem s (0x6000 + 16 * e.2) 16 e.1) (mem (typed.setMr (offWGBR 0) 0x6001) 0x7000 64 (dsc 0 0)))
/-- Records at a node of die 0. -/
def atNode (node : Nat) (l : List (Nat × Nat)) : State := { graphed with fab := { graphed.fab with graph := l.map fun e =>
  { id := e.1, node := node, die := 0, fromDie := 0, data := BitVec.ofNat 512 e.2, launch := 1, remote := false } } }
/-- FP32 40 and 100; a triangle record with a second corner at x, a STATE and a PRIM. -/
def f40 : Nat := 0x42200000
def f100 : Nat := 0x42C80000
def triRec (x state prim : Nat) : Nat := ofWords [0, 0, f1, x, 0, f1, 0, f1, f1, prim, state]
/-- A block record of one pixel: block (1, 0), pixel 9, colour (1, 2, 5, 1), operation, pitch 256, surface at 0x8000. -/
def blkRec (op : Nat) : Nat := ofWords [1, 0, 0, 0, 2 ^ 9, 0, f1, f2, f5, f1, op, 256, 0x8000, 0]
def reqRec : Nat := ofWords ([0, 0, 0] ++ tri ++ [0, f1, f5, 0x77])
/-- The triangle record in the view that BEMIT sends from. -/
def emitting (d : Nat) : State := { graphed with g := { graphed.g with regs := wrLE graphed.g.regs (graphed.g.base (.view 192)) 64 d } }

theorem witness_Emission : (emitting (triRec f1 0 1)).Sound
    ∧ (let f (n : BitVec 32) := fl .none (.view 192) .none 0 n
      Executes .c false (fun _ => []) (f 0) (emitting 0) ∧ (emitting 0).storesOut 1 = false ∧ ((emitting 0).die 0).dead = false
      ∧ ((emitting 0).g.regbound [⟨1, .view 192, 64⟩] = none)
      ∧ (({ graphed.g with alloc := 1024 } : Group).regbound [⟨1, .view 192, 64⟩]).isSome = true
      ∧ leVal (bytesAt (emitting (triRec f1 0 1)).g.regs ((emitting 0).g.base (.view 192)) 64) = triRec f1 0 1
      ∧ ((emitting 0).flushCore 0 0).graphNode 0 9 = none ∧ (emitting 0).lovageFull 0 = false
      ∧ (∃ m, ((emitting 0).flushCore 0 0).graphNode 0 0 = some m ∧ m.kind = 0) ∧ (∃ m, ((emitting 0).flushCore 0 0).graphNode 0 1 = some m ∧ m.kind = 1)
      ∧ ∃ m, ((emitting 0).flushCore 0 0).graphNode 0 2 = some m ∧ m.kind = 2)
    ∧ binDies (triRec f1 0 1) = [0] ∧ binDies (triRec f40 0 1) = [0, 1] ∧ binDies (triRec f100 0 1) = [0, 1, 2, 3]
    ∧ (emitting 0).holdsHandle 0 1 = true ∧ (emitting 0).holdsHandle 0 2 = false ∧ ((emitting 0).die 1).dead = false
    ∧ (let f := fl (.view 128) .none .none 0 3
      Executes .c false (fun _ => [⟨0, f.d, 256⟩]) f demo ∧ demo.g.batch = none ∧ ({ demo.g with batch := some (16, [(0, 5)]) } : Group).batch = some (16, [(0, 5)])) := by
  refine ⟨sound_of ?_, ⟨execs ?_, ?_, ?_, ?_, ?_, ?_, ?_, ?_, exSome ?_, exSome ?_, exSome ?_⟩, ?_, ?_, ?_, ?_, ?_, ?_, ⟨execs ?_, ?_, ?_⟩⟩ <;> decide +kernel
/-- A triangle over two dies goes to the binners of both. -/
theorem test_bemit : ∃ t, exec (.bemit (fl .none (.view 192) .none 0 2)) (emitting (triRec f40 0 1)) = .next t
    ∧ t.fab.graph.map (fun r => (r.die, r.remote, r.data.toNat)) = [(0, false, triRec f40 0 1), (1, true, triRec f40 0 1)] := exNext (by decide +kernel)

theorem witness_RenderGraph : (atNode 0 [(70, 1), (71, 2)]).Sound
    ∧ (∃ n, graphed.graphNode 0 0 = some n ∧ n.kind = 0 ∧ n.type = 5) ∧ ((atNode 0 [(70, 1), (71, 2)]).atNode 0 0).map (·.id) = [70, 71]
    ∧ (∀ r ∈ (atNode 0 [(70, 1), (71, 2)]).atNode 0 0, r.launch = 1) ∧ graphed.dieReady 0 = true ∧ graphed.lovageFull 0 = false
    ∧ (∃ ty, graphed.typeEntry 0 5 = some ty ∧ ty.valid = true)
    ∧ (∃ e, (atNode 1 [(70, triRec f1 0 1)]).nodeRec 70 1 = some e ∧ e.1.die = 0 ∧ e.2.next = 4) ∧ (∃ q, graphed.graphNode 0 4 = some q ∧ q.kind = 4)
    ∧ (graphed.die 0).dead = false
    ∧ (∃ e, (atNode 2 [(70, triRec f1 3 1)]).nodeRec 70 2 = some e ∧ recWord e.1.data.toNat 9 = 1 ∧ recWord e.1.data.toNat 10 = 3 ∧ e.1.die = 0)
    ∧ (∃ e, (atNode 2 [(70, triRec f1 3 0xFFFFFFFF)]).nodeRec 70 2 = some e ∧ recWord e.1.data.toNat 9 = 0xFFFFFFFF)
    ∧ (graphed.die 0).binner.length < 4095 ∧ (graphed.die 0).binner.getLast? = none
    ∧ (∃ r, ((atNode 4 [(70, blkRec 2)]).fab.graph.find? fun r => decide (r.id = 70)) = some r ∧ (atNode 4 [(70, blkRec 2)]).blendTurn r = true
      ∧ r.node = 4 ∧ r.data.toNat = blkRec 2)
    ∧ (atNode 4 [(70, blkRec 2)]).blendLeased 0 (blkRec 2) = false ∧ blkMask (blkRec 2) = 2 ^ 9 ∧ blkOp (blkRec 2) ≤ 2 ∧ blkBase (blkRec 2) ≠ 0
    ∧ (∃ ks, (atNode 4 [(70, blkRec 2)]).pixelPlace 0 (blkBase (blkRec 2) + (8 * (recWord (blkRec 2) 0 / 2 ^ 16) + 9 / 8) * blkPitch (blkRec 2)
        + 16 * (8 * (recWord (blkRec 2) 0 % 2 ^ 16) + 9 % 8)) = .ok ks ∧ ks.Nodup ∧ ks.headD 0 = 0x8190)
    ∧ (∃ e, (atNode 3 [(70, reqRec)]).nodeRec 70 3 = some e ∧ e.1.data.toNat = reqRec ∧ (atNode 3 [(70, reqRec)]).nodeDesc 0 e.2 = some (dsc 0 0))
    ∧ graphed.team? 0 0 = none ∧ (∀ n : Nat, graphed.unreserved 0 (n % 40) (teamKey 0 0) ≠ 0) ∧ fin32 (dscNear (dsc 0 0)) = true ∧ 0 < (f32q (dscNear (dsc 0 0))).num
    ∧ (∃ b, makeBeam (reqVerts reqRec) (dscNear (dsc 0 0)) (recWords reqRec 0 3) (recWord reqRec 15) 0 = some b ∧ b.tag = 0x77) := by
  refine ⟨sound_of ?_, exSome ?_, ?_, ?_, ?_, ?_, exSome ?_, exSome ?_, exSome ?_, ?_, exSome ?_, exSome ?_, ?_, ?_, exSome ?_, ?_, ?_, ?_, ?_, exOk ?_, exSome ?_, ?_,
    fun n => (show ∀ k : Nat, k < 40 → graphed.unreserved 0 k (teamKey 0 0) ≠ 0 by decide +kernel) _ (Nat.mod_lt _ (by decide)), ?_, ?_, exSome ?_⟩ <;> decide +kernel
/-- Operation 0 replaces the pixel; the second block along x, the second row, the second pixel of it. -/
theorem test_blender : ∃ t, exec (.blender 70) (atNode 4 [(70, blkRec 0)]) = .next t ∧ t.cohLE 0x8190 16 = f1 + 2 ^ 32 * f2 + 2 ^ 64 * f5 + 2 ^ 96 * f1
    ∧ t.fab.graph.length = 0 := exNext (by decide +kernel)

/-! ## Messages and the fabric -/

/-- A message from gang 7's rank 0 to its rank 0: job 3, handler 2, data byte 0xAB first. -/
def msg (arrived : Bool) : Msg :=
  let bits := BitVec.ofNat 512 (7 + 3 * 2 ^ 50 + 2 * 2 ^ 56 + 0xAB * 2 ^ 128)
  { id := 80, bits := bits, die := 0, gang := 7, rank := 0, sender := 2, sdev := 0, launch := 1, slot := 0, iaddr := 0x1200, arrived := arrived }
/-- The demo with messages and a handler table at 0x9000 whose entry 2 is 0x1E00, and the first group's wait. -/
def posted (l : List Msg) (w : Wait) : State := { mem (demo.setMr (offMHTB 0) 0x9001) 0x9010 8 0x1E00 with
  g := { demo.g with wait := w }, fab := { msgs := l } }
/-- Job 3 declared quiet by wave 4, of five waves begun. -/
def quieted (w : Wait) : State := { posted [] w with hub := { waveNum := 5, waveDone := 5, quiet := [(3, 4, 0)] } }

theorem witness_MessageInstructions :
    (let f := fl .none (.sreg 2) (.view 192); let s (w : Nat) := rs demo [(2, w)]; let d (w : Nat) := bits ((s w).va f).toNat 43 40
      Executes .c false (fun _ => [⟨1, f.a, 8⟩, ⟨2, f.b, 48⟩]) f (s 0xF0000000000) ∧ (s 0).Sound ∧ bits ((s (2 ^ 52)).va f).toNat 63 52 ≠ 0 ∧ bits ((s 0xF0000000000).va f).toNat 63 52 = 0
      ∧ ((s (2 ^ 39)).va f).toNat.testBit 39 = true ∧ ((s 0xF0000000000).va f).toNat.testBit 39 = false ∧ d (8 * 2 ^ 40) = 8 ∧ d (14 * 2 ^ 40) = 14
      ∧ d (2 * 2 ^ 40) = 2 ∧ demo.holdsHandle 0 2 = false ∧ d (2 ^ 40) = 1 ∧ demo.holdsHandle 0 1 = true ∧ ((s (2 ^ 40)).va f).toNat % 2 ^ 32 = 0
      ∧ ((s (2 ^ 40 + 9)).va f).toNat % 2 ^ 32 = 9 ∧ d 0xF0000000000 = 15 ∧ d 7 = 0 ∧ demo.storesOut 1 = false ∧ (demo.die 0).dead = false ∧ (demo.die 1).dead = false
      ∧ ∃ k, demo.gang? 1 = some k ∧ k.handle = 7)
    ∧ (let f := fl (.sreg 1) .none .none; let h (t : Nat) : State := rs { demo with g := { demo.g with handler := some 3 } } [(63, t)]
      Executes .c false (dab f) f (h 0x1200) ∧ Executes .c false (dab f) f demo ∧ demo.g.handler = none ∧ (h 0x1200).g.handler = some 3 ∧ validTarget ((h 0x1200).g.sreg 63).toNat = true
      ∧ validTarget ((h 0x1201).g.sreg 63).toNat = false ∧ (∃ x ∈ ({ demo.hub with waves := [{ num := 0 }] } : Hub).waves, demo.hub.waveDone ≤ x.num)
      ∧ ∀ x ∈ demo.hub.waves, x.num < demo.hub.waveDone)
    ∧ (let f := fl (.sreg 1) (.view 192) .none; let s := posted [msg true] .run
      Executes .c false (fun _ => [⟨0, f.d, 8⟩, ⟨1, f.a, 64⟩]) f s ∧ s.g.handler = none ∧ s.storesOut 1 = false ∧ s.g.pend = []
      ∧ ({ s.g with pend := [{ cause := 0x40 }] } : Group).pend = [{ cause := 0x40 }] ∧ (posted [] .run).msgsOf (posted [] .run).g = [] ∧ kget demo.hub.quiet 3 = none
      ∧ s.msgsOf s.g = [msg true] ∧ (s.flushCore 0 0).handlerEntry 0 (msg true).hnd = some 0x1E00
      ∧ (quieted (.blocked .waitq 0 0 4)).msgsOf (quieted (.blocked .waitq 0 0 4)).g = [] ∧ (∃ q, kget (quieted (.blocked .waitq 0 0 4)).hub.quiet 3 = some q ∧ 4 ≤ q.1 ∧ q.1 < 5)) := by
  refine ⟨⟨execs ?_, sound_of ?_, ?_, ?_, ?_, ?_, ?_, ?_, ?_, ?_, ?_, ?_, ?_, ?_, ?_, ?_, ?_, ?_, ?_, exSome ?_⟩, ⟨execs ?_, execs ?_, ?_, ?_, ?_, ?_, ?_, ?_⟩,
    ⟨execs ?_, ?_, ?_, ?_, ?_, ?_, ?_, ?_, ?_, ?_, exSome ?_⟩⟩ <;> decide +kernel
/-- The quiet word of a WAITQ whose wave was begun after it. -/
theorem test_waitq_quiet : (∃ t, exec (.waitq (fl (.sreg 1) (.view 192) .none)) (quieted (.blocked .waitq 0 0 4)) = .next t ∧ t.g.sreg 1 = 1)
    ∧ ∃ t, exec (.waitq (fl (.sreg 1) (.view 192) .none)) (quieted (.blocked .waitq 0 0 5)) = .next t ∧ t.g.pc = 0x1200 := ⟨exNext (by decide +kernel), exNext (by decide +kernel)⟩

theorem witness_Messages : (posted [msg false] .run).Sound ∧ ((posted [msg false] .run).fab.msgs.find? (fun m => decide (m.id = 80))) = some (msg false)
    ∧ (posted [msg false] .run).msgBehind (msg false) false = false ∧ ((posted [msg false] .run).stored 0).length < 4096
    ∧ ((posted [msg false] .run).msgTarget (msg false)).isSome = true ∧ (posted [] .run).msgTarget { msg false with gang := 9 } = none
    ∧ (posted [{ msg false with id := 79 }, msg false] .run).msgBehind (msg false) false = true ∧ 4096 ≤ ((posted (List.replicate 4096 (msg true)) .run).stored 0).length
    ∧ (let s := posted [msg true] (.blocked .waitq 0 512 0)
      (∃ g, s.msgTarget (msg true) = some g ∧ s.group? g.uid = some g ∧ g.wait = .blocked .waitq 0 512 0 ∧ g.life = .active ∧ g.die = 0) ∧ s.msgBehind (msg true) true = false
      ∧ s.handlerEntry 0 (msg true).hnd = some 0x1E00 ∧ (demo.handlerEntry 0 2) = none)
    ∧ (posted [{ msg false with die := 1 }] .run).packetJob 80 = some 3 ∧ demo.packetJob 80 = none := by
  refine ⟨sound_of ?_, ?_, ?_, ?_, ?_, ?_, ?_, ?_, ⟨exSome ?_, ?_, ?_, ?_⟩, ?_, ?_⟩ <;> decide +kernel
/-- Delivery: the handler runs with the message at the view and the return address in s63. -/
theorem test_delivery : ∃ t, exec (.messageDelivery 80) (posted [msg true] (.blocked .waitq 0 1024 0)) = .next t ∧ t.g.pc = 0x1E00 ∧ t.g.sreg 63 = 0x1200
    ∧ rdLE t.g.regs 1040 1 = 0xAB ∧ t.g.handler = some 3 := exNext (by decide +kernel)

/-- Die 1 exports 64 KiB at 0x20000 as object 5 to die 0 under key 0x1234, to read. -/
def exporting (v : Nat) : State := rs (mem (demo.setMr (offEXBR 1) 0x9001) (2 ^ 35 + 0x90A0) 32 (0x20000 + 2 ^ 64 * 0x10000 + 2 ^ 224 * 0x1234 + 2 ^ 240 + 2 ^ 248 + 2 ^ 255)) [(2, v)]
/-- The import word: handle 2, die 1, object 5, key, read. -/
def importWord : Nat := 2 + 2 ^ 16 + 5 * 2 ^ 20 + 0x1234 * 2 ^ 32 + 2 ^ 48

theorem witness_FabricInstructions :
    (let f := fl (.sreg 1) (.sreg 2) .none; let s := exporting importWord; let u := s.flushCore 0 0
      s.Sound ∧ Executes .c false (dab f) f s ∧ s.storesOut 1 = false ∧ (s.va f).toNat = importWord
      ∧ (bits importWord 63 50 = 0 ∧ bits importWord 31 28 = 0 ∧ bits importWord 15 12 = 0 ∧ bits importWord 19 16 = 1)
      ∧ bits ((exporting (2 ^ 50 + importWord)).va f).toNat 63 50 ≠ 0 ∧ u.exportEntry 1 6 u.gSecure = none
      ∧ (∃ e, u.exportEntry 1 5 u.gSecure = some e ∧ e.testBit 240 = true ∧ bits e 239 224 = 0x1234 ∧ e.testBit 248 = true ∧ e.testBit 249 = false)
      ∧ bits importWord 47 32 = 0x1234 ∧ bits (importWord + 2 ^ 32) 47 32 ≠ 0x1234 ∧ importWord.testBit 48 = true ∧ importWord.testBit 49 = false ∧ (importWord + 2 ^ 49).testBit 49 = true
      ∧ kget (s.dev 0).handles 2 = none ∧ (importWord - 1) % 2 ^ 12 = 1 ∧ (∃ x, kget (s.dev 0).handles 1 = some x ∧ x.valid = true))
    ∧ (let f := fl .none (.sreg 2) .none; let s := rs demo [(2, 1)]
      Executes .c false (dab f) f s ∧ s.fab.stores = [] ∧ (s.va f).toNat % 2 ^ 12 = 1 ∧ s.g.wait = .run ∧ (∃ x, kget (s.dev 0).handles 1 = some x ∧ x.valid = true ∧ x.exporter = 1)
      ∧ ∃ p, (rs (peering 1) [(2, 1)]).fab.stores.head? = some p ∧ p.dev = 0 ∧ p.handle = 1) := by
  refine ⟨⟨sound_of ?_, execs ?_, ?_, ?_, ?_, ?_, ?_, exSome ?_, ?_, ?_, ?_, ?_, ?_, ?_, ?_, exSome ?_⟩, ⟨execs ?_, ?_, ?_, ?_, exSome ?_, exSome ?_⟩⟩ <;> decide +kernel
/-- The handle that HIMPORT makes, and the object's length (R422). -/
theorem test_himport : ∃ t, exec (.himport (fl (.sreg 1) (.sreg 2) .none)) (exporting importWord) = .next t ∧ t.g.sreg 1 = 0x10000
    ∧ (kget (t.dev 0).handles 2).map (fun h => (h.exporter, h.index, h.base, h.r, h.w)) = some (1, 5, 0x20000, true, false) := exNext (by decide +kernel)

theorem witness_Fabric : bits ((State.reset.setMr offFABCFG 0xA03E801F4).mrN offFABCFG) 31 16 ≠ 0 ∧ bits ((State.reset.setMr offFABCFG 0xA000001F4).mrN offFABCFG) 31 16 = 0
    ∧ (demo.die 1).dead = false ∧ ((demo.modDie 1 fun d => { d with dead := true }).die 1).dead = true ∧ (∃ l, demo.launch? 1 = some l ∧ l.dev = 0)
    ∧ demo.hub.waves.length < 4 ∧ 4 ≤ ({ demo.hub with waves := List.replicate 4 { num := 0 } } : Hub).waves.length
    ∧ (let ps := List.replicate 64 ({ i := 0, c := 0, l := 0, busy := false, act := false } : PassSum)
      let s (p : Option (List PassSum)) : State := { demo with
        hub := { waves := [{ num := 0, pass1 := p }], waveNum := 1 }, launches := demo.launches.map fun e => (e.1, { e.2 with zeroWave := some 0 }) }
      (∃ w, (s none).hub.waves.find? (fun w => decide (w.num = 0)) = some w ∧ w.pass1 = none)
      ∧ (∃ w, (s (some ps)).hub.waves.find? (fun w => decide (w.num = 0)) = some w ∧ w.pass1 = some ps) ∧ ps.length = 64
      ∧ (∃ l, (s (some ps)).launch? 1 = some l ∧ l.job = 3 ∧ l.zeroWave = some 0) ∧ (s none).busy 0 3 = true
      ∧ ({ s none with g := {}, rest := [], gangs := [], teams := [], tasks := [] } : State).busy 0 3 = false) := by
  refine ⟨?_, ?_, ?_, ?_, exSome ?_, ?_, ?_, ⟨exSome ?_, exSome ?_, ?_, exSome ?_, ?_, ?_⟩⟩ <;> decide +kernel

/-! ## Time, host queues, the platform -/

/-- The demo at Thyme 100 with die 0's interval 90 to 110, H and TMCFG as given. -/
def clocked (h cap : Nat) : State :=
  let s := { demo with hub := { demo.hub with thyme := 100, h := BitVec.ofNat 64 h } }
  ((s.setMr offTMCFG (BitVec.ofNat 64 (cap * 2 ^ 16 + 50))).modDie 0 fun d => { d with e := 90, l := 110, h := BitVec.ofNat 64 h })
/-- A stamped store of the first group to the cell at 0x1000. -/
def stamped (arrived : Bool) (outcome : Nat) : Stamped :=
  { id := 85, owner := 1, launch := 1, job := 3, die := 0, core := 0, slot := 0, secure := false, addr := 0x1000, iaddr := 0x1200, handle := 0, ofs := 0x1000, cell := 0x1000
    stamp := 110, val := 0x77, since := 0, arrived := arrived, outcome := outcome }
def stamping (h : Nat) (arrived : Bool) (outcome : Nat) : State := { clocked h 1024 with fab := { stamped := [stamped arrived outcome] } }

theorem witness_TimeInstructions : (clocked 50 1024).Sound
    ∧ (let f : Fields := fl (.sreg 1) (.sreg 2) (.sreg 3)
      let s (a b : Nat) := rs (mem (clocked 50 1024) 0x1000 32 (20 + 2 ^ 64 * 7 + 2 ^ 128 * 10 + 2 ^ 192 * 8)) [(2, a), (3, b)]
      Executes .c false (dab f) f (s 0x1000 25) ∧ (s 0x1000 25).joinedNow 0 = true ∧ demo.joinedNow 0 = false
      ∧ (∃ r, (s 0x1008 25).checkElem .r 2 32 0 ((s 0x1008 25).va f).toNat = .error r ∧ r.cause = 0x15)
      ∧ (∃ x, (s 0x1000 25).checkElem .r 2 32 0 ((s 0x1000 25).va f).toNat = .ok x ∧ x.tgt = 0 ∧ (s 0x1000 25).anyBad (memKey 0 x.ofs) 32 = false
        ∧ (List.range 4).map (fun i => leVal ((List.range 8).map fun j => (s 0x1000 25).cohByte (memKey 0 x.ofs + 8 * i + j))) = [20, 7, 10, 8])
      ∧ ((s 0x1000 25).vb f).toNat = 25 ∧ ((s 0x1000 15).vb f).toNat = 15 ∧ ((s 0x1000 5).vb f).toNat = 5
      ∧ (s 0x1000 25).myStamped 1 = none ∧ (∃ r, (s 0x1008 25).checkElem .rw 1 32 0 ((s 0x1008 25).va f).toNat = .error r ∧ r.cause = 0x15)
      ∧ (∃ x, (s 0x1000 25).checkElem .rw 1 32 0 ((s 0x1000 25).va f).toNat = .ok x ∧ x.ofs = 0x1000) ∧ (s 0x1000 25).storesOut 1 = false ∧ (s 0x1000 25).g.wait = .run
      ∧ ((s 50 0).va f).toNat ≤ ((s 50 0).die 0).h.toNat ∧ ((s 50 0).die 0).h.toNat < ((s 51 0).va f).toNat ∧ 0 < (s 51 0).cwcap)
    ∧ (∀ n : Nat, n < 4 → (stamping 50 true n).myStamped 1 = some (stamped true n))
    ∧ (∃ g, ({ clocked 50 1024 with now := 1024, g := { demo.g with wait := .blocked .cwait 0 60 0 } } : State).group? 1 = some g ∧ g.wait = .blocked .cwait 0 60 0)
    ∧ (clocked 50 1024).cwcap = 1024 := by
  refine ⟨sound_of ?_, ⟨execs ?_, ?_, ?_, exErr ?_, exOk ?_, ?_, ?_, ?_, ?_, exErr ?_, exOk ?_, ?_, ?_, ?_, ?_, ?_⟩, ?_, exSome ?_, ?_⟩ <;> decide +kernel
/-- TIME gives both bounds; LDAS takes the older value as of 15; STSC of an installed store gives its stamp (R436, R437, R434). -/
theorem test_time : (∃ t, exec (.time (fl (.sreg 1) .none (.sreg 3))) (clocked 50 1024) = .next t ∧ t.g.sreg 1 = 90 ∧ t.g.sreg 3 = 110)
    ∧ ∃ t, exec (.stsc (fl (.sreg 1) (.sreg 2) (.sreg 3))) (stamping 50 true 1) = .next t ∧ t.g.sreg 1 = 110 ∧ t.mrN (offTCWCNT 0) = 1 := ⟨exNext (by decide +kernel), exNext (by decide +kernel)⟩

theorem witness_Horizon : (stamping 50 false 0).thyme = 100
    ∧ (∃ d : Nat, d < 8 ∧ (clocked 50 1024).joinedNow d = true) ∧ (∀ d, d < 8 → demo.joinedNow d = false) ∧ (stamping 50 true 0).Sound
    ∧ (let s := { stamping 50 true 0 with hub := { (stamping 50 true 0).hub with h := 110 } }
      s.fab.stamped.filter (fun w => w.arrived && w.outcome = 0 && dieOfKey w.cell = 0 && decide (w.stamp.toNat ≤ s.hub.h.toNat)) = [stamped true 0]
      ∧ (s.die 0).h.toNat < s.hub.h.toNat ∧ s.leased (lineOf 0x1000) = false ∧ (stamped true 0).cell % 32 = 0)
    ∧ (demo.fab.stamped.any fun _ => true) = false
    ∧ ((stamping 50 false 0).fab.stamped.find? fun w => decide (w.id = 85)) = some (stamped false 0)
    ∧ (∀ x ∈ (stamping 50 false 0).fab.stamped, ((stamping 50 false 0).die (dieOfKey 0x1000)).h.toNat < x.stamp.toNat)
    ∧ demo.linkUp = true ∧ State.reset.linkUp = false := by
  refine ⟨?_, ⟨0, ?_⟩, ?_, sound_of ?_, ?_, ?_, ?_, ?_, ?_, ?_⟩ <;> decide +kernel
/-- The horizon comes to just below the joined die's E; its delivery installs the store and the cell's older value moves up (R430, R432). -/
theorem test_horizon : (∃ t, exec .horizonAdvance (clocked 50 1024) = .next t ∧ t.hub.h = 89)
    ∧ ∃ t, exec (.horizonDelivery 0) { mem (stamping 50 true 0) 0x1000 16 (20 + 2 ^ 64 * 7) with hub := { demo.hub with h := 110 } } = .next t
      ∧ t.cohLE 0x1000 8 = 110 ∧ t.cohLE 0x1008 8 = 0x77 ∧ t.cohLE 0x1010 8 = 20 ∧ t.cohLE 0x1018 8 = 7 := ⟨exNext (by decide +kernel), exNext (by decide +kernel)⟩

/-- Queue 0 of device 0 at host address 0, 2 entries, enabled, with one entry of a kind: job 3, sequence 5, word at 0x8000, and a body. -/
def queued (e : Nat) : State :=
  let s := ((((demo.setMr (offHQ 0 0 0x00) 0).setMr (offHQ 0 0 0x08) 3).setMr (offHQ 0 0 0x10) 1).setMr (offHQ 0 0 0x18) 0)
  mem ((s.setMr (offDXRT 32 0) (2 ^ 63)).setMr (offDXRT 33 0) (2 ^ 63)) (hostKey 0) 128 e
def entry (kind : Nat) (body : Nat) : Nat := 2 ^ 256 * 5 + 2 ^ 320 * 0x8000 + 2 ^ 450 * 3 + 2 ^ 456 * kind + 2 ^ 512 * body

theorem witness_HostQueues : demo.linkUp = true ∧ State.reset.linkUp = false ∧ (1 : Word).toNat < 2 ^ (queued 0).hqLog 0 0 ∧ 2 ^ (queued 0).hqLog 0 0 ≤ (2 : Word).toNat
    ∧ (let s := queued (entry 0 rec5); let p := s.flushPosted
      s.hqEn 0 0 = true ∧ s.hqLog 0 0 ≠ 0 ∧ s.mrN (offHQ 0 0 0x18) ≠ s.mrN (offHQ 0 0 0x10) ∧ s.linkUp = true ∧ s.dieReady 0 = true
      ∧ rdLE p.mem (hostKey (s.mrN (offHQ 0 0 0x00) + 128 * s.mrN (offHQ 0 0 0x18))) 128 = entry 0 rec5
      ∧ bits (entry 0 rec5) 457 456 = 0 ∧ bits (entry 1 rec5) 457 456 = 1 ∧ bits (entry 2 (card 0 16)) 457 456 = 2
      ∧ qEntryBad 0 (entry 0 rec5) = false ∧ qEntryBad 0 (entry 1 rec5) = false ∧ qEntryBad 0 (entry 2 (card 0 16)) = false ∧ layoutValid (bits (entry 0 rec5) 255 192) = true
      ∧ qEntryBad 0 (entry 3 0) = true ∧ layoutValid (2 ^ 60) = false
      ∧ headerBad (p.wordOk 0 (entry 0 rec5)) (entry 0 rec5) = false ∧ headerBad (p.wordOk 0 (entry 0 rec5)) (entry 0 rec5 + 2 ^ 319) = true
      ∧ p.transferBad (card 0 16) = false ∧ p.transferBad (card 9 16) = true ∧ p.leastDill ([32, 33].filter fun k => p.routValid k (cardRout (card 0 16))) = some 32)
    ∧ (∃ l, demo.launch? 1 = some l ∧ l.cut = false) := by
  refine ⟨?_, ?_, ?_, ?_, ⟨?_, ?_, ?_, ?_, ?_, ?_, ?_, ?_, ?_, ?_, ?_, ?_, ?_, ?_, ?_, ?_, ?_, ?_, ?_, ?_⟩, exSome ?_⟩ <;> decide +kernel
/-- The entry's record goes to its die under a new launch; the head moves on (R445, R446). -/
theorem test_entry : ∃ t, exec (.queueEntryFetch 0 0) (queued (entry 0 rec5)) = .next t ∧ t.fab.recs.map (fun r => (r.launch, r.record.toNat)) = [(100, rec5)]
    ∧ (t.launch? 100).map (fun l => (l.job, l.seq, l.cwaddr)) = some (3, 5, 0x8000) ∧ t.mrN (offHQ 0 0 0x18) = 1 := exNext (by decide +kernel)

theorem witness_Platform : demo.Sound ∧ demo.g.die = 0 ∧ (∀ c ∈ [((0x1000 : Nat), (0x12 : Byte)), (0x1001, 0)], c.1 < 2 ^ 35)
    ∧ ((demo.modDie 0 fun d => { d with dead := true }).die 0).dead = true ∧ readyDie false 2 = some 0 ∧ readyDie true 63 = some 7
    ∧ (State.reset.mr offRDYSTAT).getLsbD 1 = false ∧ (demo.mr offRDYSTAT).getLsbD 1 = true ∧ (demo.mr offRDYSTAT).getLsbD 43 ≠ false
    ∧ (880 : BitVec 16).toInt = 880 ∧ ¬(880 : Int) ≤ (0xFF00 : BitVec 16).toInt := by
  refine ⟨demo_sound, ?_, ?_, ?_, ?_, ?_, ?_, ?_, ?_, ?_, ?_⟩ <;> decide +kernel
/-- The reset of the group's die takes its groups, and memory holds what it holds then (R12). -/
theorem test_die_reset : ∃ t, exec (.computeDieReset 0 [(0x1000, 0x12)]) (mem demo 0x2000 1 9) = .next t ∧ t.g.life = .absent ∧ t.mem = [(0x1000, 0x12)]
    ∧ t.rest = [] := exNext (by decide +kernel)

theorem witness_ManagementRegisters :
    ((0x00000017 : Word) &&& 0xFFFFFFF3F).getLsbD 0 = true ∧ windowOk 0 ((0x00000017 : Word) &&& 0xFFFFFFF3F) = false ∧ windowOk 0 ((0x00002017 : Word) &&& 0xFFFFFFF3F) = true
    ∧ ((0 : Word) &&& 0xFFFF01).getLsbD 0 = false ∧ ((0x9001 : Word) &&& 0xFFFF01).getLsbD 0 = true ∧ bits ((0x9001 : Word) &&& 0xFFFF01).toNat 15 12 = 9 ∧ bits ((0x4001 : Word) &&& 0xFFFF01).toNat 15 12 = 4
    ∧ State.reset.dieReady 0 = false ∧ demo.dieReady 0 = true
    ∧ (let s := (demo.setMr (offWLD 0) 0x402).setMr (offWLD 1) 1
      s.worldPending 1 = true ∧ s.blockIdle 1 = true ∧ s.worldPending 10 = true ∧ s.blockIdle 10 = true ∧ s.worldPending 42 = true ∧ s.blockIdle 42 = true
      ∧ s.blockIdle 0 = false ∧ s.worldPending 0 = false)
    ∧ regKind 4 = .none ∧ regKind offHLSTAT = .ro ∧ demo.linkUp = true ∧ State.reset.linkUp = false
    ∧ (let s : State := { demo with cache := { demo.cache with l2 := [(cacheKey 0 32, { level := 7, used := 1, way := some 2 })] } }
      ∃ e ∈ s.cache.l2, e.1 / 2 ^ 32 = 0 ∧ e.2.way = some 2)
    ∧ (((demo.setMr (offRRNG 0 2) 0x800000).setMr (offRRCTL 0 2) 0xFF0001).rangeOf 0 (128 * 32 % 2 ^ 35 / 4096)) = some 2 := by
  refine ⟨?_, ?_, ?_, ?_, ?_, ?_, ?_, ?_, ?_, ⟨?_, ?_, ?_, ?_, ?_, ?_, ?_, ?_⟩, ?_, ?_, ?_, ?_, ?_, ?_⟩ <;> decide +kernel

/-- A turn of an outside agent writes host memory, and one outside every memory writes nothing (log entry 1). -/
theorem test_outsideWrite :
    (match step { State.reset with agenda := [.write (hostKey 8) [5]] } with | .next t => decide (bget t.mem (hostKey 8) = 5) | _ => false) = true
    ∧ (match step { State.reset with agenda := [.write (memKey 8 0) [5]] } with | .next t => decide (t.mem = []) | _ => false) = true := by
  decide +kernel

/-! ## Further clauses: states that meet the hypotheses not met above -/

/-- A peer store of group 1 on its way. -/
def storing (s : State) : State := { s with fab := { stores := [⟨90, 1, 1, 3, 0, 1, 0, 0, 0, 0, false, 0, [(0, 1)], 0, none⟩] } }

/-- No handler while a peer store is out; a group that ends and whose peer stores are performed. -/
theorem witness_TrapEntry_ending : (storing demo).canEnter = false ∧ (storing demo).storesOut demo.g.uid = true
    ∧ (let s := (storing demo).takeTrap { cause := 0x01 }
      s.g.isEnding = true ∧ s.g.life = .active ∧ (s.core s.g.die s.g.core).halted = false ∧ ({ s with fab := {} } : State).storesOut s.g.uid = false) := by
  decide +kernel

/-- FP32 lanes: one infinite, all zero, the largest finite 6 = 3/2 x 2^2. -/
theorem witness_BlockScaledInstructions_scales : fp32.read false 0xFF800000 = .inf true ∧ fp32.read false 0x80000000 = .zero true
    ∧ (match fp32.read false 0x40C00000 with
        | .fin m => decide (m.den * 2 ^ (2 : Int).toNat ≤ m.num.natAbs * 2 ^ (-2 : Int).toNat ∧ m.num.natAbs * 2 ^ (-2 : Int).toNat < 2 * (m.den * 2 ^ (2 : Int).toNat))
        | _ => false) = true
    ∧ fmtOf 8 = fp32 := by decide +kernel

theorem witness_ReductionAndScan_types : (let f := fl (.sreg 1) (.view 128) .none 0x102
      Executes .m false (vrefs f 32 32 32) f demo ∧ f.type = 8 ∧ f.modN % 8 = 2)
    ∧ (let f : Fields := ⟨false, 7, .view 64, .view 128, .none, 0x140, 0⟩
      f.d.isView = true ∧ Executes .m false (vrefs f 16 16 16) f demo ∧ f.type = 10 ∧ f.modN % 8 = 0 ∧ demo.g.lanes f = 0)
    ∧ (let f := fl (.view 64) (.view 72) .none 0x005
      f.d.isView = true ∧ Executes .m false (vrefs f 8 8 8) f demo ∧ f.modN % 8 < 6 ∧ (demo.g.lanes f).getLsbD 63 = true) := by
  refine ⟨⟨execs ?_, ?_, ?_⟩, ⟨?_, execs ?_, ?_, ?_, ?_⟩, ?_, execs ?_, ?_, ?_⟩ <;> decide +kernel

/-- A store to a line that another core leases; a local line of a die that lives. -/
theorem witness_Stores_held : (let f := fl (.view 64) (.sreg 2) .none 2;
      leasing.Sound ∧ Executes .m false (vrefs f 32 8 8) f leasing ∧ ∃ xs, leasing.checkLanes .w 0 4 (fun l => 0x1000 + (l * 4 : Nat)) (laneList (leasing.g.lanes f)) = .ok xs
        ∧ ∃ a ∈ xs, leasing.leaseBusy 4 a = true)
    ∧ (demo.die demo.g.die).dead = false := by
  refine ⟨⟨sound_of ?_, execs ?_, exOk ?_⟩, ?_⟩ <;> decide +kernel

/-- The second team's core halted, and not. -/
theorem witness_Scratchpad_stopped : two.spadStopped 1 0 = false ∧ two.spadStopped 1 1 = false
    ∧ (two.modCore 0 1 fun c => { c with halted := true }).spadStopped 1 1 = true ∧ ((two.modCore 0 1 fun c => { c with halted := true }).teamAt 1).isSome = true := by
  decide +kernel

/-- A lease of the own core, a request that the line's holder answered, a lease that has run out, UNLEASE of nothing, a lock handed over. -/
theorem witness_LeasesAndLocks_more :
    (let s : State := { rs demo [(2, 0x1000), (3, 16)] with cores := [(0, { demo.core 0 0 with leases := [{ line := 0x20, until_ := 50, owners := [1] }] })] };
      s.Sound ∧ s.leasesLine 0 0 0x20 = true ∧ s.snoopHeld 0x20 = false ∧ (rs demo [(2, 0x1000)]).snoopHeld 0x20 = false)
    ∧ (leasing.leasesLine 0 0 0x20 = false ∧ (leasing.leasesNow 0 0).length < 8)
    ∧ ((asking.core 0 1).leaseReq.find? (fun r => decide (r.2.2.1 = 0x20) && decide (r.2.2.2 ≠ 0)) = some (50, 2, 0x20, 10) ∧ asking.leaseRoom 0 1 0x20 = true)
    ∧ (let s : State := { leasing with now := 50 }; ∃ l ∈ (s.core 0 1).leases, l.line = 0x20 ∧ l.until_ ≤ s.now)
    ∧ (let s := rs demo [(2, 0x8000000)]; ∃ r, (s.flushCore 0 0).checkElem .any 0 1 0 (s.va (fl .none (.sreg 2) .none)).toNat = .error r ∧ r.cause = 0x10)
    ∧ (let s := locked 1 [2]; let s : State := { s with g := { s.g with wait := .blocked .qlock 0 0x1000 0 } }
      s.g.wait = .blocked .qlock 0 (BitVec.ofNat 64 0x1000) 0 ∧ s.lock? 0x1000 = some { holder := 1, waiters := [2] } ∧ [2].contains s.g.uid = false
      ∧ (s.die 0).dead = false ∧ dieOfKey 0x1000 = s.g.die ∧ ({ s with g := { s.g with wait := .ready 5 } } : State).g.wait = .ready 5) := by
  refine ⟨⟨sound_of ?_, ?_, ?_, ?_⟩, ?_, ?_, ?_, exErr ?_, ?_⟩ <;> decide +kernel

/-- A window address that is not aligned; an out-copy to a line that nobody holds; a barrier with members. -/
theorem witness_AsynchronousCopies_more :
    (let f := fl (.sreg 1) (.sreg 2) (.view 512) 2; let s := rs demo [(1, 2), (2, 0x1000)]
      Executes .m false (vrefs f 8 8 64) f s ∧ (s.vd f).toNat % 4 ≠ 0 ∧ laneList (s.g.lanes f) = 0 :: (laneList (s.g.lanes f)).tail
      ∧ ∃ x, s.checkElem .r f.mcls 4 0 ((s.va f).toNat + sgn (s.g.elem f.imm f.b 64 0) 64) = .ok x ∧ x.tgt = 0)
    ∧ (copying true).lineTaken (lineOf 0x1040) = false := by
  refine ⟨⟨execs ?_, ?_, ?_, exOk ?_⟩, ?_⟩ <;> decide +kernel

/-- Lines that are free, and one that another core leases; PREF's line. -/
theorem witness_CacheControl_more : (rs demo [(2, 0x1000)]).lineBusy 0x20 = false ∧ leasing.lineBusy 0x20 = true
    ∧ leasing.linePlace .any clsOf (0x1000 : Int) = some 0x1000 ∧ dieOfKey 0x107F = 0
    ∧ (0 < (16 : Nat) ∧ (0x1000 : Nat) % 128 + 16 ≤ 128) := by decide +kernel

/-- Die 0 has the line to itself. -/
theorem witness_PeerStores_owner : (∀ line ∈ linesOf (2 ^ 35 + 0x10) 2, (peering 1).lineTaken line = false)
    ∧ ([((0 : Nat), (0xAB : Byte)), (1, 0xCD)].map (·.1) = List.range 2)
    ∧ (let s : State := { peering 1 with cache := { (peering 1).cache with dir := [(lineOf (2 ^ 35 + 0x10), { st := .e, owner := some 0, sharers := 1 })] } }
      ∃ d, kget s.cache.dir (lineOf (2 ^ 35 + 0x10)) = some d ∧ d.owner = some 0) := by
  refine ⟨?_, ?_, exSome ?_⟩ <;> decide +kernel

/-- The queue's core halted, and not. -/
theorem witness_Queues_still : demo.spadStopped 1 0 = false ∧ (demo.modCore 0 0 fun c => { c with halted := true }).spadStopped 1 0 = true := by decide +kernel
/-- Sixteen operations of the own team; an address that is not aligned for WLOAD, ACLD and ACST; a product that has still to read bytes. -/
theorem witness_MatrixIssue_more : 16 ≤ ((eng (List.replicate 16 prodOp) [] []).core 0 0).mops.length
    ∧ (let f := fl .none (.sreg 1) (.sreg 2) 0x010 0xE0; let s := rs demo [(1, 0x1008), (2, 0x20000F7F)]
      Executes .c false (dab f) f s ∧ (s.va f).toNat % 16 ≠ 0 ∧ (s.vb f).toNat % 256 < 128)
    ∧ (let f := fl .acc (.sreg 1) (.sreg 2) 0x000 0xC080; let s := rs demo [(1, 0x1002), (2, 0x1000007F3F)]
      Executes .c false (dab f) f s ∧ (s.va f).toNat % 4 ≠ 0)
    ∧ (let s : State := mstep.setG { mstep.g with regs := prodOp.regs }
      s.unread s.g ≠ [] ∧ Memory.wf s.g.regs = true ∧ s.g.regbound (dab (fl (.sreg 1) (.sreg 2) (.sreg 3)) s.g) = none
      ∧ executed .c (fl (.sreg 1) (.sreg 2) (.sreg 3)) s.g = true)
    ∧ (let f := fl .acc (.tile 4) (.view 100) 0x1F0 0xF8008080
      Executes .c false (prefs .mbatch f) f demo ∧ demo.g.tsh.toNat / 65536 % 256 + 1 ≠ 32) := by
  refine ⟨?_, ⟨execs ?_, ?_, ?_⟩, ⟨execs ?_, ?_⟩, ?_, execs ?_, ?_⟩ <;> decide +kernel

/-- Without a lease, a request and another die's copy no line is taken. -/
theorem noneTaken {s : State} (h : ((s.cores.all fun c => c.2.leases.isEmpty && c.2.leaseReq.isEmpty) && s.cache.dir.isEmpty) = true) :
    ∀ line, s.lineTaken line = false := by
  intro line
  simp only [Bool.and_eq_true, List.all_eq_true, List.isEmpty_iff] at h
  obtain ⟨hc, hd⟩ := h
  simp only [State.lineTaken, State.leased, State.queuedBefore, State.snoopHeld, Bool.or_eq_false_iff, List.any_eq_false]
  exact ⟨⟨fun c m => by simp [hc c m], fun c m => by simp [hc c m]⟩, by rw [hd]; rfl⟩

/-- MBATCH of one step over slices of 128 columns; no line that anybody holds. -/
def batchOp : MOp := { prodOp with kind := .mbatch, imm := 0x00008080, rows := 32 }
def wide : Slice := { oneSlice with nc := 128 }
theorem witness_TileProductSteps_batch : (let s := eng [batchOp] [] [(0, wide), (8, wide), (16, wide), (24, wide)]
      (s.core 0 0).current = some batchOp ∧ (s.core 0 0).canRun batchOp = true ∧ (∀ e ∈ (s.core 0 0).slices, e.2.full = true)
      ∧ (batchOp.stepSlices (s.core 0 0)).isSome = true ∧ accRow batchOp.imm + 128 = 256)
    ∧ ∀ line, (eng [] [] []).lineTaken line = false := by
  exact ⟨by decide +kernel, noneTaken (by decide +kernel)⟩

theorem witness_AccumulatorAndJoin_idle : (¬ ∀ m ∈ ((eng [prodOp] [] []).core 0 0).mops, m.kind = .wload ∨ m.done = true)
    ∧ ((eng [{ prodOp with done := true }] [] []).core 0 0).mops.length < 16 := by decide +kernel

theorem witness_SchedulingInstructions_local : typed.held typed.g.die +
    (typed.fab.recs.filter fun r => decide (r.toDie = typed.g.die) && decide (r.fromDie = typed.g.die)).length < 16384 := by decide +kernel

/-- Two successors of one core, the second of which can be placed. -/
theorem witness_Placement_more :
    (let big : TType := { entry := 0x2400, regs := 384 }
     let s0 := ready { entry := 0x2400 } 0
     let s : State := { s0 with tasks := s0.tasks ++ [(3, { launch := 1, die := 0, record := 0, ttype := big, ordinal := 2, life := .placed, arg := 0 })] }
     let fits (k : TType) : Bool := let v := (s.modGroup 1 fun g => { g with handed := true }).modCore 0 0 fun x => { x with chains := [] }
       decide (1 ≤ v.fit 0 0 k) && v.admitted 0 k.ecls 1 0
     (s.task? 3).isSome = true ∧ fits big = false ∧ fits { entry := 0x2400 } = true)
    ∧ demo.reservedFor 0 = none
    ∧ ({ ready { groups := 128, regs := 384 } 11 with now := 2 * 108800 } : State).reservedFor 0 = none
    ∧ (let s : State := { ready { groups := 128, regs := 384 } 11 with now := 2 * 108800 }
      (s.modDie 0 fun d => { d with reserved := some 2 }).reservedFor 0 ≠ none)
    ∧ ∃ op, (saved .restoring).nextOffer 0 [] = some op ∧ op.1.restore = true := by
  refine ⟨?_, ?_, ?_, ?_, exSome ?_⟩ <;> decide +kernel

/-- Waits below and at the bound. -/
theorem witness_ActiveSlots_bound : (∀ h ∈ ({ demo with now := 32767 } : State).slotWaiters 0 0, 32767 - h.waitSince < 32768)
    ∧ (∃ h, (({ demo with now := 32768 } : State).slotWaiters 0 0).head? = some h ∧ 32768 ≤ 32768 - h.waitSince) := by
  refine ⟨?_, exSome ?_⟩ <;> decide +kernel

/-- The word's line leased, and not. -/
theorem witness_LaunchCompletion_lines : (∀ line ∈ linesOf 0x8078 8, (done [] 0 0x8078).lineTaken line = false)
    ∧ (let s : State := { done [] 0 0x8078 with cores := demo.cores ++ [(1, { leases := [{ line := 0x100, until_ := 50, owners := [9] }] })] }
      ∃ line ∈ linesOf 0x8078 8, s.lineTaken line = true) := by decide +kernel

/-- The image's lines free, and one of them leased; the save area readable, and not. -/
theorem witness_EvictionAndRestore_lines : (∃ q, evicting.quiesceGang 1 = some q ∧ q.vaBusy 0 true 0x100000 (q.imageSize 1) = false)
    ∧ (let s : State := { evicting with cores := evicting.cores ++ [(1, { leases := [{ line := 0x2000, until_ := 50, owners := [9] }] })] }
      ∃ q, s.quiesceGang 1 = some q ∧ q.vaBusy 0 true 0x100000 (q.imageSize 1) = true)
    ∧ (saved .saved).vaBusy 0 false 0x100000 ((saved .saved).imageSize 1) = false
    ∧ (saved .saved).vaReadable 0 0x100000 ((saved .saved).imageSize 1) = true
    ∧ ({ saved .saved with poison := kset [] 0x2000 1 } : State).vaReadable 0 0x100000 ((saved .saved).imageSize 1) = false := by
  refine ⟨exSome ?_, exSome ?_, ?_, ?_, ?_⟩ <;> decide +kernel
/-- A beam of ten side planes and weight 0, and a leaf in the plane z = 3 that covers one corner of it. -/
def wideBeam : Nat := ofWords ([0, 0, 0x3F800000, 0xBF800000, 0, 0, 0xBF800000, 0x40A00000, 0x44806000, 0x4508B000, 0x451C3FD4, 0, 0x430C0000, 0x439A0000, 0x43B16B80, 0, 0x428C0000, 0x43300000, 0x4353BB00, 0, 0xBF800000, 0x422C0000, 0x428E2380, 0, 0xC3100000, 0xC35F0000, 0xC347E580, 0, 0xC414C000, 0xC470C000, 0xC45D3560, 0, 0xC3780000, 0xC3D50000, 0xC3C2ADC0, 0, 0xC3120000, 0xC39C0000, 0xC384C040, 0, 0xC2380000, 0xC3470000, 0xC300FC40, 0, 0x41700000, 0xC3FA8000, 0xC33B47C0, 0]
  ++ [0, 0, 0, 0, 0, 0, 0, 0, 0, 0, f1, 7, 0xFFFFFFFF, 12 + 256, 0, 0])
def corner : List Nat := [0x4076F000, 0xC0A9B000, 0x40400000, 0x40229000, 0xC087F000, 0x40400000, 0x409C6000, 0xC02AA000, 0x40400000]
/-- That beam in slot 0 at work, under a descriptor with room for rpc rays. -/
def overflowing (rpc : Nat) : State :=
  let s := mem (beaming 1 5) 0x2000 64 (ofWords (corner ++ [0, 0, 0, 0, 0, 0x80000000, 0]))
  s.modMyTeam fun m => { m with pool := [(0, setState (BitVec.ofNat 2048 wideBeam) 1)], trav := some (walkingUnder (dsc 1 rpc) [0] s.mem) }
/-- A piece of a beam of weight 0 has weight 0. -/
theorem pieceWeight_zero {b x : Beam} (hw : (f32q b.w).num = 0) (ho : (f32q b.om).isZero = false) (hn : (Q.pow2 (-126)).le (f32q b.om) = true) :
    pieceWeight b x = 0 := by
  have h : ((f32q b.w).mul (f32q x.om)).div (f32q b.om) = ⟨0, (((f32q b.w).mul (f32q x.om)).div (f32q b.om)).den⟩ := by
    simp [Q.div, Q.mul, hw]
  rw [pieceWeight, ho, h, hn]
  simp [FV.ofQ, Q.isZero]
  decide +kernel
/-- Every piece comes from pieceWeight. -/
theorem pieces_w {b p : Beam} {m : Meet} (hw : (f32q b.w).num = 0) (ho : (f32q b.om).isZero = false) (hn : (Q.pow2 (-126)).le (f32q b.om) = true)
    (h : p ∈ pieces b m false) : p.w = 0 := by
  simp only [pieces, List.mem_filterMap] at h
  obtain ⟨e, _, h⟩ := h
  split at h
  · cases h
  · cases h; exact pieceWeight_zero hw ho hn
/-- The rays of the pieces under the claim of four places, before each of them. -/
def overflowOf (at_ : Site) (s : State) (v : Trav) : Option (State × Beam × List V3) :=
  match walkBeam at_ (Beam.ofRecord wideBeam) s v with
  | .hit u _ m => match pieces (Beam.ofRecord wideBeam) m false with
    | [p] => some (u, p, strataOf p.far ((p.exact.getD 1 ⟨⟨.zero, .zero, .zero⟩, .zero⟩).n))
    | _ => none
  | _ => none
/-- The state before ray i of the piece, from the state after the claim; the rays have weight 0. -/
def beforeRay (ls : List RayLeaf) (p : Beam) (pts : List V3) (old : Nat) (s : State) : Nat → State
  | 0 => s
  | i + 1 =>
    let u := beforeRay ls p pts old s i
    let dir := roundVec ((pts.getD i (vecOf p.o)).sub (vecOf p.o))
    let r := traceRay (BitVec.ofNat 512 (dsc 1 8)) ls p.o dir 0x3F800000 0 p.hit
    let k := 0x4000 + 64 * (old + i)
    (u.homeWrite k (rayRecord p.o dir 0x3F800000 0 p.tag p.hit (r.1 + 8) r.2.1 r.2.2 p.pay)).beamTouch 0 0 .w 1 k k

theorem witness_Overflow : (overflowing 8).Sound
    ∧ (∃ v, (overflowing 8).trav? 1 0 false = some v ∧ v.work = [0] ∧ v.request = none ∧ v.desc = BitVec.ofNat 512 (dsc 1 8) ∧ (overflowing 8).travRuns 1 0 v = true)
    ∧ (f32q (Beam.ofRecord wideBeam).w).num = 0 ∧ (f32q (Beam.ofRecord wideBeam).om).isZero = false ∧ (Q.pow2 (-126)).le (f32q (Beam.ofRecord wideBeam).om) = true
    ∧ ∃ e, overflowOf ⟨0, 0⟩ (overflowing 8) (walkingUnder (dsc 1 8) [0] (overflowing 8).mem) = some e ∧
      (let (u, p, pts) := e
       let u1 := u.modTeam 1 0 fun x => x.drop 0
       p.planes.length = 13 ∧ p.rcv = true ∧ p.mirr = false ∧ pts.length = 4 ∧ u1.beamPlace 0 0 .rw (dscRhead (dsc 1 8)) 8 = .home 0x5000 ∧ 0x5000 % 8 = 0
       ∧ u1.lineTaken (lineOf 0x5000) = false ∧ u1.beamLost 0 0x5000 = false ∧ 0 + 4 ≤ dscRpc (dsc 1 4) ∧ dscRpc (dsc 1 3) < 0 + 4
       ∧ leVal ((List.range 8).map fun i => (overflowing 8).cohByte (0x5000 + i)) = 0
       ∧ (let u2 := (u1.revoke (lineOf 0x5000) (BitVec.allOnes 32) none).beamTouch 0 0 .rw 1 0x5000 0x5000
          (match leavesFrom ⟨0, 0⟩ 64 0 [] (u2.homeWrite 0x5000 (leBytes 4 8)) (walkingUnder (dsc 1 8) [] (overflowing 8).mem) with
            | .ok (ls, u4, _) => (List.range 4).all fun i =>
                let u := beforeRay ls p pts 0 u4 i
                let r := traceRay (BitVec.ofNat 512 (dsc 1 8)) ls p.o (roundVec ((pts.getD i (vecOf p.o)).sub (vecOf p.o))) 0x3F800000 0 p.hit
                decide (r.1 = 1) && decide (u.beamPlace 0 0 .w (dscRpb (dsc 1 8) + 64 * i : Nat) 64 = .home (0x4000 + 64 * i))
                && !(linesOf (0x4000 + 64 * i) 64).any u.lineTaken && !u.beamLost 0 (0x4000 + 64 * i)
            | .error _ => false) = true)) := by
  refine ⟨sound_of ?_, exSome ?_, ?_, ?_, ?_, exSome ?_⟩ <;> decide +kernel
/-- A translation that a die's TLB holds depends on the registers, the dies and the devices alone. -/
theorem translateAny_of_tlb {s v : State} {dev va l : Nat} {need : Need} {x : Xl} (h1 : v.mreg = s.mreg) (h2 : v.dies = s.dies) (h3 : v.devs = s.devs)
    (ht : dev < 8 ∧ validVa (va : Int) = true ∧ bit (s.mrN (offPTBR dev)) 0 = true ∧ tlbFind (s.die dev).tlb dev va = some l)
    (hc : s.checkLeaf dev (s.secure dev) need (clsOf (bits l 60 59)) va l = .ok x) : v.translateAny dev (v.secure dev) need va = .ok x := by
  have hm (o : Nat) : v.mrN o = s.mrN o := by simp [State.mrN, State.mr, h1]
  have hd (d : Nat) : v.die d = s.die d := by simp [State.die, h2]
  have hv : v.checkLeaf dev (v.secure dev) need (clsOf (bits l 60 59)) va l = .ok x := by
    rw [← hc]; simp only [State.checkLeaf, State.region, State.secure, State.worldInForce, ht.1, if_true, hm, hd, State.dev, h3]
  simp [State.translateAny, State.translateBy, State.leafFor, ht, hm, hd, hv]

/-- What the demo's translations give. -/
theorem maps_demo {need : Need} {va : Nat} (h : validVa (va : Int) = true ∧ tlbFind (demo.die 0).tlb 0 va = some leafL.toNat
      ∧ (match demo.checkLeaf 0 (demo.secure 0) need (clsOf (bits leafL.toNat 60 59)) va leafL.toNat with | .ok x => decide (x = ⟨0, va, 0, leafL.toNat⟩) | .error _ => false) = true)
    {v : State} (h1 : v.mreg = demo.mreg) (h2 : v.dies = demo.dies) (h3 : v.devs = demo.devs) :
    v.translateAny 0 (v.secure 0) need va = .ok ⟨0, va, 0, leafL.toNat⟩ := by
  refine translateAny_of_tlb h1 h2 h3 ⟨by decide, h.1, by decide +kernel, h.2.1⟩ ?_
  have := h.2.2
  split at this
  · rename_i x hx; rw [hx]; simpa using this
  · cases this

/-- A window of no bytes; no core of an evicting gang. -/
theorem witness_SystemInstructions_more : (let f := fl .none (.sreg 2) (.sreg 3); ((rs priv [(3, 2 ^ 32)]).vb f).toNat % 2 ^ 32 = 0)
    ∧ ∀ e ∈ priv.teams, e.2.die = priv.g.die → e.2.core = 39 → ∀ q, q < 16 → ((priv.team (e.1 / 32) (e.1 % 32)).queue q).senders = [] := by
  decide +kernel

/-- Images whose handle names no gang, one that is not saved, and a saved one of another size; a type that is not valid. -/
theorem witness_ContextInstructions_checks :
    (∀ e ∈ (mem imaged 0x4048 4 9).gangs, e.2.die = 0 → e.2.handle = 9 → e.2.life ≠ .saved)
    ∧ (∃ e ∈ ({ imaged with gangs := imaged.gangs ++ [(3, { handle := 8, die := 0, task := 1, ttype := {} })] } : State).gangs, e.2.die = 0 ∧ e.2.handle = 8 ∧ e.2.life ≠ .saved)
    ∧ (∀ e ∈ imaged.gangs, e.2.die = 0 → e.2.handle = 8 → e.2.life = .saved)
    ∧ (∃ e, (imaged.gangs.find? fun k => k.2.die = 0 && k.2.handle = 8 && decide (k.2.life = .saved)) = some e ∧ e.1 = 2 ∧ imaged.g.gang ≠ 2)
    ∧ rdLE ((mem imaged 0x4004 4 3072).vaBytes 0 0x4000 256) 4 4 ≠ imaged.imageSize 2
    ∧ (imaged.rangeFault .r (0x2000000 - 256) 2816).isSome = false ∧ (imaged.rangeFault .r (0x6000000 - 256) 2816).isSome = true := by
  refine ⟨?_, ?_, ?_, exSome ?_, ?_, ?_, ?_⟩ <;> decide +kernel

/-- Ticket LAST - 7 done, and not, and eight jobs that are incomplete. -/
theorem witness_CopyEngineInstructions_tickets :
    (let g : Group := { dilled.g with last := 9, tickets := [{ num := 2, done := true }, { num := 9 }] };
      (g.tickets.filter fun t => !t.done).length < 8 ∧ ∀ t ∈ g.tickets, t.num = g.last - 7 → t.done = true)
    ∧ (let g : Group := { dilled.g with last := 9, tickets := [{ num := 2 }, { num := 9 }] };
      ∃ t ∈ g.tickets, t.num = g.last - 7 ∧ t.done = false)
    ∧ 8 ≤ ((List.replicate 8 ({ num := 2 } : Ticket)).filter fun t => !t.done).length := by decide +kernel

/-- Cards of CRCGEN and of COMPRESS, and of an EXPAND with CHK and GEN, all with their entry at 0x1300; a write of routine memory that a job holds back. -/
def sideCard (rout flags dcap : Nat) : Nat := card rout dcap + flags + 2 ^ 320 * 0x1300
/-- A stream of one literal byte, with room for 16 bytes of it (R353). -/
def stream : List Byte := [0x42, 0x53, 0x01, 0, 1, 0, 0, 0, 0, 0x41]

theorem witness_CopyEngineJobs_kinds :
    (∀ v : State, v.mreg = demo.mreg → v.dies = demo.dies → v.devs = demo.devs → v.translateAny 0 (v.secure 0) .r 0x1100 = .ok ⟨0, 0x1100, 0, leafL.toNat⟩
      ∧ v.translateAny 0 (v.secure 0) .w 0x1200 = .ok ⟨0, 0x1200, 0, leafL.toNat⟩ ∧ v.translateAny 0 (v.secure 0) .w 0x1030 = .ok ⟨0, 0x1030, 0, leafL.toNat⟩
      ∧ v.translateAny 0 (v.secure 0) .r 0x1300 = .ok ⟨0, 0x1300, 0, leafL.toNat⟩ ∧ v.translateAny 0 (v.secure 0) .w 0x1300 = .ok ⟨0, 0x1300, 0, leafL.toNat⟩)
    ∧ (∀ c ∈ [sideCard 0 0x100 16, sideCard 1 0x300 16, sideCard 2 0 32, sideCard 3 0x100 16], (job c true).mreg = demo.mreg ∧ (job c true).dies = demo.dies ∧ (job c true).devs = demo.devs
      ∧ cardRout c < 4 ∧ 0 < cardSlen c ∧ cardSrc c % 128 + cardSlen c ≤ 128 ∧ cardSide c % 16 = 0 ∧ cardSide c = 0x1300 ∧ (job c true).anyBad 0x1100 (cardSlen c) = false
      ∧ ((job c true).agentRead 0 1 1 (.home 0x1100) (cardSlen c) { evp := 3 }).2.anyBad 0x1300 16 = false)
    ∧ (sideCard 0 0x100 16).testBit 8 = true ∧ (sideCard 1 0x300 16).testBit 9 = true
    ∧ (let src := bytesAt (job (sideCard 0 0x100 16) true).mem 0x1100 16
      leVal ((List.replicate 16 (0 : Byte)).drop 8 |>.take 4) ≠ src.length ∧ brsBadHeader src = true)
    ∧ brsExpand stream = { out := [0x41] } ∧ brsBadHeader stream = false ∧ brsUlen stream = 1 ∧ brsUlen stream ≤ 16 ∧ 0 < brsUlen stream ∧ 8 ≤ stream.length ∧ stream.length ≤ 16
    ∧ ({ (job (card 0 16) true).dill 0 with held := [(true, 5, 0x12345678)] } : Dill).held = [(true, 5, 0x12345678)] := by
  refine ⟨fun v h1 h2 h3 => ⟨maps_demo ?_ h1 h2 h3, maps_demo ?_ h1 h2 h3, maps_demo ?_ h1 h2 h3, maps_demo ?_ h1 h2 h3, maps_demo ?_ h1 h2 h3⟩, ?_, ?_, ?_, ?_, ?_, ?_, ?_, ?_, ?_, ?_, ?_, ?_⟩ <;>
  decide +kernel

/-- BQUOTA while a traversal runs, and without room; NODEWR to a line that another core leases. -/
theorem witness_BeamPool_held : (pooled 4 [] [] (some (walkingUnder 0 [0])) [(2, 5)]).myTeam.trav ≠ none
    ∧ (let s := pooled 4 [] [] none [(2, 1024)]
       let s : State := { s with teams := s.teams ++ [(33, { die := 0, core := 0, groups := 1, window := 1024, quota := 1024 })] };
       s.myTeam.quota < 1024 ∧ s.poolRoom < 1024 ∧ s.g.wait = .run)
    ∧ (∃ x, leasing.checkElem .w 0 64 0 0x1000 = .ok x ∧ x.tgt = 0 ∧ leasing.leaseBusy 64 ⟨0, 0x1000, x⟩ = true) := by
  refine ⟨?_, ?_, exOk ?_⟩ <;> decide +kernel

/-- A world change of the cluster pending, and not; a clear ray without flags whose cell lies apart from its record. -/
theorem witness_Traversals_more : (scene (dsc 1 8) []).beamPending = false
    ∧ ((scene (dsc 1 8) []).setMr (offWLD 0) 0x400).beamPending = false ∧ (∃ n, n < 3 ∧ ((scene (dsc 1 8) []).setMr (offWLD n) (BitVec.allOnes 64)).beamPending = true)
    ∧ traceRay 0 [] [0, 0, 0] [0, 0, f1] 0x41200000 f1 0xFFFFFFFF = (1, 0x41200000, 0xFFFFFFFF)
    ∧ (raying 0).beamPlace 0 0 .rw (dscCovb (dsc 1 8) + 8 * 7 : Nat) 8 = .home 0x3038 ∧ 0x3038 % 8 = 0 ∧ (raying 0).lineTaken (lineOf 0x3038) = false ∧ 0x3038 + 8 ≤ 0x4028 := by
  refine ⟨?_, ?_, ⟨1, ?_⟩, ?_, ?_, ?_, ?_, ?_⟩ <;> decide +kernel

/-- A record store that holds 2^32 records of the die is full, whatever its size; one that holds none is not. -/
theorem witness_RenderGraph_store : (emitting 0).gnodeBad { kind := 0, rsz := 0, next := 0, type := 0, arg := 0 } 0 = false ∧ (emitting 0).recordsFull 0 = false
    ∧ ∀ n, 2 ^ 32 ≤ n → ({ emitting 0 with fab := { graph := List.replicate n { id := 1, node := 0, die := 0, fromDie := 0, data := 0, launch := 1, remote := false } } } : State).recordsFull 0 = true := by
  refine ⟨by decide +kernel, by decide +kernel, fun n hn => ?_⟩
  have := Config.recordStore.isLt
  simp [State.recordsFull]
  omega

/-- A value found through another. -/
theorem exSome2 {α β : Type} {r : Option α} {f : α → Option β} {p : β → Prop} [DecidablePred p]
    (h : (match r with | some a => (match f a with | some b => decide (p b) | none => false) | none => false) = true) : ∃ a, r = some a ∧ ∃ b, f a = some b ∧ p b := by
  cases r with
  | none => cases h
  | some a => exact ⟨a, rfl, exSome h⟩

/-- BEMIT without its record's registers; a window whose one record is passed on; a cluster whose world stands. -/
theorem witness_RenderGraph_more :
    (({ graphed with g := { graphed.g with alloc := 1024 } } : State).g.regbound [⟨1, .view 192, graphed.emitBytes (fl .none (.view 192) .none 0 0)⟩]).isSome = true
    ∧ (∃ p, graphed.graphNode 0 2 = some p ∧ ∃ q, graphed.graphNode 0 p.next = some q ∧ q.kind ≠ 2)
    ∧ ((graphed.modDie 0 fun d => { d with binner := [(1, BitVec.ofNat 512 (triRec f1 3 1), 2, 3)] }).die 0).binner.length = 1
    ∧ ∀ n : Nat, n < 40 → graphed.worldPending (42 + 10 * 0 + n / 4) = false := by
  refine ⟨?_, ?_, ?_, ?_⟩
  · decide +kernel
  · exact exSome2 (by decide +kernel)
  · decide +kernel
  · decide +kernel

/-- Sixteen messages of the core that await injection; a halted core; a view that a product has still to read. -/
theorem witness_Messages_more : 16 ≤ (posted (List.replicate 16 (msg false)) .run).awaiting 0 0 ∧ (posted [] .run).awaiting 0 0 < 16
    ∧ (let s := posted [msg true] (.blocked .waitq 0 512 0);
       s.canDeliver s.g 512 = true ∧ (s.modCore 0 0 fun c => { c with halted := true }).canDeliver s.g 512 = false ∧ s.g.job < 64 ∧ s.g.die < 8) := by decide +kernel

/-- An open stamped store under the handle; a die that was asked nothing, lately, and long ago; a line it has to itself. -/
theorem witness_Fabric_more :
    (let w := { stamped false 0 with handle := 1 };
     w.isOpen = true ∧ w.die = demo.g.die ∧ ∃ x ∈ ({ demo with fab := { stamped := [w] } } : State).fab.stamped, x.isOpen = true ∧ x.die = 0 ∧ x.handle = 1)
    ∧ (demo.die 1).asked = none
    ∧ (let s := { demo with now := 169999 }.modDie 1 fun d => { d with asked := some 0 };
       (s.die 1).asked = some 0 ∧ s.now < 0 + 1700 * bits (s.mrN offFABCFG) 47 32 ∧ 0 + 1700 * bits (s.mrN offFABCFG) 47 32 ≤ s.now + 1)
    ∧ (∃ e ∈ ({ demo with cache := { demo.cache with dir := [(7, { st := .m, owner := some 1, sharers := 2 })] } } : State).cache.dir, e.2.owner = some 1) := by decide +kernel

/-- STSC that has passed its checks; a CWAIT that is over, and one that a store in flight keeps; a store past its cap, with an owner. -/
theorem witness_TimeInstructions_more :
    (let s : State := { clocked 50 1024 with g := { demo.g with wait := .sending 0 0x1000 0 5 } };
      s.g.wait = .sending 0 0x1000 0 5 ∧ s.storesOut s.g.uid = false ∧ (storing s).storesOut s.g.uid = true ∧ (storing s).myStamped 1 = none)
    ∧ (storing (clocked 50 1024)).storesOut 1 = true ∧ (clocked 50 1024).joinedNow 0 = true
    ∧ (let s := stamping 50 true 0;
       (∃ w ∈ s.fab.stamped, w.isOpen = true ∧ ¬ (110 : Nat) < w.stamp.toNat) ∧ ∀ w ∈ s.fab.stamped, w.isOpen = true → (50 : Nat) < w.stamp.toNat)
    ∧ (let s := { demo with hub := { demo.hub with h := 50 }, dies := (List.range 8).map fun d => (d, ({ demo.die d with h := 50 } : Die)) };
       (∀ d, d < 8 → (s.die d).dead = true ∨ (50 : Nat) ≤ (s.die d).h.toNat) ∧ s.fab.stamped.length = 0)
    ∧ ((stamped true 0).isOpen = true ∧ (stamped true 0).since + 1024 ≤ 1024 ∧ (stamped true 0).owner ≠ 0 ∧ (stamped true 1).isOpen = false)
    ∧ ({ clocked 50 1024 with g := { demo.g with wait := .ready 7 } } : State).g.wait = .ready 7 := by decide +kernel

/-- One store is due, before its cap and on a line nobody holds; with its cap passed none is. -/
theorem witness_Horizon_due :
    (let s := { stamping 50 true 0 with hub := { (stamping 50 true 0).hub with h := 110 } };
     let due (s : State) (w : Stamped) : Bool := w.arrived && w.outcome = 0 && dieOfKey w.cell = 0 && decide (w.stamp.toNat ≤ 110) && decide (s.now < w.since + s.cwcap);
     s.fab.stamped.filter (due s) = [stamped true 0] ∧ s.lineTaken (lineOf 0x1000) = false ∧ ({ s with now := 1024 } : State).fab.stamped.any (due { s with now := 1024 }) = false)
    ∧ ((stamped false 0).arrived = false ∧ (stamped false 0).handle = 0 ∧ ∀ n x c, (stamping 50 false 0).g.wait ≠ .blocked .cwait n x c) := by
  refine ⟨by decide +kernel, by decide +kernel, by decide +kernel, fun n x c => ?_⟩
  simp [stamping, clocked, State.modDie, State.setMr, demo]

/-! ## Clauses of the second review -/

/-- LDSB into a team's window of 1,024 bytes and to a position without a team; STS to two positions, whose smaller window ends first. -/
theorem witness_Scratchpad_bounds :
    (let f := fl (.view 64) (.sreg 2) .none 2 0x40304;
      Executes .m false (vrefs f 32 8 8) f two ∧ f.immN / 2 ^ 18 % 4 = 1 ∧ laneList (two.g.lanes f) = List.range 63 ++ 63 :: [] ∧ (772 + 63 * 4) % 4 = 0
      ∧ (∀ k ∈ List.range 63, (772 + k * 4) % 4 = 0 ∧ 772 + k * 4 + 4 ≤ 1024) ∧ 1024 < 772 + 63 * 4 + 4 ∧ (two.teamAt 1).map (·.2.window) = some 1024)
    ∧ (let f := fl (.view 64) (.sreg 2) .none 2 0x80000
      f.immN / 2 ^ 18 % 4 = 2 ∧ two.teamAt 2 = none ∧ laneList (two.g.lanes f) = [] ++ 0 :: (List.range 64).drop 1)
    ∧ (let f := fl (.view 64) (.sreg 2) .none 2 0xC0304
      Executes .m false (vrefs f 32 8 8) f two ∧ f.ord ≠ 2 ∧ f.immN / 2 ^ 18 % 16 = 3 ∧ (∀ k ∈ List.range 63, ∀ p, p < 2 → ((two.teamAt p).map fun e => decide (772 + k * 4 + 4 ≤ e.2.window)) = some true)
      ∧ (3 : Nat).testBit 1 = true ∧ (3 : Nat).testBit 2 = false ∧ (3 : Nat).testBit 3 = false) := by
  refine ⟨⟨execs ?_, ?_, ?_, ?_, ?_, ?_, ?_⟩, ⟨?_, ?_, ?_⟩, ⟨execs ?_, ?_, ?_, ?_, ?_, ?_, ?_⟩⟩ <;> decide +kernel

/-- CHAIN of an entry that is not valid, of one with another number of gangs, and with a range that ends past the allocation, or past the successor's demand. -/
theorem witness_SchedulingInstructions_chain : (∃ ty, typed.typeEntry 0 6 = some ty ∧ ty.valid = false) ∧ typed.g.handler = none
    ∧ (∃ ty, typed.typeEntry 0 5 = some ty ∧ ty.valid = true ∧ ty.gangs = 1 ∧ ty.groups = 1 ∧ 1024 * ty.regs < 512 + (1024 * ty.regs) ∧ typed.g.alloc < 512 + typed.g.alloc) := by
  refine ⟨exSome ?_, ?_, exSome ?_⟩ <;> decide +kernel

/-- A loaded routine at a word that is no instruction, and at ADDI x1, x0, 5; ADDI's effect (R350). -/
def looping (w : Nat) : State := (((job (card 5 16) true).setMr (offDXRT 0 5) 0x8000000100040000).modDill 0 fun d => { d with imem := wrLE [] 0 4 w, wrote := 7 })
theorem witness_CopyEngineJobs_loaded : (∃ j, ((looping 0).dill 0).queue.head? = some j ∧ (looping 0).jobHeld 0 j = false ∧ cardRout j.card.toNat = 5)
    ∧ (looping 0).routineNext 0 5 = none ∧ ((looping 0).dill 0).running = true ∧ ((looping 0).dill 0).wrote = 7 := by
  refine ⟨exSome ?_, ?_, ?_, ?_⟩ <;> decide +kernel
theorem test_routine_addi : (((looping 0x00500093).routineStep 0).dill 0).rv.x[1] = 5 ∧ (((looping 0x00500093).routineStep 0).dill 0).rv.pc = 4 := by decide +kernel

/-- An image that is poisoned in its header, and after it; one whose line waits at its home; none of both. -/
theorem witness_ContextInstructions_poison : imaged.rangePoison 0x4000 256 = none ∧ imaged.vaBusy 0 false 0x4000 256 = false
    ∧ imaged.rangePoison 0x4000 (imaged.imageSize 2) = none ∧ imaged.vaBusy 0 false 0x4000 (imaged.imageSize 2) = false
    ∧ (∃ r, ({ imaged with poison := [(0x80, 1)] } : State).rangePoison 0x4000 256 = some r ∧ r.cause = 0x17)
    ∧ ({ imaged with poison := [(0x84, 1)] } : State).rangePoison 0x4000 256 = none
    ∧ (∃ r, ({ imaged with poison := [(0x84, 1)] } : State).rangePoison 0x4000 (imaged.imageSize 2) = some r ∧ r.cause = 0x17)
    ∧ (let s : State := { imaged with dies := kset imaged.dies 1 { imaged.die 1 with asleep := true }, cache := { imaged.cache with dir := [(0x80, { st := .m, owner := some 1, sharers := 2 })] } }
      s.rangeFault .r 0x4000 256 = none ∧ s.rangePoison 0x4000 256 = none ∧ s.vaBusy 0 false 0x4000 256 = true) := by
  refine ⟨?_, ?_, ?_, ?_, exSome ?_, ?_, exSome ?_, ?_, ?_, ?_⟩ <;> decide +kernel

/-- A range without cached lines, and one whose only cached line is leased; gangs that hold their place, and a saved one that does not. -/
theorem witness_ManagementRegisters_more : demo.rangeTaken 0 0 = false ∧ demo.rangeTaken 0 0x3FFFFF800000 = false
    ∧ (let s : State := { leasing with cache := { leasing.cache with l2 := [(cacheKey 0 0x20, { level := 3, used := 1 })] } }
      s.rangeTaken 0 (0x800000 + 1) = true ∧ s.rangeTaken 0 0 = false)
    ∧ demo.holdsPlace 1 = true ∧ (saved .saved).holdsPlace 1 = false ∧ (saved .restoring).holdsPlace 1 = false := by decide +kernel

/-- Loads whose lines are not held; a line that a sleeping die has to itself is. -/
theorem witness_Loads_held : (∀ a ∈ [(⟨0, 0x1000, ⟨0, 0x1000, 0, 0⟩⟩ : LaneAcc), ⟨0, 0x4000000, ⟨2, 0, 1, 0⟩⟩], demo.loadHeld 4 a = false)
    ∧ demo.readHeld 0 0x20 = false
    ∧ (let s : State := { demo with dies := kset demo.dies 1 { demo.die 1 with asleep := true }, cache := { demo.cache with dir := [(0x20, { st := .m, owner := some 1, sharers := 2 })] } }
      s.readHeld 0 0x20 = true ∧ s.loadHeld 4 ⟨0, 0x1000, ⟨0, 0x1000, 0, 0⟩⟩ = true) := by decide +kernel

/-- The peer store's home line free, nothing leased, and the storing die another one. -/
theorem witness_PeerStores_home : (∀ line : Nat, (peering 1).leased line = false) ∧ (0 : Nat) ≠ dieOfKey (2 ^ 35 + 0x10)
    ∧ (∃ g, (peering 2).group? 1 = some g ∧ g.isEnding = false) := by
  refine ⟨fun l => by simp [State.leased, peering, demo, State.setMr], by decide +kernel, exSome (by decide +kernel)⟩

/-- A key or a signature of another length verifies nothing (R459, FIPS 204). -/
theorem test_signature_lengths : mlDsa65 [] [1, 2] [] = false := by decide +kernel

/-! ## Clauses of the third review -/

/-- Nothing stands divided in the states the step statements start from. -/
theorem witness_StepRunsDecodedInstruction_whole : placed.split = {} ∧ placed.g.isEnding = false
    ∧ (handled.withFetchWord 96 0xD30000000000_000000000000).split = {} ∧ demo.split = {} := by decide +kernel

/-- A full queue whose allowance of 2 comes as one value has left the ring: one of two held senders is released. -/
def offering : State := withQ { slots := 8, count := 7, init := true, senders := [(2, 5), (9, 6)] }
theorem witness_Queues_release : (let x := (offering.team 1 0).queue 3
      offering.spadStopped 1 0 = false ∧ x.init = true ∧ x.receivers = [] ∧ x.count ≤ x.slots ∧ x.slots ≤ 64
      ∧ min x.senders.length (min (x.slots - x.count) (min (x.alw + (fl .none .zero .none 3 0x20000).immN / 65536 + 0) 65535)) = 1)
    ∧ (2 : Nat) ≠ offering.g.uid ∧ (offering.group? 2).isSome = true := by decide +kernel
/-- QALLOW of 2: the older sender's value stands in the last slot, and its group goes on (R269). -/
theorem test_qallow_release : ∃ t, exec (.qallow (fl .none .zero .none 3 0x20000)) offering = .next t ∧ (t.myTeam.queue 3).senders = [(9, 6)]
    ∧ (t.myTeam.queue 3).count = 8 ∧ (t.myTeam.queue 3).alw = 1 ∧ rdLE t.myTeam.spad 56 8 = 5 ∧ (t.group? 2).map (·.wait) = some (.ready 0) := exNext (by decide +kernel)

/-- Network barriers that a leaving member completes, whose members have all arrived, and without members. -/
theorem witness_Barriers_turn : (let b : NetBar := { memb := 3, next := 3, arr := 2 }; b.memb.getLsbD 0 = true ∧ b.arr ||| (1#128 <<< 0) = b.memb ∧ b.held = [])
    ∧ (let b : NetBar := { memb := 2, next := 2, arr := 2 }; b.memb ≠ 0 ∧ b.arr = b.memb ∧ b.memb.getLsbD 0 = false)
    ∧ (let b : NetBar := { arr := 1 }; b.memb = 0 ∧ b.arr = (1#128 <<< 0)) := by decide +kernel
/-- NLEAVE of the last member to arrive (R279, R280). -/
theorem test_nleave_turn : ∃ t, exec (.nleave (fl .none .none .none 2)) (withN { memb := 3, next := 3, arr := 2, gen := 6 } 0) = .next t
    ∧ t.net (fl .none .none .none 2) = { memb := 2, next := 2, arr := 0, gen := 7 } ∧ t.g.pc = 0x120C := exNext (by decide +kernel)

/-- An acquiring LD and a plain one: the core's generation (R187). -/
theorem test_ld_acquire : ∃ t, exec (.ld (fl (.view 64) (.sreg 2) .none 0x102)) (rs demo [(2, 0x1000)]) = .next t
    ∧ (fl (.view 64) (.sreg 2) .none 0x102).ord = 1 ∧ (t.core 0 0).gen = (demo.core 0 0).gen + 1 := exNext (by decide +kernel)

/-- Pages that the TLBs hold need no walk; a walk's places, and a line that is none of them. -/
theorem witness_CacheControl_walks : (let s := rs demo [(2, 0x1000)]
      ∃ e, s.lineXl .any clsOf (0x1000 : Int) = some e ∧ s.reachLine 0x1000 e false = s)
    ∧ (walking.lineXl .r clsOf (0x1000 : Int)).isSome = true ∧ (∀ k ∈ walking.walkPlaces 0 0x1000, lineOf k ≠ 0x20) := by
  refine ⟨exSome ?_, ?_, ?_⟩ <;> decide +kernel

/-- MSTAT of a list whose product has steps behind it. -/
theorem witness_AccumulatorAndJoin_mstat : (let s := eng [{ prodOp with kind := .wload }, { prodOp with kpos := 5 }] [] []
      s.myMops.length = 2 ∧ s.myMops = [{ prodOp with kind := .wload }] ++ { prodOp with kpos := 5 } :: [] ∧ MKind.product .wload = false ∧ prodOp.kind.product = true)
    ∧ (∀ m ∈ (eng [{ prodOp with kind := .wload }] [] []).myMops, m.kind.product = false) := by decide +kernel

/-- An eviction that a CTXSAVE of another gang's group has asked for and waits for; the size it then takes. -/
def savingFor : State := { evicting.modGang 1 fun k => { k with saver := some (9, 0) } with
  rest := evicting.rest ++ [{ uid := 9, life := .active, gang := 2, alloc := 1024, wait := .held 1 0 }] }
theorem witness_EvictionAndRestore_saver : savingFor.Sound ∧ (∃ k, savingFor.gang? 1 = some k ∧ k.saver = some (9, 0))
    ∧ (∃ q, savingFor.quiesceGang 1 = some q ∧ ∃ g, q.group? 9 = some g ∧ g.gang ≠ 1 ∧ g.wait = .held 1 0)
    ∧ (let f := fl (.sreg 1) (.sreg 2) (.sreg 3); Executes .c true (dab f) f ({ priv with g := { priv.g with wait := .ready 2816 } } : State)) := by
  refine ⟨sound_of ?_, exSome ?_, exSome2 ?_, execs ?_⟩ <;> decide +kernel
/-- CTXSAVE takes the size it was given (R348). -/
theorem test_ctxsave_size : ∃ t, exec (.ctxsave (fl (.sreg 1) (.sreg 2) (.sreg 3))) { priv with g := { priv.g with wait := .ready 2816 } } = .next t
    ∧ t.g.sreg 1 = 2816 ∧ t.g.pc = 0x120C := exNext (by decide +kernel)

/-- A loaded routine behind its last word, and before it with an instruction to execute; a job that has not begun. -/
theorem witness_CopyEngineJobs_over : (let s := (looping 0x00500093).modDill 0 fun d => { d with rv := { d.rv with pc := 16 } }
      s.routineOver 0 5 = true ∧ (s.dill 0).block = [])
    ∧ (looping 0x00500093).routineOver 0 5 = false ∧ (∃ r, (looping 0x00500093).routineNext 0 5 = some r ∧ r.1.pc = 4)
    ∧ (let d := (job (card 0 16) true).dill 0; d.got = 0 ∧ d.wrote = 0 ∧ d.seen = [] ∧ d.block = [])
    ∧ (∀ k ∈ [((0x1100 : Nat), (Need.r)), (0x1030, .w), (0x1200, .w), (0x1300, .r), (0x1300, .w)], tlbFind (demo.die 0).tlb 0 k.1 = some leafL.toNat) := by
  refine ⟨?_, ?_, exSome ?_, ?_, ?_⟩ <;> decide +kernel
/-- FADD.S f1, f2, f3 of 1 and 2; FDIV.S of 1 by 0 sets DZ (R350; the RISC-V manual). -/
theorem test_routine_float : (rvExec { f := ((Vector.replicate 32 0).set 2 0xFFFFFFFF3F800000).set 3 0xFFFFFFFF40000000 } [] 0x003100D3).map
      (fun r => (r.1.f[1], r.1.fcsr)) = some (0xFFFFFFFF40400000, 0) := by decide +kernel

/-- A fixed-function node of a smaller record takes 64 bytes, of which the first stand (R383). -/
theorem test_asRecord : (let n : GNode := { kind := 4, rsz := 1, next := 0, type := 0, arg := 0 }
    n.size = 32 ∧ ({ kind := 4, rsz := 3, next := 0, type := 0, arg := 0 } : GNode).size = 64
    ∧ (demo.asRecord { n with rsz := 3 } 0x1234).1 = 0x1234 ∧ (demo.asRecord { n with kind := 0 } 0x1234).1 = 0x1234) := by decide +kernel

/-- MRET at a bad address, inside and outside a handler. -/
theorem witness_MessageInstructions_mret : (let s := rs demo [(63, 0x1201)]; validTarget (s.g.sreg 63).toNat = false ∧ s.g.handler = none)
    ∧ validTarget (demo.g.sreg 63).toNat = true ∧ demo.g.handler = none := by decide +kernel
/-- MRET outside a handler at a bad address is XFER (R78). -/
theorem test_mret_xfer : ∃ t, exec (.mret (fl .none .none .none)) (rs handled [(63, 0x1201)]) = .next t ∧ t.g.ecause = 4 := exNext (by decide +kernel)

/-- Another group's store is out under handle 1. -/
def revoking : State := rs { peering 1 with fab := { stores := (peering 1).fab.stores.map fun p => { p with owner := 2 } } } [(2, 1)]
/-- HIMPORT of a dead die; HREVOKE of a handle under which a store is out, one that waits for it and one that need not, one of an invalid
handle; nobody sends. -/
theorem witness_FabricInstructions_revoke :
    (let s := (exporting importWord).modDie 0 fun d => { d with dead := true };
      (s.die s.g.die).dead = true ∧ s.g.wait = .run)
    ∧ (let s := revoking;
      s.storesOut s.g.uid = false ∧ (∃ p ∈ s.fab.stores, p.dev = s.g.die ∧ p.handle = 1 ∧ p.gone = none) ∧ (∃ x, kget (s.dev 0).handles 1 = some x ∧ x.valid = true))
    ∧ (let s : State := { revoking with fab := { stores := revoking.fab.stores.map fun p => { p with gone := some (1, 1) } } };
      s.goneOut 1 = true ∧ (s.storeHome 0 1 0x10 .w false (some (1, 1))).toOption = none)
    ∧ demo.goneOut demo.g.uid = false ∧ (kget (demo.dev 0).handles 2).isNone = true
    ∧ (∀ g ∈ demo.rest, (match g.wait with | .sending .. => false | _ => true) = true) := by
  refine ⟨?_, ⟨?_, ?_, exSome ?_⟩, ?_, ?_, ?_, ?_⟩ <;> decide +kernel
/-- HREVOKE of it waits, and goes on when nothing is out (R423). -/
theorem test_hrevoke : (∃ t, exec (.hrevoke (fl .none (.sreg 2) .none)) revoking = .next t ∧ t.g.wait = .held 1 0 ∧ t.goneOut 1 = true
      ∧ (kget (t.dev 0).handles 1).map (·.valid) = some false)
    ∧ ∃ t, exec (.hrevoke (fl .none (.sreg 2) .none)) { rs demo [(2, 1)] with g := { (rs demo [(2, 1)]).g with wait := .held 1 0 } } = .next t ∧ t.g.pc = 0x120C := ⟨exNext (by decide +kernel), exNext (by decide +kernel)⟩

/-- A die whose links have carried nothing for the idle time, at its last cycle and before it (R404). -/
theorem witness_Fabric_idle : bits (demo.mrN offFABCFG) 31 16 = 50 ∧ (demo.die 1).lastPacket + 1700 * 50 ≤ ({ demo with now := 85000 } : State).now
    ∧ ({ demo with now := 84999 } : State).now < (demo.die 1).lastPacket + 1700 * 50 := by decide +kernel

/-- A store that can still install, one whose cap has passed, one that is lost. -/
theorem witness_TimeInstructions_install : (let s := stamping 50 true 0
      ∃ w ∈ s.fab.stamped, w.outcome = 0 ∧ s.now < w.since + s.cwcap ∧ ¬ (110 : Nat) < w.stamp.toNat)
    ∧ (∀ w ∈ (stamping 50 true 4).fab.stamped, w.outcome ≠ 0)
    ∧ (let s : State := { stamping 50 true 0 with now := 1024 }; ∀ w ∈ s.fab.stamped, ¬ s.now < w.since + s.cwcap) := by decide +kernel

/-- A lost ray: STATUS 3, no primitive (R378). -/
theorem test_lost_ray : (traceRay 0 [] [0, 0, 0] [0, 0, 0] 0x41200000 f1 0xFFFFFFFF).1 = 3 ∧ (traceRay 0 [] [0, 0, 0] [0, 0, 0] 0x41200000 f1 0xFFFFFFFF).2.2 = 0xFFFFFFFF := by
  decide +kernel

end Sys2Proof.Tests
end

section
/-! SUPPORT. Management registers (spec/34 R454): what a write reads back, a run of writes, single bits, and the readiness bits with
the message a change of them sends (R455, R456). -/

namespace Sys2Proof.Machine

/-! ## One register -/

@[simp] theorem mr_setMr_same (s : State) (o : Nat) (v : Word) : (s.setMr o v).mr o = v := by simp [State.mr]

theorem mr_setMr_of_ne (s : State) {o a : Nat} (v : Word) (h : o ≠ a) : (s.setMr a v).mr o = s.mr o := by
  simp [State.mr, kget_kset_of_ne _ _ h]

theorem mr_congr {s t : State} (h : t.mreg = s.mreg) (o : Nat) : t.mr o = s.mr o := by simp [State.mr, h]

theorem linkUp_setMr (s : State) {a : Nat} (v : Word) (h : offHLSTAT ≠ a) : (s.setMr a v).linkUp = s.linkUp := by
  simp [State.linkUp, mr_setMr_of_ne s v h]

/-! ## What register writes and messages leave alone -/

/-- From s to t nothing moves but management registers. -/
def State.MovesRegs (s t : State) : Prop := t = { s with mreg := t.mreg }

/-- From s to t nothing moves but management registers and what is in flight between dies. -/
def State.MovesRegsFab (s t : State) : Prop := t = { s with mreg := t.mreg, fab := t.fab }

theorem State.MovesRegs.refl (s : State) : s.MovesRegs s := rfl

theorem State.MovesRegs.trans {s t u : State} (h : s.MovesRegs t) (k : t.MovesRegs u) : s.MovesRegs u := by
  rw [MovesRegs] at h k ⊢
  rw [k, h]

theorem State.MovesRegs.regsFab {s t : State} (h : s.MovesRegs t) : s.MovesRegsFab t := by
  rw [MovesRegs] at h
  rw [MovesRegsFab, h]

theorem State.MovesRegsFab.trans {s t u : State} (h : s.MovesRegsFab t) (k : t.MovesRegsFab u) : s.MovesRegsFab u := by
  rw [MovesRegsFab] at h k ⊢
  rw [k, h]

/-- A part of the state that no register is in. -/
theorem State.MovesRegs.keeps {α : Type} {p : State → α} {s t : State} (h : s.MovesRegs t)
    (hp : ∀ (s : State) m, p { s with mreg := m } = p s) : p t = p s := (congrArg p h).trans (hp s _)

/-- A part of the state that no register and no traffic is in. -/
theorem State.MovesRegsFab.keeps {α : Type} {p : State → α} {s t : State} (h : s.MovesRegsFab t)
    (hp : ∀ (s : State) m f, p { s with mreg := m, fab := f } = p s) : p t = p s := (congrArg p h).trans (hp s _ _)

theorem setMr_movesRegs (s : State) (o : Nat) (v : Word) : s.MovesRegs (s.setMr o v) := rfl

theorem postMsix_mreg (s : State) (dev job launch vec : Nat) : (s.postMsix dev job launch vec).mreg = s.mreg := by
  unfold State.postMsix; split <;> rfl

theorem postMsix_movesRegsFab (s : State) (dev job launch vec : Nat) : s.MovesRegsFab (s.postMsix dev job launch vec) := by
  unfold State.postMsix; split <;> rfl

/-! ## A run of writes -/

theorem foldl_setMr_movesRegs (off : Nat → Nat) (v : Nat → Word) (l : List Nat) (s : State) :
    s.MovesRegs (l.foldl (fun s i => s.setMr (off i) (v i)) s) :=
  foldl_keeps s.MovesRegs _ (fun t i ht => ht.trans (setMr_movesRegs t (off i) (v i))) l (.refl s)

theorem mr_foldl_setMr_of_ne (off : Nat → Nat) (v : Nat → Word) {l : List Nat} {o : Nat} (h : ∀ i ∈ l, o ≠ off i) (s : State) :
    (l.foldl (fun s i => s.setMr (off i) (v i)) s).mr o = s.mr o := by
  induction l generalizing s with
  | nil => rfl
  | cons i l ih =>
    rw [List.foldl_cons, ih (fun k hk => h k (List.mem_cons_of_mem _ hk)), mr_setMr_of_ne s (v i) (h i List.mem_cons_self)]

/-- Written at distinct offsets, each register of the run holds its own value. -/
theorem mr_foldl_setMr_of_mem {off : Nat → Nat} (hoff : Function.Injective off) (v : Nat → Word) {l : List Nat} {j : Nat} (h : j ∈ l)
    (s : State) : (l.foldl (fun s i => s.setMr (off i) (v i)) s).mr (off j) = v j := by
  induction l generalizing s with
  | nil => cases h
  | cons i l ih =>
    by_cases hj : j ∈ l
    · exact ih hj _
    · obtain rfl : j = i := (List.mem_cons.1 h).resolve_right hj
      have hne : ∀ k ∈ l, off j ≠ off k := fun k hk e => hj (hoff e ▸ hk)
      rw [List.foldl_cons, mr_foldl_setMr_of_ne off v hne, mr_setMr_same]

/-! ## Single bits -/

theorem getLsbD_setBitTo {w : Nat} (v : BitVec w) {i : Nat} (hi : i < w) (b : Bool) (j : Nat) :
    (setBitTo v i b).getLsbD j = if j = i then b else v.getLsbD j := by
  have hbit : (BitVec.twoPow w i).getLsbD j = decide (j = i) := by
    by_cases h : j = i
    · simp [h, hi]
    · simp [h, Ne.symm h]
  show (if b then v ||| BitVec.twoPow w i else v &&& ~~~BitVec.twoPow w i).getLsbD j = _
  cases b with
  | true => rw [if_pos rfl, BitVec.getLsbD_or, hbit]; by_cases h : j = i <;> simp [h]
  | false =>
    have hlow : v.getLsbD j = true → j < w := BitVec.lt_of_getLsbD
    rw [if_neg Bool.false_ne_true, BitVec.getLsbD_and, BitVec.getLsbD_not, hbit]
    by_cases h : j = i <;> simp [h]
    exact hlow

/-- A run of bits set to their values. -/
theorem getLsbD_foldl_setBitTo {w : Nat} (b : Nat → Bool) {l : List Nat} (hl : ∀ i ∈ l, i < w) (v : BitVec w) (j : Nat) :
    (l.foldl (fun v i => setBitTo v i (b i)) v).getLsbD j = if j ∈ l then b j else v.getLsbD j := by
  induction l generalizing v with
  | nil => rfl
  | cons i l ih =>
    rw [List.foldl_cons, ih fun k hk => hl k (List.mem_cons_of_mem _ hk), getLsbD_setBitTo v (hl i List.mem_cons_self)]
    by_cases hm : j ∈ l
    · simp [hm]
    · by_cases hj : j = i <;> simp [hm, hj]

theorem mrBit_eq_setBitTo (s : State) (o i : Nat) (b : Bool) : s.mrBit o i b = s.setMr o (setBitTo (s.mr o) i b) := rfl

/-- A field of a mask cleared from bit a on. -/
theorem getLsbD_clear_field (v m : Word) {a i : Nat} (h : a + i < 64) (hm : m.getLsbD i = true) :
    (v &&& ~~~(m <<< a)).getLsbD (a + i) = false := by
  simp [h, hm]

/-! ## Readiness bits (R455, R456) -/

theorem setReady_movesRegsFab (s : State) (o i : Nat) (b : Bool) : s.MovesRegsFab (s.setReady o i b) := by
  unfold State.setReady
  split
  · exact (State.MovesRegs.refl s).regsFab
  · exact (setMr_movesRegs s o _).regsFab.trans (postMsix_movesRegsFab _ _ _ _ _)

theorem getLsbD_setReady (s : State) (o : Nat) {i : Nat} (hi : i < 64) (b : Bool) (j : Nat) :
    ((s.setReady o i b).mr o).getLsbD j = if j = i then b else (s.mr o).getLsbD j := by
  unfold State.setReady
  split
  · rename_i h
    by_cases hj : j = i <;> simp [hj, h]
  · rw [mr_congr (postMsix_mreg _ _ _ _ _), mrBit_eq_setBitTo, mr_setMr_same, getLsbD_setBitTo _ hi]

theorem mr_setReady_of_ne (s : State) {o a : Nat} (i : Nat) (b : Bool) (h : o ≠ a) : (s.setReady a i b).mr o = s.mr o := by
  unfold State.setReady
  split
  · rfl
  · rw [mr_congr (postMsix_mreg _ _ _ _ _), mrBit_eq_setBitTo, mr_setMr_of_ne s _ h]

/-- A change sends MSI-X 63 while the link is up (R456). -/
theorem setReady_posted (s : State) {o i : Nat} {b : Bool} (ho : offHLSTAT ≠ o) (h : (s.mr o).getLsbD i ≠ b) (hl : s.linkUp = true) :
    (s.setReady o i b).fab.posted = s.fab.posted ++ [{ dev := 8, job := 64, addr := 63, bytes := [], launch := 0 }] := by
  have hl' : (s.mrBit o i b).linkUp = true := by rw [mrBit_eq_setBitTo, linkUp_setMr s _ ho, hl]
  simp only [State.setReady, if_neg h, State.postMsix, hl', if_true]
  rfl

theorem clearReady_movesRegsFab (s : State) (die : Nat) : s.MovesRegsFab (s.clearReady die) := by
  unfold State.clearReady
  dsimp only
  split
  · exact (State.MovesRegs.refl s).regsFab
  · exact (setMr_movesRegs (s.setMr offRDYSTAT _) offRDYMEM _).regsFab.trans (postMsix_movesRegsFab _ _ _ _ _)

/-- The registers after a die's readiness bits have gone: its bits are masked out, and every other register stays. -/
theorem mr_clearReady (s : State) (die : Nat) (o : Nat) : (s.clearReady die).mr o =
    if o = offRDYMEM then s.mr offRDYMEM &&& ~~~(0xFF#64 <<< (8 * die))
    else if o = offRDYSTAT then s.mr offRDYSTAT &&& ~~~((1#64 <<< (2 + die)) ||| (0xF#64 <<< (12 + 4 * die))) else s.mr o := by
  unfold State.clearReady
  dsimp only
  split
  · rename_i h
    obtain ⟨hstat, hmem⟩ : _ ∧ _ := by simpa only [Bool.and_eq_true, decide_eq_true_eq] using h
    split
    · rename_i ho; rw [ho, hmem]
    · split
      · rename_i ho; rw [ho, hstat]
      · rfl
  · rw [mr_congr (postMsix_mreg _ _ _ _ _)]
    split
    · rename_i ho; rw [ho, mr_setMr_same]
    · rename_i ho
      rw [mr_setMr_of_ne _ _ ho]
      split
      · rename_i ho'; rw [ho', mr_setMr_same]
      · rename_i ho'; rw [mr_setMr_of_ne _ _ ho']

theorem clearReady_die_bit (s : State) {die : Nat} (h : die < 8) : ((s.clearReady die).mr offRDYSTAT).getLsbD (2 + die) = false := by
  have hne : offRDYSTAT ≠ offRDYMEM := by decide
  have hbit : (s.mr offRDYSTAT &&& ~~~(1#64 <<< (2 + die))).getLsbD (2 + die) = false :=
    getLsbD_clear_field _ 1#64 (i := 0) (by omega) (by decide)
  rw [mr_clearReady, if_neg hne, if_pos rfl, BitVec.not_or, ← BitVec.and_assoc, BitVec.getLsbD_and, hbit, Bool.false_and]

theorem clearReady_mem_bits (s : State) {die i : Nat} (h : die < 8) (hi : i < 8) :
    ((s.clearReady die).mr offRDYMEM).getLsbD (8 * die + i) = false := by
  have hmask : ∀ i, i < 8 → (0xFF#64).getLsbD i = true := by decide
  rw [mr_clearReady, if_pos rfl, getLsbD_clear_field _ _ (by omega) (hmask i hi)]

end Sys2Proof.Machine
end

section
/-! SUPPORT. FUNCTION_READY, MEASUREMENT_EXTEND, FIRMWARE_BOOT and BUDGET_CONTROL (spec/34 R455, R456, R459-R461). -/

namespace Sys2Proof.Machine

/-! ## The arms -/

theorem exec_computeDieReset (die : Nat) (contents : List (Nat × Byte)) (s : State) :
    exec (.computeDieReset die contents) s = execComputeDieReset die contents s := rfl
theorem exec_functionReady (mem : Bool) (i : Nat) (up : Bool) (s : State) :
    exec (.functionReady mem i up) s = execFunctionReady mem i up s := rfl
theorem exec_firmwareBoot (image : List Byte) (signed : List Byte × List Byte) (ns : Word) (s : State) :
    exec (.firmwareBoot image signed ns) s = execFirmwareBoot image signed ns s := rfl
theorem exec_measurementExtend (slot : Nat) (object : List Byte) (s : State) :
    exec (.measurementExtend slot object) s = execMeasurementExtend slot object s := rfl
theorem exec_budgetControl (die : Nat) (pwr : BitVec 32) (temp : BitVec 16) (budget : BitVec 32) (s : State) :
    exec (.budgetControl die pwr temp budget) s = execBudgetControl die pwr temp budget s := rfl

/-! ## FUNCTION_READY -/

/-- The readiness register that FUNCTION_READY changes a bit of. -/
def readyReg (mem : Bool) : Nat := if mem then offRDYMEM else offRDYSTAT
/-- It is a bit that FUNCTION_READY changes. -/
def readyKnown (mem : Bool) (i : Nat) : Bool := if mem then decide (i < 64) else 2 ≤ i && i < 44
/-- The die that a readiness bit belongs to is dead. -/
def State.readyDead (s : State) (mem : Bool) (i : Nat) : Bool := match readyDie mem i with | some d => (s.die d).dead | none => false
/-- The state whose bit changes: with the firmware routines of the engine that becomes ready (R351). -/
def State.routinesFor (s : State) (mem : Bool) (i : Nat) (up : Bool) : State :=
  match readyEngine mem i with | some k => if up then s.firmwareEntries k else s | none => s

/-- FUNCTION_READY by its condition: the bit is one it changes, and it does not come up on a dead die. -/
theorem execFunctionReady_eq (mem : Bool) (i : Nat) (up : Bool) (s : State) : execFunctionReady mem i up s =
    .next (if readyKnown mem i && !(up && s.readyDead mem i) then (s.routinesFor mem i up).setReady (readyReg mem) i up else s) := by
  have hknown : decide (if mem = true then i < 64 else (decide (2 ≤ i) && decide (i < 44)) = true) = readyKnown mem i := by
    cases mem <;> simp [readyKnown]
  rw [← hknown]
  rfl

theorem readyKnown_iff (mem : Bool) (i : Nat) : readyKnown mem i = true ↔ if mem then i < 64 else 2 ≤ i ∧ i < 44 := by
  cases mem <;> simp [readyKnown]

theorem readyDead_iff (s : State) (mem : Bool) (i : Nat) :
    s.readyDead mem i = true ↔ ∃ d, readyDie mem i = some d ∧ (s.die d).dead = true := by
  unfold State.readyDead
  cases readyDie mem i <;> simp

theorem lt_64_of_readyKnown {mem : Bool} {i : Nat} (h : readyKnown mem i = true) : i < 64 := by
  rw [readyKnown_iff] at h
  split at h <;> omega

theorem firmwareEntries_movesRegs (s : State) (k : Nat) : s.MovesRegs (s.firmwareEntries k) := foldl_setMr_movesRegs _ _ _ s

/-- Routine tables stand above the hub's first registers. -/
theorem le_offDXRT (k e : Nat) : 0x800 ≤ offDXRT k e := by
  unfold offDXRT offDie
  split <;> omega

theorem mr_firmwareEntries (s : State) (k : Nat) {o : Nat} (ho : o < 0x800) : (s.firmwareEntries k).mr o = s.mr o :=
  mr_foldl_setMr_of_ne _ _ (fun i _ => Nat.ne_of_lt (Nat.lt_of_lt_of_le ho (le_offDXRT k i))) s

theorem routinesFor_cases (s : State) (mem : Bool) (i : Nat) (up : Bool) :
    s.routinesFor mem i up = s ∨ ∃ k, s.routinesFor mem i up = s.firmwareEntries k := by
  unfold State.routinesFor
  split
  · split
    · exact .inr ⟨_, rfl⟩
    · exact .inl rfl
  · exact .inl rfl

theorem routinesFor_movesRegs (s : State) (mem : Bool) (i : Nat) (up : Bool) : s.MovesRegs (s.routinesFor mem i up) := by
  obtain h | ⟨k, h⟩ := routinesFor_cases s mem i up <;> rw [h]
  · exact .refl s
  · exact firmwareEntries_movesRegs s k

theorem mr_routinesFor (s : State) (mem : Bool) (i : Nat) (up : Bool) {o : Nat} (ho : o < 0x800) :
    (s.routinesFor mem i up).mr o = s.mr o := by
  obtain h | ⟨k, h⟩ := routinesFor_cases s mem i up <;> rw [h]
  exact mr_firmwareEntries s k ho

theorem readyReg_lt (mem : Bool) : readyReg mem < 0x800 := by cases mem <;> decide
theorem offHLSTAT_ne_readyReg (mem : Bool) : offHLSTAT ≠ readyReg mem := by cases mem <;> decide

theorem functionReady_changes {mem : Bool} {i : Nat} {up : Bool} {s : State} (hk : readyKnown mem i = true)
    (h : up = false ∨ s.readyDead mem i = false) : ∃ t, exec (.functionReady mem i up) s = .next t
      ∧ (t.mr (readyReg mem)).getLsbD i = up ∧ (∀ j, j ≠ i → (t.mr (readyReg mem)).getLsbD j = (s.mr (readyReg mem)).getLsbD j)
      ∧ s.MovesRegsFab t
      ∧ ((s.mr (readyReg mem)).getLsbD i ≠ up → s.linkUp = true → t.fab.posted = s.fab.posted ++
        [{ dev := 8, job := 64, addr := 63, bytes := [], launch := 0 }]) := by
  have hcond : (readyKnown mem i && !(up && s.readyDead mem i)) = true := by
    obtain h | h := h <;> simp [hk, h]
  have hmr := mr_routinesFor s mem i up (readyReg_lt mem)
  have hmoves := routinesFor_movesRegs s mem i up
  rw [exec_functionReady, execFunctionReady_eq, if_pos hcond]
  refine ⟨_, rfl, ?_, fun j hj => ?_, hmoves.regsFab.trans (setReady_movesRegsFab _ _ _ _), fun hne hl => ?_⟩
  · rw [getLsbD_setReady _ _ (lt_64_of_readyKnown hk), if_pos rfl]
  · rw [getLsbD_setReady _ _ (lt_64_of_readyKnown hk), if_neg hj, hmr]
  · have hup : (s.routinesFor mem i up).linkUp = true := by
      rw [State.linkUp, mr_routinesFor s mem i up (by decide)]; exact hl
    have hfab := hmoves.keeps (p := State.fab) fun _ _ => rfl
    rw [setReady_posted _ (offHLSTAT_ne_readyReg mem) (hmr ▸ hne) hup, hfab]

theorem functionReady_ignored {mem : Bool} {i : Nat} {up : Bool} {s : State}
    (h : readyKnown mem i = false ∨ up = true ∧ s.readyDead mem i = true) : exec (.functionReady mem i up) s = .next s := by
  have hcond : ¬(readyKnown mem i && !(up && s.readyDead mem i)) = true := by
    obtain h | ⟨hup, hd⟩ := h <;> simp [*]
  rw [exec_functionReady, execFunctionReady_eq, if_neg hcond]

/-! ## Measurement (R460) -/

/-- A measurement slot is extended with an object from s to t: MEASSEQ counts, and M becomes SHAKE256(M, SHAKE256(object)). -/
def State.Extended (s t : State) (slot : Nat) (object : List Byte) : Prop := t.mr offMEASSEQ = s.mr offMEASSEQ + 1
  ∧ let m := (List.range 8).flatMap fun i => leBytes (s.mrN (offMEAS slot i)) 8
    ∀ i, i < 8 → t.mrN (offMEAS slot i) = leVal (((shake256 (m ++ shake256 object)).drop (8 * i)).take 8)

theorem State.Extended.congr {s s' t t' : State} {slot : Nat} {object : List Byte} (h : s.Extended t slot object)
    (hs : s'.mreg = s.mreg) (ht : ∀ o, offMEASSEQ ≤ o → t'.mr o = t.mr o) : s'.Extended t' slot object := by
  obtain ⟨hseq, hwords⟩ := h
  refine ⟨by rw [ht _ (Nat.le_refl _), hseq, mr_congr hs], fun i hi => ?_⟩
  have hoff : offMEASSEQ ≤ offMEAS slot i := by unfold offMEASSEQ offMEAS; omega
  rw [State.mrN, ht _ hoff]
  simpa only [State.mrN, mr_congr hs] using hwords i hi

theorem offMEAS_injective (slot : Nat) : Function.Injective (offMEAS slot) := by
  intro i j h
  unfold offMEAS at h
  omega

theorem offMEAS_ne_offMEASSEQ (slot i : Nat) : offMEAS slot i ≠ offMEASSEQ := by unfold offMEAS offMEASSEQ; omega

/-- Eight bytes are a register's value. -/
theorem toNat_leVal_take_8 (bs : List Byte) : (BitVec.ofNat 64 (leVal (bs.take 8))).toNat = leVal (bs.take 8) := by
  rw [BitVec.toNat_ofNat, Nat.mod_eq_of_lt]
  exact Nat.lt_of_lt_of_le (leVal_lt _) (Nat.pow_le_pow_right (by decide) (by rw [List.length_take]; omega))

theorem measureObject_movesRegs (s : State) (slot : Nat) (object : List Byte) : s.MovesRegs (s.measureObject slot object) :=
  (foldl_setMr_movesRegs (offMEAS slot) _ _ s).trans (setMr_movesRegs _ _ _)

theorem measureObject_extended (s : State) (slot : Nat) (object : List Byte) : s.Extended (s.measureObject slot object) slot object := by
  refine ⟨?_, fun i hi => ?_⟩
  · rw [State.measureObject, mr_setMr_same, mr_foldl_setMr_of_ne _ _ fun i _ => (offMEAS_ne_offMEASSEQ slot i).symm]
  · rw [State.mrN, State.measureObject, mr_setMr_of_ne _ _ (offMEAS_ne_offMEASSEQ slot i),
      mr_foldl_setMr_of_mem (offMEAS_injective slot) _ (List.mem_range.2 hi), toNat_leVal_take_8]

theorem mr_measureObject_of_ne (s : State) {slot : Nat} (object : List Byte) {o : Nat} (hseq : o ≠ offMEASSEQ)
    (h : ∀ i, i < 8 → o ≠ offMEAS slot i) : (s.measureObject slot object).mr o = s.mr o := by
  rw [State.measureObject, mr_setMr_of_ne _ _ hseq, mr_foldl_setMr_of_ne _ _ fun i hi => h i (List.mem_range.1 hi)]

theorem measurementExtend_extends {slot : Nat} (object : List Byte) (s : State) (h : slot = 1 ∨ slot = 2) :
    exec (.measurementExtend slot object) s = .next (s.measureObject slot object) := by
  rw [exec_measurementExtend, execMeasurementExtend, if_pos (by simpa using h)]

theorem measurementExtend_ignored {slot : Nat} (object : List Byte) (s : State) (h1 : slot ≠ 1) (h2 : slot ≠ 2) :
    exec (.measurementExtend slot object) s = .next s := by
  rw [exec_measurementExtend, execMeasurementExtend, if_neg (by simp [h1, h2])]

/-! ## FIRMWARE_BOOT (R426, R459, R460) -/

/-- The reference counter set now reads what it was set to. -/
theorem thyme_of_set_now (s : State) (h : s.hub.thymeAt = s.now) : s.thyme = s.hub.thyme := by
  simp [State.thyme, h]

/-- What booted firmware leaves: FWSTAT 0, slot 0 measured, its readiness bit set, the counter at ns, groups and memory as they were. -/
def State.Booted (image : List Byte) (ns : Word) (s t : State) : Prop :=
  t.mr offFWSTAT = 0 ∧ s.Extended t 0 image ∧ (t.mr offRDYSTAT).getLsbD 1 = true ∧ t.thyme = ns ∧ t.g = s.g ∧ t.rest = s.rest
    ∧ t.mem = s.mem

theorem booted_setReady (image : List Byte) (ns : Word) (s : State) : s.Booted image ns
    (((({ s with hub := { s.hub with thyme := ns, thymeAt := s.now } } : State).measureObject 0 image).setMr offFWSTAT 0).setReady
      offRDYSTAT 1 true) := by
  generalize hu : ({ s with hub := { s.hub with thyme := ns, thymeAt := s.now } } : State) = u
  have hregs : s.mreg = u.mreg := by rw [← hu]
  have hmoves : u.MovesRegsFab (((u.measureObject 0 image).setMr offFWSTAT 0).setReady offRDYSTAT 1 true) :=
    ((measureObject_movesRegs u 0 image).trans (setMr_movesRegs _ _ _)).regsFab.trans (setReady_movesRegsFab _ _ _ _)
  have hkept : ∀ {o}, offMEASSEQ ≤ o →
      (((u.measureObject 0 image).setMr offFWSTAT 0).setReady offRDYSTAT 1 true).mr o = (u.measureObject 0 image).mr o := by
    intro o ho
    rw [mr_setReady_of_ne _ _ _ (by unfold offMEASSEQ at ho; unfold offRDYSTAT; omega),
      mr_setMr_of_ne _ _ (by unfold offMEASSEQ at ho; unfold offFWSTAT; omega)]
  refine ⟨?_, (measureObject_extended u 0 image).congr hregs fun o => hkept, ?_, ?_, ?_, ?_, ?_⟩
  · rw [mr_setReady_of_ne _ _ _ (by decide), mr_setMr_same]
  · rw [getLsbD_setReady _ _ (by decide), if_pos rfl]
  · rw [hmoves.keeps (p := State.thyme) fun _ _ _ => rfl, thyme_of_set_now u (by rw [← hu]), ← hu]
  · rw [hmoves.keeps (p := State.g) fun _ _ _ => rfl, ← hu]
  · rw [hmoves.keeps (p := State.rest) fun _ _ _ => rfl, ← hu]
  · rw [hmoves.keeps (p := State.mem) fun _ _ _ => rfl, ← hu]

theorem firmwareBoot_once (image : List Byte) (signed : List Byte × List Byte) (ns : Word) {s : State}
    (h : (s.mr offRDYSTAT).getLsbD 1 = true) : exec (.firmwareBoot image signed ns) s = .next s := by
  rw [exec_firmwareBoot, execFirmwareBoot, if_pos h]

/-- The ROM's chain of checks: the signature, then the version. -/
theorem firmwareBoot_checks (image key sig : List Byte) (ns : Word) {s : State} (h : (s.mr offRDYSTAT).getLsbD 1 = false) :
    ∃ t, exec (.firmwareBoot image (key, sig) ns) s = .next t ∧
      if signatureOk image key sig = false then t = s.setMr offFWSTAT 1
      else if Config.imageVersion image < Config.fusedVersion then t = s.setMr offFWSTAT 2
      else s.Booted image ns t := by
  rw [exec_firmwareBoot, execFirmwareBoot, if_neg (by rw [h]; decide)]
  cases hsig : signatureOk image key sig with
  | false => exact ⟨_, rfl, rfl⟩
  | true =>
    simp only [Bool.not_true, Bool.false_eq_true, Bool.true_eq_false, if_false]
    split
    · exact ⟨_, rfl, rfl⟩
    · exact ⟨_, rfl, booted_setReady image ns s⟩

/-! ## BUDGET_CONTROL (R461) -/

theorem offPWRSTAT_ne_offLVBUD (die : Nat) : offPWRSTAT die ≠ offLVBUD die := by unfold offPWRSTAT offLVBUD offDie; omega

theorem budgetControl_sets {die : Nat} (h : die < 8) (pwr : BitVec 32) (temp : BitVec 16) (budget : BitVec 32) (s : State) :
    exec (.budgetControl die pwr temp budget) s = .next ((s.setMr (offPWRSTAT die) (temp ++ 0#16 ++ pwr)).setMr (offLVBUD die)
      (if 880 ≤ temp.toInt then 0 else budget.setWidth 64)) := by
  rw [exec_budgetControl, execBudgetControl, if_neg (by omega)]

theorem budgetControl_ignored {die : Nat} (h : 8 ≤ die) (pwr : BitVec 32) (temp : BitVec 16) (budget : BitVec 32) (s : State) :
    exec (.budgetControl die pwr temp budget) s = .next s := by
  rw [exec_budgetControl, execBudgetControl, if_pos h]

/-- The budget register's value as a number. -/
theorem toNat_budget (temp : BitVec 16) (budget : BitVec 32) :
    (if 880 ≤ temp.toInt then (0 : Word) else budget.setWidth 64).toNat = if 880 ≤ temp.toInt then 0 else budget.toNat := by
  split
  · rfl
  · exact BitVec.toNat_setWidth_of_le (by decide)

end Sys2Proof.Machine
end

section
/-! SUPPORT. COMPUTE_DIE_RESET (spec/01 R12, spec/29 R406, spec/30 R427, R434, spec/34 R456). -/

namespace Sys2Proof.Machine

/-! ## Memory: a die's bytes go, and its memory then holds given contents -/

/-- Entries left out by their keys alone leave the other keys' entries. -/
theorem kget_filter_key {α : Type} (t : Table α) (p : Nat → Bool) {k : Nat} (h : p k = true) :
    kget (t.filter fun e => p e.1) k = kget t k := by
  induction t with
  | nil => rfl
  | cons e t ih =>
    obtain ⟨j, v⟩ := e
    rw [List.filter_cons]
    by_cases hj : j = k
    · subst hj; simp [h, kget]
    · split <;> simp [kget, hj, ih]

/-- The contents of a die's memory after its reset, on what the memories hold besides. -/
def loadContents (die : Nat) (contents : List (Nat × Byte)) (m : Bytes) : Bytes :=
  contents.foldl (fun (m : Bytes) (c : Nat × Byte) => if c.1 < 2 ^ 35 then bset m (memKey die c.1) c.2 else m) m

theorem dieOfKey_memKey {die p : Nat} (hp : p < 2 ^ 35) : dieOfKey (memKey die p) = die := by
  unfold dieOfKey memKey
  omega

theorem memKey_injective {die p q : Nat} (h : memKey die p = memKey die q) : p = q := Nat.add_left_cancel h

theorem bget_loadContents_of_other {die k : Nat} (hk : dieOfKey k ≠ die) (contents : List (Nat × Byte)) (m : Bytes) :
    bget (loadContents die contents m) k = bget m k := by
  refine foldl_keeps (fun m' => bget m' k = bget m k) _ (fun m' c hm => ?_) contents rfl
  split
  · rename_i hc
    rw [bget_bset_of_ne _ _ fun e => hk ((congrArg dieOfKey e).trans (dieOfKey_memKey hc)), hm]
  · exact hm

/-- A byte that every entry of the contents agrees with stays. -/
theorem bget_loadContents_of_agrees {die p : Nat} {b : Byte} {contents : List (Nat × Byte)} (h : ∀ x ∈ contents, x.1 = p → x.2 = b)
    {m : Bytes} (hm : bget m (memKey die p) = b) : bget (loadContents die contents m) (memKey die p) = b := by
  induction contents generalizing m with
  | nil => exact hm
  | cons x l ih =>
    refine ih (fun y hy => h y (List.mem_cons_of_mem _ hy)) ?_
    dsimp only
    split
    · by_cases hx : x.1 = p
      · rw [hx, bget_bset_self]; exact h x List.mem_cons_self hx
      · rw [bget_bset_of_ne _ _ fun e => hx (memKey_injective e).symm, hm]
    · exact hm

theorem bget_loadContents_of_mem {die : Nat} {c : Nat × Byte} {contents : List (Nat × Byte)} (hc : c ∈ contents) (hp : c.1 < 2 ^ 35)
    (h : ∀ x ∈ contents, x.1 = c.1 → x.2 = c.2) (m : Bytes) : bget (loadContents die contents m) (memKey die c.1) = c.2 := by
  induction contents generalizing m with
  | nil => cases hc
  | cons x l ih =>
    have hl : ∀ y ∈ l, y.1 = c.1 → y.2 = c.2 := fun y hy => h y (List.mem_cons_of_mem _ hy)
    obtain rfl | hcl := List.mem_cons.1 hc
    · refine bget_loadContents_of_agrees hl ?_
      dsimp only
      rw [if_pos hp, bget_bset_self]
    · exact ih hcl hl _

/-! ## Joining moves nothing but the dies, and none of them dies -/

theorem refreshJoined_moves (s : State) :
    s.refreshJoined = { s with dies := s.refreshJoined.dies } ∧ ∀ d, (s.refreshJoined.die d).dead = (s.die d).dead := by
  refine foldl_keeps (fun t : State => t = { s with dies := t.dies } ∧ ∀ d, (t.die d).dead = (s.die d).dead) _
    (fun t k ht => ?_) _ ⟨rfl, fun _ => rfl⟩
  obtain ⟨heq, hdead⟩ := ht
  dsimp only
  split
  · exact ⟨heq, hdead⟩
  · refine ⟨by rw [State.modDie, heq], fun d => Eq.trans ?_ (hdead d)⟩
    by_cases hd : d = k
    · simp [State.die, State.modDie, hd]
    · simp [State.die, State.modDie, kget_kset_of_ne _ _ hd]

/-! ## What the reset leaves -/

/-- The worlds that a die's blocks are loaded with: those written (R457). -/
def State.loadedWorlds (s : State) (die : Nat) : BitVec 15 := (List.range 15).foldl (fun w i =>
  setBitTo w i (s.worldWritten (if i = 0 then die else if i < 5 then 10 + 4 * die + (i - 1) else 42 + 10 * die + (i - 5)))) 0

theorem loadedWorlds_die (s : State) (die : Nat) : (s.loadedWorlds die).getLsbD 0 = s.worldWritten die := by
  rw [State.loadedWorlds, getLsbD_foldl_setBitTo _ fun i hi => List.mem_range.1 hi]
  rfl

/-- A device whose handles of a die's objects are invalid (R406). -/
def Dev.loseDie (d : Dev) (die : Nat) : Dev := { d with
  handles := d.handles.map fun (h : Nat × Handle) => if h.2.exporter = die then (h.1, { h.2 with valid := false }) else h }

theorem loseDie_invalid {d : Dev} {die : Nat} {h : Nat × Handle} (hh : h ∈ (d.loseDie die).handles) (he : h.2.exporter = die) :
    h.2.valid = false := by
  obtain ⟨h', -, rfl⟩ := List.mem_map.1 hh
  split at he
  · simp [*]
  · contradiction

/-- What the reset of a die makes of a state, before the die's readiness bits go: the parts that the statements name. -/
structure State.DieCleared (die : Nat) (contents : List (Nat × Byte)) (s t : State) : Prop where
  g : t.g = if s.g.die = die then {} else s.g
  rest : t.rest = s.rest.filter fun g => decide (g.die ≠ die)
  teams : t.teams = s.teams.filter fun e => decide (e.2.die ≠ die)
  tasks : t.tasks = s.tasks.filter fun e => decide (e.2.die ≠ die)
  cores : t.cores = s.cores.filter fun e => decide (e.1 / 64 ≠ die)
  dills : t.dills = s.dills.filter fun e => decide (e.1 / 4 ≠ die)
  dies : ∃ ds, t.dies = kset ds die { resetAt := s.now, world := s.loadedWorlds die }
  cache : t.cache = (s.resetCaches die).cache
  mem : t.mem = loadContents die contents (s.mem.filter fun e => !decide (dieOfKey e.1 = die))
  devs : (s.die die).dead = true → t.devs = s.devs.map fun (e : Nat × Dev) => (e.1, e.2.loseDie die)
  mreg : t.mreg = kset (kset (kset s.mreg (offTCWSTAT die) 0) (offTCWCNT die) 0) (offPWRSTAT die) 0

/-- A branch that changes the devices alone. -/
theorem ite_devs (c : Prop) [Decidable c] (s : State) (d : Table Dev) :
    (if c then { s with devs := d } else s) = { s with devs := if c then d else s.devs } := by split <;> rfl

theorem computeDieReset_clears {die : Nat} (hdie : die < 8) (contents : List (Nat × Byte)) (s : State) :
    ∃ u, exec (.computeDieReset die contents) s = .next (u.clearReady die) ∧ s.DieCleared die contents u := by
  have hdead := (refreshJoined_moves s).2 die
  obtain ⟨ds, hds⟩ : ∃ ds, s.refreshJoined = { s with dies := ds } := ⟨_, (refreshJoined_moves s).1⟩
  rw [hds] at hdead
  generalize hx : exec (.computeDieReset die contents) s = x
  rw [exec_computeDieReset, execComputeDieReset, if_neg (by omega), hds] at hx
  extract_lets joined dead far mine gone worlds hub cleared lost written at hx
  have hlost : lost = { cleared with devs := if dead then cleared.devs.map fun e => (e.1, e.2.loseDie die) else cleared.devs } :=
    ite_devs _ cleared _
  have hwritten : written = { cleared with devs := lost.devs, mreg := written.mreg } := by
    have hregs : lost.MovesRegs written :=
      ((setMr_movesRegs lost _ _).trans (setMr_movesRegs _ _ _)).trans (setMr_movesRegs _ _ _)
    rw [State.MovesRegs, hlost] at hregs
    rw [hregs, hlost]
  have hmreg : written.mreg = kset (kset (kset lost.mreg (offTCWSTAT die) 0) (offTCWCNT die) 0) (offPWRSTAT die) 0 := rfl
  clear_value written
  subst hx
  exact ⟨written, rfl, {
    g := (congrArg State.g hwritten).trans rfl
    rest := (congrArg State.rest hwritten).trans rfl
    teams := (congrArg State.teams hwritten).trans rfl
    tasks := (congrArg State.tasks hwritten).trans rfl
    cores := (congrArg State.cores hwritten).trans rfl
    dills := (congrArg State.dills hwritten).trans rfl
    dies := ⟨far.dies, (congrArg State.dies hwritten).trans rfl⟩
    cache := (congrArg State.cache hwritten).trans rfl
    mem := (congrArg State.mem hwritten).trans rfl
    devs := fun h => by rw [hwritten, hlost, if_pos (hdead.trans h)]; rfl
    mreg := by rw [hmreg, hlost]; rfl }⟩

end Sys2Proof.Machine
end

section
/-! SUPPORT. What a die's reset leaves, part by part, and the statement of the platform's events. -/

namespace Sys2Proof.Machine

variable {die : Nat} {contents : List (Nat × Byte)} {s u : State}

theorem State.DieCleared.die_eq (h : s.DieCleared die contents u) : u.die die = { resetAt := s.now, world := s.loadedWorlds die } := by
  obtain ⟨ds, hds⟩ := h.dies
  rw [State.die, hds, kget_kset_self, Option.getD_some]

theorem State.DieCleared.worldInForce_eq (h : s.DieCleared die contents u) (hdie : die < 8) :
    u.worldInForce die = s.worldWritten die := by
  rw [State.worldInForce, if_pos hdie, h.die_eq]
  exact loadedWorlds_die s die

/-- No line stays in the die's own caches. -/
theorem resetCaches_lines {e : Nat × CLine} (he : e ∈ (s.resetCaches die).cache.l2 ++ (s.resetCaches die).cache.llc) :
    e.1 / 2 ^ 32 ≠ die := by
  obtain he | he := List.mem_append.1 he
  all_goals
    have hkept := (List.mem_filter.1 he).2
    simp only [Bool.and_eq_true, decide_eq_true_eq] at hkept
    exact hkept.1

theorem State.DieCleared.bget_of_other (h : s.DieCleared die contents u) {k : Nat} (hk : dieOfKey k ≠ die) :
    bget u.mem k = bget s.mem k := by
  rw [h.mem, bget_loadContents_of_other hk, bget, kget_filter_key s.mem (fun j => !decide (dieOfKey j = die)) (by simp [hk]), ← bget]

theorem State.DieCleared.bget_of_contents (h : s.DieCleared die contents u) {c : Nat × Byte} (hc : c ∈ contents) (hp : c.1 < 2 ^ 35)
    (hagree : ∀ x ∈ contents, x.1 = c.1 → x.2 = c.2) : bget u.mem (memKey die c.1) = c.2 := by
  rw [h.mem, bget_loadContents_of_mem hc hp hagree]

theorem State.DieCleared.handle_invalid (h : s.DieCleared die contents u) (hdead : (s.die die).dead = true) {e : Nat × Dev}
    (he : e ∈ u.devs) {x : Nat × Handle} (hx : x ∈ e.2.handles) (hd : x.2.exporter = die) : x.2.valid = false := by
  rw [h.devs hdead] at he
  obtain ⟨e', -, rfl⟩ := List.mem_map.1 he
  exact loseDie_invalid hx hd

/-- The die's counts of stamped stores read 0. -/
theorem State.DieCleared.mr_counts (h : s.DieCleared die contents u) : u.mr (offTCWSTAT die) = 0 ∧ u.mr (offTCWCNT die) = 0 := by
  have hmr := mr_congr (s := ((s.setMr (offTCWSTAT die) 0).setMr (offTCWCNT die) 0).setMr (offPWRSTAT die) 0) h.mreg
  have hsc : offTCWSTAT die ≠ offTCWCNT die := by unfold offTCWSTAT offTCWCNT offDie; omega
  have hsp : offTCWSTAT die ≠ offPWRSTAT die := by unfold offTCWSTAT offPWRSTAT offDie; omega
  have hcp : offTCWCNT die ≠ offPWRSTAT die := by unfold offTCWCNT offPWRSTAT offDie; omega
  rw [hmr, hmr, mr_setMr_of_ne _ _ hsp, mr_setMr_of_ne _ _ hsc, mr_setMr_same, mr_setMr_of_ne _ _ hcp, mr_setMr_same]
  exact ⟨rfl, rfl⟩

/-- What is left out by a number of its own is not there. -/
theorem ne_of_mem_left_out {α : Type} {f : α → Nat} {l l' : List α} (h : l' = l.filter fun e => decide (f e ≠ die)) :
    ∀ e ∈ l', f e ≠ die := by
  intro e he
  rw [h] at he
  exact of_decide_eq_true (List.mem_filter.1 he).2

/-- A die's registers are not the readiness registers. -/
theorem mr_clearReady_offDie (s : State) (die d r : Nat) : (s.clearReady die).mr (offDie d r) = s.mr (offDie d r) := by
  rw [mr_clearReady, if_neg (by unfold offDie offRDYMEM; omega), if_neg (by unfold offDie offRDYSTAT; omega)]

/-- R12, R406, R426, R434 and R456: what COMPUTE_DIE_RESET leaves. -/
theorem computeDieReset_leaves (hdie : die < 8) (contents : List (Nat × Byte)) (s : State) :
    ∃ t, exec (.computeDieReset die contents) s = .next t
      ∧ (if s.g.die = die then t.g = {} else t.g = s.g) ∧ t.rest = s.rest.filter (fun g => decide (g.die ≠ die))
      ∧ (∀ e ∈ t.teams, e.2.die ≠ die) ∧ (∀ e ∈ t.tasks, e.2.die ≠ die) ∧ (∀ e ∈ t.cores, e.1 / 64 ≠ die) ∧ (∀ e ∈ t.dills, e.1 / 4 ≠ die)
      ∧ (t.die die).resetAt = s.now ∧ (t.die die).dead = false ∧ (t.die die).e = 0 ∧ (t.die die).l = BitVec.allOnes 64
      ∧ (∀ e ∈ t.cache.l2 ++ t.cache.llc, e.1 / 2 ^ 32 ≠ die)
      ∧ (t.die die).tlb = [] ∧ (t.die die).locks = [] ∧ t.worldInForce die = s.worldWritten die
      ∧ (∀ k, dieOfKey k ≠ die → bget t.mem k = bget s.mem k)
      ∧ (∀ c ∈ contents, c.1 < 2 ^ 35 → (∀ x ∈ contents, x.1 = c.1 → x.2 = c.2) → bget t.mem (memKey die c.1) = c.2)
      ∧ t.mrN (offTCWSTAT die) = 0 ∧ t.mrN (offTCWCNT die) = 0 ∧ (t.mr offRDYSTAT).getLsbD (2 + die) = false
      ∧ (∀ i, i < 8 → (t.mr offRDYMEM).getLsbD (8 * die + i) = false)
      ∧ ((s.die die).dead = true → ∀ e ∈ t.devs, ∀ h ∈ e.2.handles, h.2.exporter = die → h.2.valid = false) := by
  obtain ⟨u, hexec, h⟩ := computeDieReset_clears hdie contents s
  have hmoves := clearReady_movesRegsFab u die
  have hd : (u.clearReady die).die die = { resetAt := s.now, world := s.loadedWorlds die } :=
    (hmoves.keeps (p := fun t => t.die die) fun _ _ _ => rfl).trans h.die_eq
  have hrest := (hmoves.keeps (p := State.rest) fun _ _ _ => rfl).trans h.rest
  have hteams := (hmoves.keeps (p := State.teams) fun _ _ _ => rfl).trans h.teams
  have htasks := (hmoves.keeps (p := State.tasks) fun _ _ _ => rfl).trans h.tasks
  have hcores := (hmoves.keeps (p := State.cores) fun _ _ _ => rfl).trans h.cores
  have hdills := (hmoves.keeps (p := State.dills) fun _ _ _ => rfl).trans h.dills
  have hcache := (hmoves.keeps (p := State.cache) fun _ _ _ => rfl).trans h.cache
  have hworld := (hmoves.keeps (p := fun t => t.worldInForce die) fun _ _ _ => rfl).trans (h.worldInForce_eq hdie)
  have hmem := hmoves.keeps (p := State.mem) fun _ _ _ => rfl
  have hdevs := hmoves.keeps (p := State.devs) fun _ _ _ => rfl
  obtain ⟨hstat, hcnt⟩ := h.mr_counts
  refine ⟨_, hexec, ?_, hrest, ne_of_mem_left_out hteams, ne_of_mem_left_out htasks, ne_of_mem_left_out hcores,
    ne_of_mem_left_out hdills, congrArg Die.resetAt hd, congrArg Die.dead hd, congrArg Die.e hd, congrArg Die.l hd,
    fun e he => resetCaches_lines (hcache ▸ he), congrArg Die.tlb hd, congrArg Die.locks hd, hworld,
    fun k hk => hmem ▸ h.bget_of_other hk, fun c hc hp hx => hmem ▸ h.bget_of_contents hc hp hx, ?_, ?_,
    clearReady_die_bit u hdie, fun i hi => clearReady_mem_bits u hdie hi,
    fun hdead e he x hx => h.handle_invalid hdead (hdevs ▸ he) hx⟩
  · rw [hmoves.keeps (p := State.g) fun _ _ _ => rfl, h.g]
    split
    · rfl
    · rfl
  · rw [State.mrN, offTCWSTAT, mr_clearReady_offDie, ← offTCWSTAT, hstat]; rfl
  · rw [State.mrN, offTCWCNT, mr_clearReady_offDie, ← offTCWCNT, hcnt]; rfl

theorem computeDieReset_ignored (hdie : 8 ≤ die) (contents : List (Nat × Byte)) (s : State) :
    exec (.computeDieReset die contents) s = .next s := by rw [exec_computeDieReset, execComputeDieReset, if_pos hdie]

/-- Settles O59: each event of the platform by the lemma that says what it leaves, and by the one that says when it does nothing. -/
theorem platform : Obligations.Platform := by
  unfold Obligations.Platform
  refine ⟨fun s die contents _ => ⟨fun h => computeDieReset_ignored h contents s, fun h => computeDieReset_leaves h contents s⟩, ?_,
    ⟨?_, ?_⟩, ?_⟩
  · intro s mem i up off known dead
    have hknown : known ↔ readyKnown mem i = true := (readyKnown_iff mem i).symm
    have hdead : dead ↔ s.readyDead mem i = true := (readyDead_iff s mem i).symm
    rw [hknown, hdead, Bool.not_eq_true, Bool.not_eq_true]
    exact ⟨functionReady_changes, functionReady_ignored⟩
  · exact fun s image key sig ns => ⟨firmwareBoot_once image (key, sig) ns, firmwareBoot_checks image key sig ns⟩
  · intro s slot object
    exact ⟨fun h => ⟨_, measurementExtend_extends object s h, measureObject_movesRegs s slot object,
      measureObject_extended s slot object, fun o => mr_measureObject_of_ne s object⟩, measurementExtend_ignored object s⟩
  · intro s die pwr budget temp
    refine ⟨fun h => ⟨_, budgetControl_sets h pwr temp budget s, (setMr_movesRegs s _ _).trans (setMr_movesRegs _ _ _), ?_, ?_,
      fun o hpwr hbud => ?_⟩, fun h => budgetControl_ignored h pwr temp budget s⟩
    · rw [mr_setMr_of_ne _ _ (offPWRSTAT_ne_offLVBUD die), mr_setMr_same]
    · rw [State.mrN, mr_setMr_same, toNat_budget]
    · rw [mr_setMr_of_ne _ _ hbud, mr_setMr_of_ne _ _ hpwr]

end Sys2Proof.Machine
end
